-- ==== Sys2Proof/Word.lean ====
section
/-!
DEFINITION. The word types of the FYJ-40 and their plainest arithmetic.
A register's contents, an address while it is computed and a field of an encoding are bit vectors (R3, R4).
-/

namespace Sys2Proof

/-- A byte (R4). -/
abbrev Byte := BitVec 8
/-- A doubleword: a scalar register, a CSR, an address while it is computed (R4, R84). -/
abbrev Word := BitVec 64
/-- One vector register: 8 rows of 1,024 bits, row r at bits [1024r + 1023 : 1024r] (R147). -/
abbrev VReg := BitVec 8192
/-- A register number in a 5-bit field (R84). -/
abbrev Reg := BitVec 5

/-- The sign extension of a field to a doubleword. -/
abbrev sext {n : Nat} (x : BitVec n) : Word := x.signExtend 64
/-- The zero extension of a field to a doubleword. -/
abbrev zext {n : Nat} (x : BitVec n) : Word := x.setWidth 64

/-- All ones. -/
abbrev allOnes : Word := BitVec.allOnes 64

end Sys2Proof
end

