-- ==== Sys2Proof/Config.lean ====
section
/-!
DEFINITION. What is fixed for the machine: the figures of Table 0.1 and Table 9.2, and the FREE VALUES, which the manual
leaves open.  A free value is a constant with no body: a theorem that mentions one holds whatever it is.
-/

namespace Sys2Proof.Config

/-- Enabled cores of a device (Table 0.1). -/
def numCores : Nat := 128
/-- Hands of a core (R44). -/
def handsPerCore : Nat := 16
/-- Hands of a device (R44). -/
def numHands : Nat := 2048
/-- Steward cores (chapter 0). -/
def numStewards : Nat := 4
/-- Units of 4 KiB in a core's scratchpad (Table 0.1). -/
def spadUnits : Nat := 256
/-- Rows of a core's accumulator store (R253). -/
def accRows : Nat := 6144
/-- The scratchpad window's first VA (Table 9.1). -/
def spadBase : Nat := 0xF00000000000
/-- The scratchpad's size in bytes. -/
def spadSize : Nat := 0x100000
/-- DRAM bytes of a device (Table 9.2). -/
def dramSize : Nat := 0x8000000000
/-- The host window's first PA (R212). -/
def hostBase : Nat := 0x40000000000
/-- The first PA after the host window. -/
def hostEnd : Nat := 0x80000000000
/-- The device register pages' first PA (Table 9.2). -/
def regBase : Nat := 0x80000000000
/-- The first PA after the device register pages. -/
def regEnd : Nat := 0x80001000000
/-- Domain node ids are 0 to 2303 (R214). -/
def maxNode : Nat := 2303
/-- The domain node id of this device (Table 4.17 `node`): one device of the domain. -/
def node : Nat := 0
/-- L2 slices, and so token-bucket ports (R209, R223). -/
def slices : Nat := 64
/-- Core groups (R351 names g = 0-16). -/
def coreGroups : Nat := 17
/-- Capacity of the hand TLB of a core (R218). -/
def tlbEntries : Nat := 2048
/-- Lines of each hand cache of a core: 64 KiB of 64 bytes (Table 0.1). -/
def cacheLines : Nat := 1024
/-- Re-reads of a slot header (R28). -/
def maxRereads : Nat := 64
/-- Ticks between re-reads (R28). -/
def rereadTicks : Nat := 256
/-- Migration hold limit in reference ticks (R217). -/
def holdTicks : Nat := 200000
/-- The default remote timeout (Table 15.11). -/
def remoteTicks : Nat := 200000
/-- Heartbeat limit in reference ticks (R351). -/
def heartTicks : Nat := 100000

/-- FREE VALUE: a number the manual leaves open, one for each value of the counter `State.choice`
(log 21): the order of unordered elements and chunks, the bracketing of an unordered sum, which of two
allowed results an access gives. -/
opaque freeNat : Nat → Nat

/-- FREE VALUE: reference ticks that pass in a step of the machine (R5, log 6). -/
opaque freeTicks : Nat → Nat

/-- FREE VALUE: further scalar cycles a step of the machine takes (R5, log 6). -/
opaque freeCycles : Nat → Nat

/-- FREE VALUE: the function under a device secret that computes a frame's check word (R319, log 10). -/
opaque checkWord : List Byte → Word

/-- FREE VALUE: the secret start of a chain of a one-time key of the device's XMSS key (R345, log 17). -/
opaque xmssSecret : Nat → Nat → List Byte

/-- FREE VALUE: the secret of the XMSS key from which randomizers come (R345, log 17). -/
opaque xmssPrf : List Byte

/-- FREE VALUE: the public seed of the XMSS key (R345, log 17). -/
opaque xmssSeed : List Byte

/-- FREE VALUE: the ROM version, the steward firmware version and the device fuse identity (Table 20.2). -/
opaque identityBytes : List Byte

/-- FREE VALUE: what a device register returns whose contents the manual does not give (telemetry, identity). -/
opaque freeRegister : Nat → Word

end Sys2Proof.Config
end

