-- ==== Sys2Proof/Syntax.lean ====
section
/-!
DEFINITION. The steps of the FYJ-40: one constructor of `Instr` for each row of spec/opcode_table.json.
The encoded rows carry the fields of their formats (Tables 3.7, 4.2-4.14, 4.21).  The rows without an encoding are the
part's own steps (95_what_each_step_holds.md): their operands say which unit steps and carry what comes from outside the
device (data of a completion, a measured power, a message of another node).
-/

namespace Sys2Proof

/-! ## The reeve's RISC-V instructions (R45) -/

/-- Two-operand integer operations of RV64IM, Zba and Zbb. -/
inductive RvAlu where
  | add | sub | sll | slt | sltu | xor | srl | sra | or | and
  | addw | subw | sllw | srlw | sraw
  | mul | mulh | mulhsu | mulhu | div | divu | rem | remu
  | mulw | divw | divuw | remw | remuw
  | addUw | sh1add | sh2add | sh3add | sh1addUw | sh2addUw | sh3addUw | slliUw
  | andn | orn | xnor | max | maxu | min | minu | rol | ror | rolw | rorw
  deriving DecidableEq, Repr

/-- One-operand operations of Zbb. -/
inductive RvUnary where
  | clz | ctz | cpop | clzw | ctzw | cpopw | sextB | sextH | zextH | orcB | rev8
  deriving DecidableEq, Repr

/-- Branch conditions. -/
inductive RvCond where
  | beq | bne | blt | bge | bltu | bgeu
  deriving DecidableEq, Repr

/-- Load widths: bytes and sign. -/
inductive RvLoad where
  | lb | lh | lw | ld | lbu | lhu | lwu
  deriving DecidableEq, Repr

/-- Read-modify-write operations: of the A extension, of the hand's AMO forms (Table 4.16) and of the vector atomics (R240).
`maxn`, `minn` are unsigned; `cas` writes only on a match.  `complete` is the step of `end` on a completion word (R339): the
flags of the operand are ORed into [24:16] and the count [63:32] goes up by 1. -/
inductive AmoOp where
  | swap | add | and | or | xor | max | min | maxn | minn | cas | complete
  deriving DecidableEq, Repr

/-- CSR access kinds of Zicsr. -/
inductive RvCsrOp where
  | rw | rs | rc
  deriving DecidableEq, Repr

/-- RV64IMAC with Zicsr, Zifencei, Zba and Zbb, and the privileged instructions.  A compressed instruction is the
instruction it expands to.  `illegal` is every word that no instruction owns. -/
inductive RvInstr where
  | lui (rd : Reg) (imm : Word)
  | auipc (rd : Reg) (imm : Word)
  | jal (rd : Reg) (off : Word)
  | jalr (rd rs1 : Reg) (imm : Word)
  | branch (c : RvCond) (rs1 rs2 : Reg) (off : Word)
  | load (k : RvLoad) (rd rs1 : Reg) (imm : Word)
  | store (bytes : Nat) (rs2 rs1 : Reg) (imm : Word)
  | op (o : RvAlu) (rd rs1 rs2 : Reg)
  | opImm (o : RvAlu) (rd rs1 : Reg) (imm : Word)
  | unary (o : RvUnary) (rd rs1 : Reg)
  | fence (pred succ : BitVec 4) (tso : Bool)
  | fenceI
  | ecall
  | ebreak
  | csr (k : RvCsrOp) (rd src : Reg) (useImm : Bool) (num : BitVec 12)
  | lr (w : Bool) (aq rl : Bool) (rd rs1 : Reg)
  | sc (w : Bool) (aq rl : Bool) (rd rs1 rs2 : Reg)
  | amo (o : AmoOp) (w : Bool) (aq rl : Bool) (rd rs1 rs2 : Reg)
  | mret
  | sret
  | wfi
  | sfenceVma (rs1 rs2 : Reg)
  | illegal
  deriving DecidableEq, Repr

/-! ## Operands of the steps without an encoding -/

/-- A master of Table 17.6 that a violation freezes (R330). -/
inductive Master where
  | hand (h : Nat)
  | engine (h : Nat)
  | reeve (c : Nat)
  | remotePort (node part : Nat)
  | hostFn (q : Nat)
  deriving DecidableEq, Repr

/-- Who wrote a kick (R28): any master of Table 17.6 that reaches the register; `host` is the host function of the queue. -/
inductive Producer where
  | hand (h : Nat)
  | engine (h : Nat)
  | reeve (c : Nat)
  | remote (node part : Nat)
  | host
  deriving DecidableEq, Repr

/-- Device and steward registers that no row of their own writes (R6, R24). -/
inductive RegName where
  | pcoreLo (p : Nat) | pcoreHi (p : Nat) | pquant (p : Nat) | psave (p : Nat) | psaven (p : Nat) | pchild (p : Nat)
  | proot (p : Nat) | prto (p : Nat) | pmem (p i : Nat) | pdead (p i : Nat) | phwin (p : Nat)
  | pviol (p : Nat) | pmanb (p : Nat) | pmans (p : Nat)
  | qbase (q : Nat) | qhead (q : Nat)
  | bucket (port p : Nat) | commons (port : Nat)
  | window (p i dw : Nat)
  | rckcfg (c : Nat) | foul (c : Nat)
  | gpwr (g : Nat) | ggain (g : Nat) | glim (g : Nat)
  | route (n : Nat) | actCap
  /-- BAR2's size of a host function: n for 2^(20 + n) bytes (R309, R310). -/
  | barSize (fn : Nat)
  /-- A word of the steward mailbox, as the steward writes it (Table 15.13). -/
  | mailbox (i : Nat)
  deriving DecidableEq, Repr

/-- What a request to another agent's memory does there (R305, R225). -/
inductive MemOp where
  | read
  | write
  | amo (o : AmoOp)
  /-- The load of `vgl`, which reserves the granule at its home (R245). -/
  | reserve
  /-- The write of `vsc`, performed if the source's reservation still stands (R246). -/
  | condWrite
  /-- The read of a misaligned access, each byte of which is an event of its own (R276). -/
  | readBytes
  /-- The write of one (R276). -/
  | writeBytes
  deriving DecidableEq, Repr

/-- A request that crosses the fabric: byte i of the access is at `pas[i]` of the target node (R304-R306). -/
structure Request where
  src  : Nat
  tag  : Nat
  part : Nat
  op   : MemOp
  pas  : List Nat
  nc   : Bool
  val  : List Byte
  cmp  : List Byte
  /-- Bytes of one element of an atomic that serves several elements (R241); 0 where it serves one. -/
  size : Nat := 0
  deriving DecidableEq, Repr

/-- An input of a whistle tree node: elements and the bitmap of the member slots folded into it (R293). -/
structure WInput where
  elems  : List Word
  bitmap : BitVec 4096
  det    : Bool
  deriving DecidableEq, Repr

/-- Which delivery of an instance (R296). -/
inductive WKind where
  | partialRes
  | final
  | lost
  deriving DecidableEq, Repr

/-- A delivery of the root to a member slot (R296-R298). -/
structure WDelivery where
  kind      : WKind
  elems     : List Word
  bitmap    : BitVec 4096
  late      : Bool
  malformed : Bool
  deriving DecidableEq, Repr

/-- A member slot (Table 15.2). -/
structure Member where
  leaf : Nat
  node : Nat
  deriving DecidableEq, Repr

/-- A tree entry (Table 15.3). -/
structure TreeEntry where
  parent   : Nat
  level    : Nat
  children : Nat
  host     : Nat
  deriving DecidableEq, Repr

/-- A registered group (R289, R290). -/
structure Group where
  id        : Nat
  part      : Nat
  op        : Nat
  type_     : Nat
  retention : Nat
  budgets   : List Nat
  members   : List Member
  tree      : List TreeEntry
  deriving DecidableEq, Repr

/-- A message of the domain fabric (R304). -/
inductive FabMsg where
  | request (r : Request)
  /-- `poison`: a byte read was poisoned (R226). -/
  | reply (tag : Nat) (ok poison : Bool) (data : List Byte)
  | winput (group entry port n : Nat) (x : WInput)
  | drop (group n : Nat)
  | malformed (group n : Nat)
  | deliver (group slot n : Nat) (d : WDelivery)
  /-- The steward of `node` asks for an invalidation, under the number `call` of its call (R221). -/
  | invalidate (node call part first pages : Nat)
  /-- It asks for a copy of a group, then for its opening to contributions (R289). -/
  | groupCopy (node call : Nat) (g : Group)
  | groupOpen (node call part id : Nat)
  /-- It asks which instances of a group are in flight, the root to end them lost, and for the group's end (R289, R296). -/
  | groupEnd (node call part id : Nat)
  | groupLose (node call part id : Nat) (ns : List Nat)
  | groupDrop (node call part id : Nat)
  /-- Node `node` has done what a call asked: 0, or the outcome 2 or 3 of Table 15.1; and the instances in flight there. -/
  | stewardAck (node call code : Nat) (ns : List Nat)
  /-- A member's steward marks a node dead (R308). -/
  | memberDead (part node : Nat)
  /-- Node `node` has refused a request of the partition and reports it (R306). -/
  | refusal (node part : Nat)
  deriving DecidableEq, Repr

/-- A unit of the patrol scrub (R353) or of other architectural state that may hold an uncorrectable error (R325). -/
inductive ScrubUnit where
  /-- 32 bytes of DRAM by half number. -/
  | dram (half : Nat)
  /-- 32 bytes of a core's scratchpad. -/
  | spad (core half : Nat)
  /-- A row of a core's accumulator store. -/
  | acc (core row : Nat)
  /-- 32 bytes of a hand's vector registers. -/
  | vreg (hand k : Nat)
  /-- 32 bytes of a hand's B latch, mantissas then exponents. -/
  | latch (hand k : Nat)
  /-- A line of a core's hand data cache, and a block of its hand instruction cache. -/
  | dline (core line : Nat)
  | iblock (core key : Nat)
  deriving DecidableEq, Repr

/-- A request of the JTAG debug module to a reeve (R45). -/
inductive DebugReq where
  | halt
  | resume
  | readGpr (n : Reg)
  | writeGpr (n : Reg) (v : Word)
  /-- A CSR, the debug CSRs dcsr, dpc and dscratch among them. -/
  | readCsr (n : BitVec 12)
  | writeCsr (n : BitVec 12) (v : Word)
  /-- 1, 2, 4 or 8 bytes at a physical address. -/
  | readMem (a : Word) (size : BitVec 2)
  | writeMem (a : Word) (size : BitVec 2) (v : Word)
  deriving DecidableEq, Repr

/-! ## The steps -/

/-- One step of the FYJ-40: every row of spec/opcode_table.json, in the table's order. -/
inductive Instr where
  | registerWrite (r : RegName) (v : Word)
  | qctlWrite (q : Nat) (v : Word)
  | qkickWrite (p : Producer) (q : Nat) (v : Word)
  | qstatClearStopped (q : Nat)
  | slotHeaderRead (q : Nat)
  | slotHeaderReread (q : Nat)
  | placeFarm (p : Nat)
  | quantumExpiry (p : Nat)
  | preemptSave (f : Nat)
  | farmResume (f : Nat)
  | setDone (f : Nat)
  | farmKill (f : Nat)
  | rexitWrite (c : Nat) (v : Word)
  | holdSafePoint (h : Nat)
  | heldEntry (h : Nat)
  | stopTakesEffect (h : Nat)
  | abandonOff (h : Nat)
  | waitConditionMet (h : Nat)
  | yieldExpiry (h : Nat)
  | blockFetchArrival (h : Nat)
  | nextBufferFill (h : Nat)
  | kwaitComplete (c : Nat)
  | rename (c : Nat)
  | microOpIssue (c : Nat)
  | microOpStarved (c : Nat)
  | rowWritten (c k : Nat)
  | retire (h : Nat)
  | returnQueueWrite (h : Nat)
  | branchQueueOutcome (h : Nat)
  | scalarStorePerform (h : Nat)
  | elementPerform (h : Nat)
  | migrationRewalk (h : Nat)
  | migrationHoldTimeout (h : Nat)
  | domainInvalidate (c : Nat)
  | invalidateAckTimeout (c : Nat)
  | tokenRefill
  | consumedReset
  | tokenGrant (p : Nat)
  | readRequest (ch : Nat)
  | writeRequest (ch : Nat)
  | readReply (ch k : Nat)
  | writeReply (ch k : Nat)
  | hostCasCompletion (t : Nat) (ok : Bool) (old : Word)
  | copyChunkComplete (h k c : Nat)
  | vwaitReread (h : Nat)
  | vwaitTimeout (h : Nat)
  | wfinReread (h : Nat)
  | wfinTimeout (h : Nat)
  | groupCreate (c : Nat)
  | groupDestroy (c : Nat)
  | whistleInput (k : Nat)
  | whistleBlow (g e n : Nat)
  | retentionExpiry (g e n : Nat)
  | dropNotice (k : Nat)
  | delivery (k : Nat)
  | deliveryKeepExpiry (g sl n : Nat)
  | instanceAccept (g e : Nat)
  | flitReceive (p : Nat) (crc : Bool) (m : FabMsg)
  | remoteRequest (k : Nat)
  | remoteReply (k : Nat)
  | remoteTimeout (t : Nat) (done : Bool)
  | hostRequest (fn : Nat) (wr : Bool) (off : Nat) (v : Word)
  | bar2Access (fn : Nat) (wr : Bool) (off n : Nat) (v : Word)
  | preciseFaultPark (h : Nat)
  | impreciseFaultPark (h : Nat)
  | replay (h : Nat)
  | recheckMismatch (h u1 u2 : Nat)
  | recheckResolve (h : Nat) (agree : Option Bool)
  | foulWindowReset (c u : Nat)
  | foulBenchClear (c : Nat) (v : Word)
  | coreMigrate (c phys : Nat)
  | violation (m : Master) (code : Nat) (detail : Word)
  | attestation (c : Nat)
  | controllerUpdate (g power : Nat)
  | powerClamp (watts : Nat)
  | thermalThrottle (g temp : Nat)
  | thermalShutdown (temp : Nat)
  | gheartWrite (g : Nat) (v : Word)
  | fallbackEntry (g : Nat)
  | dramRefresh (st temp : Nat)
  | derate (p d : Nat)
  | scrub (u : ScrubUnit) (unc : Bool)
  | calibration (ch : Nat)
  | deviceReset
  | bootStage (ok : Bool)
  | partitionLoad (p pa n : Nat)
  | endCompletionAdd (h : Nat)
  | kbc (d a b : Reg)
  | kgo (d a b : Reg)
  | kstop (d a b : Reg)
  | kwait (d a b : Reg)
  | kstat (d a b : Reg)
  | kread (d a b : Reg)
  | kwrite (d a b : Reg)
  | kframe (d a b : Reg)
  | krest (d a b : Reg)
  | klaunch (d a b : Reg)
  | kquiet (d a b : Reg)
  | kevt (d a b : Reg)
  | add (d a b : Reg)
  | sub (d a b : Reg)
  | and (d a b : Reg)
  | or (d a b : Reg)
  | xor (d a b : Reg)
  | sll (d a b : Reg)
  | srl (d a b : Reg)
  | sra (d a b : Reg)
  | slt (d a b : Reg)
  | sltn (d a b : Reg)
  | mul (d a b : Reg)
  | mulh (d a b : Reg)
  | mulhn (d a b : Reg)
  | div (d a b : Reg)
  | divn (d a b : Reg)
  | rem (d a b : Reg)
  | remn (d a b : Reg)
  | min (d a b : Reg)
  | max (d a b : Reg)
  | minn (d a b : Reg)
  | maxn (d a b : Reg)
  | clz (d a : Reg)
  | ctz (d a : Reg)
  | popc (d a : Reg)
  | addi (d a : Reg) (im : BitVec 11)
  | andi (d a : Reg) (im : BitVec 11)
  | ori (d a : Reg) (im : BitVec 11)
  | xori (d a : Reg) (im : BitVec 11)
  | slti (d a : Reg) (im : BitVec 11)
  | slli (d a : Reg) (im : BitVec 6)
  | srli (d a : Reg) (im : BitVec 6)
  | srai (d a : Reg) (im : BitVec 6)
  | lim (d : Reg) (im : BitVec 19)
  | lsh (d : Reg) (im : BitVec 19)
  | ldB (d a : Reg) (im : BitVec 11)
  | ldH (d a : Reg) (im : BitVec 11)
  | ldW (d a : Reg) (im : BitVec 11)
  | ldD (d a : Reg) (im : BitVec 11)
  | ldBn (d a : Reg) (im : BitVec 11)
  | ldHn (d a : Reg) (im : BitVec 11)
  | ldWn (d a : Reg) (im : BitVec 11)
  | stB (b a : Reg) (im : BitVec 11)
  | stH (b a : Reg) (im : BitVec 11)
  | stW (b a : Reg) (im : BitVec 11)
  | stD (b a : Reg) (im : BitVec 11)
  | amoSwap (d a b : Reg) (q : BitVec 3) (w : BitVec 1)
  | amoAdd (d a b : Reg) (q : BitVec 3) (w : BitVec 1)
  | amoAnd (d a b : Reg) (q : BitVec 3) (w : BitVec 1)
  | amoOr (d a b : Reg) (q : BitVec 3) (w : BitVec 1)
  | amoXor (d a b : Reg) (q : BitVec 3) (w : BitVec 1)
  | amoMax (d a b : Reg) (q : BitVec 3) (w : BitVec 1)
  | amoMin (d a b : Reg) (q : BitVec 3) (w : BitVec 1)
  | amoMaxn (d a b : Reg) (q : BitVec 3) (w : BitVec 1)
  | amoMinn (d a b : Reg) (q : BitVec 3) (w : BitVec 1)
  | amoCas (d a b : Reg) (q : BitVec 3) (w : BitVec 1)
  | ldAcq (d a : Reg) (q : BitVec 3) (w : BitVec 1)
  | stRel (a b : Reg) (q : BitVec 3) (w : BitVec 1)
  | beq (a b : Reg) (o : BitVec 11)
  | bne (a b : Reg) (o : BitVec 11)
  | blt (a b : Reg) (o : BitVec 11)
  | bge (a b : Reg) (o : BitVec 11)
  | bltn (a b : Reg) (o : BitVec 11)
  | bgen (a b : Reg) (o : BitVec 11)
  | bbs (a b : Reg) (o : BitVec 11)
  | bbc (a b : Reg) (o : BitVec 11)
  | jal (d : Reg) (o : BitVec 19)
  | jalr (d a : Reg) (im : BitVec 11)
  | csrr (d : Reg) (c : BitVec 12)
  | csrw (d a : Reg) (c : BitVec 12)
  | csrs (d a : Reg) (c : BitVec 12)
  | csrc (d a : Reg) (c : BitVec 12)
  | vtype (d a : Reg)
  | setvl (d a : Reg)
  | setrc (d a : Reg)
  | setvt (d a : Reg)
  | setvn (d a : Reg)
  | fenceSv
  | fenceVs
  | fenceAcq (q : BitVec 3)
  | fenceRel (q : BitVec 3)
  | fenceAr (q : BitVec 3)
  | lnkPut (a : Reg) (q : BitVec 3)
  | lnkGet (d : Reg) (q : BitVec 3)
  | sig (a : Reg)
  | bar
  | fbar
  | claim (d : Reg)
  | wfe (d : Reg)
  | endHand
  | stop
  | go (a : Reg)
  | bfetch (a : Reg)
  | ecall
  | ebreak
  | yield
  | hint (im : BitVec 24)
  | vaddVv (d a b : Reg) (m f : BitVec 3)
  | vaddVs (d a b : Reg) (m f : BitVec 3)
  | vaddVi (d a : Reg) (im : BitVec 5) (m f : BitVec 3)
  | vsubVv (d a b : Reg) (m f : BitVec 3)
  | vsubVs (d a b : Reg) (m f : BitVec 3)
  | vrsubVs (d a b : Reg) (m f : BitVec 3)
  | vrsubVi (d a : Reg) (im : BitVec 5) (m f : BitVec 3)
  | vneg (d a : Reg) (m f : BitVec 3)
  | vmulVv (d a b : Reg) (m f : BitVec 3)
  | vmulVs (d a b : Reg) (m f : BitVec 3)
  | vmulhVv (d a b : Reg) (m f : BitVec 3)
  | vmulhVs (d a b : Reg) (m f : BitVec 3)
  | vmulhnVv (d a b : Reg) (m f : BitVec 3)
  | vmulhnVs (d a b : Reg) (m f : BitVec 3)
  | vdivVv (d a b : Reg) (m f : BitVec 3)
  | vdivVs (d a b : Reg) (m f : BitVec 3)
  | vremVv (d a b : Reg) (m f : BitVec 3)
  | vremVs (d a b : Reg) (m f : BitVec 3)
  | vminVv (d a b : Reg) (m f : BitVec 3)
  | vminVs (d a b : Reg) (m f : BitVec 3)
  | vmaxVv (d a b : Reg) (m f : BitVec 3)
  | vmaxVs (d a b : Reg) (m f : BitVec 3)
  | vabs (d a : Reg) (m f : BitVec 3)
  | vsaddVv (d a b : Reg) (m f : BitVec 3)
  | vandVv (d a b : Reg) (m f : BitVec 3)
  | vandVs (d a b : Reg) (m f : BitVec 3)
  | vorVv (d a b : Reg) (m f : BitVec 3)
  | vorVs (d a b : Reg) (m f : BitVec 3)
  | vxorVv (d a b : Reg) (m f : BitVec 3)
  | vxorVs (d a b : Reg) (m f : BitVec 3)
  | vnot (d a : Reg) (m f : BitVec 3)
  | vssubVv (d a b : Reg) (m f : BitVec 3)
  | vsllVv (d a b : Reg) (m f : BitVec 3)
  | vsllVs (d a b : Reg) (m f : BitVec 3)
  | vsllVi (d a : Reg) (im : BitVec 5) (m f : BitVec 3)
  | vsrlVv (d a b : Reg) (m f : BitVec 3)
  | vsrlVs (d a b : Reg) (m f : BitVec 3)
  | vsrlVi (d a : Reg) (im : BitVec 5) (m f : BitVec 3)
  | vsraVv (d a b : Reg) (m f : BitVec 3)
  | vsraVi (d a : Reg) (im : BitVec 5) (m f : BitVec 3)
  | vfmaVv (d a b : Reg) (m f : BitVec 3)
  | vfmaVs (d a b : Reg) (m f : BitVec 3)
  | vfmsVv (d a b : Reg) (m f : BitVec 3)
  | vfmsVs (d a b : Reg) (m f : BitVec 3)
  | vfnmaVv (d a b : Reg) (m f : BitVec 3)
  | vfnmaVs (d a b : Reg) (m f : BitVec 3)
  | vfnmsVv (d a b : Reg) (m f : BitVec 3)
  | vfnmsVs (d a b : Reg) (m f : BitVec 3)
  | vceqVv (d a b : Reg) (m f : BitVec 3)
  | vceqVs (d a b : Reg) (m f : BitVec 3)
  | vcneVv (d a b : Reg) (m f : BitVec 3)
  | vcltVv (d a b : Reg) (m f : BitVec 3)
  | vcltVs (d a b : Reg) (m f : BitVec 3)
  | vcleVv (d a b : Reg) (m f : BitVec 3)
  | vcleVs (d a b : Reg) (m f : BitVec 3)
  | vcgtVs (d a b : Reg) (m f : BitVec 3)
  | vsel (d a b : Reg) (m : BitVec 3)
  | vmand (d a b : Reg)
  | vmor (d a b : Reg)
  | vmxor (d a b : Reg)
  | vmandn (d a b : Reg)
  | vmnot (d a : Reg)
  | vmpopc (d a : Reg) (m : BitVec 3)
  | vmfirst (d a : Reg) (m : BitVec 3)
  | vmvVv (d a : Reg) (m : BitVec 3)
  | vbcVs (d b : Reg) (m : BitVec 3)
  | vbcVi (d : Reg) (im : BitVec 5) (m : BitVec 3)
  | vmvSv (d a b : Reg)
  | vmvVs (d b : Reg)
  | vclass (d a : Reg) (m f : BitVec 3)
  | viota (d a : Reg) (m : BitVec 3)
  | vidx (d : Reg) (m : BitVec 3)
  | vcvt (d a : Reg) (m f : BitVec 3)
  | vsqrt (d a : Reg) (m f : BitVec 3)
  | vrcp (d a : Reg) (m f : BitVec 3)
  | vrsqrt (d a : Reg) (m f : BitVec 3)
  | vexp2 (d a : Reg) (m f : BitVec 3)
  | vlog2 (d a : Reg) (m f : BitVec 3)
  | vtanh (d a : Reg) (m f : BitVec 3)
  | vround (d a : Reg) (m f : BitVec 3)
  | vredsumO (d a b : Reg) (m f : BitVec 3)
  | vredsumT (d a b : Reg) (m f : BitVec 3)
  | vredsumU (d a b : Reg) (m f : BitVec 3)
  | vredmaxT (d a b : Reg) (m f : BitVec 3)
  | vredminT (d a b : Reg) (m f : BitVec 3)
  | vredandT (d a b : Reg) (m f : BitVec 3)
  | vredorT (d a b : Reg) (m f : BitVec 3)
  | vredxorT (d a b : Reg) (m f : BitVec 3)
  | vscanAdd (d a b : Reg) (m f : BitVec 3)
  | vscanAddx (d a b : Reg) (m f : BitVec 3)
  | vscanMax (d a b : Reg) (m f : BitVec 3)
  | vscanMin (d a b : Reg) (m f : BitVec 3)
  | vscanAddU (d a b : Reg) (m f : BitVec 3)
  | vrowred (d a : Reg) (m f : BitVec 3)
  | vscaleVs (d a b : Reg) (m f : BitVec 3)
  | vcomp (d a : Reg) (m : BitVec 3)
  | vexpand (d a : Reg) (m : BitVec 3)
  | vperm (d a b : Reg) (m : BitVec 3)
  | vrev (d a : Reg) (m : BitVec 3)
  | vrotVs (d a b : Reg) (m : BitVec 3)
  | vbcaste (d a b : Reg) (m : BitVec 3)
  | vzip (d a b : Reg) (m : BitVec 3)
  | vunzip (d a : Reg) (m : BitVec 3)
  | vsort (d a : Reg) (m f : BitVec 3)
  | vsortd (d a : Reg) (m f : BitVec 3)
  | vsortkv (d a b : Reg) (m f : BitVec 3)
  | vtopk (d a b : Reg) (m f : BitVec 3)
  | vmerge (d a b : Reg) (m f : BitVec 3)
  | vmergeu (d a b : Reg) (m f : BitVec 3)
  | vrank (d a : Reg) (m f : BitVec 3)
  | bfPass (d a k : Reg) (m l q : BitVec 3)
  | bfLoad (a b : Reg) (q : BitVec 3)
  | bfClr (q : BitVec 3)
  | bfStat (d : Reg)
  | vld (d a : Reg) (m e : BitVec 3)
  | vlds (d a b : Reg) (m e : BitVec 3)
  | vldx (d a b : Reg) (m e : BitVec 3)
  | vldq (d b : Reg) (m e : BitVec 3)
  | vldr (d a b : Reg) (m e : BitVec 3)
  | vpf (a : Reg) (m e : BitVec 3)
  | vgl (d a b : Reg) (m e : BitVec 3)
  | vst (d a : Reg) (m e : BitVec 3)
  | vsts (d a b : Reg) (m e : BitVec 3)
  | vstx (d a b : Reg) (m e : BitVec 3)
  | vstxUn (d a b : Reg) (m e : BitVec 3)
  | vstq (d b : Reg) (m e : BitVec 3)
  | vstr (d a b : Reg) (m e : BitVec 3)
  | vsc (d a b : Reg) (m e : BitVec 3)
  | vamoAdd (d a b : Reg) (m e : BitVec 3)
  | vamoMin (d a b : Reg) (m e : BitVec 3)
  | vamoMax (d a b : Reg) (m e : BitVec 3)
  | vamoAnd (d a b : Reg) (m e : BitVec 3)
  | vamoOr (d a b : Reg) (m e : BitVec 3)
  | vamoXor (d a b : Reg) (m e : BitVec 3)
  | vamoSwap (d a b : Reg) (m e : BitVec 3)
  | vamoAddUn (d a b : Reg) (m e : BitVec 3)
  | vcopy (d a b : Reg) (m e : BitVec 3)
  | vwait (d a b : Reg) (m e : BitVec 3)
  | vamofAdd (d a b : Reg) (m e : BitVec 3)
  | vamofSwap (d a b : Reg) (m e : BitVec 3)
  | vqset (a b : Reg)
  | vqget (a b : Reg)
  | wred (d a b : Reg) (e : BitVec 3)
  | wfin (d a b : Reg)
  | wpoll (d a : Reg)
  | mma (sa : Reg) (im : BitVec 10) (rep : BitVec 4) (f : BitVec 3) (mode : BitVec 2) (a : Reg) (m : BitVec 3)
  | mlatch (b : Reg) (f : BitVec 3)
  | mzero (sa : Reg) (im : BitVec 10) (rep : BitVec 4)
  | mrd (d sa : Reg) (im : BitVec 10) (rep : BitVec 4) (f : BitVec 3)
  | mwr (sa : Reg) (im : BitVec 10) (rep : BitVec 4) (a : Reg) (f : BitVec 3)
  | mld (sa : Reg) (im : BitVec 10) (rep : BitVec 4) (b : Reg)
  | mst (sa : Reg) (im : BitVec 10) (rep : BitVec 4) (b : Reg)
  | cAdd (b : Reg)
  | cSub (b : Reg)
  | cAnd (b : Reg)
  | cOr (b : Reg)
  | cXor (b : Reg)
  | cAddi (b : Reg) (im : BitVec 6)
  | cSlli (im : BitVec 6)
  | cLd (b : Reg) (im : BitVec 6)
  | cSt (b : Reg) (im : BitVec 6)
  | cMv (b : Reg)
  | cBeqz (b : Reg) (im : BitVec 6)
  | cBnez (b : Reg) (im : BitVec 6)
  | cVadd (b : Reg)
  | cVmul (b : Reg)
  | cVfma (b c : Reg)
  | reeveInstruction (r : RvInstr) (short : Bool)
  | handDataCacheEviction (c line : Nat)
  | hostReadCompletion (t : Nat) (ok : Bool) (data : List Byte)
  | powerClampRelease
  | jtagDebugRequest (c : Nat) (q : DebugReq)
  deriving DecidableEq, Repr

end Sys2Proof
end

