-- ==== Sys2Proof/WellFormed.lean ====
section
/-!
DEFINITION. The checks of the opcode map on an instruction's codes (R84, R85, R87, R88, R95; the entries of the forms).
Only the range of a code is checked here; what a register holds is checked when the instruction is dispatched.
-/

namespace Sys2Proof

/-- A scope code: 0 hand to 4 system (R87). -/
def scopeOk (q : BitVec 3) : Bool := decide (q.toNat ≤ 4)
/-- An element width code: 0 to 3 (R87). -/
def widthOk (e : BitVec 3) : Bool := decide (e.toNat ≤ 3)
/-- A stream register: q0 to q7 (R84). -/
def streamOk (b : Reg) : Bool := decide (b.toNat ≤ 7)
/-- A hand CSR number: 0x000 to 0x016 (R88). -/
def csrOk (c : BitVec 12) : Bool := decide (c.toNat ≤ 0x016)
/-- A mask that must be given (R166, R227). -/
def maskGiven (m : BitVec 3) : Bool := decide (m.toNat ≠ 0)

/-- The codes of the instruction are in range.  The steps without an encoding have no codes. -/
def wellFormed : Instr → Bool
  | .registerWrite _ _ => true
  | .qctlWrite _ _ => true
  | .qkickWrite _ _ _ => true
  | .qstatClearStopped _ => true
  | .slotHeaderRead _ => true
  | .slotHeaderReread _ => true
  | .placeFarm _ => true
  | .quantumExpiry _ => true
  | .preemptSave _ => true
  | .farmResume _ => true
  | .setDone _ => true
  | .farmKill _ => true
  | .rexitWrite _ _ => true
  | .holdSafePoint _ => true
  | .heldEntry _ => true
  | .stopTakesEffect _ => true
  | .abandonOff _ => true
  | .waitConditionMet _ => true
  | .yieldExpiry _ => true
  | .blockFetchArrival _ => true
  | .nextBufferFill _ => true
  | .kwaitComplete _ => true
  | .rename _ => true
  | .microOpIssue _ => true
  | .microOpStarved _ => true
  | .rowWritten _ _ => true
  | .retire _ => true
  | .returnQueueWrite _ => true
  | .branchQueueOutcome _ => true
  | .scalarStorePerform _ => true
  | .elementPerform _ => true
  | .migrationRewalk _ => true
  | .migrationHoldTimeout _ => true
  | .domainInvalidate _ => true
  | .invalidateAckTimeout _ => true
  | .tokenRefill => true
  | .consumedReset => true
  | .tokenGrant _ => true
  | .readRequest _ => true
  | .writeRequest _ => true
  | .readReply _ _ => true
  | .writeReply _ _ => true
  | .hostCasCompletion _ _ _ => true
  | .copyChunkComplete _ _ _ => true
  | .vwaitReread _ => true
  | .vwaitTimeout _ => true
  | .wfinReread _ => true
  | .wfinTimeout _ => true
  | .groupCreate _ => true
  | .groupDestroy _ => true
  | .whistleInput _ => true
  | .whistleBlow _ _ _ => true
  | .retentionExpiry _ _ _ => true
  | .dropNotice _ => true
  | .delivery _ => true
  | .deliveryKeepExpiry _ _ _ => true
  | .instanceAccept _ _ => true
  | .flitReceive _ _ _ => true
  | .remoteRequest _ => true
  | .remoteReply _ => true
  | .remoteTimeout _ _ => true
  | .hostRequest _ _ _ _ => true
  | .bar2Access _ _ _ _ _ => true
  | .preciseFaultPark _ => true
  | .impreciseFaultPark _ => true
  | .replay _ => true
  | .recheckMismatch _ _ _ => true
  | .recheckResolve _ _ => true
  | .foulWindowReset _ _ => true
  | .foulBenchClear _ _ => true
  | .coreMigrate _ _ => true
  | .violation _ _ _ => true
  | .attestation _ => true
  | .controllerUpdate _ _ => true
  | .powerClamp _ => true
  | .thermalThrottle _ _ => true
  | .thermalShutdown _ => true
  | .gheartWrite _ _ => true
  | .fallbackEntry _ => true
  | .dramRefresh _ _ => true
  | .derate _ _ => true
  | .scrub _ _ => true
  | .calibration _ => true
  | .deviceReset => true
  | .bootStage _ => true
  | .partitionLoad _ _ _ => true
  | .endCompletionAdd _ => true
  | .kbc _ _ _ => true
  | .kgo _ _ _ => true
  | .kstop _ _ _ => true
  | .kwait _ _ _ => true
  | .kstat _ _ _ => true
  | .kread _ _ _ => true
  | .kwrite _ _ _ => true
  | .kframe _ _ _ => true
  | .krest _ _ _ => true
  | .klaunch _ _ _ => true
  | .kquiet _ _ _ => true
  | .kevt _ _ _ => true
  | .add _ _ _ => true
  | .sub _ _ _ => true
  | .and _ _ _ => true
  | .or _ _ _ => true
  | .xor _ _ _ => true
  | .sll _ _ _ => true
  | .srl _ _ _ => true
  | .sra _ _ _ => true
  | .slt _ _ _ => true
  | .sltn _ _ _ => true
  | .mul _ _ _ => true
  | .mulh _ _ _ => true
  | .mulhn _ _ _ => true
  | .div _ _ _ => true
  | .divn _ _ _ => true
  | .rem _ _ _ => true
  | .remn _ _ _ => true
  | .min _ _ _ => true
  | .max _ _ _ => true
  | .minn _ _ _ => true
  | .maxn _ _ _ => true
  | .clz _ _ => true
  | .ctz _ _ => true
  | .popc _ _ => true
  | .addi _ _ _ => true
  | .andi _ _ _ => true
  | .ori _ _ _ => true
  | .xori _ _ _ => true
  | .slti _ _ _ => true
  | .slli _ _ _ => true
  | .srli _ _ _ => true
  | .srai _ _ _ => true
  | .lim _ _ => true
  | .lsh _ _ => true
  | .ldB _ _ _ => true
  | .ldH _ _ _ => true
  | .ldW _ _ _ => true
  | .ldD _ _ _ => true
  | .ldBn _ _ _ => true
  | .ldHn _ _ _ => true
  | .ldWn _ _ _ => true
  | .stB _ _ _ => true
  | .stH _ _ _ => true
  | .stW _ _ _ => true
  | .stD _ _ _ => true
  | .amoSwap _ _ _ q _ => scopeOk q
  | .amoAdd _ _ _ q _ => scopeOk q
  | .amoAnd _ _ _ q _ => scopeOk q
  | .amoOr _ _ _ q _ => scopeOk q
  | .amoXor _ _ _ q _ => scopeOk q
  | .amoMax _ _ _ q _ => scopeOk q
  | .amoMin _ _ _ q _ => scopeOk q
  | .amoMaxn _ _ _ q _ => scopeOk q
  | .amoMinn _ _ _ q _ => scopeOk q
  | .amoCas _ _ _ q _ => scopeOk q
  | .ldAcq _ _ q _ => scopeOk q
  | .stRel _ _ q _ => scopeOk q
  | .beq _ _ _ => true
  | .bne _ _ _ => true
  | .blt _ _ _ => true
  | .bge _ _ _ => true
  | .bltn _ _ _ => true
  | .bgen _ _ _ => true
  | .bbs _ _ _ => true
  | .bbc _ _ _ => true
  | .jal _ _ => true
  | .jalr _ _ _ => true
  | .csrr _ c => csrOk c
  | .csrw _ _ c => csrOk c
  | .csrs _ _ c => csrOk c
  | .csrc _ _ c => csrOk c
  | .vtype _ _ => true
  | .setvl _ _ => true
  | .setrc _ _ => true
  | .setvt _ _ => true
  | .setvn _ _ => true
  | .fenceSv => true
  | .fenceVs => true
  | .fenceAcq q => scopeOk q
  | .fenceRel q => scopeOk q
  | .fenceAr q => scopeOk q
  | .lnkPut _ q => decide (q.toNat ≤ 1)
  | .lnkGet _ q => decide (q.toNat = 2 ∨ q.toNat = 3)
  | .sig _ => true
  | .bar => true
  | .fbar => true
  | .claim _ => true
  | .wfe _ => true
  | .endHand => true
  | .stop => true
  | .go _ => true
  | .bfetch _ => true
  | .ecall => true
  | .ebreak => true
  | .yield => true
  | .hint _ => true
  | .vaddVv _ _ _ _ _ => true
  | .vaddVs _ _ _ _ _ => true
  | .vaddVi _ _ _ _ _ => true
  | .vsubVv _ _ _ _ _ => true
  | .vsubVs _ _ _ _ _ => true
  | .vrsubVs _ _ _ _ _ => true
  | .vrsubVi _ _ _ _ _ => true
  | .vneg _ _ _ _ => true
  | .vmulVv _ _ _ _ _ => true
  | .vmulVs _ _ _ _ _ => true
  | .vmulhVv _ _ _ _ _ => true
  | .vmulhVs _ _ _ _ _ => true
  | .vmulhnVv _ _ _ _ _ => true
  | .vmulhnVs _ _ _ _ _ => true
  | .vdivVv _ _ _ _ _ => true
  | .vdivVs _ _ _ _ _ => true
  | .vremVv _ _ _ _ _ => true
  | .vremVs _ _ _ _ _ => true
  | .vminVv _ _ _ _ _ => true
  | .vminVs _ _ _ _ _ => true
  | .vmaxVv _ _ _ _ _ => true
  | .vmaxVs _ _ _ _ _ => true
  | .vabs _ _ _ _ => true
  | .vsaddVv _ _ _ _ _ => true
  | .vandVv _ _ _ _ _ => true
  | .vandVs _ _ _ _ _ => true
  | .vorVv _ _ _ _ _ => true
  | .vorVs _ _ _ _ _ => true
  | .vxorVv _ _ _ _ _ => true
  | .vxorVs _ _ _ _ _ => true
  | .vnot _ _ _ _ => true
  | .vssubVv _ _ _ _ _ => true
  | .vsllVv _ _ _ _ _ => true
  | .vsllVs _ _ _ _ _ => true
  | .vsllVi _ _ _ _ _ => true
  | .vsrlVv _ _ _ _ _ => true
  | .vsrlVs _ _ _ _ _ => true
  | .vsrlVi _ _ _ _ _ => true
  | .vsraVv _ _ _ _ _ => true
  | .vsraVi _ _ _ _ _ => true
  | .vfmaVv _ _ _ _ _ => true
  | .vfmaVs _ _ _ _ _ => true
  | .vfmsVv _ _ _ _ _ => true
  | .vfmsVs _ _ _ _ _ => true
  | .vfnmaVv _ _ _ _ _ => true
  | .vfnmaVs _ _ _ _ _ => true
  | .vfnmsVv _ _ _ _ _ => true
  | .vfnmsVs _ _ _ _ _ => true
  | .vceqVv _ _ _ _ _ => true
  | .vceqVs _ _ _ _ _ => true
  | .vcneVv _ _ _ _ _ => true
  | .vcltVv _ _ _ _ _ => true
  | .vcltVs _ _ _ _ _ => true
  | .vcleVv _ _ _ _ _ => true
  | .vcleVs _ _ _ _ _ => true
  | .vcgtVs _ _ _ _ _ => true
  | .vsel _ _ _ m => maskGiven m
  | .vmand _ _ _ => true
  | .vmor _ _ _ => true
  | .vmxor _ _ _ => true
  | .vmandn _ _ _ => true
  | .vmnot _ _ => true
  | .vmpopc _ _ _ => true
  | .vmfirst _ _ _ => true
  | .vmvVv _ _ _ => true
  | .vbcVs _ _ _ => true
  | .vbcVi _ _ _ => true
  | .vmvSv _ _ _ => true
  | .vmvVs _ _ => true
  | .vclass _ _ _ _ => true
  | .viota _ _ _ => true
  | .vidx _ _ => true
  | .vcvt _ _ _ _ => true
  | .vsqrt _ _ _ _ => true
  | .vrcp _ _ _ _ => true
  | .vrsqrt _ _ _ _ => true
  | .vexp2 _ _ _ _ => true
  | .vlog2 _ _ _ _ => true
  | .vtanh _ _ _ _ => true
  | .vround _ _ _ _ => true
  | .vredsumO _ _ _ _ _ => true
  | .vredsumT _ _ _ _ _ => true
  | .vredsumU _ _ _ _ _ => true
  | .vredmaxT _ _ _ _ _ => true
  | .vredminT _ _ _ _ _ => true
  | .vredandT _ _ _ _ _ => true
  | .vredorT _ _ _ _ _ => true
  | .vredxorT _ _ _ _ _ => true
  | .vscanAdd _ _ _ _ _ => true
  | .vscanAddx _ _ _ _ _ => true
  | .vscanMax _ _ _ _ _ => true
  | .vscanMin _ _ _ _ _ => true
  | .vscanAddU _ _ _ _ _ => true
  | .vrowred _ _ _ _ => true
  | .vscaleVs _ _ _ _ _ => true
  | .vcomp _ _ _ => true
  | .vexpand _ _ _ => true
  | .vperm _ _ _ _ => true
  | .vrev _ _ _ => true
  | .vrotVs _ _ _ _ => true
  | .vbcaste _ _ _ _ => true
  | .vzip _ _ _ _ => true
  | .vunzip _ _ _ => true
  | .vsort _ _ _ _ => true
  | .vsortd _ _ _ _ => true
  | .vsortkv _ _ _ _ _ => true
  | .vtopk _ _ _ _ _ => true
  | .vmerge _ _ _ _ _ => true
  | .vmergeu _ _ _ _ _ => true
  | .vrank _ _ _ _ => true
  | .bfPass _ _ _ _ _ _ => true
  | .bfLoad _ _ q => decide (4 ≤ q.toNat)
  | .bfClr q => decide (q.toNat = 0 ∨ 4 ≤ q.toNat)
  | .bfStat _ => true
  | .vld _ _ _ e => widthOk e
  | .vlds _ _ _ _ e => widthOk e
  | .vldx _ _ _ _ e => widthOk e
  | .vldq _ b _ e => streamOk b && widthOk e
  | .vldr _ _ _ _ e => widthOk e
  | .vpf _ _ e => widthOk e
  | .vgl _ _ _ _ e => widthOk e
  | .vst _ _ _ e => widthOk e
  | .vsts _ _ _ _ e => widthOk e
  | .vstx _ _ _ _ e => widthOk e
  | .vstxUn _ _ _ _ e => widthOk e
  | .vstq _ b _ e => streamOk b && widthOk e
  | .vstr _ _ _ _ e => widthOk e
  | .vsc _ _ _ m e => maskGiven m && widthOk e
  | .vamoAdd _ _ _ _ e => widthOk e
  | .vamoMin _ _ _ _ e => widthOk e
  | .vamoMax _ _ _ _ e => widthOk e
  | .vamoAnd _ _ _ _ e => widthOk e
  | .vamoOr _ _ _ _ e => widthOk e
  | .vamoXor _ _ _ _ e => widthOk e
  | .vamoSwap _ _ _ _ e => widthOk e
  | .vamoAddUn _ _ _ _ e => widthOk e
  | .vcopy _ _ _ _ e => decide (e.toNat ≤ 4)
  | .vwait _ _ _ _ e => decide (1 ≤ e.toNat ∧ e.toNat ≤ 4)
  | .vamofAdd _ _ _ _ e => widthOk e
  | .vamofSwap _ _ _ _ e => widthOk e
  | .vqset _ b => streamOk b
  | .vqget _ b => streamOk b
  | .wred _ _ _ e => decide (e.toNat ≤ 4)
  | .wfin _ _ _ => true
  | .wpoll _ _ => true
  | .mma _ _ _ _ mode _ _ => decide (mode.toNat ≤ 2)
  | .mlatch _ _ => true
  | .mzero _ _ _ => true
  | .mrd _ _ _ _ _ => true
  | .mwr _ _ _ _ _ => true
  | .mld _ _ _ _ => true
  | .mst _ _ _ _ => true
  | .cAdd _ => true
  | .cSub _ => true
  | .cAnd _ => true
  | .cOr _ => true
  | .cXor _ => true
  | .cAddi _ _ => true
  | .cSlli _ => true
  | .cLd _ _ => true
  | .cSt _ _ => true
  | .cMv _ => true
  | .cBeqz _ _ => true
  | .cBnez _ _ => true
  | .cVadd _ => true
  | .cVmul _ => true
  | .cVfma _ _ => true
  | .reeveInstruction _ _ => true
  | .handDataCacheEviction _ _ => true
  | .hostReadCompletion _ _ _ => true
  | .powerClampRelease => true
  | .jtagDebugRequest _ _ => true

/-- An instruction whose codes are in range. -/
abbrev WellFormed (i : Instr) : Prop := wellFormed i = true

end Sys2Proof
end

