-- ==== Sys2Proof/Decode.lean ====
section
/-!
DEFINITION. The decoder and the encoder.
A hand finds the length of an instruction from its first halfword (R79, R80) and decodes it by Tables 4.2 to 4.16; the
compressed forms are those of Table 4.20 and the TILE forms those of Tables 4.13, 4.14 and 11.2.  The reeve's words are RISC-V
(R45) with the Xkry forms of Table 3.7.  Every field the format or the entry leaves unused must be zero (R81): such bits
are part of a row's mask.  A hand word that no row owns, or whose codes are out of range, decodes to nothing: the illegal
instruction of R95.
-/

namespace Sys2Proof

/-- The field of `n` bits at bit `lo` of an instruction. -/
def getF {w : Nat} (x : BitVec w) (lo n : Nat) : BitVec n := x.extractLsb' lo n

/-- A field placed at bit `lo` of an instruction. -/
def putF {w n : Nat} (x : BitVec n) (lo : Nat) : BitVec w := x.setWidth w <<< lo

/-- One row of the opcode map: the bits fixed by the encoding and the instruction that the other bits make. -/
structure Row (w : Nat) where
  mask  : BitVec w
  value : BitVec w
  build : BitVec w → Instr

/-- The instruction of the row that owns a word. -/
def lookupRow {w : Nat} : List (Row w) → BitVec w → Option Instr
  | [], _ => none
  | r :: rs, x => if x &&& r.mask = r.value then some (r.build x) else lookupRow rs x

/-- The 32-bit hand instructions (Tables 4.2 to 4.11, 4.16) (part 1). -/
noncomputable def handRows1 : List (Row 32) := [
  ⟨0xFF8000FF, 0x00000005, fun w => .add (getF w 8 5) (getF w 13 5) (getF w 18 5)⟩,
  ⟨0xFF8000FF, 0x04000005, fun w => .sub (getF w 8 5) (getF w 13 5) (getF w 18 5)⟩,
  ⟨0xFF8000FF, 0x08000005, fun w => .and (getF w 8 5) (getF w 13 5) (getF w 18 5)⟩,
  ⟨0xFF8000FF, 0x0C000005, fun w => .or (getF w 8 5) (getF w 13 5) (getF w 18 5)⟩,
  ⟨0xFF8000FF, 0x10000005, fun w => .xor (getF w 8 5) (getF w 13 5) (getF w 18 5)⟩,
  ⟨0xFF8000FF, 0x14000005, fun w => .sll (getF w 8 5) (getF w 13 5) (getF w 18 5)⟩,
  ⟨0xFF8000FF, 0x18000005, fun w => .srl (getF w 8 5) (getF w 13 5) (getF w 18 5)⟩,
  ⟨0xFF8000FF, 0x1C000005, fun w => .sra (getF w 8 5) (getF w 13 5) (getF w 18 5)⟩,
  ⟨0xFF8000FF, 0x20000005, fun w => .slt (getF w 8 5) (getF w 13 5) (getF w 18 5)⟩,
  ⟨0xFF8000FF, 0x24000005, fun w => .sltn (getF w 8 5) (getF w 13 5) (getF w 18 5)⟩,
  ⟨0xFF8000FF, 0x28000005, fun w => .mul (getF w 8 5) (getF w 13 5) (getF w 18 5)⟩,
  ⟨0xFF8000FF, 0x2C000005, fun w => .mulh (getF w 8 5) (getF w 13 5) (getF w 18 5)⟩,
  ⟨0xFF8000FF, 0x30000005, fun w => .mulhn (getF w 8 5) (getF w 13 5) (getF w 18 5)⟩,
  ⟨0xFF8000FF, 0x34000005, fun w => .div (getF w 8 5) (getF w 13 5) (getF w 18 5)⟩,
  ⟨0xFF8000FF, 0x38000005, fun w => .divn (getF w 8 5) (getF w 13 5) (getF w 18 5)⟩,
  ⟨0xFF8000FF, 0x3C000005, fun w => .rem (getF w 8 5) (getF w 13 5) (getF w 18 5)⟩,
  ⟨0xFF8000FF, 0x40000005, fun w => .remn (getF w 8 5) (getF w 13 5) (getF w 18 5)⟩,
  ⟨0xFF8000FF, 0x44000005, fun w => .min (getF w 8 5) (getF w 13 5) (getF w 18 5)⟩,
  ⟨0xFF8000FF, 0x48000005, fun w => .max (getF w 8 5) (getF w 13 5) (getF w 18 5)⟩,
  ⟨0xFF8000FF, 0x4C000005, fun w => .minn (getF w 8 5) (getF w 13 5) (getF w 18 5)⟩,
  ⟨0xFF8000FF, 0x50000005, fun w => .maxn (getF w 8 5) (getF w 13 5) (getF w 18 5)⟩,
  ⟨0xFFFC00FF, 0x54000005, fun w => .clz (getF w 8 5) (getF w 13 5)⟩,
  ⟨0xFFFC00FF, 0x58000005, fun w => .ctz (getF w 8 5) (getF w 13 5)⟩,
  ⟨0xFFFC00FF, 0x5C000005, fun w => .popc (getF w 8 5) (getF w 13 5)⟩,
  ⟨0x001C00FF, 0x00000009, fun w => .addi (getF w 8 5) (getF w 13 5) (getF w 21 11)⟩,
  ⟨0x001C00FF, 0x00040009, fun w => .andi (getF w 8 5) (getF w 13 5) (getF w 21 11)⟩,
  ⟨0x001C00FF, 0x00080009, fun w => .ori (getF w 8 5) (getF w 13 5) (getF w 21 11)⟩,
  ⟨0x001C00FF, 0x000C0009, fun w => .xori (getF w 8 5) (getF w 13 5) (getF w 21 11)⟩,
  ⟨0x001C00FF, 0x00100009, fun w => .slti (getF w 8 5) (getF w 13 5) (getF w 21 11)⟩,
  ⟨0xF81C00FF, 0x00140009, fun w => .slli (getF w 8 5) (getF w 13 5) (getF w 21 6)⟩,
  ⟨0xF81C00FF, 0x00180009, fun w => .srli (getF w 8 5) (getF w 13 5) (getF w 21 6)⟩,
  ⟨0xF81C00FF, 0x001C0009, fun w => .srai (getF w 8 5) (getF w 13 5) (getF w 21 6)⟩,
  ⟨0x000000FF, 0x0000000D, fun w => .lim (getF w 8 5) (getF w 13 19)⟩,
  ⟨0x000000FF, 0x00000011, fun w => .lsh (getF w 8 5) (getF w 13 19)⟩,
  ⟨0x001C00FF, 0x00000015, fun w => .ldB (getF w 8 5) (getF w 13 5) (getF w 21 11)⟩,
  ⟨0x001C00FF, 0x00040015, fun w => .ldH (getF w 8 5) (getF w 13 5) (getF w 21 11)⟩,
  ⟨0x001C00FF, 0x00080015, fun w => .ldW (getF w 8 5) (getF w 13 5) (getF w 21 11)⟩,
  ⟨0x001C00FF, 0x000C0015, fun w => .ldD (getF w 8 5) (getF w 13 5) (getF w 21 11)⟩,
  ⟨0x001C00FF, 0x00100015, fun w => .ldBn (getF w 8 5) (getF w 13 5) (getF w 21 11)⟩,
  ⟨0x001C00FF, 0x00140015, fun w => .ldHn (getF w 8 5) (getF w 13 5) (getF w 21 11)⟩]

/-- The 32-bit hand instructions (Tables 4.2 to 4.11, 4.16) (part 2). -/
noncomputable def handRows2 : List (Row 32) := [
  ⟨0x001C00FF, 0x00180015, fun w => .ldWn (getF w 8 5) (getF w 13 5) (getF w 21 11)⟩,
  ⟨0x001C00FF, 0x00000019, fun w => .stB (getF w 8 5) (getF w 13 5) (getF w 21 11)⟩,
  ⟨0x001C00FF, 0x00040019, fun w => .stH (getF w 8 5) (getF w 13 5) (getF w 21 11)⟩,
  ⟨0x001C00FF, 0x00080019, fun w => .stW (getF w 8 5) (getF w 13 5) (getF w 21 11)⟩,
  ⟨0x001C00FF, 0x000C0019, fun w => .stD (getF w 8 5) (getF w 13 5) (getF w 21 11)⟩,
  ⟨0x7C0000FF, 0x0000001D, fun w => .amoSwap (getF w 8 5) (getF w 13 5) (getF w 18 5) (getF w 23 3) (getF w 31 1)⟩,
  ⟨0x7C0000FF, 0x0400001D, fun w => .amoAdd (getF w 8 5) (getF w 13 5) (getF w 18 5) (getF w 23 3) (getF w 31 1)⟩,
  ⟨0x7C0000FF, 0x0800001D, fun w => .amoAnd (getF w 8 5) (getF w 13 5) (getF w 18 5) (getF w 23 3) (getF w 31 1)⟩,
  ⟨0x7C0000FF, 0x0C00001D, fun w => .amoOr (getF w 8 5) (getF w 13 5) (getF w 18 5) (getF w 23 3) (getF w 31 1)⟩,
  ⟨0x7C0000FF, 0x1000001D, fun w => .amoXor (getF w 8 5) (getF w 13 5) (getF w 18 5) (getF w 23 3) (getF w 31 1)⟩,
  ⟨0x7C0000FF, 0x1400001D, fun w => .amoMax (getF w 8 5) (getF w 13 5) (getF w 18 5) (getF w 23 3) (getF w 31 1)⟩,
  ⟨0x7C0000FF, 0x1800001D, fun w => .amoMin (getF w 8 5) (getF w 13 5) (getF w 18 5) (getF w 23 3) (getF w 31 1)⟩,
  ⟨0x7C0000FF, 0x1C00001D, fun w => .amoMaxn (getF w 8 5) (getF w 13 5) (getF w 18 5) (getF w 23 3) (getF w 31 1)⟩,
  ⟨0x7C0000FF, 0x2000001D, fun w => .amoMinn (getF w 8 5) (getF w 13 5) (getF w 18 5) (getF w 23 3) (getF w 31 1)⟩,
  ⟨0x7C0000FF, 0x2400001D, fun w => .amoCas (getF w 8 5) (getF w 13 5) (getF w 18 5) (getF w 23 3) (getF w 31 1)⟩,
  ⟨0x7C7C00FF, 0x2800001D, fun w => .ldAcq (getF w 8 5) (getF w 13 5) (getF w 23 3) (getF w 31 1)⟩,
  ⟨0x7C001FFF, 0x2C00001D, fun w => .stRel (getF w 13 5) (getF w 18 5) (getF w 23 3) (getF w 31 1)⟩,
  ⟨0x001C00FF, 0x00000021, fun w => .beq (getF w 8 5) (getF w 13 5) (getF w 21 11)⟩,
  ⟨0x001C00FF, 0x00040021, fun w => .bne (getF w 8 5) (getF w 13 5) (getF w 21 11)⟩,
  ⟨0x001C00FF, 0x00080021, fun w => .blt (getF w 8 5) (getF w 13 5) (getF w 21 11)⟩,
  ⟨0x001C00FF, 0x000C0021, fun w => .bge (getF w 8 5) (getF w 13 5) (getF w 21 11)⟩,
  ⟨0x001C00FF, 0x00100021, fun w => .bltn (getF w 8 5) (getF w 13 5) (getF w 21 11)⟩,
  ⟨0x001C00FF, 0x00140021, fun w => .bgen (getF w 8 5) (getF w 13 5) (getF w 21 11)⟩,
  ⟨0x001C00FF, 0x00180021, fun w => .bbs (getF w 8 5) (getF w 13 5) (getF w 21 11)⟩,
  ⟨0x001C00FF, 0x001C0021, fun w => .bbc (getF w 8 5) (getF w 13 5) (getF w 21 11)⟩,
  ⟨0x000000FF, 0x00000025, fun w => .jal (getF w 8 5) (getF w 13 19)⟩,
  ⟨0x001C00FF, 0x00000029, fun w => .jalr (getF w 8 5) (getF w 13 5) (getF w 21 11)⟩,
  ⟨0x000FE0FF, 0x0000002D, fun w => .csrr (getF w 8 5) (getF w 20 12)⟩,
  ⟨0x000C00FF, 0x0004002D, fun w => .csrw (getF w 8 5) (getF w 13 5) (getF w 20 12)⟩,
  ⟨0x000C00FF, 0x0008002D, fun w => .csrs (getF w 8 5) (getF w 13 5) (getF w 20 12)⟩,
  ⟨0x000C00FF, 0x000C002D, fun w => .csrc (getF w 8 5) (getF w 13 5) (getF w 20 12)⟩,
  ⟨0xFFFC00FF, 0x00000031, fun w => .vtype (getF w 8 5) (getF w 13 5)⟩,
  ⟨0xFFFC00FF, 0x04000031, fun w => .setvl (getF w 8 5) (getF w 13 5)⟩,
  ⟨0xFFFC00FF, 0x08000031, fun w => .setrc (getF w 8 5) (getF w 13 5)⟩,
  ⟨0xFFFC00FF, 0x0C000031, fun w => .setvt (getF w 8 5) (getF w 13 5)⟩,
  ⟨0xFFFC00FF, 0x10000031, fun w => .setvn (getF w 8 5) (getF w 13 5)⟩,
  ⟨0xFFFFFFFF, 0x00000035, fun _ => .fenceSv⟩,
  ⟨0xFFFFFFFF, 0x04000035, fun _ => .fenceVs⟩,
  ⟨0xFC7FFFFF, 0x08000035, fun w => .fenceAcq (getF w 23 3)⟩,
  ⟨0xFC7FFFFF, 0x0C000035, fun w => .fenceRel (getF w 23 3)⟩]

/-- The 32-bit hand instructions (Tables 4.2 to 4.11, 4.16) (part 3). -/
noncomputable def handRows3 : List (Row 32) := [
  ⟨0xFC7FFFFF, 0x10000035, fun w => .fenceAr (getF w 23 3)⟩,
  ⟨0xFC7C1FFF, 0x14000035, fun w => .lnkPut (getF w 13 5) (getF w 23 3)⟩,
  ⟨0xFC7FE0FF, 0x18000035, fun w => .lnkGet (getF w 8 5) (getF w 23 3)⟩,
  ⟨0xFFFC1FFF, 0x1C000035, fun w => .sig (getF w 13 5)⟩,
  ⟨0xFFFFFFFF, 0x20000035, fun _ => .bar⟩,
  ⟨0xFFFFFFFF, 0x24000035, fun _ => .fbar⟩,
  ⟨0xFFFFE0FF, 0x28000035, fun w => .claim (getF w 8 5)⟩,
  ⟨0xFFFFE0FF, 0x2C000035, fun w => .wfe (getF w 8 5)⟩,
  ⟨0xFFFFFFFF, 0x00000039, fun _ => .endHand⟩,
  ⟨0xFFFFFFFF, 0x04000039, fun _ => .stop⟩,
  ⟨0xFFFC1FFF, 0x08000039, fun w => .go (getF w 13 5)⟩,
  ⟨0xFFFC1FFF, 0x0C000039, fun w => .bfetch (getF w 13 5)⟩,
  ⟨0xFFFFFFFF, 0x10000039, fun _ => .ecall⟩,
  ⟨0xFFFFFFFF, 0x14000039, fun _ => .ebreak⟩,
  ⟨0xFFFFFFFF, 0x18000039, fun _ => .yield⟩,
  ⟨0x000000FF, 0x000000F9, fun w => .hint (getF w 8 24)⟩,
  ⟨0xE00000FF, 0x00000041, fun w => .vaddVv (getF w 8 5) (getF w 13 5) (getF w 18 5) (getF w 23 3) (getF w 26 3)⟩,
  ⟨0xE00000FF, 0x20000041, fun w => .vaddVs (getF w 8 5) (getF w 13 5) (getF w 18 5) (getF w 23 3) (getF w 26 3)⟩,
  ⟨0xE00000FF, 0x40000041, fun w => .vaddVi (getF w 8 5) (getF w 13 5) (getF w 18 5) (getF w 23 3) (getF w 26 3)⟩,
  ⟨0xE00000FF, 0x60000041, fun w => .vsubVv (getF w 8 5) (getF w 13 5) (getF w 18 5) (getF w 23 3) (getF w 26 3)⟩,
  ⟨0xE00000FF, 0x80000041, fun w => .vsubVs (getF w 8 5) (getF w 13 5) (getF w 18 5) (getF w 23 3) (getF w 26 3)⟩,
  ⟨0xE00000FF, 0xA0000041, fun w => .vrsubVs (getF w 8 5) (getF w 13 5) (getF w 18 5) (getF w 23 3) (getF w 26 3)⟩,
  ⟨0xE00000FF, 0xC0000041, fun w => .vrsubVi (getF w 8 5) (getF w 13 5) (getF w 18 5) (getF w 23 3) (getF w 26 3)⟩,
  ⟨0xE07C00FF, 0xE0000041, fun w => .vneg (getF w 8 5) (getF w 13 5) (getF w 23 3) (getF w 26 3)⟩,
  ⟨0xE00000FF, 0x00000045, fun w => .vmulVv (getF w 8 5) (getF w 13 5) (getF w 18 5) (getF w 23 3) (getF w 26 3)⟩,
  ⟨0xE00000FF, 0x20000045, fun w => .vmulVs (getF w 8 5) (getF w 13 5) (getF w 18 5) (getF w 23 3) (getF w 26 3)⟩,
  ⟨0xE00000FF, 0x40000045, fun w => .vmulhVv (getF w 8 5) (getF w 13 5) (getF w 18 5) (getF w 23 3) (getF w 26 3)⟩,
  ⟨0xE00000FF, 0x60000045, fun w => .vmulhVs (getF w 8 5) (getF w 13 5) (getF w 18 5) (getF w 23 3) (getF w 26 3)⟩,
  ⟨0xE00000FF, 0x80000045, fun w => .vmulhnVv (getF w 8 5) (getF w 13 5) (getF w 18 5) (getF w 23 3) (getF w 26 3)⟩,
  ⟨0xE00000FF, 0xA0000045, fun w => .vmulhnVs (getF w 8 5) (getF w 13 5) (getF w 18 5) (getF w 23 3) (getF w 26 3)⟩,
  ⟨0xE00000FF, 0xC0000045, fun w => .vdivVv (getF w 8 5) (getF w 13 5) (getF w 18 5) (getF w 23 3) (getF w 26 3)⟩,
  ⟨0xE00000FF, 0xE0000045, fun w => .vdivVs (getF w 8 5) (getF w 13 5) (getF w 18 5) (getF w 23 3) (getF w 26 3)⟩,
  ⟨0xE00000FF, 0x00000049, fun w => .vremVv (getF w 8 5) (getF w 13 5) (getF w 18 5) (getF w 23 3) (getF w 26 3)⟩,
  ⟨0xE00000FF, 0x20000049, fun w => .vremVs (getF w 8 5) (getF w 13 5) (getF w 18 5) (getF w 23 3) (getF w 26 3)⟩,
  ⟨0xE00000FF, 0x40000049, fun w => .vminVv (getF w 8 5) (getF w 13 5) (getF w 18 5) (getF w 23 3) (getF w 26 3)⟩,
  ⟨0xE00000FF, 0x60000049, fun w => .vminVs (getF w 8 5) (getF w 13 5) (getF w 18 5) (getF w 23 3) (getF w 26 3)⟩,
  ⟨0xE00000FF, 0x80000049, fun w => .vmaxVv (getF w 8 5) (getF w 13 5) (getF w 18 5) (getF w 23 3) (getF w 26 3)⟩,
  ⟨0xE00000FF, 0xA0000049, fun w => .vmaxVs (getF w 8 5) (getF w 13 5) (getF w 18 5) (getF w 23 3) (getF w 26 3)⟩,
  ⟨0xE07C00FF, 0xC0000049, fun w => .vabs (getF w 8 5) (getF w 13 5) (getF w 23 3) (getF w 26 3)⟩,
  ⟨0xE00000FF, 0xE0000049, fun w => .vsaddVv (getF w 8 5) (getF w 13 5) (getF w 18 5) (getF w 23 3) (getF w 26 3)⟩]

/-- The 32-bit hand instructions (Tables 4.2 to 4.11, 4.16) (part 4). -/
noncomputable def handRows4 : List (Row 32) := [
  ⟨0xE00000FF, 0x0000004D, fun w => .vandVv (getF w 8 5) (getF w 13 5) (getF w 18 5) (getF w 23 3) (getF w 26 3)⟩,
  ⟨0xE00000FF, 0x2000004D, fun w => .vandVs (getF w 8 5) (getF w 13 5) (getF w 18 5) (getF w 23 3) (getF w 26 3)⟩,
  ⟨0xE00000FF, 0x4000004D, fun w => .vorVv (getF w 8 5) (getF w 13 5) (getF w 18 5) (getF w 23 3) (getF w 26 3)⟩,
  ⟨0xE00000FF, 0x6000004D, fun w => .vorVs (getF w 8 5) (getF w 13 5) (getF w 18 5) (getF w 23 3) (getF w 26 3)⟩,
  ⟨0xE00000FF, 0x8000004D, fun w => .vxorVv (getF w 8 5) (getF w 13 5) (getF w 18 5) (getF w 23 3) (getF w 26 3)⟩,
  ⟨0xE00000FF, 0xA000004D, fun w => .vxorVs (getF w 8 5) (getF w 13 5) (getF w 18 5) (getF w 23 3) (getF w 26 3)⟩,
  ⟨0xE07C00FF, 0xC000004D, fun w => .vnot (getF w 8 5) (getF w 13 5) (getF w 23 3) (getF w 26 3)⟩,
  ⟨0xE00000FF, 0xE000004D, fun w => .vssubVv (getF w 8 5) (getF w 13 5) (getF w 18 5) (getF w 23 3) (getF w 26 3)⟩,
  ⟨0xE00000FF, 0x00000051, fun w => .vsllVv (getF w 8 5) (getF w 13 5) (getF w 18 5) (getF w 23 3) (getF w 26 3)⟩,
  ⟨0xE00000FF, 0x20000051, fun w => .vsllVs (getF w 8 5) (getF w 13 5) (getF w 18 5) (getF w 23 3) (getF w 26 3)⟩,
  ⟨0xE00000FF, 0x40000051, fun w => .vsllVi (getF w 8 5) (getF w 13 5) (getF w 18 5) (getF w 23 3) (getF w 26 3)⟩,
  ⟨0xE00000FF, 0x60000051, fun w => .vsrlVv (getF w 8 5) (getF w 13 5) (getF w 18 5) (getF w 23 3) (getF w 26 3)⟩,
  ⟨0xE00000FF, 0x80000051, fun w => .vsrlVs (getF w 8 5) (getF w 13 5) (getF w 18 5) (getF w 23 3) (getF w 26 3)⟩,
  ⟨0xE00000FF, 0xA0000051, fun w => .vsrlVi (getF w 8 5) (getF w 13 5) (getF w 18 5) (getF w 23 3) (getF w 26 3)⟩,
  ⟨0xE00000FF, 0xC0000051, fun w => .vsraVv (getF w 8 5) (getF w 13 5) (getF w 18 5) (getF w 23 3) (getF w 26 3)⟩,
  ⟨0xE00000FF, 0xE0000051, fun w => .vsraVi (getF w 8 5) (getF w 13 5) (getF w 18 5) (getF w 23 3) (getF w 26 3)⟩,
  ⟨0xE00000FF, 0x00000055, fun w => .vfmaVv (getF w 8 5) (getF w 13 5) (getF w 18 5) (getF w 23 3) (getF w 26 3)⟩,
  ⟨0xE00000FF, 0x20000055, fun w => .vfmaVs (getF w 8 5) (getF w 13 5) (getF w 18 5) (getF w 23 3) (getF w 26 3)⟩,
  ⟨0xE00000FF, 0x40000055, fun w => .vfmsVv (getF w 8 5) (getF w 13 5) (getF w 18 5) (getF w 23 3) (getF w 26 3)⟩,
  ⟨0xE00000FF, 0x60000055, fun w => .vfmsVs (getF w 8 5) (getF w 13 5) (getF w 18 5) (getF w 23 3) (getF w 26 3)⟩,
  ⟨0xE00000FF, 0x80000055, fun w => .vfnmaVv (getF w 8 5) (getF w 13 5) (getF w 18 5) (getF w 23 3) (getF w 26 3)⟩,
  ⟨0xE00000FF, 0xA0000055, fun w => .vfnmaVs (getF w 8 5) (getF w 13 5) (getF w 18 5) (getF w 23 3) (getF w 26 3)⟩,
  ⟨0xE00000FF, 0xC0000055, fun w => .vfnmsVv (getF w 8 5) (getF w 13 5) (getF w 18 5) (getF w 23 3) (getF w 26 3)⟩,
  ⟨0xE00000FF, 0xE0000055, fun w => .vfnmsVs (getF w 8 5) (getF w 13 5) (getF w 18 5) (getF w 23 3) (getF w 26 3)⟩,
  ⟨0xE00000FF, 0x00000059, fun w => .vceqVv (getF w 8 5) (getF w 13 5) (getF w 18 5) (getF w 23 3) (getF w 26 3)⟩,
  ⟨0xE00000FF, 0x20000059, fun w => .vceqVs (getF w 8 5) (getF w 13 5) (getF w 18 5) (getF w 23 3) (getF w 26 3)⟩,
  ⟨0xE00000FF, 0x40000059, fun w => .vcneVv (getF w 8 5) (getF w 13 5) (getF w 18 5) (getF w 23 3) (getF w 26 3)⟩,
  ⟨0xE00000FF, 0x60000059, fun w => .vcltVv (getF w 8 5) (getF w 13 5) (getF w 18 5) (getF w 23 3) (getF w 26 3)⟩,
  ⟨0xE00000FF, 0x80000059, fun w => .vcltVs (getF w 8 5) (getF w 13 5) (getF w 18 5) (getF w 23 3) (getF w 26 3)⟩,
  ⟨0xE00000FF, 0xA0000059, fun w => .vcleVv (getF w 8 5) (getF w 13 5) (getF w 18 5) (getF w 23 3) (getF w 26 3)⟩,
  ⟨0xE00000FF, 0xC0000059, fun w => .vcleVs (getF w 8 5) (getF w 13 5) (getF w 18 5) (getF w 23 3) (getF w 26 3)⟩,
  ⟨0xE00000FF, 0xE0000059, fun w => .vcgtVs (getF w 8 5) (getF w 13 5) (getF w 18 5) (getF w 23 3) (getF w 26 3)⟩,
  ⟨0xFC0000FF, 0x0000005D, fun w => .vsel (getF w 8 5) (getF w 13 5) (getF w 18 5) (getF w 23 3)⟩,
  ⟨0xFF8000FF, 0x2000005D, fun w => .vmand (getF w 8 5) (getF w 13 5) (getF w 18 5)⟩,
  ⟨0xFF8000FF, 0x4000005D, fun w => .vmor (getF w 8 5) (getF w 13 5) (getF w 18 5)⟩,
  ⟨0xFF8000FF, 0x6000005D, fun w => .vmxor (getF w 8 5) (getF w 13 5) (getF w 18 5)⟩,
  ⟨0xFF8000FF, 0x8000005D, fun w => .vmandn (getF w 8 5) (getF w 13 5) (getF w 18 5)⟩,
  ⟨0xFFFC00FF, 0xA000005D, fun w => .vmnot (getF w 8 5) (getF w 13 5)⟩,
  ⟨0xFC7C00FF, 0xC000005D, fun w => .vmpopc (getF w 8 5) (getF w 13 5) (getF w 23 3)⟩,
  ⟨0xFC7C00FF, 0xE000005D, fun w => .vmfirst (getF w 8 5) (getF w 13 5) (getF w 23 3)⟩]

/-- The 32-bit hand instructions (Tables 4.2 to 4.11, 4.16) (part 5). -/
noncomputable def handRows5 : List (Row 32) := [
  ⟨0xFC7C00FF, 0x00000061, fun w => .vmvVv (getF w 8 5) (getF w 13 5) (getF w 23 3)⟩,
  ⟨0xFC03E0FF, 0x20000061, fun w => .vbcVs (getF w 8 5) (getF w 18 5) (getF w 23 3)⟩,
  ⟨0xFC03E0FF, 0x40000061, fun w => .vbcVi (getF w 8 5) (getF w 18 5) (getF w 23 3)⟩,
  ⟨0xFF8000FF, 0x60000061, fun w => .vmvSv (getF w 8 5) (getF w 13 5) (getF w 18 5)⟩,
  ⟨0xFF83E0FF, 0x80000061, fun w => .vmvVs (getF w 8 5) (getF w 18 5)⟩,
  ⟨0xE07C00FF, 0xA0000061, fun w => .vclass (getF w 8 5) (getF w 13 5) (getF w 23 3) (getF w 26 3)⟩,
  ⟨0xFC7C00FF, 0xC0000061, fun w => .viota (getF w 8 5) (getF w 13 5) (getF w 23 3)⟩,
  ⟨0xFC7FE0FF, 0xE0000061, fun w => .vidx (getF w 8 5) (getF w 23 3)⟩,
  ⟨0xE07C00FF, 0x00000065, fun w => .vcvt (getF w 8 5) (getF w 13 5) (getF w 23 3) (getF w 26 3)⟩,
  ⟨0xE07C00FF, 0x20000065, fun w => .vsqrt (getF w 8 5) (getF w 13 5) (getF w 23 3) (getF w 26 3)⟩,
  ⟨0xE07C00FF, 0x40000065, fun w => .vrcp (getF w 8 5) (getF w 13 5) (getF w 23 3) (getF w 26 3)⟩,
  ⟨0xE07C00FF, 0x60000065, fun w => .vrsqrt (getF w 8 5) (getF w 13 5) (getF w 23 3) (getF w 26 3)⟩,
  ⟨0xE07C00FF, 0x80000065, fun w => .vexp2 (getF w 8 5) (getF w 13 5) (getF w 23 3) (getF w 26 3)⟩,
  ⟨0xE07C00FF, 0xA0000065, fun w => .vlog2 (getF w 8 5) (getF w 13 5) (getF w 23 3) (getF w 26 3)⟩,
  ⟨0xE07C00FF, 0xC0000065, fun w => .vtanh (getF w 8 5) (getF w 13 5) (getF w 23 3) (getF w 26 3)⟩,
  ⟨0xE07C00FF, 0xE0000065, fun w => .vround (getF w 8 5) (getF w 13 5) (getF w 23 3) (getF w 26 3)⟩,
  ⟨0xE00000FF, 0x00000069, fun w => .vredsumO (getF w 8 5) (getF w 13 5) (getF w 18 5) (getF w 23 3) (getF w 26 3)⟩,
  ⟨0xE00000FF, 0x20000069, fun w => .vredsumT (getF w 8 5) (getF w 13 5) (getF w 18 5) (getF w 23 3) (getF w 26 3)⟩,
  ⟨0xE00000FF, 0x40000069, fun w => .vredsumU (getF w 8 5) (getF w 13 5) (getF w 18 5) (getF w 23 3) (getF w 26 3)⟩,
  ⟨0xE00000FF, 0x60000069, fun w => .vredmaxT (getF w 8 5) (getF w 13 5) (getF w 18 5) (getF w 23 3) (getF w 26 3)⟩,
  ⟨0xE00000FF, 0x80000069, fun w => .vredminT (getF w 8 5) (getF w 13 5) (getF w 18 5) (getF w 23 3) (getF w 26 3)⟩,
  ⟨0xE00000FF, 0xA0000069, fun w => .vredandT (getF w 8 5) (getF w 13 5) (getF w 18 5) (getF w 23 3) (getF w 26 3)⟩,
  ⟨0xE00000FF, 0xC0000069, fun w => .vredorT (getF w 8 5) (getF w 13 5) (getF w 18 5) (getF w 23 3) (getF w 26 3)⟩,
  ⟨0xE00000FF, 0xE0000069, fun w => .vredxorT (getF w 8 5) (getF w 13 5) (getF w 18 5) (getF w 23 3) (getF w 26 3)⟩,
  ⟨0xE00000FF, 0x0000006D, fun w => .vscanAdd (getF w 8 5) (getF w 13 5) (getF w 18 5) (getF w 23 3) (getF w 26 3)⟩,
  ⟨0xE00000FF, 0x2000006D, fun w => .vscanAddx (getF w 8 5) (getF w 13 5) (getF w 18 5) (getF w 23 3) (getF w 26 3)⟩,
  ⟨0xE00000FF, 0x4000006D, fun w => .vscanMax (getF w 8 5) (getF w 13 5) (getF w 18 5) (getF w 23 3) (getF w 26 3)⟩,
  ⟨0xE00000FF, 0x6000006D, fun w => .vscanMin (getF w 8 5) (getF w 13 5) (getF w 18 5) (getF w 23 3) (getF w 26 3)⟩,
  ⟨0xE00000FF, 0x8000006D, fun w => .vscanAddU (getF w 8 5) (getF w 13 5) (getF w 18 5) (getF w 23 3) (getF w 26 3)⟩,
  ⟨0xE07C00FF, 0xA000006D, fun w => .vrowred (getF w 8 5) (getF w 13 5) (getF w 23 3) (getF w 26 3)⟩,
  ⟨0xE00000FF, 0xC000006D, fun w => .vscaleVs (getF w 8 5) (getF w 13 5) (getF w 18 5) (getF w 23 3) (getF w 26 3)⟩,
  ⟨0xFC7C00FF, 0x00000071, fun w => .vcomp (getF w 8 5) (getF w 13 5) (getF w 23 3)⟩,
  ⟨0xFC7C00FF, 0x20000071, fun w => .vexpand (getF w 8 5) (getF w 13 5) (getF w 23 3)⟩,
  ⟨0xFC0000FF, 0x40000071, fun w => .vperm (getF w 8 5) (getF w 13 5) (getF w 18 5) (getF w 23 3)⟩,
  ⟨0xFC7C00FF, 0x60000071, fun w => .vrev (getF w 8 5) (getF w 13 5) (getF w 23 3)⟩,
  ⟨0xFC0000FF, 0x80000071, fun w => .vrotVs (getF w 8 5) (getF w 13 5) (getF w 18 5) (getF w 23 3)⟩,
  ⟨0xFC0000FF, 0xA0000071, fun w => .vbcaste (getF w 8 5) (getF w 13 5) (getF w 18 5) (getF w 23 3)⟩,
  ⟨0xFC0000FF, 0xC0000071, fun w => .vzip (getF w 8 5) (getF w 13 5) (getF w 18 5) (getF w 23 3)⟩,
  ⟨0xFC7C00FF, 0xE0000071, fun w => .vunzip (getF w 8 5) (getF w 13 5) (getF w 23 3)⟩,
  ⟨0xE07C00FF, 0x00000075, fun w => .vsort (getF w 8 5) (getF w 13 5) (getF w 23 3) (getF w 26 3)⟩]

/-- The 32-bit hand instructions (Tables 4.2 to 4.11, 4.16) (part 6). -/
noncomputable def handRows6 : List (Row 32) := [
  ⟨0xE07C00FF, 0x20000075, fun w => .vsortd (getF w 8 5) (getF w 13 5) (getF w 23 3) (getF w 26 3)⟩,
  ⟨0xE00000FF, 0x40000075, fun w => .vsortkv (getF w 8 5) (getF w 13 5) (getF w 18 5) (getF w 23 3) (getF w 26 3)⟩,
  ⟨0xE00000FF, 0x60000075, fun w => .vtopk (getF w 8 5) (getF w 13 5) (getF w 18 5) (getF w 23 3) (getF w 26 3)⟩,
  ⟨0xE00000FF, 0x80000075, fun w => .vmerge (getF w 8 5) (getF w 13 5) (getF w 18 5) (getF w 23 3) (getF w 26 3)⟩,
  ⟨0xE00000FF, 0xA0000075, fun w => .vmergeu (getF w 8 5) (getF w 13 5) (getF w 18 5) (getF w 23 3) (getF w 26 3)⟩,
  ⟨0xE07C00FF, 0xC0000075, fun w => .vrank (getF w 8 5) (getF w 13 5) (getF w 23 3) (getF w 26 3)⟩,
  ⟨0x000000FF, 0x00000079, fun w => .bfPass (getF w 8 5) (getF w 13 5) (getF w 18 5) (getF w 23 3) (getF w 26 3) (getF w 29 3)⟩,
  ⟨0xFC001FFF, 0x0000007D, fun w => .bfLoad (getF w 13 5) (getF w 18 5) (getF w 23 3)⟩,
  ⟨0xFC7FFFFF, 0x0400007D, fun w => .bfClr (getF w 23 3)⟩,
  ⟨0xFFFFE0FF, 0x0800007D, fun w => .bfStat (getF w 8 5)⟩,
  ⟨0xE07C00FF, 0x00000081, fun w => .vld (getF w 8 5) (getF w 13 5) (getF w 23 3) (getF w 26 3)⟩,
  ⟨0xE00000FF, 0x20000081, fun w => .vlds (getF w 8 5) (getF w 13 5) (getF w 18 5) (getF w 23 3) (getF w 26 3)⟩,
  ⟨0xE00000FF, 0x40000081, fun w => .vldx (getF w 8 5) (getF w 13 5) (getF w 18 5) (getF w 23 3) (getF w 26 3)⟩,
  ⟨0xE003E0FF, 0x60000081, fun w => .vldq (getF w 8 5) (getF w 18 5) (getF w 23 3) (getF w 26 3)⟩,
  ⟨0xE00000FF, 0x80000081, fun w => .vldr (getF w 8 5) (getF w 13 5) (getF w 18 5) (getF w 23 3) (getF w 26 3)⟩,
  ⟨0xE07C1FFF, 0xA0000081, fun w => .vpf (getF w 13 5) (getF w 23 3) (getF w 26 3)⟩,
  ⟨0xE00000FF, 0xC0000081, fun w => .vgl (getF w 8 5) (getF w 13 5) (getF w 18 5) (getF w 23 3) (getF w 26 3)⟩,
  ⟨0xE07C00FF, 0x00000085, fun w => .vst (getF w 8 5) (getF w 13 5) (getF w 23 3) (getF w 26 3)⟩,
  ⟨0xE00000FF, 0x20000085, fun w => .vsts (getF w 8 5) (getF w 13 5) (getF w 18 5) (getF w 23 3) (getF w 26 3)⟩,
  ⟨0xE00000FF, 0x40000085, fun w => .vstx (getF w 8 5) (getF w 13 5) (getF w 18 5) (getF w 23 3) (getF w 26 3)⟩,
  ⟨0xE00000FF, 0x60000085, fun w => .vstxUn (getF w 8 5) (getF w 13 5) (getF w 18 5) (getF w 23 3) (getF w 26 3)⟩,
  ⟨0xE003E0FF, 0x80000085, fun w => .vstq (getF w 8 5) (getF w 18 5) (getF w 23 3) (getF w 26 3)⟩,
  ⟨0xE00000FF, 0xA0000085, fun w => .vstr (getF w 8 5) (getF w 13 5) (getF w 18 5) (getF w 23 3) (getF w 26 3)⟩,
  ⟨0xE00000FF, 0xC0000085, fun w => .vsc (getF w 8 5) (getF w 13 5) (getF w 18 5) (getF w 23 3) (getF w 26 3)⟩,
  ⟨0xE00000FF, 0x00000089, fun w => .vamoAdd (getF w 8 5) (getF w 13 5) (getF w 18 5) (getF w 23 3) (getF w 26 3)⟩,
  ⟨0xE00000FF, 0x20000089, fun w => .vamoMin (getF w 8 5) (getF w 13 5) (getF w 18 5) (getF w 23 3) (getF w 26 3)⟩,
  ⟨0xE00000FF, 0x40000089, fun w => .vamoMax (getF w 8 5) (getF w 13 5) (getF w 18 5) (getF w 23 3) (getF w 26 3)⟩,
  ⟨0xE00000FF, 0x60000089, fun w => .vamoAnd (getF w 8 5) (getF w 13 5) (getF w 18 5) (getF w 23 3) (getF w 26 3)⟩,
  ⟨0xE00000FF, 0x80000089, fun w => .vamoOr (getF w 8 5) (getF w 13 5) (getF w 18 5) (getF w 23 3) (getF w 26 3)⟩,
  ⟨0xE00000FF, 0xA0000089, fun w => .vamoXor (getF w 8 5) (getF w 13 5) (getF w 18 5) (getF w 23 3) (getF w 26 3)⟩,
  ⟨0xE00000FF, 0xC0000089, fun w => .vamoSwap (getF w 8 5) (getF w 13 5) (getF w 18 5) (getF w 23 3) (getF w 26 3)⟩,
  ⟨0xE00000FF, 0xE0000089, fun w => .vamoAddUn (getF w 8 5) (getF w 13 5) (getF w 18 5) (getF w 23 3) (getF w 26 3)⟩,
  ⟨0xE00000FF, 0x0000008D, fun w => .vcopy (getF w 8 5) (getF w 13 5) (getF w 18 5) (getF w 23 3) (getF w 26 3)⟩,
  ⟨0xE00000FF, 0x2000008D, fun w => .vwait (getF w 8 5) (getF w 13 5) (getF w 18 5) (getF w 23 3) (getF w 26 3)⟩,
  ⟨0xE00000FF, 0x4000008D, fun w => .vamofAdd (getF w 8 5) (getF w 13 5) (getF w 18 5) (getF w 23 3) (getF w 26 3)⟩,
  ⟨0xE00000FF, 0x6000008D, fun w => .vamofSwap (getF w 8 5) (getF w 13 5) (getF w 18 5) (getF w 23 3) (getF w 26 3)⟩,
  ⟨0xFF801FFF, 0x8000008D, fun w => .vqset (getF w 13 5) (getF w 18 5)⟩,
  ⟨0xFF801FFF, 0xA000008D, fun w => .vqget (getF w 13 5) (getF w 18 5)⟩,
  ⟨0xE38000FF, 0x00000091, fun w => .wred (getF w 8 5) (getF w 13 5) (getF w 18 5) (getF w 26 3)⟩,
  ⟨0xFF8000FF, 0x20000091, fun w => .wfin (getF w 8 5) (getF w 13 5) (getF w 18 5)⟩]

/-- The 32-bit hand instructions (Tables 4.2 to 4.11, 4.16) (part 7). -/
noncomputable def handRows7 : List (Row 32) := [
  ⟨0xFFFC00FF, 0x40000091, fun w => .wpoll (getF w 8 5) (getF w 13 5)⟩]

/-- The 32-bit hand instructions (Tables 4.2 to 4.11, 4.16). -/
noncomputable def handRows : List (Row 32) :=
  handRows1 ++ handRows2 ++ handRows3 ++ handRows4 ++ handRows5 ++ handRows6 ++ handRows7

/-- The Xkry instructions (Table 3.7) (part 1). -/
noncomputable def xkryRows1 : List (Row 32) := [
  ⟨0xFE00707F, 0x0000000B, fun w => .kbc (getF w 7 5) (getF w 15 5) (getF w 20 5)⟩,
  ⟨0xFE00707F, 0x0000100B, fun w => .kgo (getF w 7 5) (getF w 15 5) (getF w 20 5)⟩,
  ⟨0xFE00707F, 0x0000200B, fun w => .kstop (getF w 7 5) (getF w 15 5) (getF w 20 5)⟩,
  ⟨0xFE00707F, 0x0000300B, fun w => .kwait (getF w 7 5) (getF w 15 5) (getF w 20 5)⟩,
  ⟨0xFE00707F, 0x0000400B, fun w => .kstat (getF w 7 5) (getF w 15 5) (getF w 20 5)⟩,
  ⟨0xFE00707F, 0x0000500B, fun w => .kread (getF w 7 5) (getF w 15 5) (getF w 20 5)⟩,
  ⟨0xFE00707F, 0x0000600B, fun w => .kwrite (getF w 7 5) (getF w 15 5) (getF w 20 5)⟩,
  ⟨0xFE00707F, 0x0000700B, fun w => .kframe (getF w 7 5) (getF w 15 5) (getF w 20 5)⟩,
  ⟨0xFE00707F, 0x0200700B, fun w => .krest (getF w 7 5) (getF w 15 5) (getF w 20 5)⟩,
  ⟨0xFE00707F, 0x0400700B, fun w => .klaunch (getF w 7 5) (getF w 15 5) (getF w 20 5)⟩,
  ⟨0xFE00707F, 0x0600700B, fun w => .kquiet (getF w 7 5) (getF w 15 5) (getF w 20 5)⟩,
  ⟨0xFE00707F, 0x0800700B, fun w => .kevt (getF w 7 5) (getF w 15 5) (getF w 20 5)⟩]

/-- The Xkry instructions (Table 3.7). -/
noncomputable def xkryRows : List (Row 32) :=
  xkryRows1

/-- The compressed forms (Tables 4.20, 4.21) (part 1). -/
noncomputable def shortRows1 : List (Row 16) := [
  ⟨0xFC1F, 0x0002, fun w => .cAdd (getF w 5 5)⟩,
  ⟨0xFC1F, 0x0004, fun w => .cSub (getF w 5 5)⟩,
  ⟨0xFC1F, 0x0006, fun w => .cAnd (getF w 5 5)⟩,
  ⟨0xFC1F, 0x0008, fun w => .cOr (getF w 5 5)⟩,
  ⟨0xFC1F, 0x000A, fun w => .cXor (getF w 5 5)⟩,
  ⟨0x001F, 0x000C, fun w => .cAddi (getF w 5 5) (getF w 10 6)⟩,
  ⟨0x03FF, 0x000E, fun w => .cSlli (getF w 10 6)⟩,
  ⟨0x001F, 0x0010, fun w => .cLd (getF w 5 5) (getF w 10 6)⟩,
  ⟨0x001F, 0x0012, fun w => .cSt (getF w 5 5) (getF w 10 6)⟩,
  ⟨0xFC1F, 0x0014, fun w => .cMv (getF w 5 5)⟩,
  ⟨0x001F, 0x0016, fun w => .cBeqz (getF w 5 5) (getF w 10 6)⟩,
  ⟨0x001F, 0x0018, fun w => .cBnez (getF w 5 5) (getF w 10 6)⟩,
  ⟨0xFC1F, 0x001A, fun w => .cVadd (getF w 5 5)⟩,
  ⟨0xFC1F, 0x001C, fun w => .cVmul (getF w 5 5)⟩,
  ⟨0x801F, 0x001E, fun w => .cVfma (getF w 5 5) (getF w 10 5)⟩]

/-- The compressed forms (Tables 4.20, 4.21). -/
noncomputable def shortRows : List (Row 16) :=
  shortRows1

/-- An instruction that the checks of the opcode map let pass (R84, R87, R88, R95). -/
def checked (i : Option Instr) : Option Instr :=
  match i with
  | some j => if wellFormed j then some j else none
  | none => none

/-- A 32-bit hand word (R81, R94). -/
noncomputable def decode32 (w : BitVec 32) : Option Instr := checked (lookupRow handRows w)

/-- A compressed form (R97). -/
noncomputable def decode16 (w : BitVec 16) : Option Instr := checked (lookupRow shortRows w)

/-- A TILE doubleword, word 0 in the low half (R80, R83, R255). -/
noncomputable def decode64 (w : BitVec 64) : Option Instr :=
  let mode : BitVec 2 := getF w 30 2
  let f    : BitVec 3 := getF w 27 3
  let rep  : BitVec 4 := getF w 23 4
  let im   : BitVec 10 := getF w 13 10
  let sa   : Reg := getF w 8 5
  let m    : BitVec 3 := getF w 55 3
  let vb   : Reg := getF w 45 5
  let va   : Reg := getF w 40 5
  if getF w 0 8 ≠ 3#8 ∨ getF w 32 8 ≠ 0xFD#8 ∨ getF w 50 5 ≠ 0#5 then none else
  checked <|
    match (getF w 58 6 : BitVec 6).toNat with
    | 0 => if vb = 0 then some (.mma sa im rep f mode va m) else none
    | 1 => if sa = 0 ∧ im = 0 ∧ rep = 0 ∧ mode = 0 ∧ va = 0 ∧ m = 0 then some (.mlatch vb f) else none
    | 2 => if f = 0 ∧ mode = 0 ∧ va = 0 ∧ vb = 0 ∧ m = 0 then some (.mzero sa im rep) else none
    | 3 => if mode = 0 ∧ vb = 0 ∧ m = 0 then some (.mrd va sa im rep f) else none
    | 4 => if mode = 0 ∧ vb = 0 ∧ m = 0 then some (.mwr sa im rep va f) else none
    | 5 => if f = 0 ∧ mode = 0 ∧ vb = 0 ∧ m = 0 then some (.mld sa im rep va) else none
    | 6 => if f = 0 ∧ mode = 0 ∧ vb = 0 ∧ m = 0 then some (.mst sa im rep va) else none
    | _ => none

/-! ## RISC-V (R45) -/

/-- The I immediate. -/
def rvImmI (w : BitVec 32) : Word := sext (getF w 20 12 : BitVec 12)
/-- The S immediate. -/
def rvImmS (w : BitVec 32) : Word := sext ((getF w 25 7 : BitVec 7) ++ (getF w 7 5 : BitVec 5))
/-- The B immediate. -/
def rvImmB (w : BitVec 32) : Word :=
  sext ((getF w 31 1 : BitVec 1) ++ (getF w 7 1 : BitVec 1) ++ (getF w 25 6 : BitVec 6) ++ (getF w 8 4 : BitVec 4) ++ 0#1)
/-- The U immediate. -/
def rvImmU (w : BitVec 32) : Word := sext ((getF w 12 20 : BitVec 20) ++ 0#12)
/-- The J immediate. -/
def rvImmJ (w : BitVec 32) : Word :=
  sext ((getF w 31 1 : BitVec 1) ++ (getF w 12 8 : BitVec 8) ++ (getF w 20 1 : BitVec 1) ++ (getF w 21 10 : BitVec 10) ++ 0#1)

/-- OP (0x33): funct7 and funct3. -/
def rvOp (f7 f3 : Nat) : Option RvAlu :=
  match f7, f3 with
  | 0x00, 0 => some .add | 0x20, 0 => some .sub | 0x00, 1 => some .sll | 0x00, 2 => some .slt | 0x00, 3 => some .sltu
  | 0x00, 4 => some .xor | 0x00, 5 => some .srl | 0x20, 5 => some .sra | 0x00, 6 => some .or | 0x00, 7 => some .and
  | 0x01, 0 => some .mul | 0x01, 1 => some .mulh | 0x01, 2 => some .mulhsu | 0x01, 3 => some .mulhu
  | 0x01, 4 => some .div | 0x01, 5 => some .divu | 0x01, 6 => some .rem | 0x01, 7 => some .remu
  | 0x10, 2 => some .sh1add | 0x10, 4 => some .sh2add | 0x10, 6 => some .sh3add
  | 0x20, 4 => some .xnor | 0x20, 6 => some .orn | 0x20, 7 => some .andn
  | 0x05, 4 => some .min | 0x05, 5 => some .minu | 0x05, 6 => some .max | 0x05, 7 => some .maxu
  | 0x30, 1 => some .rol | 0x30, 5 => some .ror
  | _, _ => none

/-- OP-32 (0x3B). -/
def rvOp32 (f7 f3 : Nat) : Option RvAlu :=
  match f7, f3 with
  | 0x00, 0 => some .addw | 0x20, 0 => some .subw | 0x00, 1 => some .sllw | 0x00, 5 => some .srlw | 0x20, 5 => some .sraw
  | 0x01, 0 => some .mulw | 0x01, 4 => some .divw | 0x01, 5 => some .divuw | 0x01, 6 => some .remw | 0x01, 7 => some .remuw
  | 0x04, 0 => some .addUw | 0x10, 2 => some .sh1addUw | 0x10, 4 => some .sh2addUw | 0x10, 6 => some .sh3addUw
  | 0x30, 1 => some .rolw | 0x30, 5 => some .rorw
  | _, _ => none

/-- OP-IMM (0x13). -/
def rvOpImm (w : BitVec 32) (rd rs1 : Reg) : RvInstr :=
  let f6 := (getF w 26 6 : BitVec 6).toNat
  let sh : Word := zext (getF w 20 6 : BitVec 6)
  let i12 := (getF w 20 12 : BitVec 12).toNat
  match (getF w 12 3 : BitVec 3).toNat with
  | 0 => .opImm .add rd rs1 (rvImmI w)
  | 2 => .opImm .slt rd rs1 (rvImmI w)
  | 3 => .opImm .sltu rd rs1 (rvImmI w)
  | 4 => .opImm .xor rd rs1 (rvImmI w)
  | 6 => .opImm .or rd rs1 (rvImmI w)
  | 7 => .opImm .and rd rs1 (rvImmI w)
  | 1 =>
    if f6 = 0 then .opImm .sll rd rs1 sh
    else if i12 = 0x600 then .unary .clz rd rs1
    else if i12 = 0x601 then .unary .ctz rd rs1
    else if i12 = 0x602 then .unary .cpop rd rs1
    else if i12 = 0x604 then .unary .sextB rd rs1
    else if i12 = 0x605 then .unary .sextH rd rs1
    else .illegal
  | _ =>
    if f6 = 0 then .opImm .srl rd rs1 sh
    else if f6 = 0x10 then .opImm .sra rd rs1 sh
    else if f6 = 0x18 then .opImm .ror rd rs1 sh
    else if i12 = 0x287 then .unary .orcB rd rs1
    else if i12 = 0x6B8 then .unary .rev8 rd rs1
    else .illegal

/-- OP-IMM-32 (0x1B). -/
def rvOpImm32 (w : BitVec 32) (rd rs1 : Reg) : RvInstr :=
  let f7 := (getF w 25 7 : BitVec 7).toNat
  let sh5 : Word := zext (getF w 20 5 : BitVec 5)
  let i12 := (getF w 20 12 : BitVec 12).toNat
  match (getF w 12 3 : BitVec 3).toNat with
  | 0 => .opImm .addw rd rs1 (rvImmI w)
  | 1 =>
    if f7 = 0 then .opImm .sllw rd rs1 sh5
    else if (getF w 26 6 : BitVec 6).toNat = 2 then .opImm .slliUw rd rs1 (zext (getF w 20 6 : BitVec 6))
    else if i12 = 0x600 then .unary .clzw rd rs1
    else if i12 = 0x601 then .unary .ctzw rd rs1
    else if i12 = 0x602 then .unary .cpopw rd rs1
    else .illegal
  | 5 =>
    if f7 = 0 then .opImm .srlw rd rs1 sh5
    else if f7 = 0x20 then .opImm .sraw rd rs1 sh5
    else if f7 = 0x30 then .opImm .rorw rd rs1 sh5
    else .illegal
  | _ => .illegal

/-- AMO (0x2F), LR and SC. -/
def rvAmo (w : BitVec 32) (rd rs1 rs2 : Reg) : RvInstr :=
  let aq := w.getLsbD 26
  let rl := w.getLsbD 25
  let f3 := (getF w 12 3 : BitVec 3).toNat
  let isW := decide (f3 = 2)
  if f3 ≠ 2 ∧ f3 ≠ 3 then .illegal else
  match (getF w 27 5 : BitVec 5).toNat with
  | 0x02 => if rs2 = 0 then .lr isW aq rl rd rs1 else .illegal
  | 0x03 => .sc isW aq rl rd rs1 rs2
  | 0x01 => .amo .swap isW aq rl rd rs1 rs2
  | 0x00 => .amo .add isW aq rl rd rs1 rs2
  | 0x04 => .amo .xor isW aq rl rd rs1 rs2
  | 0x0C => .amo .and isW aq rl rd rs1 rs2
  | 0x08 => .amo .or isW aq rl rd rs1 rs2
  | 0x10 => .amo .min isW aq rl rd rs1 rs2
  | 0x14 => .amo .max isW aq rl rd rs1 rs2
  | 0x18 => .amo .minn isW aq rl rd rs1 rs2
  | 0x1C => .amo .maxn isW aq rl rd rs1 rs2
  | _ => .illegal

/-- SYSTEM (0x73). -/
def rvSystem (w : BitVec 32) (rd rs1 rs2 : Reg) : RvInstr :=
  let num : BitVec 12 := getF w 20 12
  match (getF w 12 3 : BitVec 3).toNat with
  | 0 =>
    if rd = 0 ∧ (getF w 25 7 : BitVec 7) = 0x09 then .sfenceVma rs1 rs2
    else if rd ≠ 0 ∨ rs1 ≠ 0 then .illegal
    else match num.toNat with
      | 0 => .ecall
      | 1 => .ebreak
      | 0x102 => .sret
      | 0x302 => .mret
      | 0x105 => .wfi
      | _ => .illegal
  | 1 => .csr .rw rd rs1 false num
  | 2 => .csr .rs rd rs1 false num
  | 3 => .csr .rc rd rs1 false num
  | 5 => .csr .rw rd rs1 true num
  | 6 => .csr .rs rd rs1 true num
  | 7 => .csr .rc rd rs1 true num
  | _ => .illegal

/-- A 32-bit RISC-V word. -/
def decodeRv32 (w : BitVec 32) : RvInstr :=
  let rd : Reg := getF w 7 5
  let rs1 : Reg := getF w 15 5
  let rs2 : Reg := getF w 20 5
  let f3 := (getF w 12 3 : BitVec 3).toNat
  let f7 := (getF w 25 7 : BitVec 7).toNat
  match (getF w 0 7 : BitVec 7).toNat with
  | 0x37 => .lui rd (rvImmU w)
  | 0x17 => .auipc rd (rvImmU w)
  | 0x6F => .jal rd (rvImmJ w)
  | 0x67 => if f3 = 0 then .jalr rd rs1 (rvImmI w) else .illegal
  | 0x63 =>
    match f3 with
    | 0 => .branch .beq rs1 rs2 (rvImmB w)
    | 1 => .branch .bne rs1 rs2 (rvImmB w)
    | 4 => .branch .blt rs1 rs2 (rvImmB w)
    | 5 => .branch .bge rs1 rs2 (rvImmB w)
    | 6 => .branch .bltu rs1 rs2 (rvImmB w)
    | 7 => .branch .bgeu rs1 rs2 (rvImmB w)
    | _ => .illegal
  | 0x03 =>
    match f3 with
    | 0 => .load .lb rd rs1 (rvImmI w)
    | 1 => .load .lh rd rs1 (rvImmI w)
    | 2 => .load .lw rd rs1 (rvImmI w)
    | 3 => .load .ld rd rs1 (rvImmI w)
    | 4 => .load .lbu rd rs1 (rvImmI w)
    | 5 => .load .lhu rd rs1 (rvImmI w)
    | 6 => .load .lwu rd rs1 (rvImmI w)
    | _ => .illegal
  | 0x23 => if f3 < 4 then .store (2 ^ f3) rs2 rs1 (rvImmS w) else .illegal
  | 0x13 => rvOpImm w rd rs1
  | 0x1B => rvOpImm32 w rd rs1
  | 0x33 =>
    match rvOp f7 f3 with
    | some o => .op o rd rs1 rs2
    | none => .illegal
  | 0x3B =>
    if f7 = 4 ∧ f3 = 4 ∧ rs2 = 0 then .unary .zextH rd rs1
    else match rvOp32 f7 f3 with
      | some o => .op o rd rs1 rs2
      | none => .illegal
  | 0x2F => rvAmo w rd rs1 rs2
  | 0x0F =>
    match f3 with
    | 0 => .fence (getF w 24 4) (getF w 20 4) (decide ((getF w 28 4 : BitVec 4) = 8))
    | 1 => .fenceI
    | _ => .illegal
  | 0x73 => rvSystem w rd rs1 rs2
  | _ => .illegal

/-- The register of a three-bit field of a compressed RISC-V word. -/
def rvcReg (w : BitVec 16) (lo : Nat) : Reg := (getF w lo 3 : BitVec 3).setWidth 5 + 8#5

/-- A compressed RISC-V word, expanded (RV64C). -/
def decodeRv16 (w : BitVec 16) : RvInstr :=
  let b (k : Nat) : BitVec 1 := getF w k 1
  let rd : Reg := getF w 7 5
  let rs2 : Reg := getF w 2 5
  let r7 := rvcReg w 7
  let r2 := rvcReg w 2
  let imm6 : Word := sext ((getF w 12 1 : BitVec 1) ++ (getF w 2 5 : BitVec 5))
  let shamt : Word := zext ((getF w 12 1 : BitVec 1) ++ (getF w 2 5 : BitVec 5))
  let offW : Word := zext ((getF w 5 1 : BitVec 1) ++ (getF w 10 3 : BitVec 3) ++ (getF w 6 1 : BitVec 1) ++ 0#2)
  let offD : Word := zext ((getF w 5 2 : BitVec 2) ++ (getF w 10 3 : BitVec 3) ++ 0#3)
  let offJ : Word := sext (b 12 ++ b 8 ++ (getF w 9 2 : BitVec 2) ++ b 6 ++ b 7 ++ b 2 ++ b 11 ++ (getF w 3 3 : BitVec 3) ++ 0#1)
  let offB : Word := sext (b 12 ++ (getF w 5 2 : BitVec 2) ++ b 2 ++ (getF w 10 2 : BitVec 2) ++ (getF w 3 2 : BitVec 2) ++ 0#1)
  match (getF w 0 2 : BitVec 2).toNat, (getF w 13 3 : BitVec 3).toNat with
  | 0, 0 =>
    let n : Word := zext ((getF w 7 4 : BitVec 4) ++ (getF w 11 2 : BitVec 2) ++ b 5 ++ b 6 ++ 0#2)
    if n = 0 then .illegal else .opImm .add r2 2#5 n
  | 0, 2 => .load .lw r2 r7 offW
  | 0, 3 => .load .ld r2 r7 offD
  | 0, 6 => .store 4 r2 r7 offW
  | 0, 7 => .store 8 r2 r7 offD
  | 1, 0 => .opImm .add rd rd imm6
  | 1, 1 => if rd = 0 then .illegal else .opImm .addw rd rd imm6
  | 1, 2 => .opImm .add rd 0#5 imm6
  | 1, 3 =>
    if rd = 2#5 then
      let n : Word := sext (b 12 ++ (getF w 3 2 : BitVec 2) ++ b 5 ++ b 2 ++ b 6 ++ 0#4)
      if n = 0 then .illegal else .opImm .add 2#5 2#5 n
    else if imm6 = 0 then .illegal else .lui rd (imm6 <<< 12)
  | 1, 4 =>
    match (getF w 10 2 : BitVec 2).toNat with
    | 0 => .opImm .srl r7 r7 shamt
    | 1 => .opImm .sra r7 r7 shamt
    | 2 => .opImm .and r7 r7 imm6
    | _ =>
      match (getF w 12 1 : BitVec 1).toNat, (getF w 5 2 : BitVec 2).toNat with
      | 0, 0 => .op .sub r7 r7 r2
      | 0, 1 => .op .xor r7 r7 r2
      | 0, 2 => .op .or r7 r7 r2
      | 0, 3 => .op .and r7 r7 r2
      | 1, 0 => .op .subw r7 r7 r2
      | 1, 1 => .op .addw r7 r7 r2
      | _, _ => .illegal
  | 1, 5 => .jal 0#5 offJ
  | 1, 6 => .branch .beq r7 0#5 offB
  | 1, 7 => .branch .bne r7 0#5 offB
  | 2, 0 => .opImm .sll rd rd shamt
  | 2, 2 =>
    if rd = 0 then .illegal
    else .load .lw rd 2#5 (zext ((getF w 2 2 : BitVec 2) ++ b 12 ++ (getF w 4 3 : BitVec 3) ++ 0#2))
  | 2, 3 =>
    if rd = 0 then .illegal
    else .load .ld rd 2#5 (zext ((getF w 2 3 : BitVec 3) ++ b 12 ++ (getF w 5 2 : BitVec 2) ++ 0#3))
  | 2, 4 =>
    if b 12 = 0 then
      if rs2 = 0 then (if rd = 0 then .illegal else .jalr 0#5 rd 0) else .op .add rd 0#5 rs2
    else if rs2 = 0 then (if rd = 0 then .ebreak else .jalr 1#5 rd 0)
    else .op .add rd rd rs2
  | 2, 6 => .store 4 rs2 2#5 (zext ((getF w 7 2 : BitVec 2) ++ (getF w 9 4 : BitVec 4) ++ 0#2))
  | 2, 7 => .store 8 rs2 2#5 (zext ((getF w 7 3 : BitVec 3) ++ (getF w 10 3 : BitVec 3) ++ 0#3))
  | _, _ => .illegal

/-- The reeve's instruction from the 32 bits at its program counter, and its length. -/
noncomputable def decodeReeve (w : BitVec 32) : Instr × Nat :=
  if getF w 0 2 ≠ 3#2 then (.reeveInstruction (decodeRv16 (w.setWidth 16)) true, 2)
  else match lookupRow xkryRows w with
    | some i => (i, 4)
    | none => (.reeveInstruction (decodeRv32 w) false, 4)

/-! ## Bytes -/

/-- A little-endian value of bytes (R2). -/
def leValue : List Byte → Nat
  | [] => 0
  | b :: bs => b.toNat + 256 * leValue bs

/-- The `n` low bytes of a value, little-endian (R2). -/
def leBytes : Nat → Nat → List Byte
  | 0, _ => []
  | n + 1, x => BitVec.ofNat 8 x :: leBytes n (x / 256)

/-- The length of a hand instruction from its first halfword (R79, Table 4.1). -/
def handLength (first : Nat) : Nat := if first % 2 = 0 then 2 else if first % 4 = 1 then 4 else 8

/-- A hand instruction from the bytes at the program counter up to the end of its block, and its length.  Bytes past
the end of the block are not there to be read (R80). -/
noncomputable def decodeHand (bytes : List Byte) : Option (Instr × Nat) :=
  if bytes.length < 2 then none else
  let len := handLength (leValue (bytes.take 2))
  if bytes.length < len then none else
  let w := leValue (bytes.take len)
  let i :=
    if len = 2 then decode16 (BitVec.ofNat 16 w)
    else if len = 4 then decode32 (BitVec.ofNat 32 w)
    else decode64 (BitVec.ofNat 64 w)
  i.map fun j => (j, len)

/-! ## The encoder -/

/-- The words of an instruction. -/
inductive Enc where
  | none
  | half (w : BitVec 16)
  | word (w : BitVec 32)
  | double (w : BitVec 64)
  | xkry (w : BitVec 32)
  deriving DecidableEq, Repr

/-- A TILE doubleword (Tables 4.13, 4.14). -/
def tileWord (mode : BitVec 2) (f : BitVec 3) (rep : BitVec 4) (im : BitVec 10) (sa : Reg) (sub : BitVec 6) (m : BitVec 3)
    (vb va : Reg) : BitVec 64 :=
  0x000000FD00000003 ||| putF mode 30 ||| putF f 27 ||| putF rep 23 ||| putF im 13 ||| putF sa 8 ||| putF sub 58 |||
    putF m 55 ||| putF vb 45 ||| putF va 40

/-- The fields `d` at bit 7, `a` at bit 15, `b` at bit 20. -/
def putDAB (base : BitVec 32) (d : BitVec 5) (a : BitVec 5) (b : BitVec 5) : BitVec 32 :=
  base ||| putF d 7 ||| putF a 15 ||| putF b 20
/-- The fields `d` at bit 8, `a` at bit 13, `b` at bit 18. -/
def putDAB2 (base : BitVec 32) (d : BitVec 5) (a : BitVec 5) (b : BitVec 5) : BitVec 32 :=
  base ||| putF d 8 ||| putF a 13 ||| putF b 18
/-- The fields `d` at bit 8, `a` at bit 13. -/
def putDA (base : BitVec 32) (d : BitVec 5) (a : BitVec 5) : BitVec 32 :=
  base ||| putF d 8 ||| putF a 13
/-- The fields `d` at bit 8, `a` at bit 13, `i` at bit 21. -/
def putDAI (base : BitVec 32) (d : BitVec 5) (a : BitVec 5) (im : BitVec 11) : BitVec 32 :=
  base ||| putF d 8 ||| putF a 13 ||| putF im 21
/-- The fields `d` at bit 8, `a` at bit 13, `i` at bit 21. -/
def putDAI2 (base : BitVec 32) (d : BitVec 5) (a : BitVec 5) (im : BitVec 6) : BitVec 32 :=
  base ||| putF d 8 ||| putF a 13 ||| putF im 21
/-- The fields `d` at bit 8, `i` at bit 13. -/
def putDI (base : BitVec 32) (d : BitVec 5) (im : BitVec 19) : BitVec 32 :=
  base ||| putF d 8 ||| putF im 13
/-- The fields `b` at bit 8, `a` at bit 13, `i` at bit 21. -/
def putBAI (base : BitVec 32) (b : BitVec 5) (a : BitVec 5) (im : BitVec 11) : BitVec 32 :=
  base ||| putF b 8 ||| putF a 13 ||| putF im 21
/-- The fields `d` at bit 8, `a` at bit 13, `b` at bit 18, `q` at bit 23, `w` at bit 31. -/
def putDABQW (base : BitVec 32) (d : BitVec 5) (a : BitVec 5) (b : BitVec 5) (q : BitVec 3) (w : BitVec 1) : BitVec 32 :=
  base ||| putF d 8 ||| putF a 13 ||| putF b 18 ||| putF q 23 ||| putF w 31
/-- The fields `d` at bit 8, `a` at bit 13, `q` at bit 23, `w` at bit 31. -/
def putDAQW (base : BitVec 32) (d : BitVec 5) (a : BitVec 5) (q : BitVec 3) (w : BitVec 1) : BitVec 32 :=
  base ||| putF d 8 ||| putF a 13 ||| putF q 23 ||| putF w 31
/-- The fields `a` at bit 13, `b` at bit 18, `q` at bit 23, `w` at bit 31. -/
def putABQW (base : BitVec 32) (a : BitVec 5) (b : BitVec 5) (q : BitVec 3) (w : BitVec 1) : BitVec 32 :=
  base ||| putF a 13 ||| putF b 18 ||| putF q 23 ||| putF w 31
/-- The fields `a` at bit 8, `b` at bit 13, `o` at bit 21. -/
def putABO (base : BitVec 32) (a : BitVec 5) (b : BitVec 5) (o : BitVec 11) : BitVec 32 :=
  base ||| putF a 8 ||| putF b 13 ||| putF o 21
/-- The fields `d` at bit 8, `o` at bit 13. -/
def putDO (base : BitVec 32) (d : BitVec 5) (o : BitVec 19) : BitVec 32 :=
  base ||| putF d 8 ||| putF o 13
/-- The fields `d` at bit 8, `c` at bit 20. -/
def putDC (base : BitVec 32) (d : BitVec 5) (c : BitVec 12) : BitVec 32 :=
  base ||| putF d 8 ||| putF c 20
/-- The fields `d` at bit 8, `a` at bit 13, `c` at bit 20. -/
def putDAC (base : BitVec 32) (d : BitVec 5) (a : BitVec 5) (c : BitVec 12) : BitVec 32 :=
  base ||| putF d 8 ||| putF a 13 ||| putF c 20
/-- The fields `q` at bit 23. -/
def putQ (base : BitVec 32) (q : BitVec 3) : BitVec 32 :=
  base ||| putF q 23
/-- The fields `a` at bit 13, `q` at bit 23. -/
def putAQ (base : BitVec 32) (a : BitVec 5) (q : BitVec 3) : BitVec 32 :=
  base ||| putF a 13 ||| putF q 23
/-- The fields `d` at bit 8, `q` at bit 23. -/
def putDQ (base : BitVec 32) (d : BitVec 5) (q : BitVec 3) : BitVec 32 :=
  base ||| putF d 8 ||| putF q 23
/-- The fields `a` at bit 13. -/
def putA (base : BitVec 32) (a : BitVec 5) : BitVec 32 :=
  base ||| putF a 13
/-- The fields `d` at bit 8. -/
def putD (base : BitVec 32) (d : BitVec 5) : BitVec 32 :=
  base ||| putF d 8
/-- The fields `i` at bit 8. -/
def putI (base : BitVec 32) (im : BitVec 24) : BitVec 32 :=
  base ||| putF im 8
/-- The fields `d` at bit 8, `a` at bit 13, `b` at bit 18, `m` at bit 23, `f` at bit 26. -/
def putDABMF (base : BitVec 32) (d : BitVec 5) (a : BitVec 5) (b : BitVec 5) (m : BitVec 3) (f : BitVec 3) : BitVec 32 :=
  base ||| putF d 8 ||| putF a 13 ||| putF b 18 ||| putF m 23 ||| putF f 26
/-- The fields `d` at bit 8, `a` at bit 13, `i` at bit 18, `m` at bit 23, `f` at bit 26. -/
def putDAIMF (base : BitVec 32) (d : BitVec 5) (a : BitVec 5) (im : BitVec 5) (m : BitVec 3) (f : BitVec 3) : BitVec 32 :=
  base ||| putF d 8 ||| putF a 13 ||| putF im 18 ||| putF m 23 ||| putF f 26
/-- The fields `d` at bit 8, `a` at bit 13, `m` at bit 23, `f` at bit 26. -/
def putDAMF (base : BitVec 32) (d : BitVec 5) (a : BitVec 5) (m : BitVec 3) (f : BitVec 3) : BitVec 32 :=
  base ||| putF d 8 ||| putF a 13 ||| putF m 23 ||| putF f 26
/-- The fields `d` at bit 8, `a` at bit 13, `b` at bit 18, `m` at bit 23. -/
def putDABM (base : BitVec 32) (d : BitVec 5) (a : BitVec 5) (b : BitVec 5) (m : BitVec 3) : BitVec 32 :=
  base ||| putF d 8 ||| putF a 13 ||| putF b 18 ||| putF m 23
/-- The fields `d` at bit 8, `a` at bit 13, `m` at bit 23. -/
def putDAM (base : BitVec 32) (d : BitVec 5) (a : BitVec 5) (m : BitVec 3) : BitVec 32 :=
  base ||| putF d 8 ||| putF a 13 ||| putF m 23
/-- The fields `d` at bit 8, `b` at bit 18, `m` at bit 23. -/
def putDBM (base : BitVec 32) (d : BitVec 5) (b : BitVec 5) (m : BitVec 3) : BitVec 32 :=
  base ||| putF d 8 ||| putF b 18 ||| putF m 23
/-- The fields `d` at bit 8, `i` at bit 18, `m` at bit 23. -/
def putDIM (base : BitVec 32) (d : BitVec 5) (im : BitVec 5) (m : BitVec 3) : BitVec 32 :=
  base ||| putF d 8 ||| putF im 18 ||| putF m 23
/-- The fields `d` at bit 8, `b` at bit 18. -/
def putDB (base : BitVec 32) (d : BitVec 5) (b : BitVec 5) : BitVec 32 :=
  base ||| putF d 8 ||| putF b 18
/-- The fields `d` at bit 8, `m` at bit 23. -/
def putDM (base : BitVec 32) (d : BitVec 5) (m : BitVec 3) : BitVec 32 :=
  base ||| putF d 8 ||| putF m 23
/-- The fields `d` at bit 8, `a` at bit 13, `k` at bit 18, `m` at bit 23, `l` at bit 26, `q` at bit 29. -/
def putDAKMLQ (base : BitVec 32) (d : BitVec 5) (a : BitVec 5) (k : BitVec 5) (m : BitVec 3) (l : BitVec 3) (q : BitVec 3) : BitVec 32 :=
  base ||| putF d 8 ||| putF a 13 ||| putF k 18 ||| putF m 23 ||| putF l 26 ||| putF q 29
/-- The fields `a` at bit 13, `b` at bit 18, `q` at bit 23. -/
def putABQ (base : BitVec 32) (a : BitVec 5) (b : BitVec 5) (q : BitVec 3) : BitVec 32 :=
  base ||| putF a 13 ||| putF b 18 ||| putF q 23
/-- The fields `d` at bit 8, `a` at bit 13, `m` at bit 23, `e` at bit 26. -/
def putDAME (base : BitVec 32) (d : BitVec 5) (a : BitVec 5) (m : BitVec 3) (e : BitVec 3) : BitVec 32 :=
  base ||| putF d 8 ||| putF a 13 ||| putF m 23 ||| putF e 26
/-- The fields `d` at bit 8, `a` at bit 13, `b` at bit 18, `m` at bit 23, `e` at bit 26. -/
def putDABME (base : BitVec 32) (d : BitVec 5) (a : BitVec 5) (b : BitVec 5) (m : BitVec 3) (e : BitVec 3) : BitVec 32 :=
  base ||| putF d 8 ||| putF a 13 ||| putF b 18 ||| putF m 23 ||| putF e 26
/-- The fields `d` at bit 8, `b` at bit 18, `m` at bit 23, `e` at bit 26. -/
def putDBME (base : BitVec 32) (d : BitVec 5) (b : BitVec 5) (m : BitVec 3) (e : BitVec 3) : BitVec 32 :=
  base ||| putF d 8 ||| putF b 18 ||| putF m 23 ||| putF e 26
/-- The fields `a` at bit 13, `m` at bit 23, `e` at bit 26. -/
def putAME (base : BitVec 32) (a : BitVec 5) (m : BitVec 3) (e : BitVec 3) : BitVec 32 :=
  base ||| putF a 13 ||| putF m 23 ||| putF e 26
/-- The fields `a` at bit 13, `b` at bit 18. -/
def putAB (base : BitVec 32) (a : BitVec 5) (b : BitVec 5) : BitVec 32 :=
  base ||| putF a 13 ||| putF b 18
/-- The fields `d` at bit 8, `a` at bit 13, `b` at bit 18, `e` at bit 26. -/
def putDABE (base : BitVec 32) (d : BitVec 5) (a : BitVec 5) (b : BitVec 5) (e : BitVec 3) : BitVec 32 :=
  base ||| putF d 8 ||| putF a 13 ||| putF b 18 ||| putF e 26
/-- The fields `b` at bit 5. -/
def putBs (base : BitVec 16) (b : BitVec 5) : BitVec 16 :=
  base ||| putF b 5
/-- The fields `b` at bit 5, `i` at bit 10. -/
def putBIs (base : BitVec 16) (b : BitVec 5) (im : BitVec 6) : BitVec 16 :=
  base ||| putF b 5 ||| putF im 10
/-- The fields `i` at bit 10. -/
def putIs (base : BitVec 16) (im : BitVec 6) : BitVec 16 :=
  base ||| putF im 10
/-- The fields `b` at bit 5, `c` at bit 10. -/
def putBCs (base : BitVec 16) (b : BitVec 5) (c : BitVec 5) : BitVec 16 :=
  base ||| putF b 5 ||| putF c 10

/-- The words of an instruction, from Tables 3.7, 4.2 to 4.16, 4.20, 4.21 and 11.2; nothing for a step that has no encoding in
the manual (a RISC-V word is the RISC-V specification's). -/
def encode : Instr → Enc
  | .registerWrite _ _ => .none
  | .qctlWrite _ _ => .none
  | .qkickWrite _ _ _ => .none
  | .qstatClearStopped _ => .none
  | .slotHeaderRead _ => .none
  | .slotHeaderReread _ => .none
  | .placeFarm _ => .none
  | .quantumExpiry _ => .none
  | .preemptSave _ => .none
  | .farmResume _ => .none
  | .setDone _ => .none
  | .farmKill _ => .none
  | .rexitWrite _ _ => .none
  | .holdSafePoint _ => .none
  | .heldEntry _ => .none
  | .stopTakesEffect _ => .none
  | .abandonOff _ => .none
  | .waitConditionMet _ => .none
  | .yieldExpiry _ => .none
  | .blockFetchArrival _ => .none
  | .nextBufferFill _ => .none
  | .kwaitComplete _ => .none
  | .rename _ => .none
  | .microOpIssue _ => .none
  | .microOpStarved _ => .none
  | .rowWritten _ _ => .none
  | .retire _ => .none
  | .returnQueueWrite _ => .none
  | .branchQueueOutcome _ => .none
  | .scalarStorePerform _ => .none
  | .elementPerform _ => .none
  | .migrationRewalk _ => .none
  | .migrationHoldTimeout _ => .none
  | .domainInvalidate _ => .none
  | .invalidateAckTimeout _ => .none
  | .tokenRefill => .none
  | .consumedReset => .none
  | .tokenGrant _ => .none
  | .readRequest _ => .none
  | .writeRequest _ => .none
  | .readReply _ _ => .none
  | .writeReply _ _ => .none
  | .hostCasCompletion _ _ _ => .none
  | .copyChunkComplete _ _ _ => .none
  | .vwaitReread _ => .none
  | .vwaitTimeout _ => .none
  | .wfinReread _ => .none
  | .wfinTimeout _ => .none
  | .groupCreate _ => .none
  | .groupDestroy _ => .none
  | .whistleInput _ => .none
  | .whistleBlow _ _ _ => .none
  | .retentionExpiry _ _ _ => .none
  | .dropNotice _ => .none
  | .delivery _ => .none
  | .deliveryKeepExpiry _ _ _ => .none
  | .instanceAccept _ _ => .none
  | .flitReceive _ _ _ => .none
  | .remoteRequest _ => .none
  | .remoteReply _ => .none
  | .remoteTimeout _ _ => .none
  | .hostRequest _ _ _ _ => .none
  | .bar2Access _ _ _ _ _ => .none
  | .preciseFaultPark _ => .none
  | .impreciseFaultPark _ => .none
  | .replay _ => .none
  | .recheckMismatch _ _ _ => .none
  | .recheckResolve _ _ => .none
  | .foulWindowReset _ _ => .none
  | .foulBenchClear _ _ => .none
  | .coreMigrate _ _ => .none
  | .violation _ _ _ => .none
  | .attestation _ => .none
  | .controllerUpdate _ _ => .none
  | .powerClamp _ => .none
  | .thermalThrottle _ _ => .none
  | .thermalShutdown _ => .none
  | .gheartWrite _ _ => .none
  | .fallbackEntry _ => .none
  | .dramRefresh _ _ => .none
  | .derate _ _ => .none
  | .scrub _ _ => .none
  | .calibration _ => .none
  | .deviceReset => .none
  | .bootStage _ => .none
  | .partitionLoad _ _ _ => .none
  | .endCompletionAdd _ => .none
  | .kbc d a b => .xkry (putDAB 0x0000000B d a b)
  | .kgo d a b => .xkry (putDAB 0x0000100B d a b)
  | .kstop d a b => .xkry (putDAB 0x0000200B d a b)
  | .kwait d a b => .xkry (putDAB 0x0000300B d a b)
  | .kstat d a b => .xkry (putDAB 0x0000400B d a b)
  | .kread d a b => .xkry (putDAB 0x0000500B d a b)
  | .kwrite d a b => .xkry (putDAB 0x0000600B d a b)
  | .kframe d a b => .xkry (putDAB 0x0000700B d a b)
  | .krest d a b => .xkry (putDAB 0x0200700B d a b)
  | .klaunch d a b => .xkry (putDAB 0x0400700B d a b)
  | .kquiet d a b => .xkry (putDAB 0x0600700B d a b)
  | .kevt d a b => .xkry (putDAB 0x0800700B d a b)
  | .add d a b => .word (putDAB2 0x00000005 d a b)
  | .sub d a b => .word (putDAB2 0x04000005 d a b)
  | .and d a b => .word (putDAB2 0x08000005 d a b)
  | .or d a b => .word (putDAB2 0x0C000005 d a b)
  | .xor d a b => .word (putDAB2 0x10000005 d a b)
  | .sll d a b => .word (putDAB2 0x14000005 d a b)
  | .srl d a b => .word (putDAB2 0x18000005 d a b)
  | .sra d a b => .word (putDAB2 0x1C000005 d a b)
  | .slt d a b => .word (putDAB2 0x20000005 d a b)
  | .sltn d a b => .word (putDAB2 0x24000005 d a b)
  | .mul d a b => .word (putDAB2 0x28000005 d a b)
  | .mulh d a b => .word (putDAB2 0x2C000005 d a b)
  | .mulhn d a b => .word (putDAB2 0x30000005 d a b)
  | .div d a b => .word (putDAB2 0x34000005 d a b)
  | .divn d a b => .word (putDAB2 0x38000005 d a b)
  | .rem d a b => .word (putDAB2 0x3C000005 d a b)
  | .remn d a b => .word (putDAB2 0x40000005 d a b)
  | .min d a b => .word (putDAB2 0x44000005 d a b)
  | .max d a b => .word (putDAB2 0x48000005 d a b)
  | .minn d a b => .word (putDAB2 0x4C000005 d a b)
  | .maxn d a b => .word (putDAB2 0x50000005 d a b)
  | .clz d a => .word (putDA 0x54000005 d a)
  | .ctz d a => .word (putDA 0x58000005 d a)
  | .popc d a => .word (putDA 0x5C000005 d a)
  | .addi d a im => .word (putDAI 0x00000009 d a im)
  | .andi d a im => .word (putDAI 0x00040009 d a im)
  | .ori d a im => .word (putDAI 0x00080009 d a im)
  | .xori d a im => .word (putDAI 0x000C0009 d a im)
  | .slti d a im => .word (putDAI 0x00100009 d a im)
  | .slli d a im => .word (putDAI2 0x00140009 d a im)
  | .srli d a im => .word (putDAI2 0x00180009 d a im)
  | .srai d a im => .word (putDAI2 0x001C0009 d a im)
  | .lim d im => .word (putDI 0x0000000D d im)
  | .lsh d im => .word (putDI 0x00000011 d im)
  | .ldB d a im => .word (putDAI 0x00000015 d a im)
  | .ldH d a im => .word (putDAI 0x00040015 d a im)
  | .ldW d a im => .word (putDAI 0x00080015 d a im)
  | .ldD d a im => .word (putDAI 0x000C0015 d a im)
  | .ldBn d a im => .word (putDAI 0x00100015 d a im)
  | .ldHn d a im => .word (putDAI 0x00140015 d a im)
  | .ldWn d a im => .word (putDAI 0x00180015 d a im)
  | .stB b a im => .word (putBAI 0x00000019 b a im)
  | .stH b a im => .word (putBAI 0x00040019 b a im)
  | .stW b a im => .word (putBAI 0x00080019 b a im)
  | .stD b a im => .word (putBAI 0x000C0019 b a im)
  | .amoSwap d a b q w => .word (putDABQW 0x0000001D d a b q w)
  | .amoAdd d a b q w => .word (putDABQW 0x0400001D d a b q w)
  | .amoAnd d a b q w => .word (putDABQW 0x0800001D d a b q w)
  | .amoOr d a b q w => .word (putDABQW 0x0C00001D d a b q w)
  | .amoXor d a b q w => .word (putDABQW 0x1000001D d a b q w)
  | .amoMax d a b q w => .word (putDABQW 0x1400001D d a b q w)
  | .amoMin d a b q w => .word (putDABQW 0x1800001D d a b q w)
  | .amoMaxn d a b q w => .word (putDABQW 0x1C00001D d a b q w)
  | .amoMinn d a b q w => .word (putDABQW 0x2000001D d a b q w)
  | .amoCas d a b q w => .word (putDABQW 0x2400001D d a b q w)
  | .ldAcq d a q w => .word (putDAQW 0x2800001D d a q w)
  | .stRel a b q w => .word (putABQW 0x2C00001D a b q w)
  | .beq a b o => .word (putABO 0x00000021 a b o)
  | .bne a b o => .word (putABO 0x00040021 a b o)
  | .blt a b o => .word (putABO 0x00080021 a b o)
  | .bge a b o => .word (putABO 0x000C0021 a b o)
  | .bltn a b o => .word (putABO 0x00100021 a b o)
  | .bgen a b o => .word (putABO 0x00140021 a b o)
  | .bbs a b o => .word (putABO 0x00180021 a b o)
  | .bbc a b o => .word (putABO 0x001C0021 a b o)
  | .jal d o => .word (putDO 0x00000025 d o)
  | .jalr d a im => .word (putDAI 0x00000029 d a im)
  | .csrr d c => .word (putDC 0x0000002D d c)
  | .csrw d a c => .word (putDAC 0x0004002D d a c)
  | .csrs d a c => .word (putDAC 0x0008002D d a c)
  | .csrc d a c => .word (putDAC 0x000C002D d a c)
  | .vtype d a => .word (putDA 0x00000031 d a)
  | .setvl d a => .word (putDA 0x04000031 d a)
  | .setrc d a => .word (putDA 0x08000031 d a)
  | .setvt d a => .word (putDA 0x0C000031 d a)
  | .setvn d a => .word (putDA 0x10000031 d a)
  | .fenceSv => .word 0x00000035
  | .fenceVs => .word 0x04000035
  | .fenceAcq q => .word (putQ 0x08000035 q)
  | .fenceRel q => .word (putQ 0x0C000035 q)
  | .fenceAr q => .word (putQ 0x10000035 q)
  | .lnkPut a q => .word (putAQ 0x14000035 a q)
  | .lnkGet d q => .word (putDQ 0x18000035 d q)
  | .sig a => .word (putA 0x1C000035 a)
  | .bar => .word 0x20000035
  | .fbar => .word 0x24000035
  | .claim d => .word (putD 0x28000035 d)
  | .wfe d => .word (putD 0x2C000035 d)
  | .endHand => .word 0x00000039
  | .stop => .word 0x04000039
  | .go a => .word (putA 0x08000039 a)
  | .bfetch a => .word (putA 0x0C000039 a)
  | .ecall => .word 0x10000039
  | .ebreak => .word 0x14000039
  | .yield => .word 0x18000039
  | .hint im => .word (putI 0x000000F9 im)
  | .vaddVv d a b m f => .word (putDABMF 0x00000041 d a b m f)
  | .vaddVs d a b m f => .word (putDABMF 0x20000041 d a b m f)
  | .vaddVi d a im m f => .word (putDAIMF 0x40000041 d a im m f)
  | .vsubVv d a b m f => .word (putDABMF 0x60000041 d a b m f)
  | .vsubVs d a b m f => .word (putDABMF 0x80000041 d a b m f)
  | .vrsubVs d a b m f => .word (putDABMF 0xA0000041 d a b m f)
  | .vrsubVi d a im m f => .word (putDAIMF 0xC0000041 d a im m f)
  | .vneg d a m f => .word (putDAMF 0xE0000041 d a m f)
  | .vmulVv d a b m f => .word (putDABMF 0x00000045 d a b m f)
  | .vmulVs d a b m f => .word (putDABMF 0x20000045 d a b m f)
  | .vmulhVv d a b m f => .word (putDABMF 0x40000045 d a b m f)
  | .vmulhVs d a b m f => .word (putDABMF 0x60000045 d a b m f)
  | .vmulhnVv d a b m f => .word (putDABMF 0x80000045 d a b m f)
  | .vmulhnVs d a b m f => .word (putDABMF 0xA0000045 d a b m f)
  | .vdivVv d a b m f => .word (putDABMF 0xC0000045 d a b m f)
  | .vdivVs d a b m f => .word (putDABMF 0xE0000045 d a b m f)
  | .vremVv d a b m f => .word (putDABMF 0x00000049 d a b m f)
  | .vremVs d a b m f => .word (putDABMF 0x20000049 d a b m f)
  | .vminVv d a b m f => .word (putDABMF 0x40000049 d a b m f)
  | .vminVs d a b m f => .word (putDABMF 0x60000049 d a b m f)
  | .vmaxVv d a b m f => .word (putDABMF 0x80000049 d a b m f)
  | .vmaxVs d a b m f => .word (putDABMF 0xA0000049 d a b m f)
  | .vabs d a m f => .word (putDAMF 0xC0000049 d a m f)
  | .vsaddVv d a b m f => .word (putDABMF 0xE0000049 d a b m f)
  | .vandVv d a b m f => .word (putDABMF 0x0000004D d a b m f)
  | .vandVs d a b m f => .word (putDABMF 0x2000004D d a b m f)
  | .vorVv d a b m f => .word (putDABMF 0x4000004D d a b m f)
  | .vorVs d a b m f => .word (putDABMF 0x6000004D d a b m f)
  | .vxorVv d a b m f => .word (putDABMF 0x8000004D d a b m f)
  | .vxorVs d a b m f => .word (putDABMF 0xA000004D d a b m f)
  | .vnot d a m f => .word (putDAMF 0xC000004D d a m f)
  | .vssubVv d a b m f => .word (putDABMF 0xE000004D d a b m f)
  | .vsllVv d a b m f => .word (putDABMF 0x00000051 d a b m f)
  | .vsllVs d a b m f => .word (putDABMF 0x20000051 d a b m f)
  | .vsllVi d a im m f => .word (putDAIMF 0x40000051 d a im m f)
  | .vsrlVv d a b m f => .word (putDABMF 0x60000051 d a b m f)
  | .vsrlVs d a b m f => .word (putDABMF 0x80000051 d a b m f)
  | .vsrlVi d a im m f => .word (putDAIMF 0xA0000051 d a im m f)
  | .vsraVv d a b m f => .word (putDABMF 0xC0000051 d a b m f)
  | .vsraVi d a im m f => .word (putDAIMF 0xE0000051 d a im m f)
  | .vfmaVv d a b m f => .word (putDABMF 0x00000055 d a b m f)
  | .vfmaVs d a b m f => .word (putDABMF 0x20000055 d a b m f)
  | .vfmsVv d a b m f => .word (putDABMF 0x40000055 d a b m f)
  | .vfmsVs d a b m f => .word (putDABMF 0x60000055 d a b m f)
  | .vfnmaVv d a b m f => .word (putDABMF 0x80000055 d a b m f)
  | .vfnmaVs d a b m f => .word (putDABMF 0xA0000055 d a b m f)
  | .vfnmsVv d a b m f => .word (putDABMF 0xC0000055 d a b m f)
  | .vfnmsVs d a b m f => .word (putDABMF 0xE0000055 d a b m f)
  | .vceqVv d a b m f => .word (putDABMF 0x00000059 d a b m f)
  | .vceqVs d a b m f => .word (putDABMF 0x20000059 d a b m f)
  | .vcneVv d a b m f => .word (putDABMF 0x40000059 d a b m f)
  | .vcltVv d a b m f => .word (putDABMF 0x60000059 d a b m f)
  | .vcltVs d a b m f => .word (putDABMF 0x80000059 d a b m f)
  | .vcleVv d a b m f => .word (putDABMF 0xA0000059 d a b m f)
  | .vcleVs d a b m f => .word (putDABMF 0xC0000059 d a b m f)
  | .vcgtVs d a b m f => .word (putDABMF 0xE0000059 d a b m f)
  | .vsel d a b m => .word (putDABM 0x0000005D d a b m)
  | .vmand d a b => .word (putDAB2 0x2000005D d a b)
  | .vmor d a b => .word (putDAB2 0x4000005D d a b)
  | .vmxor d a b => .word (putDAB2 0x6000005D d a b)
  | .vmandn d a b => .word (putDAB2 0x8000005D d a b)
  | .vmnot d a => .word (putDA 0xA000005D d a)
  | .vmpopc d a m => .word (putDAM 0xC000005D d a m)
  | .vmfirst d a m => .word (putDAM 0xE000005D d a m)
  | .vmvVv d a m => .word (putDAM 0x00000061 d a m)
  | .vbcVs d b m => .word (putDBM 0x20000061 d b m)
  | .vbcVi d im m => .word (putDIM 0x40000061 d im m)
  | .vmvSv d a b => .word (putDAB2 0x60000061 d a b)
  | .vmvVs d b => .word (putDB 0x80000061 d b)
  | .vclass d a m f => .word (putDAMF 0xA0000061 d a m f)
  | .viota d a m => .word (putDAM 0xC0000061 d a m)
  | .vidx d m => .word (putDM 0xE0000061 d m)
  | .vcvt d a m f => .word (putDAMF 0x00000065 d a m f)
  | .vsqrt d a m f => .word (putDAMF 0x20000065 d a m f)
  | .vrcp d a m f => .word (putDAMF 0x40000065 d a m f)
  | .vrsqrt d a m f => .word (putDAMF 0x60000065 d a m f)
  | .vexp2 d a m f => .word (putDAMF 0x80000065 d a m f)
  | .vlog2 d a m f => .word (putDAMF 0xA0000065 d a m f)
  | .vtanh d a m f => .word (putDAMF 0xC0000065 d a m f)
  | .vround d a m f => .word (putDAMF 0xE0000065 d a m f)
  | .vredsumO d a b m f => .word (putDABMF 0x00000069 d a b m f)
  | .vredsumT d a b m f => .word (putDABMF 0x20000069 d a b m f)
  | .vredsumU d a b m f => .word (putDABMF 0x40000069 d a b m f)
  | .vredmaxT d a b m f => .word (putDABMF 0x60000069 d a b m f)
  | .vredminT d a b m f => .word (putDABMF 0x80000069 d a b m f)
  | .vredandT d a b m f => .word (putDABMF 0xA0000069 d a b m f)
  | .vredorT d a b m f => .word (putDABMF 0xC0000069 d a b m f)
  | .vredxorT d a b m f => .word (putDABMF 0xE0000069 d a b m f)
  | .vscanAdd d a b m f => .word (putDABMF 0x0000006D d a b m f)
  | .vscanAddx d a b m f => .word (putDABMF 0x2000006D d a b m f)
  | .vscanMax d a b m f => .word (putDABMF 0x4000006D d a b m f)
  | .vscanMin d a b m f => .word (putDABMF 0x6000006D d a b m f)
  | .vscanAddU d a b m f => .word (putDABMF 0x8000006D d a b m f)
  | .vrowred d a m f => .word (putDAMF 0xA000006D d a m f)
  | .vscaleVs d a b m f => .word (putDABMF 0xC000006D d a b m f)
  | .vcomp d a m => .word (putDAM 0x00000071 d a m)
  | .vexpand d a m => .word (putDAM 0x20000071 d a m)
  | .vperm d a b m => .word (putDABM 0x40000071 d a b m)
  | .vrev d a m => .word (putDAM 0x60000071 d a m)
  | .vrotVs d a b m => .word (putDABM 0x80000071 d a b m)
  | .vbcaste d a b m => .word (putDABM 0xA0000071 d a b m)
  | .vzip d a b m => .word (putDABM 0xC0000071 d a b m)
  | .vunzip d a m => .word (putDAM 0xE0000071 d a m)
  | .vsort d a m f => .word (putDAMF 0x00000075 d a m f)
  | .vsortd d a m f => .word (putDAMF 0x20000075 d a m f)
  | .vsortkv d a b m f => .word (putDABMF 0x40000075 d a b m f)
  | .vtopk d a b m f => .word (putDABMF 0x60000075 d a b m f)
  | .vmerge d a b m f => .word (putDABMF 0x80000075 d a b m f)
  | .vmergeu d a b m f => .word (putDABMF 0xA0000075 d a b m f)
  | .vrank d a m f => .word (putDAMF 0xC0000075 d a m f)
  | .bfPass d a k m l q => .word (putDAKMLQ 0x00000079 d a k m l q)
  | .bfLoad a b q => .word (putABQ 0x0000007D a b q)
  | .bfClr q => .word (putQ 0x0400007D q)
  | .bfStat d => .word (putD 0x0800007D d)
  | .vld d a m e => .word (putDAME 0x00000081 d a m e)
  | .vlds d a b m e => .word (putDABME 0x20000081 d a b m e)
  | .vldx d a b m e => .word (putDABME 0x40000081 d a b m e)
  | .vldq d b m e => .word (putDBME 0x60000081 d b m e)
  | .vldr d a b m e => .word (putDABME 0x80000081 d a b m e)
  | .vpf a m e => .word (putAME 0xA0000081 a m e)
  | .vgl d a b m e => .word (putDABME 0xC0000081 d a b m e)
  | .vst d a m e => .word (putDAME 0x00000085 d a m e)
  | .vsts d a b m e => .word (putDABME 0x20000085 d a b m e)
  | .vstx d a b m e => .word (putDABME 0x40000085 d a b m e)
  | .vstxUn d a b m e => .word (putDABME 0x60000085 d a b m e)
  | .vstq d b m e => .word (putDBME 0x80000085 d b m e)
  | .vstr d a b m e => .word (putDABME 0xA0000085 d a b m e)
  | .vsc d a b m e => .word (putDABME 0xC0000085 d a b m e)
  | .vamoAdd d a b m e => .word (putDABME 0x00000089 d a b m e)
  | .vamoMin d a b m e => .word (putDABME 0x20000089 d a b m e)
  | .vamoMax d a b m e => .word (putDABME 0x40000089 d a b m e)
  | .vamoAnd d a b m e => .word (putDABME 0x60000089 d a b m e)
  | .vamoOr d a b m e => .word (putDABME 0x80000089 d a b m e)
  | .vamoXor d a b m e => .word (putDABME 0xA0000089 d a b m e)
  | .vamoSwap d a b m e => .word (putDABME 0xC0000089 d a b m e)
  | .vamoAddUn d a b m e => .word (putDABME 0xE0000089 d a b m e)
  | .vcopy d a b m e => .word (putDABME 0x0000008D d a b m e)
  | .vwait d a b m e => .word (putDABME 0x2000008D d a b m e)
  | .vamofAdd d a b m e => .word (putDABME 0x4000008D d a b m e)
  | .vamofSwap d a b m e => .word (putDABME 0x6000008D d a b m e)
  | .vqset a b => .word (putAB 0x8000008D a b)
  | .vqget a b => .word (putAB 0xA000008D a b)
  | .wred d a b e => .word (putDABE 0x00000091 d a b e)
  | .wfin d a b => .word (putDAB2 0x20000091 d a b)
  | .wpoll d a => .word (putDA 0x40000091 d a)
  | .mma sa im rep f mode a m => .double (tileWord mode f rep im sa 0 m 0#5 a)
  | .mlatch b f => .double (tileWord 0#2 f 0#4 0#10 0#5 1 0#3 b 0#5)
  | .mzero sa im rep => .double (tileWord 0#2 0#3 rep im sa 2 0#3 0#5 0#5)
  | .mrd d sa im rep f => .double (tileWord 0#2 f rep im sa 3 0#3 0#5 d)
  | .mwr sa im rep a f => .double (tileWord 0#2 f rep im sa 4 0#3 0#5 a)
  | .mld sa im rep b => .double (tileWord 0#2 0#3 rep im sa 5 0#3 0#5 b)
  | .mst sa im rep b => .double (tileWord 0#2 0#3 rep im sa 6 0#3 0#5 b)
  | .cAdd b => .half (putBs 0x0002 b)
  | .cSub b => .half (putBs 0x0004 b)
  | .cAnd b => .half (putBs 0x0006 b)
  | .cOr b => .half (putBs 0x0008 b)
  | .cXor b => .half (putBs 0x000A b)
  | .cAddi b im => .half (putBIs 0x000C b im)
  | .cSlli im => .half (putIs 0x000E im)
  | .cLd b im => .half (putBIs 0x0010 b im)
  | .cSt b im => .half (putBIs 0x0012 b im)
  | .cMv b => .half (putBs 0x0014 b)
  | .cBeqz b im => .half (putBIs 0x0016 b im)
  | .cBnez b im => .half (putBIs 0x0018 b im)
  | .cVadd b => .half (putBs 0x001A b)
  | .cVmul b => .half (putBs 0x001C b)
  | .cVfma b c => .half (putBCs 0x001E b c)
  | .reeveInstruction _ _ => .none
  | .handDataCacheEviction _ _ => .none
  | .hostReadCompletion _ _ _ => .none
  | .powerClampRelease => .none
  | .jtagDebugRequest _ _ => .none

/-- The instruction that the words of an encoding stand for. -/
noncomputable def decodeEnc : Enc → Option Instr
  | .none => Option.none
  | .half w => decode16 w
  | .word w => decode32 w
  | .double w => decode64 w
  | .xkry w => lookupRow xkryRows w

/-- The bytes of an encoding, in the order of memory (R2). -/
def Enc.bytes : Enc → List Byte
  | .none => []
  | .half w => leBytes 2 w.toNat
  | .word w => leBytes 4 w.toNat
  | .double w => leBytes 8 w.toNat
  | .xkry w => leBytes 4 w.toNat

/-- True of a word of custom-0, which only the reeve decodes (R52). -/
def isXkryWord (w : Nat) : Bool := w % 128 = 0x0B

/-- The instruction the decoder reads from an instruction whose bits are `w` (bits above `nbits` are zero).  A word of
custom-0 is given to the reeve's decoder, any other to the hand's: no hand form has 0x0B in its low seven bits. -/
noncomputable def decodeTableWord (nbits w : Nat) : Option Instr :=
  let x := w % 2 ^ nbits
  if isXkryWord x then some (decodeReeve (BitVec.ofNat 32 x)).1
  else (decodeHand (leBytes 8 x)).map Prod.fst

end Sys2Proof
end

