-- ==== Sys2Proof/Machine/Keccak.lean ====
section
/-!
DEFINITION. SHAKE256 of FIPS 202, which digests images and packets (R344, R357): the permutation Keccak-f[1600] and the sponge.
-/

namespace Sys2Proof.Machine

/-- Round constants of Keccak-f[1600] (FIPS 202). -/
def keccakRc : List Word :=
  [0x0000000000000001, 0x0000000000008082, 0x800000000000808A, 0x8000000080008000, 0x000000000000808B, 0x0000000080000001,
   0x8000000080008081, 0x8000000000008009, 0x000000000000008A, 0x0000000000000088, 0x0000000080008009, 0x000000008000000A] ++
  [0x000000008000808B, 0x800000000000008B, 0x8000000000008089, 0x8000000000008003, 0x8000000000008002, 0x8000000000000080,
   0x000000000000800A, 0x800000008000000A, 0x8000000080008081, 0x8000000000008080, 0x0000000080000001, 0x8000000080008008]

/-- Rotation of lane x + 5y (FIPS 202, rho). -/
def keccakRot : List Nat :=
  [0, 1, 62, 28, 27, 36, 44, 6, 55, 20, 3, 10, 43, 25, 39, 41, 45, 15, 21, 8, 18, 2, 61, 56, 14]

/-- Lane (x, y) of a state of 25 lanes. -/
def lane (a : List Word) (x y : Nat) : Word := a.getD (x % 5 + 5 * (y % 5)) 0

/-- A state from its lanes. -/
def lanes (f : Nat → Nat → Word) : List Word := (List.range 25).map fun i => f (i % 5) (i / 5)

/-- One round: theta, rho, pi, chi, iota. -/
def keccakRound (a : List Word) (rc : Word) : List Word :=
  let c := (List.range 5).map fun x => lane a x 0 ^^^ lane a x 1 ^^^ lane a x 2 ^^^ lane a x 3 ^^^ lane a x 4
  let d := (List.range 5).map fun x => c.getD ((x + 4) % 5) 0 ^^^ (c.getD ((x + 1) % 5) 0).rotateLeft 1
  let t := lanes fun x y => lane a x y ^^^ d.getD x 0
  let b := lanes fun x y =>
    let u := (x + 3 * y) % 5
    (lane t u x).rotateLeft (keccakRot.getD (u + 5 * x) 0)
  let e := lanes fun x y => lane b x y ^^^ (~~~(lane b (x + 1) y) &&& lane b (x + 2) y)
  e.set 0 (e.getD 0 0 ^^^ rc)

/-- Keccak-f[1600]. -/
def keccakF (a : List Word) : List Word := keccakRc.foldl keccakRound a

/-- A state with a block of 136 bytes added. -/
def absorb (a : List Word) (block : List Byte) : List Word :=
  (List.range 25).map fun i => a.getD i 0 ^^^ (if i < 17 then BitVec.ofNat 64 (leValue ((block.drop (8 * i)).take 8)) else 0)

/-- The sponge over the padded message. -/
def spongeRun : Nat → List Word → List Byte → List Word
  | 0, a, _ => a
  | n + 1, a, m => spongeRun n (keccakF (absorb a (m.take 136))) (m.drop 136)

/-- SHAKE256 with 256-bit output: 32 bytes. -/
def shake256 (m : List Byte) : List Byte :=
  let n := m.length / 136 + 1
  let pad := n * 136 - m.length
  let tail : List Byte := if pad = 1 then [0x9F] else [0x1F] ++ List.replicate (pad - 2) 0 ++ [0x80]
  let a := spongeRun n (List.replicate 25 0) (m ++ tail)
  (a.take 4).flatMap fun w => leBytes 8 w.toNat

end Sys2Proof.Machine
end

