-- ==== Sys2Proof/Machine/State.lean ====
section
/-!
DEFINITION. The state of one FYJ-40 device: every piece of state the manual names (INVENTORY.md lists each with its rule),
as plain data, and the state after reset.  Sparse tables are lists of (number, value) pairs with rising numbers; what an
unlisted number holds is the default named where the table is read (Ops.lean).
-/

namespace Sys2Proof.Machine

/-- A table by number: an unlisted number holds a default. -/
abbrev Table (α : Type) := List (Nat × α)

/-- Bytes by address in canonical form: addresses strictly rising, no listed byte 0.  An unlisted address reads 0 (log 3). -/
abbrev Memory := List Host.Cell

/-! ## Where a byte of an access lies (R273) -/

/-- The performing point and the location of one byte. -/
inductive Loc where
  /-- A byte of a core's scratchpad (R206). -/
  | spad (core off : Nat)
  /-- A byte of local DRAM, cacheable or through an NC leaf (R209, R211). -/
  | dram (pa : Nat) (nc : Bool)
  /-- A byte of host memory at a PCIe bus address (R212). -/
  | host (addr : Nat)
  /-- A byte of the device register pages (Table 9.2). -/
  | reg (off : Nat)
  /-- A byte of another node's memory (R305). -/
  | remote (node pa : Nat) (nc : Bool)
  deriving DecidableEq, Repr

/-! ## Hands -/

/-- Hand states (Table 3.5), in the order of their codes. -/
inductive HState where
  | idle | block | fetch | wait | held | parked | frozen | off
  deriving DecidableEq, Repr

/-- Resume states (R48), in the order of their codes. -/
inductive Resume where
  | idle | block | fetch
  deriving DecidableEq, Repr

/-- What a hand in Wait waits for (Table 3.5). -/
inductive WaitOn where
  | wfe (d : Reg)
  | bar
  | fbar
  /-- `yield`, with the `cyc` at which it began (R70). -/
  | yield (start : Word)
  /-- `lnk.put` with the value; `east` tells `l0` from `l1` (R72). -/
  | lnkPut (east : Bool) (v : Word)
  /-- `lnk.get`; `fromWest` tells `l2` from `l3` (R72). -/
  | lnkGet (d : Reg) (fromWest : Bool)
  deriving DecidableEq, Repr

/-- Who placed a hold that is not the placer's (R63, R328). -/
inductive Holder where
  | reeve
  /-- The steward, who migrates the core (R328). -/
  | steward
  deriving DecidableEq, Repr

/-- A block buffer: the 64-byte block at `base`, or the sub-status and address of its failed fetch (R67, R69). -/
structure Buf where
  base   : Nat
  bytes  : List Byte
  failed : Option Nat
  deriving DecidableEq, Repr

/-- Element-wise operations of two operands (R162, R163). -/
inductive EwOp where
  | add | sub | rsub | mul | mulh | mulhn | div | rem | min | max | sadd | ssub | and | or | xor | sll | srl | sra
  deriving DecidableEq, Repr

/-- Element-wise operations of one operand (R162, R169, R171, R172). -/
inductive EwUn where
  | neg | abs | not | cvt | sqrt | rcp | rsqrt | exp2 | log2 | tanh | round
  deriving DecidableEq, Repr

/-- Fused forms (R164). -/
inductive FmaOp where
  | ma | ms | nma | nms
  deriving DecidableEq, Repr

/-- Comparisons (R165). -/
inductive CmpOp where
  | eq | ne | lt | le | gt
  deriving DecidableEq, Repr

/-- Mask operations (R167). -/
inductive MaskOp where
  | and | or | xor | andn | not
  deriving DecidableEq, Repr

/-- Reductions (R195). -/
inductive RedOp where
  | sumO | sumT | sumU | max | min | and | or | xor
  deriving DecidableEq, Repr

/-- Scans (R196). -/
inductive ScanOp where
  | add | addx | max | min | addU
  deriving DecidableEq, Repr

/-- Permuting forms (R198). -/
inductive PermOp where
  | comp | expand | perm | rev | rot | bcaste | zip | unzip
  deriving DecidableEq, Repr

/-- Addressing of a vector load or store (R231, R232). -/
inductive VAddr where
  | unit | strided | indexed | stream | row
  deriving DecidableEq, Repr

/-- The second source of a V form: a vector register, or a captured scalar or immediate. -/
inductive Src where
  | reg (n : Reg)
  | val (x : Word)
  deriving DecidableEq, Repr

/-- What a dispatched instruction does. -/
inductive VKind where
  | ew (o : EwOp) | un (o : EwUn) | fma (o : FmaOp) | cmp (o : CmpOp) | sel | mask (o : MaskOp) | mpopc | mfirst
  | mv | bc | mvSv | mvVs | cls | iota | idx
  | red (o : RedOp) | scan (o : ScanOp) | rowred | scale
  | permute (o : PermOp)
  | sort (desc : Bool) | sortkv | topk | merge (unique : Bool) | rank
  | pass | bfLoad | bfClr | bfStat
  | load (a : VAddr) | store (a : VAddr) (unordered : Bool) | pf | gl | sc
  | amo (o : AmoOp) (ret unordered : Bool)
  | copy | vwait | qset | qget
  | wred | wfin | wpoll
  | mma | mlatch | mzero | mrd | mwr | mld | mst
  deriving DecidableEq, Repr

/-- An element access that waits for another node or the host: bytes gathered so far and places still to read. -/
structure Awaited where
  tag  : Nat
  locs : List Loc
  got  : List Byte
  /-- The elements that the request serves, where it serves some of an instruction's (R211, R241, R246). -/
  elems : List Nat := []
  deriving DecidableEq, Repr

/-- A dispatched instruction in the VIQ or the replay queue, with its captured operands (Table 5.1). -/
structure Entry where
  kind  : VKind
  pc    : Word
  d     : Reg
  a     : Reg
  b     : Reg
  m     : BitVec 3
  /-- Second source of a V form. -/
  src   : Src
  /-- Width code of a memory or engine form; slot of a pass; repeat of a TILE form less one. -/
  ew    : Nat
  mode  : Nat
  imm   : Nat
  vtype : Word
  vl    : Word
  rc    : Word
  vt    : Word
  vstart : Word
  bpc   : Word
  /-- Captured format word or stage program. -/
  fw    : Word
  /-- Captured S[sa]. -/
  sa    : Word
  /-- Captured S[sb]. -/
  sb    : Word
  accb  : Nat
  accn  : Nat
  det   : Bool
  rck   : Bool
  /-- The operator descriptor a pass uses (R177). -/
  oper  : Word × Word
  /-- Scalar register the return queue writes, if any (R103). -/
  ret   : Option Reg
  /-- Taken by the execute stream: its VIQ entry is free (R100). -/
  taken : Bool
  /-- First unperformed element (R316), and completed stages of a pass (R185). -/
  first : Nat
  stages : Nat
  /-- Core-wide stamp taken at dispatch (R154). -/
  age   : Nat
  /-- Core-wide stamp taken at rename: the order in which instructions come to the window (R154). -/
  came : Nat
  /-- Micro-ops that have entered the window, and micro-ops whose row is written (R153 to R157). -/
  renamed : Nat
  written : Nat
  /-- Values of the elements performed so far from `vstart` on, the newest first; of a `vwait` the elements met. -/
  acc   : List Word
  /-- Elements that the mask left out when they came up, for the mask can be a register of chunk bits (R248). -/
  skipped : BitVec 8192
  /-- Old values of the elements of an atomic that have performed ahead of `first`, since they lie on another node (R241). -/
  ahead : Table Word
  /-- Bytes of the misaligned element under way that have been read or written so far (R276). -/
  torn  : Table Byte
  /-- The offset that an indexed stream gave the element under way (R239). -/
  offs  : Option Word
  /-- A fault found at an element: cause, sub-status, address, element (R315). -/
  fault : Option (Nat × Nat × Word × Nat)
  awaiting : Option Awaited
  /-- Reference tick at which the migration hold of an element began, by element (R217). -/
  heldAt : Table Nat
  /-- `cyc` of the first read of a `vwait` or `wfin` (R250, R303). -/
  since : Option Word
  /-- Result mismatches noted by recheck: the two units (R326). -/
  dispute : Option (Nat × Nat)
  /-- Its third execution has settled the results (R326). -/
  settled : Bool
  deriving DecidableEq, Repr

/-- A scalar store in the store buffer (R106, R115): byte i goes to location i.  `age` is the core-wide stamp when it was executed, so
that it is earlier than a dispatched instruction with the same stamp. -/
structure PendingStore where
  age   : Nat
  locs  : List Loc
  bytes : List Byte
  deriving DecidableEq, Repr

/-- What the access stream does when an outstanding access completes (R305, R212). -/
inductive AccessKind where
  /-- `acq` marks an acquire at device scope or wider, which removes the data cache lines when it performs (R116, R210). -/
  | load (d : Reg) (n : Nat) (signed acq : Bool)
  | amo (o : AmoOp) (d : Reg) (n q : Nat)
  /-- A misaligned load of this device's memory under way: `got` holds each byte as last read, and each is read at a time of its own
  (R276). -/
  | torn (d : Reg) (n : Nat) (signed : Bool)
  /-- `end`'s step on the completion word (R339). -/
  | add
  /-- The fetch of the block at `base` into the current buffer, or into the next one (R67, R69). -/
  | fetch (base : Nat)
  deriving DecidableEq, Repr

/-- The outstanding remote or host access of an access stream: bytes gathered so far and places still to read. -/
structure OutAccess where
  tag  : Nat
  kind : AccessKind
  addr : Word
  len  : Nat
  locs : List Loc
  got  : List Byte
  deriving DecidableEq, Repr

/-- A chunk under way: its bytes are read from elsewhere, or are read or written one by one, or its writes wait to be acknowledged
(R248, R276). -/
inductive Chunk where
  | reading (a : Awaited)
  | taking (got : Table Byte)
  | putting (bytes : List Byte) (left : List Nat)
  | written
  deriving DecidableEq, Repr

/-- An active copy (R247-R249). -/
structure Copy where
  /-- PC of the `vcopy`. -/
  pc    : Word
  /-- Core-wide stamp of the `vcopy` (R154), by which a `fence.rel` knows it as earlier or later (R282). -/
  age   : Nat
  src   : Word
  dst   : Word
  /-- Bytes of a chunk, and from the first chunk to the last. -/
  size  : Nat
  len   : Nat
  /-- The register of the chunk bits. -/
  d     : Reg
  /-- Chunks whose bit is not set, in ascending order: number and slot of the bit. -/
  left  : List (Nat × Nat)
  flight : List (Nat × Chunk)
  /-- The lowest faulting chunk: number, cause, sub-status, address. -/
  fault : Option (Nat × Nat × Nat × Word)
  /-- Reference tick at which the migration hold of a chunk began, by chunk (R217). -/
  heldAt : Table Nat
  deriving DecidableEq, Repr

/-- A value of the return queue: the register it is written to, and the count of a tile writer (R103, R199). -/
structure Ret where
  d     : Option Reg
  v     : Word
  count : Option Nat
  deriving DecidableEq, Repr

/-- A migration hold of an access stream or a reeve: when it began, and the fault that it becomes (R217). -/
structure MigHold where
  since : Nat
  cause : Nat
  addr  : Word
  deriving DecidableEq, Repr

/-- The frame header (Table 17.2). -/
structure Frame where
  replay : Nat
  resume : Resume
  cls    : Nat
  sub    : Nat
  cause  : Nat
  apc    : Word
  fpc    : Word
  addr   : Word
  elem   : Nat
  cyc    : Word
  deriving DecidableEq, Repr

/-- A fault of the access stream that waits for older work (R314, R315): class, cause, sub-status, address, access-stream PC
to record. -/
structure PFault where
  cls   : Nat
  cause : Nat
  sub   : Nat
  addr  : Word
  apc   : Word
  deriving DecidableEq, Repr

/-- What a `fence.rel` has marked (R282): its scope, and the core-wide stamp that it took, by which the hand's stores, dispatched
instructions and copies are earlier or later. -/
structure RelMark where
  scope  : Nat
  age    : Nat
  deriving DecidableEq, Repr

/-- One hand (R44, R48, Tables 2.8, 4.15, 4.17). -/
structure Hand where
  st      : HState
  resume  : Resume
  pc      : Word
  blk     : Nat
  cur     : Option Buf
  nxt     : Option Buf
  s       : Vector Word 32
  v       : Vector VReg 32
  blatch  : BitVec 65536
  bexp    : BitVec 32768
  linkW   : List Word
  linkE   : List Word
  q       : Vector (BitVec 256) 8
  slots   : Vector (Option (Word × Word)) 4
  ptag    : BitVec 8192
  vtype   : Word
  vl      : Word
  rc      : Word
  vt      : Word
  vstart  : Word
  bpc     : Word
  lastd   : Word
  fflags  : Word
  det     : Bool
  rck     : Bool
  fcv     : Bool
  farm    : Nat
  strip   : Word
  accb    : Nat
  accn    : Nat
  spb     : Nat
  spn     : Nat
  /-- Granted windows (R90): accumulator base and rows, share base and units. -/
  gAccb   : Nat
  gAccn   : Nat
  gSpb    : Nat
  gSpn    : Nat
  part    : Nat
  evt     : Word
  rerr    : Word
  /-- Pending stop request; true is an abandon (R56). -/
  stopReq : Option Bool
  /-- Pending hold request of its reeve or of the steward (R63, R328). -/
  holdReq : Option Holder
  /-- Which of them holds it, in Held (R63). -/
  heldBy  : Option Holder
  /-- A placer hold stands, pending or, in Held, in effect (R38, R323, R332). -/
  placed  : Bool
  /-- A hold has reached its safe point and the drain of R64 runs. -/
  draining : Bool
  /-- `fence.acq` or `fence.ar` has begun to wait at the program counter (R283). -/
  fencing : Bool
  /-- An abandon has stopped the hand; it goes Off once its work is done (R56). -/
  leaving : Bool
  /-- Arrived at a barrier; true is `fbar` (R75, R76). -/
  arrived : Option Bool
  waiting : Option WaitOn
  /-- An `end` waits for the hand's earlier work (R339, R340). -/
  ending  : Bool
  rq      : List Entry
  /-- Values that retired instructions have put into the return queue (R103). -/
  retq    : List Ret
  sb      : List PendingStore
  pfault  : Option PFault
  /-- Tags of scalar writes to other nodes not yet acknowledged (R305). -/
  unacked : List Nat
  /-- Tags of scalar writes sent to a base die and not yet replied to (R211, R225). -/
  dieWrites : List Nat
  /-- The same of the writes of dispatched instructions and copies. -/
  vunacked : List Nat
  vdieWrites : List Nat
  /-- What later stores wait for (R282). -/
  marks   : List RelMark
  acc     : Option OutAccess
  /-- The fetch under way into the next buffer (R69). -/
  nacc    : Option OutAccess
  copies  : List (Nat × Copy)
  /-- Registers that hold chunk bits, with the widest scope of a bit set (R248). -/
  chunks  : Table Nat
  frame   : Frame
  /-- A migration hold of the access stream (R217). -/
  migHold : Option MigHold
  /-- Replays in a row of the oldest instruction (R324). -/
  replays : Nat
  /-- Pages, with the cause of a fault there, for which the hand's next access walks: an access there has faulted, or is held (R217,
  R218). -/
  walks   : List (Nat × Nat)
  /-- Vector register bytes with an uncorrectable error, by register·1,024 + byte, and bytes of the B latch, mantissas then
  exponents (R325). -/
  vpoison : List Nat
  lpoison : List Nat
  deriving DecidableEq, Repr

/-- A frame header of zeros. -/
def Frame.empty : Frame :=
  { replay := 0, resume := .idle, cls := 0, sub := 0, cause := 0, apc := 0, fpc := 0, addr := 0, elem := 0, cyc := 0 }

/-- A hand that is not placed (Table 3.5: Off).  Its registers hold the values of Table 2.8 (log 4). -/
def Hand.empty : Hand :=
  { st := .off, resume := .idle, pc := 0, blk := 0, cur := none, nxt := none
    s := Vector.replicate 32 0, v := Vector.replicate 32 0, blatch := 0, bexp := 0, linkW := [], linkE := []
    q := Vector.replicate 8 0, slots := Vector.replicate 4 none, ptag := 0
    vtype := 0, vl := 1, rc := 0, vt := 1, vstart := 0, bpc := 0, lastd := 0, fflags := 0
    det := false, rck := false, fcv := false, farm := 0, strip := 0
    accb := 0, accn := 0, spb := 0, spn := 0, gAccb := 0, gAccn := 0, gSpb := 0, gSpn := 0, part := 0
    evt := 0, rerr := 0, stopReq := none, holdReq := none, heldBy := none, placed := false, draining := false, fencing := false
    leaving := false, arrived := none, waiting := none, ending := false, rq := [], retq := [], sb := [], pfault := none
    unacked := [], dieWrites := [], vunacked := [], vdieWrites := [], marks := [], acc := none, nacc := none
    copies := [], chunks := [], frame := Frame.empty, migHold := none, replays := 0, walks := [], vpoison := [], lpoison := [] }

/-! ## Reeves -/

/-- Privilege modes (R45). -/
inductive Mode where
  | u | s | m
  deriving DecidableEq, Repr

/-- What a reeve waits for when its access crosses the fabric or the host port. -/
inductive ReeveAccess where
  | load (d : Reg) (n : Nat) (signed : Bool)
  /-- `acq` marks an acquire, as in the two below (R279, R284). -/
  | lr (d : Reg) (n : Nat) (acq : Bool) (loc : Loc)
  | amo (o : AmoOp) (d : Reg) (n : Nat) (val : Word) (acq : Bool)
  | sc (d : Reg) (acq : Bool)
  /-- A misaligned load of this device's memory under way: each byte is read at a time of its own (R45, R276). -/
  | torn (d : Reg) (n : Nat) (signed : Bool)
  /-- A misaligned store under way: the bytes that are left, each written at a time of its own (R45, R276). -/
  | tear (bytes : List Byte)
  /-- The bytes of the next instruction. -/
  | fetch
  /-- Bytes that the instruction under way reads (`kbc`, `kwait`, `krest`, `klaunch`). -/
  | data
  deriving DecidableEq, Repr

/-- An outstanding access of a reeve (R305, R212). -/
structure ReeveOut where
  tag  : Nat
  kind : ReeveAccess
  addr : Word
  len  : Nat
  locs : List Loc
  got  : List Byte
  deriving DecidableEq, Repr

/-- A leaf as a walk read it (R214, R218). -/
structure Leaf where
  pte   : Word
  level : Nat
  deriving DecidableEq, Repr

/-- What a reeve owes its debug module: nothing, a halt, one instruction and then a halt, or the halt after that instruction (R45,
log 25). -/
inductive DebugDue where
  | none
  | halt
  | stepArmed
  | stepping
  deriving DecidableEq, Repr

/-- One reeve or steward core (R45-R47).  The machine- and supervisor-level CSRs of the RISC-V Privileged Specification
are a table by CSR number (log 5). -/
structure Reeve where
  x        : Vector Word 32
  pc       : Word
  mode     : Mode
  csr      : Table Word
  hpend    : Word
  hsig     : Word
  /-- `hfarm`: farm id and mask (Table 3.4). -/
  hfarm    : Nat
  hmask    : BitVec 16
  /-- The part of the farm that this reeve runs has started and not ended (R36). -/
  serving  : Bool
  /-- Waits in `kwait` (R57). -/
  kwaiting : Bool
  frozen   : Bool
  /-- Stops by the hand states and the steward: a halted reeve of a core in migration (R328). -/
  halted   : Bool
  wfi      : Bool
  /-- In debug mode; `dpc` holds the program counter meanwhile, and dcsr and dscratch stand in the table of CSRs (R45, log 25). -/
  debug    : Bool
  dpc      : Word
  due      : DebugDue
  out      : Option ReeveOut
  /-- Instruction bytes, and bytes of an Xkry operand, that came from another node or the host, with their address. -/
  ibuf     : Option (Word × List Byte)
  dbuf     : Option (Word × List Byte)
  /-- Tags of writes sent to other nodes and not acknowledged (R305). -/
  unacked  : List Nat
  /-- Tags of writes sent to a base die and not yet replied to (R211, R225). -/
  dieWrites : List Nat
  /-- A `kframe` has written its image, which is not complete at its performing points yet (R60). -/
  framing  : Bool
  /-- TLB: leaves by ASID·2^36 + page number (R218). -/
  tlb      : Table Leaf
  /-- Pages, with the program counter of an instruction whose access there has faulted or is held, for which it walks (R217, R218). -/
  walks    : List (Nat × Word)
  migHold : Option MigHold
  /-- Writes under way that its later reads, and its later writes, wait for: what its fences have asked (R284). -/
  fenceR   : List Nat
  fenceW   : List Nat
  part     : Nat
  deriving DecidableEq, Repr

/-- A reeve after reset (log 5: machine mode, pc 0, every CSR at its RISC-V reset value, here 0). -/
def Reeve.empty : Reeve :=
  { x := Vector.replicate 32 0, pc := 0, mode := .m, csr := [], hpend := 0, hsig := 0, hfarm := 0, hmask := 0
    serving := false, kwaiting := false, frozen := false, halted := false, wfi := false, debug := false, dpc := 0, due := .none
    out := none, ibuf := none, dbuf := none, unacked := [], dieWrites := [], framing := false, tlb := [], walks := [], migHold := none, fenceR := [], fenceW := []
    part := 0 }

/-! ## Cores -/

/-- Foul counts and benches of one core's execute units (Table 17.4b); units 0-3 are lane clusters, 4-7 row slots. -/
structure Fouls where
  count  : Table Nat
  bench  : List Nat
  /-- Rechecked instructions retired since the count's first increment (R327). -/
  window : Table Nat
  deriving DecidableEq, Repr

/-- A micro-op in the core's window (R153-R157): a row of the instruction with this age of hand `hand`. -/
structure MicroOp where
  hand : Nat
  age  : Nat
  row  : Nat
  /-- Lane cycle from which it has been ready (R155). -/
  ready : Option Nat
  /-- The unit that it issued to. -/
  unit : Option Nat
  /-- Lane cycle at which its row is written. -/
  done : Nat
  deriving DecidableEq, Repr

/-- What the sixteen hands of a core share. -/
structure CoreSt where
  spad   : Memory
  /-- Poisoned 32-byte halves of the scratchpad (R325). -/
  spoison : List Nat
  acc    : Table (BitVec 2048)
  /-- Rows of the accumulator store with an uncorrectable error (R325). -/
  apoison : List Nat
  cyc    : Word
  /-- Cycles of the core's VMU domain (R5). -/
  vmu    : Nat
  htlb   : Table Leaf
  /-- Lines of the hand data cache by PA line number, at most 1,024 (R210, Table 0.1). -/
  dcache : Table (List Byte)
  /-- Blocks of the hand instruction cache by the place of their first byte, at most 1,024 (R67, R71, Table 0.1, log 9). -/
  icache : Table (List Byte)
  /-- Lines of either cache whose data carry an uncorrectable error (R325). -/
  dpoison : List Nat
  ipoison : List Nat
  win    : List MicroOp
  /-- Hand that rename looks at first (R152). -/
  rr     : Nat
  age    : Nat
  /-- Stamp of the next instruction renamed (R154). -/
  came   : Nat
  /-- Lane cycle of the core, and the lane cycle from which each unit is free again (R155, R268). -/
  lane   : Nat
  busy   : Table Nat
  phys   : Nat
  rckcfg : Word
  fouls  : Fouls
  replays : Nat
  deriving DecidableEq, Repr

/-- A core after reset: `RCKCFG` of Table 17.4a (wlog 20, thresh 3); logical core on the physical core of its number (log 23). -/
def CoreSt.empty : CoreSt :=
  { spad := [], spoison := [], acc := [], apoison := [], cyc := 0, vmu := 0, htlb := [], dcache := [], icache := [], dpoison := [], ipoison := [], win := [], rr := 0, age := 0, came := 0
    lane := 0, busy := [], phys := 0, rckcfg := 0x140003#64, fouls := { count := [], bench := [], window := [] }
    replays := 0 }

/-! ## Partitions, queues and farms -/

/-- A launch packet (Table 1.14) and its 128 bytes as taken. -/
structure Packet where
  raw     : List Byte
  child   : Bool
  rck     : Bool
  det     : Bool
  prio    : Nat
  kind    : Nat
  seq     : Nat
  hentry  : Word
  rentry  : Word
  args    : Word
  done    : Word
  strips  : Nat
  spkib   : Nat
  accrows : Nat
  hmax    : Nat
  hmin    : Nat
  aff     : BitVec 128
  seed    : Word
  whistle : Nat
  parent  : Word
  deriving DecidableEq, Repr

/-- A launch queue (Tables 2.2 to 2.4). -/
structure Queue where
  base    : Word
  en      : Bool
  lsize   : Nat
  head    : BitVec 32
  badseq  : BitVec 32
  reason  : Nat
  bad     : Bool
  stopped : Bool
  /-- Last published sequence number, while any is published (R27). -/
  pub     : Option (BitVec 32)
  producer : Producer
  /-- Re-reads done of the slot at `head`, once its header has been read without a match (R28). -/
  rereads : Option Nat
  readAt  : Nat
  /-- Reference tick at which a migrating page first held the read of the slot (R217). -/
  heldAt  : Option Nat
  deriving DecidableEq, Repr

/-- A queue after reset (Tables 2.2 to 2.4). -/
def Queue.empty : Queue :=
  { base := 0, en := false, lsize := 0, head := 0, badseq := 0, reason := 0, bad := false, stopped := false
    pub := none, producer := .host, rereads := none, readAt := 0, heldAt := none }

/-- `PVIOL` (Table 17.6). -/
structure Violation where
  node   : Nat
  id     : Nat
  kind   : Nat
  code   : Nat
  detail : Word
  deriving DecidableEq, Repr

/-- A partition's registers (Tables 2.1, 9.3, 15.11, 17.6, 20.1, R310), child queue (R39) and save area (R38). -/
structure Part where
  pcore  : BitVec 128
  pquant : Nat
  psave  : Word
  psaven : Nat
  pchild : Word
  proot  : Word
  prto   : Nat
  pmem   : BitVec 2304
  pdead  : BitVec 2304
  phwin  : Word
  viol   : Option Violation
  manb   : Word
  ovf    : Bool
  lost   : Bool
  next   : BitVec 32
  pimg   : BitVec 256
  /-- Child packets queued: sequence numbers from `chead`, with the farm that launched each. -/
  chead  : Nat
  ccount : Nat
  /-- Reference tick at which a migrating page first held the read of the child slot at the head (R217). -/
  cheld  : Option Nat
  /-- Save area: first unit, number of units, farm. -/
  saved  : List (Nat × Nat × Nat)
  deriving DecidableEq, Repr

/-- A partition after reset. -/
def Part.empty : Part :=
  { pcore := 0, pquant := 0, psave := 0, psaven := 0, pchild := 0, proot := 0, prto := 0, pmem := 0, pdead := 0
    phwin := 0, viol := none, manb := 0, ovf := false, lost := false, next := 0, pimg := 0, chead := 0, ccount := 0, cheld := none
    saved := [] }

/-- One hand of a placed farm (R34). -/
structure Placed where
  hid  : Nat
  spb  : Nat
  spn  : Nat
  accb : Nat
  accn : Nat
  deriving DecidableEq, Repr

/-- Where a farm is in its life (R31 to R43). -/
inductive Phase where
  /-- Taken and waiting to be placed. -/
  | waiting
  | placed
  /-- Holds issued; its images are to be written (R38). -/
  | preempting
  /-- On the partition's resume list. -/
  | saved
  deriving DecidableEq, Repr

/-- The manifest record of a farm: still to be written, sent to another node, or written, dropped or not asked for (R343). -/
inductive RecordPhase where
  | due
  | sent
  | over
  deriving DecidableEq, Repr

/-- A farm. -/
structure Farm where
  id      : Nat
  part    : Nat
  /-- Queue it came from: 0-3 of the partition, 4 the child queue. -/
  queue   : Nat
  pkt     : Packet
  phase   : Phase
  hands   : List Placed
  /-- Hands that have ended, been abandoned or been killed. -/
  gone    : List Nat
  ctr     : Nat
  /-- Cores whose reeve was started and has not exited (R36). -/
  reeves  : List Nat
  killed  : Bool
  frozen  : Bool
  abandoned : Bool
  remoteErr : Bool
  since   : Nat
  /-- Order of placement. -/
  order   : Nat
  /-- `PIMG` at placement (Table 20.2). -/
  pimg    : BitVec 256
  /-- The request about the completion word that is under way, and whether it reads the word (R41). -/
  doneTag : Option Nat
  reading : Bool
  /-- Done has been written while hands of the farm still run (R22). -/
  finished : Bool
  /-- Reference tick at which a migrating page first held a write for the farm (R217). -/
  heldAt  : Option Nat
  /-- The save records are written; of a farm that is restored, the records read so far and the read under way (R38). -/
  written : Bool
  fetched : List (List Byte)
  fetching : Option Awaited
  /-- What has become of the farm's manifest record (R343). -/
  record  : RecordPhase
  deriving DecidableEq, Repr

/-! ## Whistles and the fabric -/

/-- One instance at one tree node (R293-R296). -/
structure TreeInst where
  /-- Group key: partition·65,536 + group id. -/
  group    : Nat
  entry    : Nat
  n        : Nat
  inputs   : Table WInput
  started  : Nat
  /-- Tick of the first forward, and of the last (R295, R301). -/
  fwd      : Option Nat
  last     : Nat
  /-- At the root: the partial has been delivered; final or lost has been delivered. -/
  first    : Bool
  ended    : Bool
  /-- The retention window has passed after the last forward: not in flight any more. -/
  closed   : Bool
  late     : Bool
  malformed : Bool
  deriving DecidableEq, Repr

/-- A member slot's buffer for one instance, and deliveries kept for it (R292, R297, R298). -/
structure SlotInst where
  /-- Group key. -/
  group : Nat
  slot  : Nat
  n     : Nat
  /-- VA of the buffer that its `wred` named. -/
  buf   : Option Word
  /-- Deliveries to write, in order; of the first, whether its data and its header are written (R298). -/
  kept  : List WDelivery
  stage : Nat
  /-- Status bits that the deliveries written so far have set (Table 15.4). -/
  status : Nat
  /-- Reference tick at which a migrating page first held a write of the block (R217). -/
  heldAt : Option Nat
  /-- Tick at which final or lost arrived. -/
  ended : Option Nat
  deriving DecidableEq, Repr

/-- Who awaits the reply to a request that left the device (R305, R212). -/
inductive Waiter where
  | handAccess (h : Nat)
  /-- The fetch into the next buffer (R69). -/
  | handNext (h : Nat)
  | handEntry (h : Nat)
  | handCopy (h : Nat)
  | handStore (h : Nat)
  | reeve (c : Nat)
  | reeveStore (c : Nat)
  | handEnd (h : Nat)
  | placer (f : Nat)
  /-- A write of a unit of the device for a partition. -/
  | unit (p : Nat)
  deriving DecidableEq, Repr

/-- An outstanding request. -/
structure Outstanding where
  tag   : Nat
  who   : Waiter
  node  : Nat
  part  : Nat
  addr  : Word
  write : Bool
  sent  : Nat
  deriving DecidableEq, Repr

/-- A request to host memory (R212). -/
inductive HostReq where
  /-- Each carries the partition whose virtual function's requester ID it bears. -/
  | read (tag part : Nat) (addrs : List Nat)
  | write (part : Nat) (addrs : List Nat) (bytes : List Byte)
  /-- A Compare-and-Swap of the doubleword that holds the bytes, with the value `seen` expected (R212). -/
  | cas (tag part : Nat) (addrs : List Nat) (o : AmoOp) (val cmp seen : Word)
  deriving DecidableEq, Repr

/-- A remote window entry (Table 15.10). -/
structure Window where
  base   : Nat
  frames : Nat
  part   : Nat
  v      : Bool
  r      : Bool
  w      : Bool
  a      : Bool
  frozen : Bool
  deriving DecidableEq, Repr

/-! ## L2 ports and base dies -/

/-- A token bucket (R223, Table 9.7).  Tokens are counted in 1/256 of a token. -/
structure Bucket where
  borrow : Bool
  rate   : Nat
  depth  : Nat
  tokens : Nat
  used   : Nat
  deriving DecidableEq, Repr

/-- A bucket after reset (Table 9.7). -/
def Bucket.empty : Bucket := { borrow := false, rate := 0, depth := 0, tokens := 0, used := 0 }

/-- One L2 slice port: buckets by partition, commons, derate, the partitions whose transfers wait, and the tokens that each holds for
them (R224). -/
structure Port where
  buckets : Table Bucket
  reserve : Nat
  depth   : Nat
  level   : Nat
  derate  : Nat
  wait    : List Nat
  credit  : Table Nat
  /-- The port has scaled its rates in its last tick (R352). -/
  scaled  : Bool
  /-- Telemetry: tokens granted, and of them borrowed from the commons (R355). -/
  granted : Nat
  borrowed : Nat
  deriving DecidableEq, Repr

/-- A port after reset. -/
def Port.empty : Port := { buckets := [], reserve := 0, depth := 0, level := 0, derate := 0, scaled := false, wait := [], credit := [], granted := 0, borrowed := 0 }

/-- A misaligned access of the host: a write or a read, its places, its bytes, and which are still to be written or read: each is an
event of its own (R276). -/
structure HostTorn where
  wr    : Bool
  locs  : List Loc
  bytes : List Byte
  left  : List Nat
  deriving DecidableEq, Repr

/-- A request of a requester to a channel of a base die (Table 9.9): it takes its tag when it is sent.  `id` is the number of
the access that it serves; a read serves the bytes at `pas`.  A read-modify-write and a conditional write travel as a write whose
reply carries what it answers, and `agent` is whose reservation they concern (log 49). -/
structure DieReq where
  id        : Nat
  requester : Nat
  granule   : Nat
  write     : Bool
  mask      : BitVec 64
  data      : List Byte
  pas       : List Nat
  op        : MemOp
  agent     : Nat
  val       : List Byte
  cmp       : List Byte
  size      : Nat
  deriving DecidableEq, Repr

/-- A reply packet (Table 9.9): `bad` are the poisoned halves of the granule, and the status is 1 where there is one. -/
structure DieReply where
  id        : Nat
  requester : Nat
  tag       : Nat
  granule   : Nat
  write     : Bool
  bad       : List Nat
  data      : List Byte
  pas       : List Nat
  /-- What a read-modify-write or a conditional write answers. -/
  answer    : Option (List Byte)
  deriving DecidableEq, Repr

/-- One channel: requests at the requesters in order, and replies under way in the order performed. -/
structure Channel where
  waiting : List DieReq
  replies : List DieReply
  deriving DecidableEq, Repr

/-- A channel after reset. -/
def Channel.empty : Channel := { waiting := [], replies := [] }

/-! ## Operation -/

/-- A core group's controller (R349, R351, Table 20.4a).  `acc` is I, in 1/16 W. -/
structure Ctrl where
  gpwr     : Nat
  kp       : Nat
  ki       : Nat
  top      : Nat
  bottom   : Nat
  power    : Nat
  fallback : Bool
  step     : Nat
  acc      : Int
  beat     : Nat
  hot      : Bool
  /-- Telemetry: the last temperature measured, in °C (R355). -/
  temp     : Nat
  deriving DecidableEq, Repr

/-- A controller after reset (Table 20.4a). -/
def Ctrl.empty : Ctrl :=
  { gpwr := 0x1E0, kp := 0, ki := 0, top := 16, bottom := 0, power := 0, fallback := false, step := 8, acc := 0
    beat := 0, hot := false, temp := 0 }

/-- A black-box entry (Table 20.3). -/
structure BoxEntry where
  tick   : Nat
  source : Nat
  part   : Nat
  sub    : Nat
  event  : Nat
  detail : Nat
  deriving DecidableEq, Repr

/-- What has been reported to the steward (log 15). -/
inductive Report where
  | violation (part : Nat) (v : Violation)
  | queueStopped (q : Nat)
  | doneFailed (f : Nat)
  | childSlot (part : Nat)
  | memberDead (part node : Nat)
  | migrationNeeded (core : Nat)
  | remoteWindow (part node : Nat)
  /-- A word that the physical function writes into the steward mailbox (Table 15.13). -/
  | mailbox (off : Nat) (v : Word)
  | fatalThermal
  deriving DecidableEq, Repr

/-- The hidden part of a saved context image (R319, log 10). -/
structure SavedFrame where
  hand  : Hand
  check : Word
  deriving DecidableEq, Repr

/-- Which call of the steward waits for other nodes. -/
inductive CallKind where
  | invalidate (first pages : Nat)
  | create (g : Group)
  | destroy (g : Group)
  | attest
  deriving DecidableEq, Repr

/-- A call of a partition supervisor that the steward is serving (R221, R289, R345): its number, the nodes that have not answered, the tick
of the broadcast, the members marked dead, the outcome that a block has given, the round of questions, and what the call keeps: the nodes that
hold a copy (create), the instances found in flight (destroy), or the numbers of the writes of a signature (attest). -/
structure Call where
  core    : Nat
  part    : Nat
  tag     : Nat
  kind    : CallKind
  waiting : List Nat
  sent    : Nat
  dead    : Nat
  code    : Nat
  round   : Nat
  insts   : List Nat
  deriving DecidableEq, Repr

/-- What the steward has read for a call from other nodes and the host, by address and length (none where it could not be read), and the
read under way (R289, R345). -/
structure StewardRead where
  got    : List (Word × Nat × Option (List Byte))
  want   : Option (Word × Nat × Awaited)
  heldAt : Option Nat
  deriving DecidableEq, Repr

/-- Which agent moves next. -/
inductive Turn where
  | hand (h : Nat)
  | reeve (c : Nat)
  | event (i : Instr)
  deriving DecidableEq, Repr

/-- The machine. -/
structure State where
  /-- Agents that move next, in order; when it is empty a free value picks one (log 1). -/
  agenda   : List Turn
  /-- The hand, and the reeve, whose instruction `exec` runs (log 1). -/
  curHand  : Nat
  curReeve : Nat
  /-- The engines of a hand finish what they can within the step that dispatches it (log 2). -/
  lockstep : Bool
  /-- Counter of free values (log 21). -/
  choice   : Nat
  /-- Reference ticks of the fabric block, and of each core group's oscillator: no time base is shared (R5). -/
  tick     : Nat
  gtick    : Table Nat
  mem      : Memory
  /-- Poisoned 32-byte halves of DRAM (R226). -/
  poison   : List Nat
  /-- Reservations: the agent's number and the first byte of the 8-byte granule (R244, R245; the LR of a reeve). -/
  resv     : List (Nat × Loc)
  hands    : Table Hand
  cores    : Table CoreSt
  reeves   : Table Reeve
  parts    : Table Part
  queues   : Table Queue
  farms    : List Farm
  nextFarm : Nat
  nextOrder : Nat
  groups   : List Group
  /-- Keys of groups that take no contribution: not yet registered everywhere, or being destroyed (R289). -/
  barred   : List Nat
  insts    : List TreeInst
  slots    : List SlotInst
  /-- Instance counters by group key·4096 + slot (R292). -/
  counters : Table Nat
  inq      : List FabMsg
  outq     : List (Nat × FabMsg)
  outs     : List Outstanding
  nextTag  : Nat
  hostq    : List HostReq
  /-- Remote windows by source partition·64 + entry (Table 15.10). -/
  windows  : Table Window
  routes   : Table Word
  /-- Flits awaiting retransmission, by fabric port (R304). -/
  retries  : Table Nat
  ports    : Table Port
  chans    : Table Channel
  ctrls    : Table Ctrl
  box      : List BoxEntry
  /-- Package flash: the black box copied at boot after an unclean shutdown, and that one is to be copied (R347). -/
  flash    : List BoxEntry
  unclean  : Bool
  clamp    : Option Nat
  /-- Every core clock stopped; only a reset recovers (Table 20.4). -/
  shutdown : Bool
  /-- Refresh rate factor by stack, activation cap, channels in calibration (R352, R354). -/
  refresh  : Table Nat
  actCap   : Nat
  calib    : List Nat
  /-- Next boot stage to run, and the stage at which the boot halted (R356). -/
  boot     : Nat
  bootHalt : Option Nat
  /-- One-time index counter of the device key (R346). -/
  xmss     : Nat
  /-- Non-fatal AER errors logged and MSI-X vectors pending (R310). -/
  aer      : Nat
  msix     : List Nat
  /-- Words of the MSI-X tables, by function·2^24 + BAR0 offset (Table 15.13, log 14). -/
  msixTab  : Table Word
  /-- The value that the last host or debug read returned; none for Unsupported Request (R310). -/
  hostRead : Option Word
  /-- Misaligned accesses of the host under way, by function (R276, R310). -/
  hostTorn : Table HostTorn
  /-- The multiple of 65,536 reference ticks at which the consumed counts restarted last (R224). -/
  consumedAt : Nat
  /-- BAR2's size code by function (R310), and the words of the steward mailbox (Table 15.13). -/
  barSizes : Table Nat
  mailbox  : Table Word
  reports  : List Report
  calls    : List Call
  reads    : Table StewardRead
  frames   : Table SavedFrame
  /-- Hands saved with a pre-empted farm or for a migration, by farm id (R38, R328). -/
  saves    : List (Nat × Hand)
  /-- Data of bench state of physical cores that left service (R328). -/
  spares   : List Nat
  deriving DecidableEq, Repr

/-- Why a step stops.  Every stop of this model is one of these. -/
inductive Fault where
  /-- A step names a hand, core, partition, queue or other unit that the device does not have (raised by the steps without an
  encoding, whose operands name units).  Safe: the device has no such step. -/
  | noSuchUnit (number : Nat)
  deriving DecidableEq, Repr

/-- Why an instruction has no meaning. -/
inductive Refusal where
  /-- Raised by the dispatcher's arm of an instruction that is not modelled yet.  Safe: nothing runs. -/
  | notModelled (mnemonic : String)
  deriving DecidableEq, Repr

/-- The device right after reset: the values of the manual's register maps; what it leaves open is in the log (3, 4, 5, 11, 21). -/
def State.reset : State :=
  { agenda := [], curHand := 0, curReeve := 0, lockstep := true, choice := 0, tick := 0, gtick := []
    mem := [], poison := [], resv := [], hands := [], cores := [], reeves := [], parts := [], queues := [], farms := []
    nextFarm := 1, nextOrder := 0, groups := [], barred := [], insts := [], slots := [], counters := [], inq := [], outq := [], outs := []
    nextTag := 0, hostq := [], windows := [], routes := [], retries := [], ports := [], chans := []
    ctrls := [], box := [], flash := [], unclean := false, clamp := none, shutdown := false, refresh := [], actCap := 0, calib := []
    boot := 1, bootHalt := none, xmss := 0, aer := 0, msix := [], msixTab := [], hostRead := none, hostTorn := [], consumedAt := 0, barSizes := [], mailbox := [], reports := [], calls := [], reads := [], frames := []
    saves := [], spares := [128, 129, 130, 131, 132, 133, 134, 135] }

end Sys2Proof.Machine
end

