-- ==== Sys2Proof/Machine/Ops.lean ====
section
/-!
DEFINITION. The named operations over memory, registers and hands that the meanings share: tables, bytes of memory, the
accessors of State, the black box, violations (R330), TAKING A FAULT (R314, R315: parking a hand), holds and stops (R50, R56,
R63, R64), leaving Held or Parked (R317), barriers (R75) and reaching Off.
-/

namespace Sys2Proof.Machine

/-- The outcome of an instruction. -/
abbrev Res := Host.Outcome State Fault Refusal

/-! ## Tables and memory -/

/-- What a number holds: the default `d` where the table lists nothing. -/
def tabGet {α : Type} (d : α) : Table α → Nat → α
  | [], _ => d
  | (k, v) :: t, n => if k = n then v else tabGet d t n

/-- A table with one number's value set. -/
def tabSet {α : Type} : Table α → Nat → α → Table α
  | [], n, x => [(n, x)]
  | (k, v) :: t, n, x =>
    if n < k then (n, x) :: (k, v) :: t else if k = n then (n, x) :: t else (k, v) :: tabSet t n x

/-- What a number holds, if the table lists it. -/
def tabFind {α : Type} : Table α → Nat → Option α
  | [], _ => none
  | (k, v) :: t, n => if k = n then some v else tabFind t n

/-- A table without a number. -/
def tabDel {α : Type} (t : Table α) (n : Nat) : Table α := t.filter fun p => p.1 != n

/-- The byte at an address; an unlisted address reads 0 (log 3). -/
def memGet : Memory → Nat → Byte
  | [], _ => 0
  | (k, v) :: t, a => if k = a then v else memGet t a

/-- Memory with one byte written, in canonical form: a zero byte is not listed. -/
def memSet : Memory → Nat → Byte → Memory
  | [], a, b => if b = 0 then [] else [(a, b)]
  | (k, v) :: t, a, b =>
    if a < k then (if b = 0 then (k, v) :: t else (a, b) :: (k, v) :: t)
    else if k = a then (if b = 0 then t else (a, b) :: t)
    else (k, v) :: memSet t a b

/-- Addresses rise strictly from `lo` on and no byte is 0. -/
def memWfFrom : Nat → Memory → Bool
  | _, [] => true
  | lo, (k, v) :: t => decide (lo ≤ k) && decide (v ≠ 0) && memWfFrom (k + 1) t

/-- The canonical form of memory. -/
def Memory.wf (m : Memory) : Bool := memWfFrom 0 m

/-- `n` bytes from an address on. -/
def memBytes (m : Memory) (a : Nat) : Nat → List Byte
  | 0 => []
  | n + 1 => memGet m a :: memBytes m (a + 1) n

/-- Memory with bytes written from an address on. -/
def memPut (m : Memory) (a : Nat) : List Byte → Memory
  | [] => m
  | b :: bs => memPut (memSet m a b) (a + 1) bs

/-- The doubleword at an address, little-endian (R2). -/
def memDword (m : Memory) (a : Nat) : Word := BitVec.ofNat 64 (leValue (memBytes m a 8))

/-- A number as a doubleword. -/
def nat64 (n : Nat) : Word := BitVec.ofNat 64 n

/-- The field [hi:lo] of a word as a number (R3). -/
def fld {w : Nat} (x : BitVec w) (hi lo : Nat) : Nat := (x.toNat >>> lo) % 2 ^ (hi - lo + 1)

/-- A number read as two's complement on `n` bits. -/
def toSigned (n x : Nat) : Int := if x % 2 ^ n < 2 ^ (n - 1) then (x % 2 ^ n : Nat) else (x % 2 ^ n : Nat) - (2 : Int) ^ n

/-- The two's complement of a whole number on `n` bits (modulo 2^n). -/
def wrapNat (n : Nat) (x : Int) : Nat := (x % (2 : Int) ^ n).toNat

/-! ## Parts of the machine -/

/-- Hand `h` (hid). -/
def State.hand (s : State) (h : Nat) : Hand := tabGet Hand.empty s.hands h
/-- The machine with hand `h` set. -/
def State.setHand (s : State) (h : Nat) (x : Hand) : State := { s with hands := tabSet s.hands h x }
/-- The hand whose instruction runs. -/
def State.me (s : State) : Hand := s.hand s.curHand
/-- The machine with the running hand set. -/
def State.setMe (s : State) (x : Hand) : State := s.setHand s.curHand x
/-- What the hands of logical core `c` share. -/
def State.core (s : State) (c : Nat) : CoreSt := tabGet { CoreSt.empty with phys := c } s.cores c
/-- The machine with core `c` set. -/
def State.setCore (s : State) (c : Nat) (x : CoreSt) : State := { s with cores := tabSet s.cores c x }
/-- Reeve `c` (0-127), or steward core `c - 128`. -/
def State.reeve (s : State) (c : Nat) : Reeve := tabGet Reeve.empty s.reeves c
/-- The machine with reeve `c` set. -/
def State.setReeve (s : State) (c : Nat) (x : Reeve) : State := { s with reeves := tabSet s.reeves c x }
/-- Partition `p`. -/
def State.part (s : State) (p : Nat) : Part := tabGet Part.empty s.parts p
/-- The machine with partition `p` set. -/
def State.setPart (s : State) (p : Nat) (x : Part) : State := { s with parts := tabSet s.parts p x }
/-- Queue `q` (0-63). -/
def State.queue (s : State) (q : Nat) : Queue := tabGet Queue.empty s.queues q
/-- The machine with queue `q` set. -/
def State.setQueue (s : State) (q : Nat) (x : Queue) : State := { s with queues := tabSet s.queues q x }
/-- Core group `g`'s controller. -/
def State.ctrl (s : State) (g : Nat) : Ctrl := tabGet Ctrl.empty s.ctrls g
/-- The machine with controller `g` set. -/
def State.setCtrl (s : State) (g : Nat) (x : Ctrl) : State := { s with ctrls := tabSet s.ctrls g x }

/-- The core of a hand: hid = core·16 + hand (R44). -/
def coreOf (h : Nat) : Nat := h / 16

/-- The hands of a core. -/
def handsOf (c : Nat) : List Nat := (List.range 16).map (c * 16 + ·)

/-- The core group of a logical core: eight physical cores a group (R348, R351). -/
def coreGroup (s : State) (c : Nat) : Nat := (s.core c).phys / 8
/-- Reference ticks of core group `g`'s oscillator (R5). -/
def State.groupTick (s : State) (g : Nat) : Nat := tabGet 0 s.gtick g
/-- Reference ticks as core `c` counts them: its core group's, or for a steward core the fabric block's (R5). -/
def State.coreTick (s : State) (c : Nat) : Nat := if c < Config.numCores then s.groupTick (coreGroup s c) else s.tick

/-- Boot stage n is complete, and the boot has not halted (R356). -/
def State.booted (s : State) (n : Nat) : Bool := s.bootHalt.isNone && decide (n < s.boot)

/-- The farm of an id. -/
def State.farm (s : State) (f : Nat) : Option Farm := s.farms.find? fun x => x.id == f
/-- The machine with one farm changed. -/
def State.updFarm (s : State) (f : Nat) (g : Farm → Farm) : State :=
  { s with farms := s.farms.map fun x => if x.id == f then g x else x }

/-- The steps without an encoding name their units; a unit that does not exist has no step (Fault.noSuchUnit). -/
def forUnit (n bound : Nat) (r : Res) : Res := if n < bound then r else .fault (.noSuchUnit n)

/-- The free number below `n` for one place of a step (log 21). -/
def State.freeAt (s : State) (place n : Nat) : Nat := Config.freeNat (2 ^ 64 * (s.choice + 1) + place) % n

/-- A free pick for one place of a step: it does not use up the counter, so that one step picks alike wherever it asks for the same
place (log 21).  Nothing is free where all choices are one. -/
def pick {α : Type} [BEq α] (s : State) (place : Nat) (xs : List α) (d : α) : α :=
  match xs.eraseDups with
  | [] => d
  | [x] => x
  | ys => ys.getD (s.freeAt place ys.length) d

/-- A hold of a unit of the device that began at `since`, or begins now, has lasted for its limit (R217). -/
def holdExpired (s : State) (since : Option Nat) : Bool := decide (Config.holdTicks ≤ s.tick - since.getD s.tick)

/-- A step whose condition does not hold changes nothing (log 7). -/
def onlyIf (c : Bool) (s t : State) : Res := .next (if c then t else s)

/-- The next free value, below `n`; for `n` = 0 it is 0 (log 21). -/
def State.free (s : State) (n : Nat) : Nat := Config.freeNat s.choice % n
/-- One free value has been used. -/
def State.used (s : State) : State := { s with choice := s.choice + 1 }

/-! ## Hand registers and the tile -/

/-- S[n]: s0 reads 0 (R84, Table 0.2). -/
def Hand.rd (h : Hand) (n : Reg) : Word := if n = 0 then 0 else h.s[n.toNat]'(n.isLt)
/-- S[n] ← x: a write of s0 is discarded (Table 0.2). -/
def Hand.wr (h : Hand) (n : Reg) (x : Word) : Hand := if n = 0 then h else { h with s := h.s.set n.toNat x n.isLt }
/-- V[n]. -/
def Hand.vrd (h : Hand) (n : Reg) : VReg := h.v[n.toNat]'(n.isLt)
/-- V[n] ← x. -/
def Hand.vwr (h : Hand) (n : Reg) (x : VReg) : Hand := { h with v := h.v.set n.toNat x n.isLt }

/-- The scalar last destination (Table 4.18). -/
def Hand.sld (h : Hand) : Reg := getF h.lastd 0 5
/-- The vector last destination (Table 4.18). -/
def Hand.vld (h : Hand) : Reg := getF h.lastd 8 5
/-- sld ← n, s0 included (R93). -/
def Hand.setSld (h : Hand) (n : Reg) : Hand := { h with lastd := (h.lastd &&& 0x1F00#64) ||| zext n }
/-- vld ← n (R93). -/
def Hand.setVld (h : Hand) (n : Reg) : Hand := { h with lastd := (h.lastd &&& 0x1F#64) ||| (zext n <<< 8) }
/-- sticky(flags) (Table 0.2, R136). -/
def Hand.sticky (h : Hand) (f : Nat) : Hand := { h with fflags := h.fflags ||| BitVec.ofNat 64 f }

/-- SEW in bits of a `vtype` (Table 4.17). -/
def sewOf (vtype : Word) : Nat := 8 * 2 ^ fld vtype 1 0
/-- Registers of a group (Table 4.17). -/
def grpOf (vtype : Word) : Nat := 2 ^ fld vtype 3 2
/-- Slots of a row (R148). -/
def vlrowOf (vtype : Word) : Nat := 1024 / sewOf vtype
/-- Most rows of a tile: 8 rows a register (R148). -/
def rmaxOf (vtype : Word) : Nat := 8 * grpOf vtype
/-- Present elements of a tile (R148). -/
def vnOf (vl rc vt : Nat) : Nat := if rc = 0 then 0 else (rc - 1) * vl + vt
/-- A legal tile (R89). -/
def tileOk (vtype vl rc vt : Word) : Bool :=
  decide (vtype.toNat < 64) && decide (1 ≤ vl.toNat) && decide (vl.toNat ≤ vlrowOf vtype)
    && decide (rc.toNat ≤ rmaxOf vtype) && decide (1 ≤ vt.toNat) && decide (vt.toNat ≤ vl.toNat)

/-! ## Black box, reports, hand events -/

/-- An event in the black box at the recording block's tick; a full ring overwrites its oldest entry (R347, Table 20.3). -/
def State.boxAt (s : State) (tick event source part sub detail : Nat) : State :=
  let e : BoxEntry := { tick := tick, source := source, part := part, sub := sub, event := event, detail := detail }
  { s with box := (if s.box.length < 8192 then s.box else s.box.drop 1) ++ [e] }

/-- An event that the fabric block records. -/
def State.boxWrite (s : State) (event source part sub detail : Nat) : State := s.boxAt s.tick event source part sub detail

/-- An event that core `c`'s group records. -/
def State.boxCore (s : State) (c event source part sub detail : Nat) : State := s.boxAt (s.coreTick c) event source part sub detail

/-- A report to the steward (log 15). -/
def State.report (s : State) (r : Report) : State := { s with reports := s.reports ++ [r] }

/-- `hpend.prk[h]` ← 1 (R47, R322). -/
def State.notePark (s : State) (h : Nat) : State :=
  let r := s.reeve (coreOf h)
  s.setReeve (coreOf h) { r with hpend := r.hpend ||| (1#64 <<< (h % 16)) }

/-- `hpend.frz[h]` ← 1 (R47). -/
def State.noteFreeze (s : State) (h : Nat) : State :=
  let r := s.reeve (coreOf h)
  s.setReeve (coreOf h) { r with hpend := r.hpend ||| (1#64 <<< (16 + h % 16)) }

/-- Drops every reservation of an agent (R245). -/
def State.dropResv (s : State) (agent : Nat) : State := { s with resv := s.resv.filter fun r => r.1 != agent }

/-! ## The return queue (R103, R199) -/

/-- The tile set to count c (R199): `vl` stays. -/
def Hand.setCount (h : Hand) (c : Nat) : Hand :=
  if c = 0 then { h with rc := 0, vt := 1 }
  else
    let vl := h.vl.toNat
    let rc := (c + vl - 1) / vl
    { h with rc := BitVec.ofNat 64 rc, vt := BitVec.ofNat 64 (c - (rc - 1) * vl) }

/-- A value of the return queue reaches its register; a tile writer's count sets the tile. -/
def Hand.takeRet (h : Hand) (r : Ret) : Hand :=
  let x := match r.d with
    | some d => h.wr d r.v
    | none => h
  match r.count with
  | some c => x.setCount c
  | none => x

/-- Every value of the return queue written, in order. -/
def Hand.flushRet (h : Hand) : Hand := { h.retq.foldl Hand.takeRet h with retq := [] }

/-! ## Barriers (R75, R76) -/

/-- The hands of a farm that are not Off, on one core or (none) on the device. -/
def participants (s : State) (farm : Nat) (core : Option Nat) : List Nat :=
  (s.hands.filter fun p => p.2.farm == farm && p.2.st != .off &&
    (match core with | some c => coreOf p.1 == c | none => true)).map Prod.fst

/-- The state that a resume state names. -/
def Resume.toState : Resume → HState
  | .idle => .idle
  | .block => .block
  | .fetch => .fetch

/-- The program counter of a Block hand stands at the end of its block (R54). -/
def Hand.atBlockEnd (h : Hand) : Bool := decide (h.st = .block ∧ h.pc.toNat = h.blk + 64)

/-- A Block hand at the end of its block is Idle (R49, R54). -/
def Hand.offBlock (h : Hand) : Hand := if h.atBlockEnd then { h with st := .idle } else h

/-- A hand that leaves Wait for its resume state, after the waiting instruction; at the end of its block it is Idle (R49, R54). -/
def Hand.passWait (h : Hand) : Hand :=
  Hand.offBlock { h with st := h.resume.toState, waiting := none, arrived := none, pc := h.pc + 4 }

/-- Completes a barrier when every participant has arrived: every one is released in one step (R75, R76).  A hand whose hold has
taken effect has withdrawn its arrival (R64); one that is Frozen stays so, and counts as it stood (R49, R330).  `fbar` is an acquire at device scope, so the data cache lines go (R210). -/
def barrierCheck (s : State) (farm : Nat) (core : Option Nat) : State :=
  let ps := participants s farm core
  let here := some core.isNone
  if ps ≠ [] ∧ ps.all fun h => (s.hand h).arrived == here then
    ps.foldl (fun t h =>
      let t1 := if (t.hand h).st = .frozen then t else t.setHand h (t.hand h).passWait
      if core.isNone then t1.setCore (coreOf h) { t1.core (coreOf h) with dcache := [] } else t1) s
  else s

/-! ## Reaching Off (R43, R49, R75, R76) -/

/-- A hand that waits to put into a queue of a hand that reached Off completes, its value discarded (R72). -/
def releasePuts (s : State) (h : Nat) : State :=
  let west := (h / 16) * 16 + (h % 16 + 15) % 16
  let east := (h / 16) * 16 + (h % 16 + 1) % 16
  let go (t : State) (n : Nat) (toEast : Bool) : State :=
    match (t.hand n).st, (t.hand n).waiting with
    | .wait, some (.lnkPut e _) =>
      if e = toEast ∧ (t.hand n).farm = (t.hand h).farm ∧ (t.hand n).draining = false then t.setHand n (t.hand n).passWait else t
    | _, _ => t
  go (go s west true) east false

/-- The hand is Off: it stops being a participant, and its share is free (R43, R75). -/
def handOff (s : State) (h : Nat) : State :=
  let x := s.hand h
  let s1 := (s.setHand h { x with
    st := .off, waiting := none, arrived := none, ending := false, stopReq := none
    holdReq := none, heldBy := none, placed := false, draining := false, leaving := false, pfault := none, marks := []
    nacc := none }).dropResv h
  let s2 := s1.updFarm x.farm fun f => { f with gone := f.gone ++ [h] }
  let s3 := releasePuts s2 h
  barrierCheck (barrierCheck s3 x.farm (some (coreOf h))) x.farm none

/-! ## Taking a fault (R314, R315, R318) -/

/-- The resume state that a hand records when it stops (R48). -/
def Hand.resumeNow (h : Hand) : Resume :=
  match h.st with
  | .block => .block
  | .fetch => .fetch
  | .idle => .idle
  | _ => h.resume

/-- A dispatched instruction back in the replay queue, none of its micro-ops issued. -/
def Entry.unissued (e : Entry) : Entry := { e with taken := false, renamed := 0, written := 0, dispute := none, settled := false }

/-- The micro-ops of a hand leave its core's window. -/
def State.leaveWindow (s : State) (h : Nat) : State :=
  let c := s.core (coreOf h)
  if c.win = [] then s else s.setCore (coreOf h) { c with win := c.win.filter fun m => m.hand != h }

/-- The scalar stores of a hand have all performed and are acknowledged (R108, R305). -/
def Hand.scalarStoresDone (h : Hand) : Bool := decide (h.sb = [] ∧ h.unacked = [] ∧ h.dieWrites = [])

/-- A scalar load or atomic of the hand is under way: its instruction ends before the hand parks. -/
def Hand.accessOut (h : Hand) : Bool :=
  match h.acc with
  | none => false
  | some o => match o.kind with
    | .fetch _ => false
    | _ => true

/-- The writes of a hand's dispatched instructions and copies that have been sent are acknowledged (R109, R305). -/
def Hand.vectorStoresDone (h : Hand) : Bool := decide (h.vunacked = [] ∧ h.vdieWrites = [])

/-- The stores of a hand have all performed and are acknowledged (R56, R57, R339). -/
def Hand.storesDone (h : Hand) : Bool := h.scalarStoresDone && h.vectorStoresDone

/-- An abandoned hand whose work is done goes Off (R56). -/
def leaveIfDone (s : State) (h : Nat) : State :=
  let x := s.hand h
  if x.leaving ∧ x.st = .idle ∧ x.rq = [] ∧ x.storesDone then
    (handOff s h).updFarm x.farm fun f => { f with abandoned := true }
  else s

/-- A stop request takes effect (R56): Idle; a Held or Parked hand discards its replay queue and copies. -/
def stopAt (s : State) (h : Nat) (abandon : Bool) : State :=
  let x := s.hand h
  let y := { x with
    st := .idle, waiting := none, arrived := none, ending := false, stopReq := none, draining := false, leaving := abandon || x.leaving
    pfault := none, acc := none, heldBy := none, migHold := none, fencing := false }
  let z := if x.st = .held ∨ x.st = .parked then { y with rq := [], vstart := 0, bpc := 0, copies := [] } else y
  leaveIfDone (s.setHand h z) h

/-- The key of a page in a core's hand TLB: partition and page number (R218). -/
def htlbKey (part va : Nat) : Nat := part * 2 ^ 36 + va / 4096

/-- The keys of a table of leaves that the group of 64 KiB of a key has (R216). -/
def groupKeys (key : Nat) : List Nat := (List.range 16).map fun j => key / 16 * 16 + j

/-- A table of leaves without those that can translate a page: its own, and the leaves of its group with CT = 1 (R216). -/
def dropLeaf (t : Table Leaf) (key : Nat) : Table Leaf :=
  t.filter fun p => p.1 != key && !(p.1 / 16 == key / 16 && p.2.level == 0 && p.2.pte.getLsbD 10)

/-- The hand's next access to a page, for a cause, walks (R217, R218). -/
def Hand.willWalk (x : Hand) (cause : Nat) (addr : Word) : Hand :=
  if x.walks.contains (addr.toNat / 4096, cause) then x else { x with walks := x.walks ++ [(addr.toNat / 4096, cause)] }

/-- A cause that a translation gives. -/
def pageCause (cause : Nat) : Bool := decide (cause ∈ [0x06, 0x07, 0x08])

/-- The core's hand TLB without the leaves of a page at which an access of hand h faulted: a fault is never cached (R218). -/
def forgetLeaf (s : State) (h cause : Nat) (addr : Word) : State :=
  if pageCause cause then
    let c := s.core (coreOf h)
    if c.htlb = [] then s else s.setCore (coreOf h) { c with htlb := dropLeaf c.htlb (htlbKey (s.hand h).part addr.toNat) }
  else s

/-- Parks a hand: the frame header is written, a waiting hand withdraws its arrival, a reeve's hold request is withdrawn,
reservations are dropped and the reeve is told (R315, R318, R63, R245, R322); the access walks when it executes again (R218).  A block that failed to arrive is fetched again
when the hand resumes (R67, DEDUCED, log 8).  `cls` is 0 for a precise fault, 1 for an
imprecise one; `held` says that the faulting access had been held (R217).  A fence that waited on a held or remote access which
faults has completed (R283): the data cache lines go as at its end.  A stop that pends takes effect at once (R50, R56). -/
def parkHeld (s : State) (held : Bool) (h cls cause sub : Nat) (apc0 fpc addr : Word) (elem : Nat) : State :=
  let x0 := (s.hand h).flushRet
  let x := if pageCause cause then x0.willWalk cause addr else x0
  let fenceEnds := x.fencing && (held || decide (cause = 0x0C ∨ ((cause = 0x06 ∨ cause = 0x07) ∧ sub = 5)))
  let apc := if fenceEnds then apc0 + 4 else apc0
  let fr : Frame := { replay := x.rq.length, resume := x.resumeNow, cls := cls, sub := sub, cause := cause, apc := apc
                      fpc := fpc, addr := addr, elem := elem, cyc := (s.core (coreOf h)).cyc }
  let y := { x with
    st := .parked, resume := x.resumeNow, pc := apc, frame := fr, waiting := none, arrived := none, ending := false
    pfault := none, draining := false, migHold := none, replays := 0
    rq := x.rq.map fun e => { e.unissued with heldAt := [] }
    fencing := false
    cur := x.cur.bind fun b => if b.failed.isSome then none else some b
    holdReq := if x.holdReq = some Holder.reeve then none else x.holdReq }
  let s0 : State := if fenceEnds then s.setCore (coreOf h) { s.core (coreOf h) with dcache := [] } else s
  let s1 := ((((forgetLeaf s0 h cause addr).setHand h y).dropResv h).notePark h).leaveWindow h
  let s2 := if cause = 0x0B then s1.boxCore (coreOf h) 0x02 h x.part sub 0 else s1
  match (s2.hand h).stopReq with
  | some ab => stopAt s2 h ab
  | none => s2

/-- Parks a hand for a fault of an access that had not been held. -/
def park (s : State) (h cls cause sub : Nat) (apc fpc addr : Word) (elem : Nat) : State :=
  parkHeld s false h cls cause sub apc fpc addr elem

/-- The address that a frame records for a cause (Table 17.2). -/
def frameAddr (cause : Nat) (addr : Word) : Word :=
  if cause ∈ [0x05, 0x06, 0x07, 0x08, 0x09, 0x0C] then addr else 0

/-- A fault of class `cls` of the access stream at the hand's program counter (R314, R315; a remote failure counts in `rerr`, R308): the hand parks at once when no
older work is left, and otherwise when that work is done (PRECISE_FAULT_PARK, IMPRECISE_FAULT_PARK).  `apc` is the
access-stream PC to record. -/
def scalarFault (s : State) (h cls cause sub : Nat) (addr apc : Word) : State :=
  let x := { s.hand h with rerr := (s.hand h).rerr + (if cause = 0x0C then 1 else 0) }
  if x.rq = [] ∧ x.scalarStoresDone then park (s.setHand h x) h cls cause sub apc x.pc (frameAddr cause addr) 0
  else s.setHand h { x with
    pfault := some { cls := cls, cause := cause, sub := sub, addr := frameAddr cause addr, apc := apc } }

/-- A precise fault at the hand's instruction (R314). -/
def preciseFault (s : State) (h cause sub : Nat) (addr apc : Word) : State := scalarFault s h 0 cause sub addr apc

/-- raise(cause) at the running hand's instruction (Table 0.2). -/
def raise (s : State) (cause sub : Nat) (addr : Word) : Res :=
  .next (preciseFault s s.curHand cause sub addr s.me.pc)

/-- An imprecise fault of the oldest dispatched instruction F at element k (R315): `vstart` ← k, `bpc` the stages done,
and the replay queue keeps F and everything younger. -/
def impreciseFault (s : State) (h cause sub : Nat) (addr : Word) (k : Nat) : State :=
  let x := s.hand h
  let fpc := (x.rq.head?.map Entry.pc).getD 0
  let stages := (x.rq.head?.map fun e => if e.kind = .pass then e.stages else 0).getD 0
  let held := (x.rq.head?.map fun e => decide (e.heldAt ≠ [])).getD false
  let reset (e : Entry) : Entry := { e with fault := none }
  parkHeld (s.setHand h { x with vstart := BitVec.ofNat 64 k, bpc := BitVec.ofNat 64 stages, rq := x.rq.map reset })
    held h 1 cause sub x.pc fpc (frameAddr cause addr) k

/-! ## Holds and stops (R50, R56, R63, R64) -/

/-- The count of a stage program (R176). -/
def stageCount (p : Word) : Nat := fld p 3 0

/-- The drain of R64 has ended: the VIQ is empty, or its oldest instruction is a pass at a boundary before one of its stages (R185, R335),
a `vwait` or a `wfin`; no element is held by a migrating page (R217). -/
def Hand.drained (h : Hand) : Bool :=
  match h.rq with
  | [] => true
  | e :: _ => (decide (e.kind = .pass ∧ e.stages < stageCount e.fw) || decide (e.kind = .vwait ∨ e.kind = .wfin))
      && h.rq.all fun f => decide (f.heldAt = [])

/-- The hand becomes Held (R64): the frame is recorded, an arrival is withdrawn, reservations are dropped (R245). -/
def enterHeld (s : State) (h : Nat) : State :=
  let x := (s.hand h).flushRet
  let fr : Frame := { replay := x.rq.length, resume := x.resumeNow, cls := 2, sub := 0, cause := 0, apc := x.pc
                      fpc := 0, addr := 0, elem := 0, cyc := (s.core (coreOf h)).cyc }
  let bpc := match x.rq with
    | e :: _ => if e.kind = .pass then BitVec.ofNat 64 e.stages else x.bpc
    | [] => x.bpc
  (s.setHand h { x with st := .held, resume := x.resumeNow, frame := fr, waiting := none, arrived := none, ending := false
                        bpc := bpc, holdReq := none, heldBy := x.holdReq, draining := false
                        rq := x.rq.map Entry.unissued }).dropResv h |>.leaveWindow h

/-- A hold that has reached its safe point: Held once the drain ends; an arrival at a barrier is withdrawn (R64). -/
def holdAt (s : State) (h : Nat) : State :=
  if (s.hand h).drained then enterHeld s h else s.setHand h { s.hand h with draining := true, arrived := none }

/-- A drain ends without a hold, since the hold has been withdrawn: a hand that waits at a barrier arrives again. -/
def undrain (s : State) (h : Nat) : State :=
  let x := s.hand h
  if !x.draining then s else
  match x.waiting with
  | some .bar => barrierCheck (s.setHand h { x with draining := false, arrived := some false }) x.farm (some (coreOf h))
  | some .fbar => barrierCheck (s.setHand h { x with draining := false, arrived := some true }) x.farm none
  | _ => s.setHand h { x with draining := false }

/-- A hold pends, of the reeve, the steward or the placer. -/
def Hand.holdDue (h : Hand) : Bool := h.holdReq.isSome || h.placed

/-- The requests that pend at a hand which stands at a safe point: a stop comes before a hold that was asked for later (R50). -/
def takeRequests (s : State) (h : Nat) : State :=
  let t := match (s.hand h).stopReq with
    | some ab => stopAt s h ab
    | none => s
  let y := t.hand h
  if y.holdDue && decide (y.st ≠ .parked ∧ y.st ≠ .held ∧ y.st ≠ .frozen ∧ y.st ≠ .off) then holdAt t h else t

/-- States in which any boundary is a safe point (R50). -/
def HState.quiet : HState → Bool
  | .idle => true
  | .wait => true
  | .held => true
  | .parked => true
  | _ => false

/-! ## Leaving Held or Parked (R317) -/

/-- An instruction that runs in full whatever `vstart` and `bpc` hold begins at its beginning (R237, R246, R250, R303, R317); an atomic
has no piece under way (R241). -/
def Entry.restart (e : Entry) : Entry :=
  match e.kind with
  | .vwait => { e with first := 0, acc := [], skipped := 0, mode := 0, since := none, awaiting := none }
  | .wfin => { e with first := 0, acc := [], mode := 0, since := none, awaiting := none }
  | .wpoll => { e with first := 0, acc := [], mode := 0, since := none, awaiting := none }
  | .wred => { e with first := 0, mode := 0, stages := 0 }
  | .sc => { e with first := 0, acc := [], mode := 0, stages := 0, awaiting := none }
  | .qset => { e with first := 0, acc := [] }
  | .qget => { e with first := 0, acc := [] }
  | .amo _ _ _ => { e with stages := 0 }
  | _ => e

/-- A younger replay entry goes on from its first unperformed element: one that has performed does not perform again, and a wait that
has not ended begins anew (R316, R317). -/
def Entry.resumed (e : Entry) : Entry :=
  match e.kind with
  | .vwait => if e.mode = 1 then e else e.restart
  | .wfin => if e.mode = 1 then e else e.restart
  | .wpoll => if e.mode = 1 then e else e.restart
  | _ => e

/-- An unordered form notes the elements that it has performed, whatever their order (R232, R242). -/
def Entry.unordered (e : Entry) : Bool :=
  match e.kind with
  | .store _ u => u
  | .amo _ _ u => u
  | _ => false

/-- A `vsc` whose one event has happened: its elements are written, and it does not run again (R246, R316, R324). -/
def Entry.decided (e : Entry) : Bool := decide (e.kind = .sc ∧ e.stages ≠ 0)

/-- The oldest replay entry is reissued with the `vstart` and `bpc` CSRs, and both become 0 (R317).  An unordered form performs none of
the elements again that it has performed, nor does a `vsc` that has decided (R316). -/
def Hand.reissue (h : Hand) : Hand :=
  match h.rq with
  | [] => h
  | e :: es =>
    let f : Entry := { e with
      vstart := h.vstart, bpc := h.bpc, first := h.vstart.toNat, stages := h.bpc.toNat, torn := []
      acc := if e.unordered then e.acc.filter fun k => decide (h.vstart.toNat ≤ k.toNat) else [] }
    { h with rq := (if e.decided then e else f.restart) :: es.map Entry.resumed, vstart := 0, bpc := 0 }

/-- A copy whose chunk has faulted goes on from that chunk when its hand leaves Parked (R249). -/
def Copy.again (c : Copy) : Copy := if c.fault.isSome then { c with fault := none, flight := [], heldAt := [] } else c

/-- The copies of a hand that leaves Held or Parked: a fault has been taken, or was found while the hand was Parked (R249). -/
def Hand.copiesAgain (h : Hand) : Hand :=
  if h.st = .parked ∧ h.copies ≠ [] then { h with copies := h.copies.map fun p => (p.1, p.2.again) } else h

/-- The hand returns to its resume state (R49, R317); a Block hand whose program counter stands at its block's end is Idle (R54). -/
def resumeHand (s : State) (h : Nat) : State :=
  let x := (s.hand h).reissue.copiesAgain
  s.setHand h (Hand.offBlock { x with st := x.resume.toState, heldBy := none })

/-! ## Violations (R330, R331, R332) -/

/-- The kind and id of a master in `PVIOL`, and its node (Table 17.6). -/
def masterId : Master → Nat × Nat × Nat
  | .hand h => (0, h, Config.node)
  | .engine h => (1, h, Config.node)
  | .reeve c => (2, c, Config.node)
  | .remotePort n p => (3, p, n)
  | .hostFn q => (4, q, Config.node)

/-- Records a violation of a partition: the first in `PVIOL`, every one in the black box (R331). -/
def recordViolation (s : State) (p code : Nat) (m : Master) (detail : Word) : State :=
  let (k, id, node) := masterId m
  let v : Violation := { node := node, id := id, kind := k, code := code, detail := detail }
  let s1 := match m with
    | .hand h => s.boxCore (coreOf h) 0x05 id p code detail.toNat
    | .engine h => s.boxCore (coreOf h) 0x05 id p code detail.toNat
    | .reeve c => s.boxCore c 0x05 id p code detail.toNat
    | _ => s.boxWrite 0x05 id p code detail.toNat
  match (s.part p).viol with
  | some _ => s1
  | none => (s1.setPart p { s.part p with viol := some v }).report (.violation p v)

/-- A hand freezes at once, at no safe point; its state is kept for the steward (R330). -/
def freezeHand (s : State) (h : Nat) : State :=
  let x := s.hand h
  let s1 := s.setHand h { x with st := .frozen, resume := x.resumeNow, fcv := true, stopReq := none, holdReq := none, placed := false
                                 draining := false, leaving := false, pfault := none }
  (s1.updFarm x.farm fun f => { f with frozen := true }).noteFreeze h

/-- A placer hold on a hand (R38, R332): Held at once where it may be.  A hold of the reeve stands beside it (R63, R323). -/
def placerHold (s : State) (h : Nat) : State :=
  let x := s.hand h
  match x.st with
  | .held => s.setHand h { x with placed := true }
  | .frozen => s
  | .off => s
  | .parked => s.setHand h { x with placed := true }
  | _ =>
    let s1 := s.setHand h { x with placed := true }
    if x.st.quiet && !x.draining then takeRequests s1 h else s1

/-- The placer's hold ends: a pending one is withdrawn, and a hand that no one else holds returns to its resume state (R38). -/
def placerRelease (s : State) (h : Nat) : State :=
  let x := s.hand h
  let t := s.setHand h { x with placed := false }
  if x.st = .held then (if x.heldBy = none ∧ x.placed = true then resumeHand t h else t)
  else if x.draining ∧ x.holdReq = none then undrain t h else t

/-- A reeve freezes: it stops, and the placer holds its farm's hands on its core (R332). -/
def freezeReeve (s : State) (c : Nat) : State :=
  let r := s.reeve c
  let hs := (List.range 16).filter fun k => r.hmask.getLsbD k && decide ((s.hand (c * 16 + k)).farm = r.hfarm)
  let s1 := s.setReeve c { r with frozen := true }
  let s2 := hs.foldl (fun t k => placerHold t (c * 16 + k)) s1
  s2.updFarm r.hfarm fun f => { f with frozen := true }

/-- A pending MSI-X vector of a queue whose `QSTAT` sets bad or stopped (Table 15.13); it pends until both are
cleared. -/
def raiseMsix (s : State) (q : Nat) : State := if q ∈ s.msix then s else { s with msix := s.msix ++ [q] }

/-- The remote windows of a source partition that hold a PA freeze (R306). -/
def freezeWindows (s : State) (p pa : Nat) : State :=
  { s with windows := s.windows.map fun (q : Nat × Window) =>
      if q.1 / 64 = p ∧ q.2.part = p ∧ q.2.v ∧ q.2.base * 4096 ≤ pa ∧ pa < (q.2.base + q.2.frames) * 4096 then
        (q.1, { q.2 with frozen := true })
      else q }

/-- A remote source port freezes for the windows that hold a PA, and the steward is told (R306, R330). -/
def freezePort (s : State) (m : Master) (pa : Nat) : State :=
  match m with
  | .remotePort n p => freezeWindows (s.report (.remoteWindow p n)) p pa
  | _ => s

/-- A violation: it is recorded and freezes the offending master (R330); the queue of a host function stops, and its vector pends (Table
15.13).  What freezes a remote source port names the PA: `freezePort`. -/
def violate (s : State) (p code : Nat) (m : Master) (detail : Word) : State :=
  let s1 := recordViolation s p code m detail
  match m with
  | .hand h => freezeHand s1 h
  | .engine h => freezeHand s1 h
  | .reeve c => freezeReeve s1 c
  | .remotePort _ _ => s1
  | .hostFn q => (raiseMsix (s1.setQueue q { s1.queue q with stopped := true, pub := none, rereads := none }) q).report (.queueStopped q)

end Sys2Proof.Machine
end

