-- ==== Sys2Proof/Machine/Translate.lean ====
section
/-!
DEFINITION. Translation (chapter 9): the four-level walk of R215, the checks of a leaf, the hand TLB (R218, log 8), and where
each byte of an access lies (R205, R206, R208, R230).
-/

namespace Sys2Proof.Machine

/-- What an access does at a byte: an atomic counts as both a load and a store (R215). -/
inductive AccType where
  | load | store | both | fetch
  deriving DecidableEq, Repr

/-- The page fault cause of an access (R215). -/
def AccType.cause : AccType → Nat
  | .load => 0x06
  | .store => 0x07
  | .both => 0x07
  | .fetch => 0x08

/-- Bit n of a PTE. -/
def pteBit (pte : Word) (n : Nat) : Bool := pte.getLsbD n
/-- The frame number of a PTE (Table 9.4). -/
def ptePpn (pte : Word) : Nat := fld pte 43 12
/-- The node of a PTE (Table 9.4). -/
def pteNode (pte : Word) : Nat := fld pte 55 44
/-- R = W = X = 0: a pointer (R214). -/
def ptePointer (pte : Word) : Bool := !pteBit pte 1 && !pteBit pte 2 && !pteBit pte 3

/-- The walk from a table of level `lvl` at address `a` (R215): the leaf, or the sub-status 1 or 2.  A table outside populated DRAM reads
as memory that nothing has written, so that V = 0 there: the rules do not say (DESIGN CHOICE, log 58). -/
def walkFrom (m : Memory) (va : Nat) : Nat → Nat → Except Nat Leaf
  | lvl, a =>
    let pte := memDword m (a + 8 * (va >>> (9 * lvl + 12) % 512))
    if !pteBit pte 0 then .error 1
    else if fld pte 63 56 ≠ 0 ∨ pteBit pte 11 ∨ pteBit pte 5 then .error 2
    else if ptePointer pte then
      match lvl with
      | 0 => .error 2
      | l + 1 => if fld pte 10 4 ≠ 0 ∨ pteNode pte ≠ Config.node then .error 2 else walkFrom m va l (ptePpn pte * 4096)
    else .ok { pte := pte, level := lvl }

/-- A walk from a root frame; root 0 faults with sub-status 1 for a hand (Table 9.3), and, since the rules name no other outcome, for a
reeve (DESIGN CHOICE, log 58). -/
def walk (m : Memory) (root va : Nat) : Except Nat Leaf :=
  if root = 0 then .error 1 else walkFrom m va 3 (root * 4096)

/-- True of a PA of Table 9.2. -/
def populated (pa : Nat) : Bool :=
  decide (pa < Config.dramSize) || (decide (Config.hostBase ≤ pa) && decide (pa < Config.hostEnd))
    || (decide (Config.regBase ≤ pa) && decide (pa < Config.regEnd))

/-- True of a PA in the host window (R212). -/
def inHostWindow (pa : Nat) : Bool := decide (Config.hostBase ≤ pa) && decide (pa < Config.hostEnd)

/-- The result of translating one page. -/
inductive Xlat where
  /-- The PA of the first byte on a node, through an NC leaf or not. -/
  | page (node pa : Nat) (nc : Bool)
  | fault (sub : Nat)
  /-- The leaf has MIG = 1 (R217). -/
  | hold
  deriving DecidableEq, Repr

/-- The checks of a leaf against an access, in the order of R215.  `permitted` is the U, R, W, X check of the agent. -/
def leafCheck (l : Leaf) (va : Nat) (t : AccType) (permitted : Bool) : Xlat :=
  let pte := l.pte
  let st := t = .store ∨ t = .both
  let pa := ptePpn pte * 4096 + va % 2 ^ (9 * l.level + 12)
  if l.level = 3 then .fault 2
  else if pteBit pte 2 ∧ !pteBit pte 1 then .fault 2
  else if ptePpn pte % 2 ^ (9 * l.level) ≠ 0 then .fault 2
  else if pteNode pte > Config.maxNode then .fault 2
  else if !permitted then .fault 3
  else if !pteBit pte 6 ∨ (st ∧ !pteBit pte 7) then .fault 4
  else if inHostWindow pa ∧ pteNode pte ≠ Config.node then .fault 2
  else if !populated pa then .fault 6
  else if pteBit pte 8 then .hold
  else .page (pteNode pte) pa (pteBit pte 9)

/-- R, W, X of a leaf against an access (R215). -/
def rwxOk (pte : Word) (t : AccType) : Bool :=
  match t with
  | .load => pteBit pte 1
  | .store => pteBit pte 2
  | .both => pteBit pte 1 && pteBit pte 2
  | .fetch => pteBit pte 3

/-- Hand accesses are user accesses: U must be 1 (R215, Table 9.4). -/
def handPermitted (pte : Word) (t : AccType) : Bool := pteBit pte 4 && rwxOk pte t

/-- What a leaf with CT = 1 of the group of a page says for the page: its own fields, with the frame at the page's position in the
group (R216, log 48). -/
def groupLeaf (l : Leaf) (va : Nat) : Option Leaf :=
  if l.level = 0 ∧ pteBit l.pte 10 then
    some { l with pte := (l.pte &&& ~~~0xF000#64) ||| (BitVec.ofNat 64 (va / 4096 % 16) <<< 12) }
  else none

/-- A cached leaf that translates one of `pages` pages from `first` on: of its own page, or with CT = 1 of the sixteen pages of its group
(R216, R221). -/
def leafHit (first pages : Nat) (l : Nat × Leaf) : Bool :=
  let v := l.1 % 2 ^ 36
  if l.2.level = 0 ∧ pteBit l.2.pte 10 then decide (first < v / 16 * 16 + 16 ∧ v / 16 * 16 < first + pages)
  else decide (first ≤ v ∧ v < first + pages)

/-- The level-0 table that a walk from a table of level `lvl` reaches, if it reaches one. -/
def tableFrom (m : Memory) (va : Nat) : Nat → Nat → Option Nat
  | 0, a => some a
  | l + 1, a =>
    let pte := memDword m (a + 8 * (va >>> (9 * (l + 1) + 12) % 512))
    if pteBit pte 0 ∧ ptePointer pte then tableFrom m va l (ptePpn pte * 4096) else none

/-- The leaves of a page's group of 64 KiB that have CT = 1, as they translate the page (R216): CT is bit 2 of a PTE's second
byte. -/
def groupLeaves (m : Memory) (root va : Nat) : List Leaf :=
  match (if root = 0 then none else tableFrom m va 3 (root * 4096)) with
  | none => []
  | some a =>
    ((List.range 16).filter fun j => (memGet m (a + 8 * (va / 65536 % 32 * 16 + j) + 1)).getLsbD 2).filterMap fun j =>
      match walk m root (va / 65536 * 65536 + 4096 * j) with
      | .ok l => groupLeaf l va
      | .error _ => none

/-- What may translate a page: a cached leaf of its own or of its group, what a walk finds, and what a walk finds in the group
(R216, R218). -/
def leafChoices (m : Memory) (root : Nat) (cached : Table Leaf) (key va : Nat) : List (Sum Leaf Nat) :=
  let own : List (Sum Leaf Nat) := match tabFind cached key with
    | some l => [.inl l]
    | none => []
  let near : List (Sum Leaf Nat) := if cached = [] then [] else
    (groupKeys key).filterMap fun k => (tabFind cached k).bind fun l => (groupLeaf l va).map Sum.inl
  let fresh : Sum Leaf Nat := match walk m root va with
    | .ok l => .inl l
    | .error n => .inr n
  own ++ near ++ [fresh] ++ (groupLeaves m root va).map Sum.inl

/-- The one that translates it: a free pick where they differ (log 8). -/
def pickLeaf (s : State) (root : Nat) (cached : Table Leaf) (key va : Nat) : Except Nat Leaf :=
  match pick s key (leafChoices s.mem root cached key va) (.inr 1) with
  | .inl l => .ok l
  | .inr n => .error n

/-- The leaf that translates a hand's page (R216, R218): where an access of its kind has faulted or is held there, one that a walk finds
(R217, R218). -/
def handLeaf (s : State) (h va : Nat) (t : AccType) : Except Nat Leaf :=
  let x := s.hand h
  pickLeaf s (s.part x.part).proot.toNat (if x.walks.contains (va / 4096, t.cause) then [] else (s.core (coreOf h)).htlb) (htlbKey x.part va) va

/-- The translation of a hand's page (R215). -/
def handXlat (s : State) (h va : Nat) (t : AccType) : Xlat :=
  if va ≥ 2 ^ 48 then .fault 7
  else match handLeaf s h va t with
    | .error n => .fault n
    | .ok l => leafCheck l va t (handPermitted l.pte t)

/-- A table of at most `n` entries with one more; the first is dropped where it would be too long. -/
def tabAdd {α : Type} (n : Nat) (t : Table α) (k : Nat) (x : α) : Table α :=
  let u := tabSet t k x
  if u.length ≤ n then u else u.drop 1

/-- The hand TLB keeps the leaf of a page that a hand's access has used, if no migration is under way (R217, R218). -/
def fillHtlb (s : State) (h va : Nat) (t : AccType) : State :=
  match handLeaf s h va t with
  | .error _ => s
  | .ok l =>
    if pteBit l.pte 8 then s
    else
      let c := s.core (coreOf h)
      s.setCore (coreOf h) { c with htlb := tabAdd Config.tlbEntries c.htlb (htlbKey (s.hand h).part va) l }

/-- The location of a byte of a translated page. -/
def pageLoc (node pa : Nat) (nc : Bool) : Loc :=
  if node ≠ Config.node then .remote node pa nc
  else if pa < Config.dramSize then .dram pa nc
  else if inHostWindow pa then .host (pa - Config.hostBase)
  else .reg (pa - Config.regBase)

/-- A range cut at page boundaries: first address and length of each part (at most `fuel` parts). -/
def pageParts : Nat → Nat → Nat → List (Nat × Nat)
  | 0, _, _ => []
  | fuel + 1, va, n =>
    if n = 0 then [] else
    let k := min n (4096 - va % 4096)
    (va, k) :: pageParts fuel (va + k) (n - k)

/-- Where the bytes of an access lie, or why it fails: cause, sub-status and lowest failing byte address. -/
inductive Located where
  | ok (locs : List Loc)
  | fault (cause sub : Nat) (addr : Word)
  | hold (addr : Word)
  deriving DecidableEq, Repr

/-- The locations of parts of an access, each translated by `xl`. -/
def locateParts (xl : Nat → Xlat) (cause : Nat) : List (Nat × Nat) → Located
  | [] => .ok []
  | (va, n) :: rest =>
    match xl va with
    | .fault sub => .fault cause sub (BitVec.ofNat 64 va)
    | .hold => .hold (BitVec.ofNat 64 va)
    | .page node pa nc =>
      match locateParts xl cause rest with
      | .ok locs => .ok ((List.range n).map (fun i => pageLoc node (pa + i) nc) ++ locs)
      | r => r

/-- True of a VA in the scratchpad window (R205). -/
def inWindow (va : Nat) : Bool := decide (Config.spadBase ≤ va) && decide (va < Config.spadBase + Config.spadSize)

/-- True of a VA in the hand's share of the window (R111, R206). -/
def inShare (x : Hand) (va : Nat) : Bool :=
  decide (Config.spadBase + x.spb * 4096 ≤ va) && decide (va < Config.spadBase + (x.spb + x.spn) * 4096)

/-- The checks of a hand's access of `n` bytes (R111, R230): the upper address bits, the share, the translation.
`windowed` is false for the completion word, which is always translated (R339). -/
def locate (s : State) (h : Nat) (addr : Word) (n : Nat) (t : AccType) (windowed : Bool) : Located :=
  let x := s.hand h
  let vas := (List.range n).map fun i => (addr.toNat + i) % 2 ^ 64
  match vas.find? fun a => decide (a ≥ 2 ^ 48) with
  | some a => .fault t.cause 7 (BitVec.ofNat 64 a)
  | none =>
    if windowed && vas.any inWindow then
      match vas.find? fun a => !(inWindow a && inShare x a) with
      | some a => .fault 0x09 0 (BitVec.ofNat 64 a)
      | none => .ok (vas.map fun a => .spad (coreOf h) (a - Config.spadBase))
    else locateParts (fun va => handXlat s h va t) t.cause (pageParts (n / 4096 + 2) addr.toNat n)

/-- The translation of a page of partition `p` by a unit that is no hand: a fabric block, the host port, the placer, the steward
(R298, R310, R289). -/
def partXlat (s : State) (p va : Nat) (t : AccType) : Xlat :=
  if va ≥ 2 ^ 48 then .fault 7
  else match pickLeaf s (s.part p).proot.toNat [] (htlbKey p va) va with
    | .error n => .fault n
    | .ok l => leafCheck l va t (handPermitted l.pte t)

/-- Where `n` bytes of partition `p` lie for such a unit. -/
def locateIn (s : State) (p : Nat) (addr : Word) (n : Nat) (t : AccType) : Located :=
  locateParts (fun va => partXlat s p va t) t.cause (pageParts (n / 4096 + 2) addr.toNat n)

/-- The pages of an access that are translated. -/
def pagesOf (addr : Word) (n : Nat) : List Nat := ((pageParts (n / 4096 + 2) addr.toNat n).map Prod.fst).filter fun va => !inWindow va

/-- An access of hand h has performed on some pages: it need not walk for them again (R217, R218). -/
def noteWalks (s : State) (h : Nat) (t : AccType) (pages : List Nat) : State :=
  let x := s.hand h
  let done (w : Nat × Nat) : Bool := pages.any fun va => (va / 4096, t.cause) == w
  if x.walks.any done then s.setHand h { x with walks := x.walks.filter fun w => !done w } else s

/-- The TLB entries that an access of `n` bytes leaves (R218). -/
def noteTlb (s : State) (h : Nat) (addr : Word) (n : Nat) (t : AccType) : State :=
  noteWalks ((pagesOf addr n).foldl (fun u va => fillHtlb u h va t) s) h t (pagesOf addr n)

end Sys2Proof.Machine
end

