-- ==== Sys2Proof/Machine/Packets.lean ====
section
/-!
DEFINITION. Launch packets (R20, Table 1.14) and the reasons for which one is bad (R30, Table 2.5).
-/

namespace Sys2Proof.Machine

/-- Doubleword `n` of a list of bytes. -/
def dwordAt (bs : List Byte) (n : Nat) : Word := BitVec.ofNat 64 (leValue ((bs.drop (8 * n)).take 8))

/-- The fields of the 128 bytes of a packet (Table 1.14). -/
def parsePacket (bs : List Byte) : Packet :=
  let w := dwordAt bs
  { raw := bs.take 128, child := (w 0).getLsbD 45, rck := (w 0).getLsbD 44, det := (w 0).getLsbD 43
    prio := fld (w 0) 42 40, kind := fld (w 0) 39 32, seq := fld (w 0) 31 0
    hentry := w 1, rentry := w 2, args := w 3, done := w 4, strips := (w 5).toNat
    spkib := fld (w 6) 63 48, accrows := fld (w 6) 47 32, hmax := fld (w 6) 31 16, hmin := fld (w 6) 15 0
    aff := BitVec.ofNat 128 ((w 7).toNat + (w 8).toNat * 2 ^ 64)
    seed := w 9, whistle := fld (w 10) 15 0, parent := w 11 }

/-- An address below 2^48. -/
def lowVa (a : Word) : Bool := decide (a.toNat < 2 ^ 48)

/-- The rules of Table 1.14 by reason number (Table 2.5), in rising order; `child` says whether the packet is of a child queue. -/
def packetRules (bs : List Byte) (child : Bool) : List (Nat × Bool) :=
  let p := parsePacket bs
  [ (1, decide (p.kind = 1)),
    (2, decide (fld (dwordAt bs 0) 63 46 = 0) && decide (fld (dwordAt bs 10) 63 16 = 0)
          && [12, 13, 14, 15].all fun n => decide (dwordAt bs n = 0)),
    (3, !p.hentry.getLsbD 0 && lowVa p.hentry && !p.rentry.getLsbD 0 && lowVa p.rentry
          && (decide (p.rentry ≠ 0) || decide (p.hentry ≠ 0))),
    (4, decide (p.done ≠ 0) && decide (p.done.toNat % 8 = 0) && lowVa p.done),
    (5, decide (1 ≤ p.hmin ∧ p.hmin ≤ p.hmax ∧ p.hmax ≤ 2048)),
    (6, decide (p.spkib % 4 = 0 ∧ p.spkib ≤ 1024 ∧ p.accrows ≤ 384)),
    (7, decide (p.aff ≠ 0)),
    (8, p.child == child && (p.child || decide (p.parent = 0))),
    (10, lowVa p.args),
    (11, decide (p.strips < 2 ^ 63)) ]

/-- The lowest reason for which a packet is bad, if it is (R20, R30). -/
def packetReason (bs : List Byte) (child : Bool) : Option Nat :=
  ((packetRules bs child).find? fun r => !r.2).map Prod.fst

end Sys2Proof.Machine
end

