-- ==== Sys2Proof/Machine/Registers.lean ====
section
/-!
DEFINITION. The device registers (R6): the queue registers (R25, R27, R28), the core group registers (Table 20.4a), the registers of the
steward (Tables 2.1, 9.3, 9.7, 9.8, 15.10, 15.11, 17.4a, 17.4b, 17.6, 20.1), and their places in the device register pages.  The
tables give a register's place within its block; the places of the blocks, and what an offset without a register reads, are the
model's (log 14, DESIGN CHOICE).
-/

namespace Sys2Proof.Machine

/-! ## Queue registers -/

/-- `QSTAT` as read (Table 2.4). -/
def qstatWord (q : Queue) : Word :=
  (q.badseq.setWidth 64 <<< 32) ||| BitVec.ofNat 64 (q.reason * 256 + (if q.bad then 4 else 0) + (if q.stopped then 2 else 0)
    + (if q.en && !q.stopped then 1 else 0))

/-- `QCTL` as read (Table 2.3). -/
def qctlWord (q : Queue) : Word := BitVec.ofNat 64 ((if q.en then 256 else 0) + q.lsize)

/-- A queue register as read (Table 2.2); `QKICK` is write-only and reads 0.  No table gives a register at +0x28 to +0x38: such an
offset reads 0 (log 14, DESIGN CHOICE). -/
def queueRead (q : Queue) (off : Nat) : Word :=
  match off with
  | 0x00 => q.base
  | 0x08 => qctlWord q
  | 0x18 => q.head.setWidth 64
  | 0x20 => qstatWord q
  | _ => 0

/-- The master that a producer is (Table 17.6). -/
def producerMaster (q : Nat) : Producer → Master
  | .hand h => .hand h
  | .engine h => .engine h
  | .reeve c => .reeve c
  | .remote n p => .remotePort n p
  | .host => .hostFn q

/-- The PA of a queue's `QKICK` (R25, log 14). -/
def kickPa (q : Nat) : Nat := Config.regBase + 0x100000 + 0x1000 * (q / 4) + 0x40 * (q % 4) + 0x10

/-- Kick without packet (R28): the queue stops, the published range is discarded, violation 0x44 is recorded.  A producer of another node
freezes for the windows that hold the register it wrote (R330). -/
def kickWithoutPacket (s : State) (q : Nat) (p : Producer) (seq : BitVec 32) : State :=
  let x := s.queue q
  let s1 := s.setQueue q { x with stopped := true, pub := none, rereads := none }
  freezePort (violate (raiseMsix s1 q) (q / 4) 0x44 (producerMaster q p) (seq.setWidth 64)) (producerMaster q p) (kickPa q)

/-- A write of k to `QKICK` (R27).  A kick to a queue that is not running has no effect.  Where several masters' kicks coalesce into
one published range, the producer is the master of the last kick that extended it (log 47, DESIGN CHOICE). -/
def kick (s : State) (p : Producer) (q : Nat) (v : Word) : State :=
  let x := s.queue q
  let k : BitVec 32 := v.setWidth 32
  let d := (k - x.head).toNat
  if !x.en || x.stopped then s
  else if d < 2 ^ x.lsize then
    let ext := match x.pub with
      | some e => decide ((e - x.head).toNat < d)
      | none => true
    if ext then s.setQueue q { x with pub := some k, producer := p } else s
  else if d < 2 ^ 31 then kickWithoutPacket s q p k
  else s

/-- A write of `QCTL` (Table 2.3): en stays 0 while lsize lies outside 1-12.  A queue that en leaves at 0 publishes nothing. -/
def qctlSet (s : State) (q : Nat) (v : Word) : State :=
  let x := s.queue q
  let n := fld v 4 0
  let en := v.getLsbD 8 && decide (1 ≤ n ∧ n ≤ 12)
  s.setQueue q { x with lsize := n, en := en, pub := if en then x.pub else none, rereads := if en then x.rereads else none }

/-- Clearing `QSTAT.stopped` restarts the queue at `QHEAD` with nothing published (Table 2.4). -/
def clearStopped (s : State) (q : Nat) : State :=
  s.setQueue q { s.queue q with stopped := false, pub := none, rereads := none }

/-- A write of a queue register (Tables 2.2 to 2.4).  `stopped` is cleared by the steward alone (R28): `steward` says whether it writes. -/
def queueWrite (s : State) (steward : Bool) (p : Producer) (q off : Nat) (v : Word) : State :=
  let x := s.queue q
  match off with
  | 0x00 => s.setQueue q { x with base := v &&& ~~~0x7E#64 }
  | 0x08 => qctlSet s q v
  | 0x10 => kick s p q v
  | 0x18 => if x.en then s else s.setQueue q { x with head := v.setWidth 32 }
  | 0x20 =>
    let s1 := if v.getLsbD 2 then s.setQueue q { x with bad := false } else s
    let s2 := if steward && v.getLsbD 1 && x.stopped then clearStopped s1 q else s1
    if (s2.queue q).bad || (s2.queue q).stopped then s2 else { s2 with msix := s2.msix.filter (· != q) }
  | _ => s

/-! ## Core group registers -/

/-- The core group registers as read (Table 20.4a); `GHEART` reads 0.  No table gives a register above +0x20: such an offset reads 0
(log 14, DESIGN CHOICE). -/
def ctrlRead (c : Ctrl) (off : Nat) : Word :=
  match off with
  | 0x00 => BitVec.ofNat 64 c.gpwr
  | 0x08 => BitVec.ofNat 64 (c.kp * 65536 + c.ki)
  | 0x10 => BitVec.ofNat 64 (c.top * 256 + c.bottom)
  | 0x18 => BitVec.ofNat 64 (c.power * 2 ^ 32 + (if c.fallback then 256 else 0) + c.step)
  | _ => 0

/-- A write of a core group register; a bad `GLIM` changes nothing (Table 20.4a). -/
def ctrlWrite (s : State) (g off : Nat) (v : Word) : State :=
  let c := s.ctrl g
  match off with
  | 0x00 => s.setCtrl g { c with gpwr := fld v 15 0 }
  | 0x08 => s.setCtrl g { c with kp := fld v 31 16, ki := fld v 15 0 }
  | 0x10 =>
    let top := fld v 12 8
    let bot := fld v 4 0
    if bot > top ∨ top > 16 then s else s.setCtrl g { c with top := top, bottom := bot }
  | 0x20 => s.setCtrl g { c with beat := s.groupTick g, fallback := false }
  | _ => s

/-! ## Registers of the steward -/

/-- Doubleword `i` of a wide register. -/
def getDword {w : Nat} (x : BitVec w) (i : Nat) : Word := (x >>> (64 * i)).setWidth 64

/-- Doubleword `i` of a wide register replaced. -/
def setDword {w : Nat} (x : BitVec w) (i : Nat) (v : Word) : BitVec w :=
  (x &&& ~~~((BitVec.allOnes 64).setWidth w <<< (64 * i))) ||| (v.setWidth w <<< (64 * i))

/-- Core `c` becomes one of partition `p`'s alone: its reeve belongs to p, and its hand TLB is emptied (R23, R218). -/
def assignCore (s : State) (p c : Nat) : State :=
  let others := (List.range 16).filter fun q => q != p && (s.part q).pcore.getLsbD c
  let t := others.foldl (fun u q => u.setPart q { u.part q with pcore := (u.part q).pcore &&& ~~~(1#128 <<< c) }) s
  if (t.reeve c).part = p then t
  else
    let u := t.setReeve c { t.reeve c with part := p }
    u.setCore c { u.core c with htlb := [] }

/-- `PCORE` of a partition written (Table 2.1): a core that p receives leaves the partition that had it (R23). -/
def setPcore (s : State) (p : Nat) (m : BitVec 128) : State :=
  let t := s.setPart p { s.part p with pcore := m }
  ((List.range Config.numCores).filter fun c => m.getLsbD c).foldl (fun u c => assignCore u p c) t

/-- A bucket register written (Table 9.7). -/
def setBucket (s : State) (port p : Nat) (v : Word) : State :=
  let q := tabGet Port.empty s.ports port
  let b := tabGet Bucket.empty q.buckets p
  let d := fld v 39 16
  let b1 := { b with borrow := v.getLsbD 56, rate := fld v 55 40, depth := d, tokens := min b.tokens (d * 256) }
  { s with ports := tabSet s.ports port { q with buckets := tabSet q.buckets p b1 } }

/-- A commons register written (Table 9.8): the level is read-only. -/
def setCommons (s : State) (port : Nat) (v : Word) : State :=
  let q := tabGet Port.empty s.ports port
  { s with ports := tabSet s.ports port { q with reserve := fld v 47 24, depth := fld v 23 0, level := min q.level (fld v 23 0 * 256) } }

/-- A remote window entry that has never been written. -/
def Window.empty : Window := { base := 0, frames := 0, part := 0, v := false, r := false, w := false, a := false, frozen := false }

/-- A doubleword of a remote window entry written (Table 15.10): `frozen` is cleared by writing 1. -/
def setWindow (s : State) (p i dw : Nat) (v : Word) : State :=
  let x := tabGet Window.empty s.windows (p * 64 + i)
  let y := if dw = 0 then
      { x with base := fld v 43 12, part := fld v 11 8, v := v.getLsbD 0, r := v.getLsbD 1, w := v.getLsbD 2, a := v.getLsbD 3
               frozen := x.frozen && !v.getLsbD 4 }
    else { x with frames := fld v 31 0 }
  { s with windows := tabSet s.windows (p * 64 + i) y }

/-- A doubleword of a remote window entry as read (Table 15.10). -/
def windowWord (x : Window) (dw : Nat) : Word :=
  let bit (b : Bool) (n : Nat) : Nat := if b then 2 ^ n else 0
  if dw = 0 then BitVec.ofNat 64 (x.base % 2 ^ 32 * 4096 + x.part % 16 * 256 + bit x.frozen 4 + bit x.a 3 + bit x.w 2 + bit x.r 1 + bit x.v 0)
  else BitVec.ofNat 64 (x.frames % 2 ^ 32)

/-- `FOUL` as read (Table 17.4b). -/
def foulWord (f : Fouls) : Word :=
  BitVec.ofNat 64 ((List.range 8).foldl (fun v u => v + tabGet 0 f.count u % 16 * 16 ^ u + (if f.bench.contains u then 2 ^ (56 + u) else 0)) 0)

/-- The counts of which 2^wlog rechecked instructions have retired since the first increment return to 0 (R327). -/
def Fouls.expire (f : Fouls) (wlog : Nat) : Fouls :=
  let past (u : Nat) : Bool := decide (2 ^ wlog ≤ tabGet 0 f.window u)
  { f with count := f.count.filter fun p => !past p.1, window := f.window.filter fun p => !past p.1 }

/-- A write of `FOUL`: each bench bit written as 1 returns its unit to service with its count at 0 (Table 17.4b). -/
def clearBench (s : State) (c : Nat) (v : Word) : State :=
  let k := s.core c
  let gone := (List.range 8).filter fun u => v.getLsbD (56 + u) && k.fouls.bench.contains u
  s.setCore c { k with fouls := {
    count := k.fouls.count.filter fun p => !gone.contains p.1
    bench := k.fouls.bench.filter fun u => !gone.contains u
    window := k.fouls.window.filter fun p => !gone.contains p.1 } }

/-- `PVIOL` as read: the word at +0x48 (Table 17.6); the word at +0x50 is the detail. -/
def violWord (v : Option Violation) : Word :=
  match v with
  | none => 0
  | some x => BitVec.ofNat 64 (2 ^ 63 + x.node % 4096 * 2 ^ 32 + x.id % 65536 * 65536 + x.kind % 8 * 256 + x.code % 256)

/-- Smallest and largest size code of BAR2: 1 GiB to 512 GiB (R310). -/
def barSizeOk (n : Nat) : Bool := decide (10 ≤ n ∧ n ≤ 19)

/-- BAR2's size code of a function: 64 GiB by default (Table 15.13). -/
def barSizeCode (s : State) (fn : Nat) : Nat := tabGet 16 s.barSizes fn

/-- A register as read: every field that its map shows as zero reads 0 (R6). -/
def regValue (s : State) : RegName → Word
  | .pcoreLo p => getDword (s.part p).pcore 0
  | .pcoreHi p => getDword (s.part p).pcore 1
  | .pquant p => BitVec.ofNat 64 (s.part p).pquant
  | .psave p => (s.part p).psave
  | .psaven p => BitVec.ofNat 64 (s.part p).psaven
  | .pchild p => (s.part p).pchild
  | .proot p => (s.part p).proot
  | .prto p => BitVec.ofNat 64 (s.part p).prto
  | .pmem p i => getDword (s.part p).pmem i
  | .pdead p i => getDword (s.part p).pdead i
  | .phwin p => (s.part p).phwin
  | .pviol p => violWord (s.part p).viol
  | .pmanb p => (s.part p).manb
  | .pmans p => BitVec.ofNat 64 ((if (s.part p).ovf then 2 ^ 63 else 0) + (if (s.part p).lost then 2 ^ 62 else 0) + (s.part p).next.toNat)
  | .qbase q => (s.queue q).base
  | .qhead q => (s.queue q).head.setWidth 64
  | .bucket n p =>
    let b := tabGet Bucket.empty (tabGet Port.empty s.ports n).buckets p
    BitVec.ofNat 64 ((if b.borrow then 2 ^ 56 else 0) + b.rate % 65536 * 2 ^ 40 + b.depth % 2 ^ 24 * 65536)
  | .commons n =>
    let q := tabGet Port.empty s.ports n
    BitVec.ofNat 64 (min (q.level / 256) 65535 * 2 ^ 48 + q.reserve % 2 ^ 24 * 2 ^ 24 + q.depth % 2 ^ 24)
  | .window p i dw => windowWord (tabGet Window.empty s.windows (p * 64 + i)) dw
  | .rckcfg c => (s.core c).rckcfg
  | .foul c => foulWord (s.core c).fouls
  | .gpwr g => ctrlRead (s.ctrl g) 0x00
  | .ggain g => ctrlRead (s.ctrl g) 0x08
  | .glim g => ctrlRead (s.ctrl g) 0x10
  | .route n => tabGet 0 s.routes n
  | .actCap => BitVec.ofNat 64 s.actCap
  | .barSize fn => BitVec.ofNat 64 (barSizeCode s fn)
  | .mailbox i => tabGet 0 s.mailbox i

/-- A write of a register.  Read-only fields and write-1-to-clear fields follow the tables; the steward's write of a mailbox word
raises MSI-X vector 64 of the physical function (Table 15.13, log 14). -/
def regSet (s : State) (r : RegName) (v : Word) : State :=
  let put (p : Nat) (f : Part → Part) : State := s.setPart p (f (s.part p))
  match r with
  | .pcoreLo p => setPcore s p (setDword (s.part p).pcore 0 v)
  | .pcoreHi p => setPcore s p (setDword (s.part p).pcore 1 v)
  | .pquant p => put p fun x => { x with pquant := fld v 31 0 }
  | .psave p => put p fun x => { x with psave := v &&& ~~~0xFFF#64 }
  | .psaven p => put p fun x => { x with psaven := fld v 31 0 }
  | .pchild p => put p fun x => { x with pchild := v &&& ~~~0x7F#64 }
  | .proot p => put p fun x => { x with proot := v &&& 0xFFFFFFFFFFF#64 }
  | .prto p => put p fun x => { x with prto := fld v 31 0 }
  | .pmem p i => put p fun x => { x with pmem := setDword x.pmem i v }
  | .pdead p i => put p fun x => { x with pdead := x.pdead &&& ~~~(v.setWidth 2304 <<< (64 * i)) }
  | .phwin p => put p fun x => { x with phwin := v &&& 0xFFFFFFFFF000#64 }
  | .pviol p => put p fun x => { x with viol := if v.getLsbD 63 then none else x.viol }
  | .pmanb p => put p fun x => { x with manb := v &&& 0xFFFFFFFFFF9F#64 }
  | .pmans p => put p fun x => { x with ovf := x.ovf && !v.getLsbD 63, lost := x.lost && !v.getLsbD 62 }
  | .qbase q => queueWrite s true .host q 0x00 v
  | .qhead q => queueWrite s true .host q 0x18 v
  | .bucket port p => setBucket s port p v
  | .commons port => setCommons s port v
  | .window p i dw => setWindow s p i dw v
  | .rckcfg c => s.setCore c { s.core c with rckcfg := v &&& 0x1F00FF#64, fouls := (s.core c).fouls.expire (fld v 20 16) }
  | .foul c => clearBench s c v
  | .gpwr g => ctrlWrite s g 0x00 v
  | .ggain g => ctrlWrite s g 0x08 v
  | .glim g => ctrlWrite s g 0x10 v
  | .route n => { s with routes := tabSet s.routes n v }
  | .actCap => { s with actCap := v.toNat }
  | .barSize fn => if barSizeOk (fld v 4 0) then { s with barSizes := tabSet s.barSizes fn (fld v 4 0) } else s
  | .mailbox i => raiseMsix { s with mailbox := tabSet s.mailbox i v } 64

/-! ## Places in the device register pages (log 14) -/

/-- The register of a partition register block at an offset in the block (Tables 2.1, 9.3, 15.11, 17.6, 20.1, R310). -/
def partReg (p off : Nat) : Option RegName :=
  match off with
  | 0x00 => some (.pcoreLo p)
  | 0x08 => some (.pcoreHi p)
  | 0x10 => some (.pquant p)
  | 0x18 => some (.psave p)
  | 0x20 => some (.psaven p)
  | 0x28 => some (.pchild p)
  | 0x30 => some (.proot p)
  | 0x38 => some (.prto p)
  | 0x40 => some (.phwin p)
  | 0x48 => some (.pviol p)
  | 0x58 => some (.pmanb p)
  | 0x60 => some (.pmans p)
  | _ =>
    if 0x100 ≤ off ∧ off < 0x220 then some (.pmem p ((off - 0x100) / 8))
    else if 0x300 ≤ off ∧ off < 0x420 then some (.pdead p ((off - 0x300) / 8))
    else none

/-- The steward's register at an offset of the device register pages. -/
def regAt (off : Nat) : Option RegName :=
  if 0x10000 ≤ off ∧ off < 0x20000 then partReg ((off - 0x10000) / 0x1000) (off % 0x1000)
  else if 0x20000 ≤ off ∧ off < 0x40000 then
    let n := (off - 0x20000) / 0x800
    let o := off % 0x800
    if o = 0x400 then some (.commons n) else if o < 0x400 ∧ o % 0x40 = 0 then some (.bucket n (o / 0x40)) else none
  else if 0x40000 ≤ off ∧ off < 0x40000 + 16 * Config.numCores then
    let c := (off - 0x40000) / 16
    if off % 16 = 0 then some (.rckcfg c) else some (.foul c)
  else if 0x50000 ≤ off ∧ off < 0x54000 then
    let k := (off - 0x50000) / 16
    some (.window (k / 64) (k % 64) (off % 16 / 8))
  else if 0x60000 ≤ off ∧ off < 0x60000 + 8 * (Config.maxNode + 1) then some (.route ((off - 0x60000) / 8))
  else if off = 0x70000 then some .actCap
  else if 0x71000 ≤ off ∧ off < 0x72000 then some (.mailbox ((off - 0x71000) / 8))
  else none

/-- Who makes an access. -/
inductive Agent where
  | hand (h : Nat)
  /-- A hand's store that bypasses the hand data cache (R116). -/
  | bypass (h : Nat)
  /-- The VMU, a copy slot or an atomic of a hand (R274). -/
  | vmu (h : Nat)
  | reeve (c : Nat)
  /-- A unit of the device that acts for a partition. -/
  | other (p : Nat)
  /-- A request of another node for its partition (R306). -/
  | remote (node p : Nat)
  deriving DecidableEq, Repr

/-- The partition of an agent. -/
def agentPart (s : State) : Agent → Nat
  | .hand h => (s.hand h).part
  | .bypass h => (s.hand h).part
  | .vmu h => (s.hand h).part
  | .reeve c => (s.reeve c).part
  | .other p => p
  | .remote _ p => p

/-- The master that an agent is (R330). -/
def agentMaster : Agent → Master
  | .hand h => .hand h
  | .bypass h => .hand h
  | .vmu h => .engine h
  | .reeve c => .reeve c
  | .other p => .hostFn (4 * p)
  | .remote n p => .remotePort n p

/-- The producer that an agent's kick names (R28). -/
def agentProducer : Agent → Producer
  | .hand h => .hand h
  | .bypass h => .hand h
  | .vmu h => .engine h
  | .reeve c => .reeve c
  | .other _ => .host
  | .remote n p => .remote n p

/-- Steward firmware reaches every register (R24): a reeve in machine mode.  An access of a unit of the device or of another node has
been admitted before it gets here (R306, R310). -/
def isSteward (s : State) : Agent → Bool
  | .reeve c => decide ((s.reeve c).mode = .m)
  | .other _ => true
  | .remote _ _ => true
  | _ => false

/-- The agent is the steward itself. -/
def stewardAgent (s : State) : Agent → Bool
  | .reeve c => decide ((s.reeve c).mode = .m)
  | _ => false

/-- The violation of an access to the register pages (Table 17.5): 0x42 for a steward's register, 0x40 for another
partition's page. -/
def regViolation (s : State) (a : Agent) (off : Nat) : Option Nat :=
  if isSteward s a then none
  else if 0x100000 ≤ off ∧ off < 0x110000 then
    if (off - 0x100000) / 0x1000 = agentPart s a ∧ (off - 0x100000) % 0x1000 < 0x100 then none else some 0x40
  else some 0x42

/-- A doubleword of a black-box entry (Table 20.3). -/
def boxWord (e : BoxEntry) (i : Nat) : Word :=
  match i with
  | 0 => nat64 e.tick
  | 1 => nat64 (e.source % 65536 * 2 ^ 32 + e.part % 16 * 2 ^ 24 + e.sub % 65536 * 256 + e.event % 256)
  | 2 => nat64 e.detail
  | _ => nat64 (e.detail / 2 ^ 64)

/-- A doubleword of the black-box ring (R347). -/
def boxRead (s : State) (off : Nat) : Word :=
  match s.box[off / 32]? with
  | some e => boxWord e (off % 32 / 8)
  | none => 0

/-- The logical core on the k-th physical core of group g. -/
def coreOfGroup (s : State) (g k : Nat) : Option Nat := (List.range Config.numCores).find? fun c => (s.core c).phys == 8 * g + k

/-- A doubleword of the telemetry of a core group (R355), at places chosen by the model (log 35): power, temperature and lane point, the
replays and the foul word of each of its eight cores, and for each port the tokens granted and borrowed.  A counter wraps at 2^64. -/
def groupTelemetry (s : State) (g off : Nat) : Word :=
  let c := s.ctrl g
  let port (n : Nat) : Port := tabGet Port.empty s.ports n
  if off = 0x00 then nat64 c.power
  else if off = 0x08 then nat64 c.temp
  else if off = 0x10 then nat64 c.step
  else if 0x40 ≤ off ∧ off < 0x80 then
    match coreOfGroup s g ((off - 0x40) / 8) with
    | some k => nat64 (s.core k).replays
    | none => 0
  else if 0x80 ≤ off ∧ off < 0xC0 then
    match coreOfGroup s g ((off - 0x80) / 8) with
    | some k => foulWord (s.core k).fouls
    | none => 0
  else if 0x200 ≤ off ∧ off < 0x400 then nat64 (port ((off - 0x200) / 8)).granted
  else if 0x400 ≤ off ∧ off < 0x600 then nat64 (port ((off - 0x400) / 8)).borrowed
  else 0

/-- A doubleword of the telemetry blocks. -/
def telemetryRead (s : State) (off : Nat) : Word := groupTelemetry s (off / 0x800) (off % 0x800)

/-- A device register as read, by offset of its doubleword; where no table gives a register, a free value (log 14).  The black box and the
telemetry, which the steward reads, stand where BAR0 has them (R347, R355). -/
def regRead (s : State) (off : Nat) : Word :=
  if 0x100000 ≤ off ∧ off < 0x110000 then
    let p := (off - 0x100000) / 0x1000
    let r := (off - 0x100000) % 0x1000
    if r < 0x100 then queueRead (s.queue (4 * p + r / 0x40)) (r % 0x40) else Config.freeRegister off
  else if 0x80000 ≤ off ∧ off < 0x80000 + 0x100 * Config.coreGroups then
    ctrlRead (s.ctrl ((off - 0x80000) / 0x100)) (off % 0x100)
  else if 0x90000 ≤ off ∧ off < 0x90000 + 0x800 * Config.coreGroups then telemetryRead s (off - 0x90000)
  else if 0x300000 ≤ off ∧ off < 0x340000 then boxRead s (off - 0x300000)
  else if 0x10000 ≤ off ∧ off < 0x20000 ∧ off % 0x1000 = 0x50 then
    ((s.part ((off - 0x10000) / 0x1000)).viol.map Violation.detail).getD 0
  else if 0x10000 ≤ off ∧ off < 0x20000 ∧ 0x68 ≤ off % 0x1000 ∧ off % 0x1000 < 0x88 then
    getDword (s.part ((off - 0x10000) / 0x1000)).pimg ((off % 0x1000 - 0x68) / 8)
  else match regAt off with
    | some r => regValue s r
    | none => Config.freeRegister off

/-- A write of a device register. -/
def regWrite (s : State) (a : Agent) (off : Nat) (v : Word) : State :=
  if 0x100000 ≤ off ∧ off < 0x110000 then
    let part := (off - 0x100000) / 0x1000
    let r := (off - 0x100000) % 0x1000
    if r < 0x100 then queueWrite s (stewardAgent s a) (agentProducer a) (4 * part + r / 0x40) (r % 0x40) v else s
  else if 0x80000 ≤ off ∧ off < 0x80000 + 0x100 * Config.coreGroups then
    ctrlWrite s ((off - 0x80000) / 0x100) (off % 0x100) v
  else match regAt off with
    | some r => regSet s r v
    | none => s

end Sys2Proof.Machine
end

