-- ==== Sys2Proof/Machine/Tokens.lean ====
section
/-!
DEFINITION. The token buckets and the commons of the L2 slice ports (R223, R224): paying for the transfers of an access before they
move, and what waits.  Tokens are counted in 1/256 of a token.
-/

namespace Sys2Proof.Machine

/-- Port `n`. -/
def State.port (s : State) (n : Nat) : Port := tabGet Port.empty s.ports n

/-- The home slice of a PA (R209). -/
def sliceOf (pa : Nat) : Nat := pa / 64 % 64 ^^^ pa / 4096 % 64

/-- Bucket of partition `p` at a port. -/
def Port.bucket (q : Port) (p : Nat) : Bucket := tabGet Bucket.empty q.buckets p

/-- A port with a bucket set. -/
def Port.setBucket (q : Port) (p : Nat) (b : Bucket) : Port := { q with buckets := tabSet q.buckets p b }

/-- Tokens of partition `p` that its waiting transfers hold. -/
def Port.creditOf (q : Port) (p : Nat) : Nat := tabGet 0 q.credit p

/-- A token taken from the partition's own bucket for its transfers (R224); the port's telemetry counts it (R355). -/
def Port.takeOwn (q : Port) (p : Nat) : Port :=
  let b := q.bucket p
  { q.setBucket p { b with tokens := b.tokens - 256, used := b.used + 1 } with
    granted := q.granted + 1, credit := tabSet q.credit p (q.creditOf p + 1) }

/-- A token borrowed from the commons (R224); the port's telemetry counts it (R355). -/
def Port.takeCommon (q : Port) (p : Nat) : Port :=
  let b := q.bucket p
  { q.setBucket p { b with used := b.used + 1 } with
    level := q.level - 256, granted := q.granted + 1, borrowed := q.borrowed + 1, credit := tabSet q.credit p (q.creditOf p + 1) }

/-- The commons lends: it holds more than its reserve. -/
def Port.lends (q : Port) : Bool := decide (q.reserve * 256 < q.level)

/-- Up to `fuel` tokens taken for partition `p` until it holds `need`: from its bucket, or from the commons where no other partition
waits to borrow (R224); those that wait are served by TOKEN_GRANT. -/
def Port.fill (p need : Nat) : Nat → Port → Port
  | 0, q => q
  | fuel + 1, q =>
    if need ≤ q.creditOf p then q
    else if 256 ≤ (q.bucket p).tokens then Port.fill p need fuel (q.takeOwn p)
    else if (q.bucket p).borrow ∧ q.lends ∧ q.wait.all (· == p) then Port.fill p need fuel (q.takeCommon p)
    else q

/-- A port asked for `need` transfers of partition `p`: what it can give at once, and p among the waiting where that is too little. -/
def Port.ask (q : Port) (p need : Nat) : Port :=
  let t := q.fill p need need
  if need ≤ t.creditOf p ∨ t.wait.contains p then t else { t with wait := t.wait ++ [p] }

/-- The transfers of partition `p` move: its tokens are spent, and it no longer waits. -/
def Port.spend (q : Port) (p need : Nat) : Port :=
  { q with credit := tabSet q.credit p (q.creditOf p - need), wait := q.wait.erase p }

/-- The granules of cacheable DRAM among the bytes of an access, each once. -/
def granulesOf (ls : List Loc) : List Nat :=
  (ls.filterMap fun l => match l with
    | .dram pa false => some (pa / 64)
    | _ => none).eraseDups

/-- The ports that the transfers of an access pass, and how many of them pass each (R223). -/
def transfersOf (ls : List Loc) : List (Nat × Nat) :=
  let ks := (granulesOf ls).map fun g => sliceOf (64 * g)
  ks.eraseDups.map fun k => (k, ks.count k)

/-- The transfers of an access are asked of their ports, and move if every port has the tokens (R224): the second part says whether
they do.  An agent without a partition's bucket pays nothing. -/
def pay (s : State) (p : Option Nat) (ls : List Loc) : State × Bool :=
  match p with
  | none => (s, true)
  | some p =>
    let ks := transfersOf ls
    let asked := ks.foldl (fun t k => tabSet t k.1 ((tabGet Port.empty t k.1).ask p k.2)) s.ports
    if ks.all fun k => decide (k.2 ≤ (tabGet Port.empty asked k.1).creditOf p) then
      ({ s with ports := ks.foldl (fun t k => tabSet t k.1 ((tabGet Port.empty t k.1).spend p k.2)) asked }, true)
    else ({ s with ports := asked }, false)

/-- The machine once the transfers of an access have been asked for. -/
def charge (s : State) (p : Option Nat) (ls : List Loc) : State := (pay s p ls).1

/-- The ports have a token for every transfer of an access. -/
def funded (s : State) (p : Option Nat) (ls : List Loc) : Bool := (pay s p ls).2

end Sys2Proof.Machine
end

