-- ==== Sys2Proof/Machine/Access.lean ====
section
/-!
DEFINITION. Performing accesses (R273, R274): reading and writing bytes where they lie, the hand data cache, the store buffer,
reservations, poison, and the requests that carry an access to another node (R305, R308) or to the host (R212).
-/

namespace Sys2Proof.Machine

/-! ## Bytes at their performing points -/

/-- The byte at a location of this device, at its performing point; a register's byte is its doubleword's. -/
def readLoc (s : State) : Loc → Byte
  | .spad c o => memGet (s.core c).spad o
  | .dram pa _ => memGet s.mem pa
  | .reg off => ((regRead s (off / 8 * 8)) >>> (8 * (off % 8))).setWidth 8
  | _ => 0

/-- The byte at a location is poisoned (R226, R325). -/
def poisonedLoc (s : State) : Loc → Bool
  | .spad c o => (s.core c).spoison.contains (o / 32)
  | .dram pa _ => s.poison.contains (pa / 32)
  | _ => false

/-- The aligned granule of `n` bytes of a location. -/
def granuleOf (n : Nat) : Loc → Loc
  | .spad c o => .spad c (o / n * n)
  | .dram pa _ => .dram (pa / n * n) false
  | .host a => .host (a / n * n)
  | .reg o => .reg (o / n * n)
  | .remote k pa _ => .remote k (pa / n * n) false

/-- One byte written at a location of this device's memory. -/
def writeLoc (s : State) (l : Loc) (b : Byte) : State :=
  match l with
  | .spad c o => s.setCore c { s.core c with spad := memSet (s.core c).spad o b }
  | .dram pa _ => { s with mem := memSet s.mem pa b }
  | _ => s

/-- Bytes written, one by one. -/
def writeAll (s : State) : List Loc → List Byte → State
  | l :: ls, b :: bs => writeAll (writeLoc s l b) ls bs
  | _, _ => s

/-- A write drops every reservation on a granule it touches (R245). -/
def breakResv (s : State) (ls : List Loc) : State :=
  if s.resv = [] then s else
  let gs := ls.map (granuleOf 8)
  { s with resv := s.resv.filter fun r => !gs.contains r.2 }

/-- The places `ls` hold every byte of half `k`, whose bytes lie at `f`. -/
def wholeHalf (ls : List Loc) (f : Nat → Loc) (k : Nat) : Bool := (List.range 32).all fun i => ls.contains (f (32 * k + i))

/-- A write of a whole 32-byte half of DRAM gives it new ECC (R226). -/
def healDram (s : State) (ls : List Loc) : State :=
  if s.poison = [] then s else
  { s with poison := s.poison.filter fun k => !(wholeHalf ls (fun a => .dram a false) k || wholeHalf ls (fun a => .dram a true) k) }

/-- The same of a scratchpad (R325). -/
def healSpad (s : State) (ls : List Loc) : State :=
  match ls.head? with
  | some (.spad c _) =>
    let x := s.core c
    if x.spoison = [] then s else s.setCore c { x with spoison := x.spoison.filter fun k => !wholeHalf ls (fun o => .spad c o) k }
  | _ => s

/-- A write of a whole 32-byte half gives it new ECC (R226, R325). -/
def healPoison (s : State) (ls : List Loc) : State := healSpad (healDram s ls) ls

/-- The lines of the hand data cache that a write touches: updated by a plain scalar store of a hand of the core, removed by
the core's VMU, copies and reeve, by atomics and by stores that bypass the cache (R274). -/
def cacheWrite (s : State) (a : Agent) (ls : List Loc) (bs : List Byte) : State :=
  let upd (c : Nat) (keep : Bool) : State :=
    let k := s.core c
    if k.dcache = [] then s else
    let step (d : Table (List Byte)) (p : Loc × Byte) : Table (List Byte) :=
      match p.1 with
      | .dram pa _ =>
        match tabFind d (pa / 64) with
        | some line => if keep then tabSet d (pa / 64) (line.set (pa % 64) p.2) else tabDel d (pa / 64)
        | none => d
      | _ => d
    s.setCore c { k with dcache := (ls.zip bs).foldl step k.dcache }
  match a with
  | .hand h => upd (coreOf h) true
  | .bypass h => upd (coreOf h) false
  | .vmu h => upd (coreOf h) false
  | .reeve c => upd c false
  | .other _ => s
  | .remote _ _ => s

/-- A read at the performing point by a core's VMU, copies, atomics or reeve, or by a load that bypasses the cache: a line of the core
that holds an older value of a byte read goes, so that no later scalar load of the core returns an older value than this read
(R275, R279, log 50). -/
def freshen (s : State) (a : Agent) (ls : List Loc) : State :=
  let go (c : Nat) : State :=
    let k := s.core c
    if k.dcache = [] then s else
    let step (d : Table (List Byte)) (l : Loc) : Table (List Byte) :=
      match l with
      | .dram pa false =>
        match tabFind d (pa / 64) with
        | some line => if line.getD (pa % 64) 0 = memGet s.mem pa then d else tabDel d (pa / 64)
        | none => d
      | _ => d
    s.setCore c { k with dcache := ls.foldl step k.dcache }
  match a with
  | .bypass h => go (coreOf h)
  | .vmu h => go (coreOf h)
  | .reeve c => go c
  | _ => s

/-- A write performs at this device's memory (R273, R274). -/
def performWrite (s : State) (a : Agent) (ls : List Loc) (bs : List Byte) : State :=
  healPoison (breakResv (cacheWrite (writeAll s ls bs) a ls bs) ls) ls

/-! ## Tokens (R223) -/

/-- The partition that an agent's transfers are charged to: none for a reeve in machine mode and a steward core (log 31). -/
def agentTokens (s : State) (a : Agent) : Option Nat :=
  match a with
  | .reeve c => if (s.reeve c).mode = .m ∨ Config.numCores ≤ c then none else some (s.reeve c).part
  | a => some (agentPart s a)

/-- The transfers of an agent's access: the machine once they are asked for, and whether they move (R224). -/
def payFor (s : State) (a : Agent) (ls : List Loc) : State × Bool := pay s (agentTokens s a) ls

/-- An access of a unit of the device that acts for partition p, once its transfers are paid for; where a port has no token it waits
(R223, R224). -/
def whenUnitPaid (s : State) (p : Nat) (ls : List Loc) (f : State → State) : State :=
  let q := payFor s (.other p) ls
  if q.2 then f q.1 else q.1

/-! ## Runs of one performing point -/

/-- Bytes of one access that go together: local memory, a doubleword of registers, one 64-byte granule past the caches or of host memory (R211,
R212), or one other node. -/
def sameRun : Loc → Loc → Bool
  | .spad _ _, .spad _ _ => true
  | .dram a nc, .dram b nd => nc == nd && (!nc || a / 64 == b / 64)
  | .host a, .host b => a / 64 == b / 64
  | .reg a, .reg b => a / 8 == b / 8
  | .remote n _ _, .remote m _ _ => n == m
  | _, _ => false

/-- The leading bytes of an access that perform together. -/
def leadRun : List Loc → List Loc
  | [] => []
  | l :: ls => l :: ls.takeWhile (sameRun l)

/-- The PAs that a request carries. -/
def locPas (ls : List Loc) : List Nat :=
  ls.map fun l => match l with
    | .remote _ pa _ => pa
    | .host a => a
    | .dram pa _ => pa
    | .spad _ o => o
    | .reg o => o

/-- A node that fails at once: marked dead, or not a member of the partition (R308). -/
def nodeDead (s : State) (p node : Nat) : Bool := (s.part p).pdead.getLsbD node || !(s.part p).pmem.getLsbD node

/-- The number of an agent that reservations and requests carry. -/
def waiterNumber : Waiter → Nat
  | .handAccess h => h
  | .handNext h => h
  | .handEntry h => h
  | .handCopy h => h
  | .handStore h => h
  | .handEnd h => h
  | .reeve c => 4096 + c
  | .reeveStore c => 4096 + c
  | .placer f => 8192 + f
  | .unit p => 2 ^ 17 + p

/-- The clock that counts a requester's timeout: its core group's, or the fabric block's (R5, R308). -/
def waiterTick (s : State) : Waiter → Nat
  | .handAccess h => s.coreTick (coreOf h)
  | .handNext h => s.coreTick (coreOf h)
  | .handEntry h => s.coreTick (coreOf h)
  | .handCopy h => s.coreTick (coreOf h)
  | .handStore h => s.coreTick (coreOf h)
  | .handEnd h => s.coreTick (coreOf h)
  | .reeve c => s.coreTick c
  | .reeveStore c => s.coreTick c
  | .placer _ => s.tick
  | .unit _ => s.tick

/-- A request leaves for another node (R305); the second part is its tag. -/
def sendRemote (s : State) (who : Waiter) (p node : Nat) (op : MemOp) (ls : List Loc) (val cmp : List Byte) (addr : Word) (size : Nat := 0) :
    State × Nat :=
  let nc := ls.any fun l => match l with
    | .remote _ _ b => b
    | _ => false
  let r : Request := { src := waiterNumber who * 4096 + Config.node, tag := s.nextTag, part := p, op := op, pas := locPas ls, nc := nc, val := val
                       cmp := cmp, size := size }
  let wr := decide (op ∈ [.write, .condWrite, .writeBytes])
  let o : Outstanding := { tag := s.nextTag, who := who, node := node, part := p, addr := addr, write := wr
                           sent := waiterTick s who }
  ({ s with outq := s.outq ++ [(node, .request r)], outs := s.outs ++ [o], nextTag := s.nextTag + 1 }, s.nextTag)

/-- A read or a compare-and-swap leaves through the host port (R212). -/
def sendHost (s : State) (who : Waiter) (p : Nat) (addr : Word) (mk : Nat → HostReq) : State × Nat :=
  let o : Outstanding := { tag := s.nextTag, who := who, node := Config.node, part := p, addr := addr, write := false
                           sent := waiterTick s who }
  ({ s with hostq := s.hostq ++ [mk s.nextTag], outs := s.outs ++ [o], nextTag := s.nextTag + 1 }, s.nextTag)

/-- The core whose VMU carries an agent's accesses past the caches (R211); a unit of the device that acts for a partition has
none, and its accesses perform at once. -/
def ncCore : Agent → Option Nat
  | .hand h => some (coreOf h)
  | .vmu h => some (coreOf h)
  | .bypass h => some (coreOf h)
  | .reeve c => some c
  | .other _ => none
  | .remote _ _ => none

/-- The channel of a PA: stack = PA[11:8], channel = PA[17:12] (R209), numbered stack·64 + channel. -/
def channelOf (pa : Nat) : Nat := pa / 256 % 16 * 64 + pa / 4096 % 64

/-- Channel `n`. -/
def State.chan (s : State) (n : Nat) : Channel := tabGet Channel.empty s.chans n

/-- An operation that travels to a base die as a write request (R225, log 49). -/
def memWrites : MemOp → Bool
  | .read => false
  | .readBytes => false
  | .reserve => false
  | _ => true

/-- A request of a core's VMU goes to its base die (R211, R225): VMU c is requester 64 + c, after the slices.  The second part is
the number of the access. -/
def sendDie (s : State) (who : Waiter) (p c : Nat) (op : MemOp) (run : List Loc) (data cmp : List Byte) (addr : Word) (size : Nat := 0) :
    State × Nat :=
  let pas := locPas run
  let ch := channelOf (pas.headD 0)
  let mask := pas.foldl (fun m pa => m ||| (1#64 <<< (pa % 64))) 0#64
  let line := (pas.zip data).foldl (fun l q => l.set (q.1 % 64) q.2) (List.replicate 64 0)
  let r : DieReq := { id := s.nextTag, requester := 64 + c, granule := pas.headD 0 / 64, write := memWrites op, mask := mask, data := line
                      pas := pas, op := op, agent := waiterNumber who, val := data, cmp := cmp, size := size }
  let o : Outstanding := { tag := s.nextTag, who := who, node := Config.node, part := p, addr := addr, write := memWrites op
                           sent := waiterTick s who }
  let q := s.chan ch
  ({ s with chans := tabSet s.chans ch { q with waiting := q.waiting ++ [r] }, outs := s.outs ++ [o], nextTag := s.nextTag + 1 }, s.nextTag)

/-! ## Reads -/

/-- The outcome of the reads of an access. -/
inductive Gather where
  | done (bytes : List Byte)
  | wait (a : Awaited)
  /-- A poisoned byte (R226). -/
  | poison
  /-- A remote failure with its sub-status, and how many bytes of the access came before the failing one (R308, R318). -/
  | remote (sub before : Nat)
  | violation (code off : Nat)
  deriving DecidableEq, Repr

/-- The newest byte that the hand's own store buffer holds for a location (R106). -/
def fromBuffer (sb : List PendingStore) (l : Loc) : Option Byte :=
  sb.foldl (fun acc p =>
    match (p.locs.zip p.bytes).reverse.find? fun q => granuleOf 1 q.1 == granuleOf 1 l with
    | some q => some q.2
    | none => acc) none

/-- The byte that an agent reads is poisoned: a plain scalar load takes it from its store buffer or the core's data cache where they
hold it (R226, R325). -/
def poisonedFor (s : State) (a : Agent) (l : Loc) : Bool :=
  match a with
  | .hand h =>
    if (fromBuffer (s.hand h).sb l).isSome then false
    else match l with
      | .dram pa false =>
        let c := s.core (coreOf h)
        if (tabFind c.dcache (pa / 64)).isSome then c.dpoison.contains (pa / 32) else poisonedLoc s l
      | _ => poisonedLoc s l
  | .bypass h => (fromBuffer (s.hand h).sb l).isNone && poisonedLoc s l
  | _ => poisonedLoc s l

/-- Reads the bytes of an access in order: what lies on this device at once, the rest by requests (R305, R212).  `rd` reads a
byte of this device. -/
def gather (who : Waiter) (a : Agent) (op : MemOp) (rd : State → Loc → Byte) (addr : Word) :
    Nat → State → List Loc → List Byte → State × Gather
  | 0, s, _, got => (s, .done got)
  | fuel + 1, s, ls, got =>
    match ls with
    | [] => (s, .done got)
    | l :: _ =>
      let run := leadRun ls
      let rest := ls.drop run.length
      match l with
      | .remote node _ _ =>
        if nodeDead s (agentPart s a) node then (s, .remote 2 got.length)
        else
          let (t, tag) := sendRemote s who (agentPart s a) node op run [] [] addr
          (t, .wait { tag := tag, locs := ls, got := got })
      | .host _ =>
        let (t, tag) := sendHost s who (agentPart s a) addr fun g => .read g (agentPart s a) (locPas run)
        (t, .wait { tag := tag, locs := ls, got := got })
      | .reg off =>
        match regViolation s a off with
        | some c => (s, .violation c off)
        | none => gather who a op rd addr fuel s rest (got ++ run.map (rd s))
      | .dram _ true =>
        match ncCore a with
        | some c =>
          let (t, tag) := sendDie s who (agentPart s a) c op run [] [] addr
          (t, .wait { tag := tag, locs := ls, got := got })
        | none =>
          if run.any (poisonedFor s a) then (s, .poison)
          else gather who a op rd addr fuel s rest (got ++ run.map (rd s))
      | _ =>
        if run.any (poisonedFor s a) then (s, .poison)
        else gather who a op rd addr fuel (freshen s a run) rest (got ++ run.map (rd s))

/-- The places of a packet's slot, or of bytes of the host, lie in the host window: one request of the placer reads them all (R212). -/
def allHost (ls : List Loc) : Bool := ls.all fun l => match l with
  | .host _ => true
  | _ => false

/-- Reads of a unit of the device: host memory by one request, the rest as any access (R28, R212). -/
def unitGather (who : Waiter) (p : Nat) (op : MemOp) (addr : Word) (s : State) (ls : List Loc) : State × Gather :=
  if ls ≠ [] ∧ allHost ls then
    let (t, tag) := sendHost s who p addr fun g => .read g p (locPas ls)
    (t, .wait { tag := tag, locs := ls, got := [] })
  else gather who (.other p) op readLoc addr (ls.length + 1) s ls []

/-- A completed part of an access is appended, and the access goes on. -/
def gatherOn (who : Waiter) (a : Agent) (op : MemOp) (rd : State → Loc → Byte) (addr : Word) (s : State) (w : Awaited)
    (bytes : List Byte) : State × Gather :=
  let run := leadRun w.locs
  gather who a op rd addr (w.locs.length + 1) s (w.locs.drop run.length) (w.got ++ bytes.take run.length)

/-! ## Writes -/

/-- A hand's store met a dead, silent or refusing member: it has no effect, `rerr` counts it and the farm ends with status 4
(R308, Table 15.12). -/
def storeLost (s : State) (a : Agent) : State :=
  let onFarm (f : Nat) (t : State) : State := t.updFarm f fun x => { x with remoteErr := true }
  match a with
  | .hand h => onFarm (s.hand h).farm (s.setHand h { s.hand h with rerr := (s.hand h).rerr + 1 })
  | .bypass h => onFarm (s.hand h).farm (s.setHand h { s.hand h with rerr := (s.hand h).rerr + 1 })
  | .vmu h => onFarm (s.hand h).farm (s.setHand h { s.hand h with rerr := (s.hand h).rerr + 1 })
  | .reeve c => onFarm (s.reeve c).hfarm s
  | .other _ => s
  | .remote _ _ => s

/-- The tag of a write that is not acknowledged yet is noted at its agent (R305). -/
def noteUnacked (s : State) (a : Agent) (tag : Nat) : State :=
  let scalar (h : Nat) : State :=
    s.setHand h { s.hand h with unacked := (s.hand h).unacked ++ [tag] }
  match a with
  | .hand h => scalar h
  | .bypass h => scalar h
  | .vmu h => s.setHand h { s.hand h with vunacked := (s.hand h).vunacked ++ [tag] }
  | .reeve c => s.setReeve c { s.reeve c with unacked := (s.reeve c).unacked ++ [tag] }
  | .other _ => s
  | .remote _ _ => s

/-- The same of a write that a base die has not replied to (R211, R225). -/
def noteDie (s : State) (a : Agent) (tag : Nat) : State :=
  let scalar (h : Nat) : State :=
    s.setHand h { s.hand h with dieWrites := (s.hand h).dieWrites ++ [tag] }
  match a with
  | .hand h => scalar h
  | .bypass h => scalar h
  | .vmu h => s.setHand h { s.hand h with vdieWrites := (s.hand h).vdieWrites ++ [tag] }
  | .reeve c => s.setReeve c { s.reeve c with dieWrites := (s.reeve c).dieWrites ++ [tag] }
  | .other _ => s
  | .remote _ _ => s

/-- Who awaits the acknowledgement of an agent's store. -/
def storeWaiter : Agent → Waiter
  | .hand h => .handStore h
  | .bypass h => .handStore h
  | .vmu h => .handStore h
  | .reeve c => .reeveStore c
  | .other p => .unit p
  | .remote _ p => .unit p

/-- The bytes of a doubleword write to a register: the bytes not written keep what the register reads. -/
def mergeReg (s : State) (off : Nat) (bs : List Byte) : Word :=
  let old := leBytes 8 (regRead s (off / 8 * 8)).toNat
  BitVec.ofNat 64 (leValue ((List.range 8).map fun i =>
    if off % 8 ≤ i ∧ i < off % 8 + bs.length then bs.getD (i - off % 8) 0 else old.getD i 0))

/-- Performs the writes of an access in order (R273): on this device at once, elsewhere by requests of the kind `op`. -/
def scatter (op : MemOp) (a : Agent) (addr : Word) : Nat → State → List Loc → List Byte → State
  | 0, s, _, _ => s
  | fuel + 1, s, ls, bs =>
    match ls with
    | [] => s
    | l :: _ =>
      let run := leadRun ls
      let data := bs.take run.length
      let t := match l with
        | .remote node _ _ =>
          if nodeDead s (agentPart s a) node then storeLost s a
          else
            let (t, tag) := sendRemote s (storeWaiter a) (agentPart s a) node op run data [] addr
            noteUnacked t a tag
        | .host _ => { breakResv s run with hostq := s.hostq ++ [.write (agentPart s a) (locPas run) data] }
        | .reg off =>
          match regViolation s a off with
          | some c => violate s (agentPart s a) c (agentMaster a) (BitVec.ofNat 64 (Config.regBase + off))
          | none => regWrite (breakResv s run) a (off / 8 * 8) (mergeReg s off data)
        | .dram _ true =>
          match ncCore a with
          | some c =>
            let (t, tag) := sendDie s (storeWaiter a) (agentPart s a) c op run data [] addr
            noteDie t a tag
          | none => performWrite s a run data
        | _ => performWrite s a run data
      scatter op a addr fuel t (ls.drop run.length) (bs.drop run.length)

/-- The writes of an access of `bs`. -/
def store (s : State) (a : Agent) (addr : Word) (ls : List Loc) (bs : List Byte) : State :=
  scatter .write a addr (ls.length + 1) s ls bs

/-- The same of an access of `n` bytes, or of accesses of `n` bytes each from `addr` on: where it is misaligned, its bytes are events of
their own wherever they perform (R276). -/
def storeAt (s : State) (a : Agent) (addr n : Nat) (ls : List Loc) (bs : List Byte) : State :=
  scatter (if addr % n = 0 then .write else .writeBytes) a (BitVec.ofNat 64 addr) (ls.length + 1) s ls bs

/-- How an access of `n` bytes at `addr` is read elsewhere (R276). -/
def readOp (addr n : Nat) : MemOp := if addr % n = 0 then .read else .readBytes

/-! ## The scalar load's view (R106, R210, R274) -/

/-- A byte as a hand's plain scalar load reads it: its store buffer, the core's data cache, the performing point. -/
def readCached (h : Nat) (s : State) (l : Loc) : Byte :=
  match fromBuffer (s.hand h).sb l with
  | some b => b
  | none =>
    match l with
    | .dram pa false =>
      match tabFind (s.core (coreOf h)).dcache (pa / 64) with
      | some line => line.getD (pa % 64) 0
      | none => readLoc s l
    | _ => readLoc s l

/-- A byte as a load that bypasses the data cache reads it (R116, R211). -/
def readUncached (h : Nat) (s : State) (l : Loc) : Byte :=
  match fromBuffer (s.hand h).sb l with
  | some b => b
  | none => readLoc s l

/-- The bytes of a plain scalar load whose lines the core's data cache has not got. -/
def missing (s : State) (h : Nat) (ls : List Loc) : List Loc :=
  ls.filter fun l => match l with
    | .dram pa false => (tabFind (s.core (coreOf h)).dcache (pa / 64)).isNone
    | _ => false

/-- A table of at most `Config.cacheLines` entries with one more: which one goes where it is full is a free choice (log 9). -/
def cacheAdd (s : State) (t : Table (List Byte)) (k : Nat) (x : List Byte) : Table (List Byte) :=
  let u := if t.length < Config.cacheLines then t else t.eraseIdx (s.freeAt k t.length)
  tabSet u k x

/-- A plain scalar load fills the lines of its cacheable bytes, with the poison that memory has (R210, R325). -/
def fillDcache (s : State) (h : Nat) (ls : List Loc) : State :=
  let c := coreOf h
  ls.foldl (fun t l =>
    match l with
    | .dram pa false =>
      let k := t.core c
      match tabFind k.dcache (pa / 64) with
      | some _ => t
      | none =>
        let halves := [pa / 64 * 2, pa / 64 * 2 + 1]
        t.setCore c { k with
          dcache := cacheAdd t k.dcache (pa / 64) (memBytes t.mem (pa / 64 * 64) 64)
          dpoison := k.dpoison.filter (fun n => !halves.contains n) ++ halves.filter t.poison.contains }
    | _ => t) s

/-- An acquire of device scope or wider: the lines of the core's data cache are no longer used (R210, log 9). -/
def dropDcache (s : State) (h : Nat) : State :=
  s.setCore (coreOf h) { s.core (coreOf h) with dcache := [] }

/-! ## Read-modify-writes (R116, R240) -/

/-- The value that a read-modify-write of `n` bytes writes: old, operand y, expected value e (cas). -/
def amoValue (o : AmoOp) (n old y e : Nat) : Nat :=
  let m := 2 ^ (8 * n)
  match o with
  | .swap => y % m
  | .add => (old + y) % m
  | .and => old &&& (y % m)
  | .or => old ||| (y % m)
  | .xor => old ^^^ (y % m)
  | .max => if toSigned (8 * n) old < toSigned (8 * n) y then y % m else old
  | .min => if toSigned (8 * n) y < toSigned (8 * n) old then y % m else old
  | .maxn => if old < y % m then y % m else old
  | .minn => if y % m < old then y % m else old
  | .cas => if old = e % m then y % m else old
  | .complete => ((old ||| (y % 512) * 2 ^ 16) + 2 ^ 32) % m

/-- True where the operation writes: a `cas` that does not match writes nothing (R116). -/
def amoWrites (o : AmoOp) (n old e : Nat) : Bool := decide (o ≠ .cas ∨ old = e % 2 ^ (8 * n))

/-- A register access that the agent may not make (Table 17.5). -/
def regBad (s : State) (a : Agent) (locs : List Loc) : Option (Nat × Nat) :=
  locs.findSome? fun l => match l with
    | .reg off => (regViolation s a off).map fun c => (c, off)
    | _ => none

/-- Where the bytes of an aligned access lie on this device, no request is needed. -/
def isLocal : Loc → Bool
  | .remote _ _ _ => false
  | .host _ => false
  | _ => true

/-- The read-modify-write at this device's memory: the machine with the new value, and the old one (R116).  One that writes nothing
has still read at the performing point (R275). -/
def amoLocal (s : State) (a : Agent) (o : AmoOp) (n : Nat) (locs : List Loc) (y e : Nat) : State × Nat :=
  let old := leValue (locs.map (readLoc s))
  let nc := locs.any fun l => match l with
    | .dram _ b => b
    | _ => false
  let t := if !amoWrites o n old e then freshen s a locs
    else if nc then performWrite s a locs (leBytes n (amoValue o n old y e))
    else store s a 0 locs (leBytes n (amoValue o n old y e))
  (t, old)

/-- The base die that an access past the caches goes to, by the core whose VMU carries it; none where it is performed at once or lies
elsewhere (R211). -/
def dieOf (a : Agent) (locs : List Loc) : Option Nat :=
  match locs.head? with
  | some (.dram _ true) => ncCore a
  | _ => none

end Sys2Proof.Machine
end

