-- ==== Sys2Proof/Machine/Flags.lean ====
section
/-!
DEFINITION. The sticky flags of `fflags` (Table 6.7) and the flag computations of the scalar instructions (R113).
-/

namespace Sys2Proof.Machine

/-- Inexact (Table 6.7). -/
def flagNX : Nat := 1
/-- Underflow. -/
def flagUF : Nat := 2
/-- Overflow. -/
def flagOF : Nat := 4
/-- Divide by zero, float or integer, or a pole of a function. -/
def flagDZ : Nat := 8
/-- Invalid operation. -/
def flagNV : Nat := 16
/-- Integer divide overflow. -/
def flagIV : Nat := 32
/-- A result was saturated. -/
def flagSAT : Nat := 64
/-- Duplicate conflict in a unique merge. -/
def flagDUP : Nat := 128
/-- A whistle partial was delivered to this hand. -/
def flagWP : Nat := 256

/-- Quotient, remainder and flags of integer division on `n` bits (R113, R162): truncation toward zero, the remainder with
the sign of the dividend, and the corners of R113. -/
def divide (n : Nat) (signed : Bool) (x y : Nat) : Nat × Nat × Nat :=
  if y % 2 ^ n = 0 then (2 ^ n - 1, x % 2 ^ n, flagDZ)
  else if signed then
    let a := toSigned n x
    let b := toSigned n y
    if a = -((2 : Int) ^ (n - 1)) ∧ b = -1 then (2 ^ (n - 1), 0, flagIV)
    else (wrapNat n (a.tdiv b), wrapNat n (a.tmod b), 0)
  else ((x % 2 ^ n) / (y % 2 ^ n), (x % 2 ^ n) % (y % 2 ^ n), 0)

/-- The flags of a 64-bit division (R113). -/
def divFlags (signed : Bool) (x y : Word) : Nat := (divide 64 signed x.toNat y.toNat).2.2

end Sys2Proof.Machine
end

