-- ==== Sys2Proof/Machine/Numbers.lean ====
section
/-!
DEFINITION. Number formats and exact arithmetic (chapter 6): the formats, rounding (R131), the format word (R132), conversions
(R134, R135) and the elementary functions (R139 to R145).  A finite value is kept exactly, as sign, whole magnitude and power of
two; quotients and roots carry a last bit that says that something follows.
-/

namespace Sys2Proof.Machine

/-! ## Formats (Tables 6.1, 6.2) -/

/-- A binary floating-point format: exponent bits, fraction bits, bias, and whether it has infinities. -/
structure FloatFmt where
  e    : Nat
  f    : Nat
  bias : Nat
  inf  : Bool
  deriving DecidableEq, Repr

/-- The kind of an element format. -/
inductive Fmt where
  | int (w : Nat)
  | nat (w : Nat)
  | float (p : FloatFmt)
  | bfp
  deriving DecidableEq, Repr

/-- f32 (Table 6.2). -/
def fmtF32 : FloatFmt := { e := 8, f := 23, bias := 127, inf := true }
/-- f64. -/
def fmtF64 : FloatFmt := { e := 11, f := 52, bias := 1023, inf := true }
/-- f16. -/
def fmtF16 : FloatFmt := { e := 5, f := 10, bias := 15, inf := true }
/-- bf16. -/
def fmtBf16 : FloatFmt := { e := 8, f := 7, bias := 127, inf := true }

/-- The format of a code (Table 6.1). -/
def fmtOf (code : Nat) : Option Fmt :=
  match code with
  | 0 => some (.int 8)
  | 1 => some (.int 16)
  | 2 => some (.int 32)
  | 3 => some (.int 64)
  | 4 => some (.nat 8)
  | 5 => some (.nat 16)
  | 6 => some (.nat 32)
  | 7 => some (.nat 64)
  | 8 => some (.float fmtF64)
  | 9 => some (.float fmtF32)
  | 10 => some (.float fmtF16)
  | 11 => some (.float fmtBf16)
  | 12 => some (.float { e := 4, f := 3, bias := 7, inf := false })
  | 13 => some (.float { e := 5, f := 2, bias := 15, inf := true })
  | 14 => some .bfp
  | _ => none

/-- The bits of one element of a binary floating-point format. -/
def FloatFmt.width (p : FloatFmt) : Nat := p.e + p.f + 1

/-- The container width of a bfp mantissa of m bits (R126). -/
def bfpWidth (m : Nat) : Nat := if m = 2 then 2 else if m ≤ 4 then 4 else 8

/-- The width of a format; a bfp element has the width of its container (R120). -/
def Fmt.width (m : Nat) : Fmt → Nat
  | .int w => w
  | .nat w => w
  | .float p => p.width
  | .bfp => bfpWidth m

/-- The encoding of the largest finite value (Table 6.2). -/
def FloatFmt.maxBits (p : FloatFmt) : Nat := if p.inf then (2 ^ p.e - 1) * 2 ^ p.f - 1 else 2 ^ (p.e + p.f) - 2
/-- The encoding of +∞; the canonical NaN in a format without infinities (Table 6.4). -/
def FloatFmt.infBits (p : FloatFmt) : Nat := if p.inf then (2 ^ p.e - 1) * 2 ^ p.f else 2 ^ (p.e + p.f) - 1
/-- The canonical NaN (Table 6.2). -/
def FloatFmt.nanBits (p : FloatFmt) : Nat :=
  if p.inf then (2 ^ p.e - 1) * 2 ^ p.f + 2 ^ (p.f - 1) else 2 ^ (p.e + p.f) - 1
/-- The sign bit. -/
def FloatFmt.signBit (p : FloatFmt) : Nat := 2 ^ (p.e + p.f)

/-! ## Values -/

/-- A value: ±m·2^e exactly, an infinity or a NaN. -/
inductive Num where
  | nan (signalling : Bool)
  | inf (neg : Bool)
  | fin (neg : Bool) (m : Nat) (e : Int)
  deriving DecidableEq, Repr

/-- An encoding's value (R123). -/
def decodeFloat (p : FloatFmt) (bits : Nat) : Num :=
  let neg := decide (bits / p.signBit % 2 = 1)
  let x := bits % p.signBit
  let ef := x / 2 ^ p.f
  let ff := x % 2 ^ p.f
  if p.inf ∧ ef = 2 ^ p.e - 1 then
    if ff = 0 then .inf neg else .nan (decide (ff / 2 ^ (p.f - 1) = 0))
  else if !p.inf ∧ x = 2 ^ (p.e + p.f) - 1 then .nan false
  else if ef = 0 then .fin neg ff (1 - (p.bias : Int) - p.f)
  else .fin neg (2 ^ p.f + ff) ((ef : Int) - p.bias - p.f)

/-- A whole number's value; zero is +0 (R125). -/
def intNum (x : Int) : Num := .fin (decide (x < 0)) x.natAbs 0

/-- The sign of a value. -/
def Num.isNeg : Num → Bool
  | .nan _ => false
  | .inf n => n
  | .fin n _ _ => n

/-- A signalling NaN. -/
def Num.isSnan : Num → Bool
  | .nan b => b
  | _ => false

/-- A NaN. -/
def Num.isNan : Num → Bool
  | .nan _ => true
  | _ => false

/-- A zero. -/
def Num.isZero : Num → Bool
  | .fin _ 0 _ => true
  | _ => false

/-- x·2^k. -/
def Num.scale (k : Int) : Num → Num
  | .fin n m e => .fin n m (e + k)
  | x => x

/-- −x. -/
def Num.negate : Num → Num
  | .nan b => .nan b
  | .inf n => .inf (!n)
  | .fin n m e => .fin (!n) m e

/-! ## Rounding (R130, R131) -/

/-- The rounding of n + rest up or not: `half` is twice the rest against the unit (less, equal, greater). -/
def roundsUp (rm : Nat) (neg : Bool) (odd exact : Bool) (half : Ordering) : Bool :=
  if exact then false
  else match rm with
    | 0 => half = .gt || (half = .eq && odd)
    | 1 => false
    | 2 => neg
    | 3 => !neg
    | _ => half ≠ .lt

/-- m·2^(−sh) rounded to a whole number: the number and whether it is inexact. -/
def roundShift (rm : Nat) (neg : Bool) (m sh : Nat) : Nat × Bool :=
  let n := m >>> sh
  let rest := m % 2 ^ sh
  let exact := decide (rest = 0)
  let up := roundsUp rm neg (decide (n % 2 = 1)) exact (compare (2 * rest) (2 ^ sh))
  (if up then n + 1 else n, !exact)

/-- A value of format p with a sign. -/
def FloatFmt.signed (p : FloatFmt) (neg : Bool) (mag : Nat) : Nat := if neg then p.signBit + mag else mag

/-- The overflow result (Table 6.4) and flags; with `sat`, ±max and SAT in place of ±∞ (R160). -/
def overflow (p : FloatFmt) (rm : Nat) (neg sat : Bool) : Nat × Nat :=
  let toMax := decide (rm = 1) || (decide (rm = 2) && !neg) || (decide (rm = 3) && neg)
  if toMax then (p.signed neg p.maxBits, flagOF + flagNX)
  else if sat then (p.signed neg p.maxBits, flagOF + flagNX + flagSAT)
  else (if p.inf then p.signed neg p.infBits else p.nanBits, flagOF + flagNX)

/-- round(±m·2^e, fmt, rm) with its flags (R131); `sat` as in R160. -/
def roundFin (p : FloatFmt) (rm : Nat) (sat neg : Bool) (m : Nat) (e : Int) : Nat × Nat :=
  if m = 0 then (p.signed neg 0, 0)
  else
    let top : Int := (Nat.log2 m : Int) + e
    let emin : Int := 1 - (p.bias : Int)
    let q : Int := max top emin - p.f
    let (n, inexact) := if e ≥ q then (m <<< (e - q).toNat, false) else roundShift rm neg m (q - e).toNat
    let bits := (q + p.f + p.bias - 1).toNat * 2 ^ p.f + n
    if bits > p.maxBits then overflow p rm neg sat
    else (p.signed neg bits, if inexact then (if top < emin then flagNX + flagUF else flagNX) else 0)

/-- The encoding of a result: a NaN is canonical, an infinity stays (R124, R131). -/
def roundNum (p : FloatFmt) (rm : Nat) (sat : Bool) : Num → Nat × Nat
  | .nan _ => (p.nanBits, 0)
  | .inf n => (if p.inf then p.signed n p.infBits else p.nanBits, 0)
  | .fin n m e => roundFin p rm sat n m e

/-- ±m·2^e rounded to a whole number under rm, and whether it is inexact. -/
def roundInt (rm : Nat) (neg : Bool) (m : Nat) (e : Int) : Int × Bool :=
  let (n, i) := if e ≥ 0 then (m <<< e.toNat, false) else roundShift rm neg m (-e).toNat
  (if neg then -(n : Int) else n, i)

/-! ## Exact operations: value and invalid flag (R124, R125, R138) -/

/-- The signed whole magnitude of a finite value at exponent k ≤ e. -/
def alignTo (k : Int) (neg : Bool) (m : Nat) (e : Int) : Int :=
  let n : Int := (m <<< (e - k).toNat : Nat)
  if neg then -n else n

/-- NV of a NaN operand. -/
def snanFlag (xs : List Num) : Nat := if xs.any Num.isSnan then flagNV else 0

/-- x + y under rm (the sign of an exact zero sum depends on it, R125). -/
def addNum (rm : Nat) (x y : Num) : Num × Nat :=
  match x, y with
  | .nan _, _ => (.nan false, snanFlag [x, y])
  | _, .nan _ => (.nan false, snanFlag [x, y])
  | .inf a, .inf b => if a = b then (.inf a, 0) else (.nan false, flagNV)
  | .inf a, _ => (.inf a, 0)
  | _, .inf b => (.inf b, 0)
  | .fin n m e, .fin n' m' e' =>
    let k := min e e'
    let v := alignTo k n m e + alignTo k n' m' e'
    if v = 0 then (.fin (if m = 0 ∧ m' = 0 ∧ n = n' then n else decide (rm = 2)) 0 k, 0)
    else (.fin (decide (v < 0)) v.natAbs k, 0)

/-- x · y. -/
def mulNum (x y : Num) : Num × Nat :=
  match x, y with
  | .nan _, _ => (.nan false, snanFlag [x, y])
  | _, .nan _ => (.nan false, snanFlag [x, y])
  | .inf a, .inf b => (.inf (a != b), 0)
  | .inf a, .fin n m _ => if m = 0 then (.nan false, flagNV) else (.inf (a != n), 0)
  | .fin n m _, .inf a => if m = 0 then (.nan false, flagNV) else (.inf (a != n), 0)
  | .fin n m e, .fin n' m' e' => (.fin (n != n') (m * m') (e + e'), 0)

/-- x·y + z, not rounded between (R164); 0·∞ with a quiet NaN addend sets NV (R124). -/
def fmaNum (rm : Nat) (x y z : Num) : Num × Nat :=
  let (v, f) := mulNum x y
  let (r, g) := addNum rm v z
  (r, f ||| g ||| snanFlag [z])

/-- x ÷ y, with a last bit for what follows (R138). -/
def divNum (x y : Num) : Num × Nat :=
  match x, y with
  | .nan _, _ => (.nan false, snanFlag [x, y])
  | _, .nan _ => (.nan false, snanFlag [x, y])
  | .inf _, .inf _ => (.nan false, flagNV)
  | .inf a, .fin n _ _ => (.inf (a != n), 0)
  | .fin n _ _, .inf a => (.fin (a != n) 0 0, 0)
  | .fin n m e, .fin n' m' e' =>
    if m' = 0 then (if m = 0 then (.nan false, flagNV) else (.inf (n != n'), flagDZ))
    else
      let k := 130 + Nat.log2 m'
      let q := (m <<< k) / m'
      let rest := if (m <<< k) % m' = 0 then 0 else 1
      (.fin (n != n') (2 * q + rest) (e - e' - k - 1), 0)

/-- ⌊√n⌋ by bits from `k` down. -/
def isqrtFrom : Nat → Nat → Nat → Nat
  | 0, n, r => if (r + 1) * (r + 1) ≤ n then r + 1 else r
  | k + 1, n, r => isqrtFrom k n (if (r + 2 ^ (k + 1)) * (r + 2 ^ (k + 1)) ≤ n then r + 2 ^ (k + 1) else r)

/-- ⌊√n⌋. -/
def isqrt (n : Nat) : Nat := isqrtFrom (Nat.log2 n / 2 + 1) n 0

/-- √x, with a last bit for what follows (R171). -/
def sqrtNum (x : Num) : Num × Nat :=
  match x with
  | .nan b => (.nan false, if b then flagNV else 0)
  | .inf n => if n then (.nan false, flagNV) else (.inf false, 0)
  | .fin n m e =>
    if m = 0 then (.fin n 0 0, 0)
    else if n then (.nan false, flagNV)
    else
      let odd := (e % 2).toNat
      let w := m <<< (odd + 260)
      let r := isqrt w
      let rest := if r * r = w then 0 else 1
      (.fin false (2 * r + rest) ((e - odd - 260) / 2 - 1), 0)

/-- A key in the order of numbers, −0 below +0; for values that are not NaN. -/
def orderKey (p : FloatFmt) (bits : Nat) : Int :=
  if bits / p.signBit % 2 = 1 then -((bits % p.signBit : Nat) : Int) - 1 else (bits % p.signBit : Nat)

/-- A key in the order of numbers with −0 = +0. -/
def valueKey (p : FloatFmt) (bits : Nat) : Int :=
  if bits / p.signBit % 2 = 1 then -((bits % p.signBit : Nat) : Int) else (bits % p.signBit : Nat)

/-! ## The format word (Table 1.10, R132) -/

/-- The fields of a format word. -/
structure FormatWord where
  fa    : Nat
  fb    : Nat
  fd    : Nat
  rm    : Nat
  sat   : Bool
  ma    : Nat
  mb    : Nat
  md    : Nat
  scale : Int
  high  : Nat
  deriving DecidableEq, Repr

/-- The fields of a captured format word (Table 1.10); mantissa widths are field + 2. -/
def formatWord (w : Word) : FormatWord :=
  { fa := fld w 3 0, fb := fld w 7 4, fd := fld w 11 8, rm := fld w 14 12, sat := w.getLsbD 15
    ma := fld w 18 16 + 2, mb := fld w 21 19 + 2, md := fld w 24 22 + 2, scale := toSigned 8 (fld w 32 25)
    high := fld w 63 33 }

/-- Rules 1 to 4 of R132. -/
def FormatWord.basic (w : FormatWord) : Bool :=
  let bfpOk (f m : Nat) : Bool := if f = 14 then decide (m ≤ 8) else decide (m = 2)
  decide (w.high = 0) && decide (w.rm ≤ 4) && decide (w.fa ≠ 15 ∧ w.fb ≠ 15 ∧ w.fd ≠ 15)
    && bfpOk w.fa w.ma && bfpOk w.fb w.mb && bfpOk w.fd w.md

/-- A code of an I format. -/
def isI (c : Nat) : Bool := decide (c ≤ 3)
/-- A code of an N format. -/
def isN (c : Nat) : Bool := decide (4 ≤ c ∧ c ≤ 7)
/-- A code of an F format: f64, f32, f16, bf16 (R160). -/
def isF (c : Nat) : Bool := decide (8 ≤ c ∧ c ≤ 11)

/-- The width of a format code. -/
def codeWidth (c m : Nat) : Nat := match fmtOf c with
  | some f => f.width m
  | none => 0

/-! ## Conversions of one element (R134) -/

/-- The bounds of an integer format. -/
def intBounds : Fmt → Int × Int
  | .int w => (-((2 : Int) ^ (w - 1)), (2 : Int) ^ (w - 1) - 1)
  | .nat w => (0, (2 : Int) ^ w - 1)
  | _ => (0, 0)

/-- The whole number that an integer element holds (R121). -/
def intValue (f : Fmt) (bits : Nat) : Int := match f with
  | .int w => toSigned w bits
  | .nat w => (bits % 2 ^ w : Nat)
  | _ => 0

/-- A whole number into an integer format: sat gives the nearest bound and SAT, else the low bits (Table 6.5). -/
def intTo (f : Fmt) (sat : Bool) (t : Int) : Nat × Nat :=
  let (lo, hi) := intBounds f
  let w := f.width 2
  if sat then
    if t < lo then (wrapNat w lo, flagSAT) else if t > hi then (wrapNat w hi, flagSAT) else (wrapNat w t, 0)
  else (wrapNat w t, 0)

/-- A float value into an integer format (Table 6.5): NaN gives 0, out of range gives the nearest bound, both with NV only. -/
def floatToInt (f : Fmt) (rm : Nat) (x : Num) : Nat × Nat :=
  let (lo, hi) := intBounds f
  let w := f.width 2
  match x with
  | .nan _ => (0, flagNV)
  | .inf n => (wrapNat w (if n then lo else hi), flagNV)
  | .fin n m e =>
    if e > 200 ∧ m ≠ 0 then (wrapNat w (if n then lo else hi), flagNV)
    else
      let (t, i) := roundInt rm n m e
      if t < lo then (wrapNat w lo, flagNV) else if t > hi then (wrapNat w hi, flagNV)
      else (wrapNat w t, if i then flagNX else 0)

/-- A float value, scaled already, into a float format (Table 6.5). -/
def floatToFloat (p : FloatFmt) (rm : Nat) (sat : Bool) (x : Num) : Nat × Nat :=
  match x with
  | .nan b => (p.nanBits, if b then flagNV else 0)
  | .inf n =>
    if sat then (p.signed n p.maxBits, flagSAT)
    else if p.inf then (p.signed n p.infBits, 0) else (p.nanBits, flagNV)
  | .fin n m e => roundFin p rm sat n m e

/-- The exact value of a bfp element (R126): mantissa of m bits, exponent byte X. -/
def bfpNum (m mant X : Nat) : Num :=
  let v := toSigned m mant
  .fin (decide (v < 0)) v.natAbs ((X : Int) - 127 - (m - 2 : Nat))

/-- One element from format `a` to format `d`, neither bfp destinations (R134).  `xa` is its exponent byte for a bfp source. -/
def convertElem (a d : Fmt) (ma : Nat) (rm : Nat) (sat : Bool) (scale : Int) (xa bits : Nat) : Nat × Nat :=
  match a, d with
  | .float p, .float q => floatToFloat q rm sat ((decodeFloat p bits).scale scale)
  | .float p, f => floatToInt f rm ((decodeFloat p bits).scale scale)
  | .bfp, .float q => roundNum q rm sat ((bfpNum ma bits xa).scale scale)
  | .bfp, _ => (0, 0)
  | f, .float q => roundNum q rm sat ((intNum (intValue f bits)).scale scale)
  | f, g => intTo g sat (intValue f bits)

/-- The magnitude's exponent ⌊log2 |x|⌋ of a nonzero finite value. -/
def topExp (m : Nat) (e : Int) : Int := (Nat.log2 m : Int) + e

/-- The block rule (R135): the exponent byte, each mantissa with the flags of its value, and the flag of the exponent.  The values are
scaled already. -/
def toBfpBlock (m rm : Nat) (xs : List Num) : Nat × List (Nat × Nat) × Nat :=
  let tops := xs.filterMap fun x => match x with
    | .fin _ k e => if k = 0 then none else some (topExp k e)
    | _ => none
  let x0 : Int := match tops with
    | [] => 0
    | t :: ts => ts.foldl max t + 127
  let of := if x0 > 255 then flagOF else 0
  let X : Nat := if x0 > 255 then 255 else x0.toNat
  let lo : Int := -((2 : Int) ^ (m - 1))
  let hi : Int := (2 : Int) ^ (m - 1) - 1
  let one (x : Num) : Nat × Nat :=
    match x with
    | .nan _ => (0, flagNV)
    | .inf n => (wrapNat m (if n then lo else hi), flagSAT)
    | .fin n k e =>
      let (t, i) := roundInt rm n k (e - ((X : Int) - 127 - (m - 2 : Nat)))
      let c := if t > hi then hi else if t < lo then lo else t
      (wrapNat m c, (if i then flagNX else 0) ||| (if c ≠ t then flagSAT else 0)
        ||| (if c = 0 ∧ k ≠ 0 then flagUF else 0))
  (X, xs.map one, of)

/-! ## Fixed-point series: 256 fraction bits -/

/-- ln 2 · 2^256, rounded down (the sum of 1/(k·2^k)). -/
def ln2Fix : Nat := 0xB17217F7D1CF79ABC9E3B39803F2F6AF40F343267298B62D8A0D175B8BAAFA2B

/-- The fraction bits. -/
def fixBits : Nat := 256

/-- Σ z^k/k! from the term `t` of index `k` on, for `fuel` terms, z in fixed point. -/
def expSeries (z : Int) : Nat → Nat → Int → Int
  | 0, _, t => t
  | fuel + 1, k, t => t + expSeries z fuel (k + 1) (t * z / (k : Int) / 2 ^ fixBits)

/-- e^z in fixed point for |z| ≤ 1. -/
def expFix (z : Int) : Int := expSeries z 60 1 (2 ^ fixBits)

/-- Σ t·w²ʲ/(2j+1): the series of artanh from the power `t` of index `k` on. -/
def atanhSeries (w2 : Int) : Nat → Nat → Int → Int
  | 0, _, _ => 0
  | fuel + 1, k, t => t / (k : Int) + atanhSeries w2 fuel (k + 2) (t * w2 / 2 ^ fixBits)

/-- ln of a ratio a/b with 1/2 ≤ a/b ≤ 2, in fixed point: 2·artanh((a − b)/(a + b)). -/
def lnFix (a b : Nat) : Int :=
  let w : Int := (((a : Int) - b) * 2 ^ fixBits) / ((a : Int) + b)
  2 * atanhSeries (w * w / 2 ^ fixBits) 90 1 w

/-- 2^f for a fraction f in fixed point, 0 ≤ f < 1, as a value with a last bit: exact only for f = 0. -/
def exp2Fix (f : Nat) (k : Int) : Num :=
  if f = 0 then .fin false 1 k
  else .fin false (2 * (expFix ((f * ln2Fix / 2 ^ fixBits : Nat) : Int)).toNat + 1) (k - fixBits - 1)

/-- log2(a/b)·2^256, rounded. -/
def log2Fix (a b : Nat) : Int := lnFix a b * 2 ^ fixBits / ln2Fix

/-! ## f32 steps rounded under RNE (R140) -/

/-- A step's result rounded to f32 under RNE. -/
def rne (x : Num) : Num := decodeFloat fmtF32 (roundNum fmtF32 0 false x).1
/-- The f32 constant of a hex encoding (Table 6.9). -/
def f32c (bits : Nat) : Num := decodeFloat fmtF32 bits
/-- fma with one rounding under RNE. -/
def fma32 (x y z : Num) : Num := rne (fmaNum 0 x y z).1
/-- A product rounded under RNE. -/
def mul32 (x y : Num) : Num := rne (mulNum x y).1
/-- x ÷ y rounded under RNE. -/
def div32 (x y : Num) : Num := rne (divNum x y).1
/-- x + y rounded under RNE. -/
def add32 (x y : Num) : Num := rne (addNum 0 x y).1

/-- A polynomial by Horner's rule with a rounding at each step: p ← c; p ← fma(p, x, c') … -/
def horner (x : Num) : List Num → Num → Num
  | [], p => p
  | c :: cs, p => horner x cs (fma32 p x c)

/-- Normalised finite value: 1 ≤ m·2^(−p) < 2 and the exponent: x = m·2^(−p)·2^e. -/
def mantExp (m : Nat) (e : Int) : Nat × Nat × Int := (m, Nat.log2 m, (Nat.log2 m : Int) + e)

/-- Flags of a function result: OF and UF of the last rounding, NX unless the exact value is representable and returned
(R140). -/
def funFlags (r : Nat × Nat) (exact : Option Nat) : Nat :=
  (r.2 &&& (flagOF + flagUF)) ||| (if exact = some r.1 then 0 else flagNX)

/-- The encoding of ±m·2^e in f32, if f32 represents it. -/
def exactF32 (x : Num) : Option Nat :=
  let r := roundNum fmtF32 0 false x
  if r.2 = 0 then some r.1 else none

/-- R141: the value before the last rounding, x = ±m·2^e finite. -/
def exp2Core (n : Bool) (m : Nat) (e : Int) : Num :=
  let k := (roundInt 0 n m (e + 6)).1
  let j := (k % 64).toNat
  let ee := (k - j) / 64
  let r := (addNum 0 (.fin n m e) (.fin (decide (0 < k)) k.natAbs (-6))).1
  let T := rne (exp2Fix (j * 2 ^ (fixBits - 6)) 0)
  let p := mul32 (horner r [f32c 0x3E75FDF0, f32c 0x3F317218] (f32c 0x3D635847)) r
  ((fmaNum 0 T p T).1).scale ee

/-- A value so far outside f32's range that its power of two over- or underflows. -/
def tooBig (m : Nat) (e : Int) : Bool := decide (m ≠ 0 ∧ topExp m e ≥ 9)

/-- `vexp2` in f32 (R141). -/
def exp2F32 (rm : Nat) (n : Bool) (m : Nat) (e : Int) : Nat × Nat :=
  let v : Num := if tooBig m e then .fin false 1 (if n then -1000 else 1000) else exp2Core n m e
  let r := roundNum fmtF32 rm false v
  let whole := roundInt 1 n m e
  let exact := if tooBig m e ∨ whole.2 then none else exactF32 (.fin false 1 whole.1)
  (r.1, funFlags r exact)

/-- `vlog2` in f32 (R142), x = m·2^e > 0. -/
def log2F32 (rm : Nat) (m : Nat) (e : Int) : Nat × Nat :=
  let (mm, p, ex0) := mantExp m e
  let high := decide (2 * mm ≥ 3 * 2 ^ p)
  let ex := if high then ex0 + 1 else ex0
  let sh : Int := -(p : Int) - (if high then 1 else 0)
  let mant : Num := .fin false mm sh
  let j := (roundInt 0 false mm (sh + 6)).1.toNat - 48
  let Q := div32 (.fin false 64 0) (.fin false (j + 48) 0)
  let L := match Q with
    | .fin _ qm qe =>
      -- −log2 of qm·2^qe, Q between 2/3 and 4/3
      let one := 2 ^ (-qe).toNat
      let v := log2Fix one qm
      if v = 0 then (.fin false 0 0 : Num) else rne (.fin (decide (v < 0)) (2 * v.natAbs + 1) (-(fixBits : Int) - 1))
    | x => x
  let u := fma32 mant Q (.fin true 1 0)
  let poly := horner u [f32c 0xBEB8AA3B, f32c 0x3EF6384F, f32c 0xBF38AA3B, f32c 0x3FB8AA3B] (f32c 0x3E93BB63)
  let s := add32 (intNum ex) L
  let r := roundNum fmtF32 rm false (fmaNum rm poly u s).1
  let exact := if mm = 2 ^ p then exactF32 (intNum ex0) else none
  (r.1, funFlags r exact)

/-- `vrcp` in f32 (R143), x = ±m·2^e. -/
def rcpF32 (rm : Nat) (n : Bool) (m : Nat) (e : Int) : Nat × Nat :=
  let (mm, p, ex) := mantExp m e
  let mant : Num := .fin true mm (-(p : Int))
  let one : Num := .fin false 1 0
  let j := (mm - 2 ^ p) * 64 / 2 ^ p
  let y0 := div32 (.fin false 128 0) (.fin false (129 + 2 * j) 0)
  let e0 := fma32 mant y0 one
  let y1 := fma32 y0 e0 y0
  let e1 := fma32 mant y1 one
  let v := (fmaNum rm y1 e1 y1).1
  let r := roundNum fmtF32 rm false ((if n then v.negate else v).scale (-ex))
  let exact := if mm = 2 ^ p then exactF32 (.fin n 1 (-ex)) else none
  (r.1, funFlags r exact)

/-- 1/√x for x = a/b, as a value with a last bit. -/
def rsqrtRatio (a b : Nat) : Num := (sqrtNum (divNum (.fin false b 0) (.fin false a 0)).1).1

/-- `vrsqrt` in f32 (R144), x = m·2^e > 0. -/
def rsqrtF32 (rm : Nat) (m : Nat) (e : Int) : Nat × Nat :=
  let (mm, p, ex) := mantExp m e
  let odd := (ex % 2).toNat
  let k := (ex - odd) / 2
  let mant : Num := .fin true mm ((odd : Int) - p)
  let one : Num := .fin false 1 0
  let j := (mm * 2 ^ odd - 2 ^ p) * 32 / 2 ^ p
  let y0 := rne (rsqrtRatio (65 + 2 * j) 64)
  let t0 := mul32 y0 y0
  let e0 := fma32 mant t0 one
  let y1 := fma32 (y0.scale (-1)) e0 y0
  let t1 := mul32 y1 y1
  let e1 := fma32 mant t1 one
  let v := (fmaNum rm (y1.scale (-1)) e1 y1).1
  let r := roundNum fmtF32 rm false (v.scale (-k))
  let exact := if mm = 2 ^ p ∧ odd = 0 then exactF32 (.fin false 1 (-k)) else none
  (r.1, funFlags r exact)

/-- m·2^e < 2^k for a positive magnitude. -/
def below (m : Nat) (e k : Int) : Bool := decide (topExp m e < k)

/-- `vtanh` in f32 (R145), x = ±m·2^e ≠ 0. -/
def tanhF32 (rm : Nat) (n : Bool) (m : Nat) (e : Int) : Nat × Nat :=
  let rm' := if n then (if rm = 2 then 3 else if rm = 3 then 2 else rm) else rm
  let a : Num := .fin false m e
  let sgn (r : Nat × Nat) : Nat × Nat := (fmtF32.signed n r.1, (r.2 &&& (flagOF + flagUF)) ||| flagNX)
  if below m e (-12) then
    let r := roundNum fmtF32 0 false a
    (fmtF32.signed n r.1, flagNX ||| (if below m e (-126) then flagUF else 0))
  else if below m e (-2) then
    let z := mul32 a a
    let p := horner z [f32c 0x3CB327A4, f32c 0xBD5D0DD1, f32c 0x3E088889, f32c 0xBEAAAAAB] (f32c 0xBC11371B)
    let w := mul32 p z
    sgn (roundNum fmtF32 rm' false (fmaNum rm' a w a).1)
  else if (addNum 0 a (.fin true 10 0)).1.isNeg then
    let t := mul32 a (f32c 0x4038AA3B)
    let E := match t with
      | .fin tn tm te => rne (exp2Core tn tm te)
      | x => x
    let d := add32 E (.fin false 1 0)
    let q := div32 (.fin false 2 0) d
    sgn (roundNum fmtF32 rm' false (addNum rm' (.fin false 1 0) q.negate).1)
  else sgn (roundNum fmtF32 rm' false (.fin false (2 ^ 40 - 1) (-40)))

/-! ## The functions in f16 and bf16: the exact value rounded (R139) -/

/-- 2^x exactly, x = ±m·2^e: exact only for a whole x. -/
def exp2Exact (n : Bool) (m : Nat) (e : Int) : Num :=
  if tooBig m e then .fin false 3 (if n then -1000 else 1000)
  else
    let w : Int := if e ≥ -fixBits then alignTo (-fixBits) n m e else (if n then -1 else 1)
    exp2Fix (w % 2 ^ fixBits).toNat (w / 2 ^ fixBits)

/-- log2 x exactly, x = m·2^e > 0. -/
def log2Exact (m : Nat) (e : Int) : Num :=
  let (mm, p, ex) := mantExp m e
  if mm = 2 ^ p then intNum ex
  else
    let v := ex * 2 ^ fixBits + log2Fix mm (2 ^ p)
    .fin (decide (v < 0)) (2 * v.natAbs + 1) (-(fixBits : Int) - 1)

/-- 1/√x exactly. -/
def rsqrtExact (m : Nat) (e : Int) : Num :=
  let (mm, p, ex) := mantExp m e
  let odd := (ex % 2).toNat
  if mm = 2 ^ p ∧ odd = 0 then .fin false 1 (-(ex / 2))
  else (rsqrtRatio (mm * 2 ^ odd) (2 ^ p)).scale (-((ex - odd) / 2))

/-- tanh of a positive a = m·2^e: just below a for small a, just below 1 for a ≥ 10, else 1 − 2/(e^2a + 1). -/
def tanhExact (m : Nat) (e : Int) : Num :=
  if below m e (-10) then .fin false (m * 2 ^ 64 - 1) (e - 64)
  else if !(addNum 0 (.fin false m e) (.fin true 10 0)).1.isNeg then .fin false (2 ^ 64 - 1) (-64)
  else
    let a2 := (alignTo (-(fixBits : Int) - 64) false m (e + 1)).toNat / 2 ^ 64
    let k := a2 / ln2Fix
    let E := (expFix ((a2 - k * ln2Fix : Nat) : Int)).toNat * 2 ^ k
    let q := 2 * 2 ^ (2 * fixBits) / (E + 2 ^ fixBits)
    .fin false (2 * (2 ^ fixBits - q) - 1) (-(fixBits : Int) - 1)

/-- The five functions (R139). -/
inductive Fun where
  | exp2 | log2 | rcp | rsqrt | tanh
  deriving DecidableEq, Repr

/-- An elementary function of one element: Table 6.8, then R141 to R145 in f32 and the rounded exact value in f16 and bf16. -/
def funElem (g : Fun) (p : FloatFmt) (rm : Nat) (bits : Nat) : Nat × Nat :=
  let x := decodeFloat p bits
  let one := p.bias * 2 ^ p.f
  let nan := p.nanBits
  let isF32 := decide (p = fmtF32)
  match x with
  | .nan b => (nan, if b then flagNV else 0)
  | .inf neg =>
    match g with
    | .exp2 => (if neg then 0 else p.infBits, 0)
    | .log2 => if neg then (nan, flagNV) else (p.infBits, 0)
    | .rcp => (p.signed neg 0, 0)
    | .rsqrt => if neg then (nan, flagNV) else (0, 0)
    | .tanh => (p.signed neg one, 0)
  | .fin neg m e =>
    if m = 0 then
      match g with
      | .exp2 => (one, 0)
      | .log2 => (p.signed true p.infBits, flagDZ)
      | .rcp => (p.signed neg p.infBits, flagDZ)
      | .rsqrt => (p.signed neg p.infBits, flagDZ)
      | .tanh => (p.signed neg 0, 0)
    else
      match g with
      | .exp2 => if isF32 then exp2F32 rm neg m e else roundNum p rm false (exp2Exact neg m e)
      | .log2 =>
        if neg then (nan, flagNV) else if isF32 then log2F32 rm m e else roundNum p rm false (log2Exact m e)
      | .rcp => if isF32 then rcpF32 rm neg m e else roundNum p rm false (divNum (.fin false 1 0) x).1
      | .rsqrt =>
        if neg then (nan, flagNV) else if isF32 then rsqrtF32 rm m e else roundNum p rm false (rsqrtExact m e)
      | .tanh =>
        if isF32 then tanhF32 rm neg m e
        else
          let v := tanhExact m e
          roundNum p rm false (if neg then v.negate else v)

end Sys2Proof.Machine
end

