-- ==== Sys2Proof/Machine/Operands.lean ====
section
/-!
DEFINITION. The operand forms of the access stream: registers with pending results (R103), the end of a scalar instruction and
of a block (R49, R67, R93), transfers of control (R68, R117), scalar addresses (R111) and the waits before a memory access
(R107, R251, R278).
-/

namespace Sys2Proof.Machine

/-! ## Pending registers (R103) -/

/-- Register n waits for a value of the return queue; a pending s0 holds nothing up. -/
def Hand.pending (h : Hand) (n : Reg) : Bool := n ≠ 0 && (h.rq.any (fun e => e.ret == some n) || h.retq.any fun r => r.d == some n)

/-- A dispatched instruction that sets the tile (R199). -/
def Entry.tileWriter (e : Entry) : Bool := decide (e.kind = .topk ∨ e.kind = .permute .comp)

/-- The tile is pending: no instruction is dispatched, and none that names it executes, until its count returns (R199). -/
def Hand.tilePending (h : Hand) : Bool := h.rq.any Entry.tileWriter || h.retq.any fun r => r.count.isSome

/-- A VCFG form, or a CSR instruction that names the tile, waits while the tile is pending (R199). -/
def whenTile (s : State) (r : Res) : Res := if s.me.tilePending then .next s else r

/-- An instruction that names a pending register waits: it changes nothing and stays at the program counter (R103). -/
def whenReady (s : State) (regs : List Reg) (r : Res) : Res := if regs.any s.me.pending then .next s else r

/-! ## The end of an instruction -/

/-- Hand `h` goes on after an instruction of `len` bytes.  A Block hand that falls off its block is Idle, and the requests
that pend take effect there (R49, R50, R54). -/
def finishOf (s : State) (h : Nat) (x : Hand) (len : Nat) : State :=
  let y := { x with pc := x.pc + BitVec.ofNat 64 len }
  if y.atBlockEnd then takeRequests (s.setHand h { y with st := .idle }) h else s.setHand h y

/-- The running hand goes on after an instruction of `len` bytes. -/
def finish (s : State) (x : Hand) (len : Nat) : State := finishOf s s.curHand x len

/-- S[d] ← v, sld ← d, and the next instruction (R93). -/
def writeBack (s : State) (x : Hand) (d : Reg) (v : Word) (len : Nat) : Res := .next (finish s ((x.wr d v).setSld d) len)

/-- Control goes to t: in Block, a target outside the block has the effect of `go` (R68); in Fetch it is a jump. -/
def jumpTo (s : State) (x : Hand) (t : Word) : State :=
  if x.st = .block ∧ ¬ (x.blk ≤ t.toNat ∧ t.toNat < x.blk + 64) then
    s.setMe { x with pc := t, st := .fetch, nxt := none }
  else s.setMe { x with pc := t }

/-- `go` to t: the hand enters Fetch and the next buffer is emptied (R68). -/
def goTo (s : State) (x : Hand) (t : Word) : State := s.setMe { x with pc := t, st := .fetch, nxt := none }

/-! ## The shape of the ALU instructions (R112) -/

/-- S[d] ← f(S[a], S[b]). -/
def alu2 (f : Word → Word → Word) (d a b : Reg) (len : Nat) (s : State) : Res :=
  whenReady s [d, a, b] (writeBack s s.me d (f (s.me.rd a) (s.me.rd b)) len)

/-- S[d] ← f(S[a]). -/
def alu1 (f : Word → Word) (d a : Reg) (len : Nat) (s : State) : Res :=
  whenReady s [d, a] (writeBack s s.me d (f (s.me.rd a)) len)

/-- S[d] ← one of the results of a division, with its flags (R113). -/
def aluDiv (signed quotient : Bool) (d a b : Reg) (s : State) : Res :=
  let q := divide 64 signed (s.me.rd a).toNat (s.me.rd b).toNat
  let v := BitVec.ofNat 64 (if quotient then q.1 else q.2.1)
  whenReady s [d, a, b] (writeBack s (s.me.sticky q.2.2) d v 4)

/-- A branch by a condition on S[a] and S[b] (R117). -/
def branch (c : Word → Word → Bool) (a b : Reg) (off : Word) (len : Nat) (s : State) : Res :=
  whenReady s [a, b]
    (if c (s.me.rd a) (s.me.rd b) then .next (jumpTo s s.me (s.me.pc + off)) else .next (finish s s.me len))

/-! ## Waits before memory accesses -/

/-- The address range that a dispatched memory instruction has for R107, or the whole window. -/
inductive Range where
  | bytes (lo len : Nat)
  | window
  deriving DecidableEq, Repr

/-- The bytes [lo, hi) that a strided access of n elements of E bytes can touch. -/
def spanOf (base : Nat) (stride : Int) (n E : Nat) : Range :=
  if n = 0 then .bytes base 0
  else
    let last : Int := base + stride * (n - 1)
    let lo := min (base : Int) last
    let hi := max (base : Int) last + E
    .bytes (wrapNat 64 lo) (hi - lo).toNat

/-- The ranges of a dispatched instruction (R107); none for one that reads and writes no memory. -/
def rangesOf (e : Entry) : List Range :=
  let E := sewOf e.vtype / 8
  let n := vnOf e.vl.toNat e.rc.toNat e.vt.toNat
  let base := e.sa.toNat
  let str := e.sb.toInt
  let rows : Range := spanOf base str e.rc.toNat (e.vl.toNat * E)
  match e.kind with
  | .load .unit => [spanOf base E n E]
  | .load .strided => [spanOf base str n E]
  | .load .row => [rows]
  | .store .unit _ => [spanOf base E n E]
  | .store .strided _ => [spanOf base str n E]
  | .store .row _ => [rows]
  | .load _ => [.window]
  | .store _ _ => [.window]
  | .gl => [.window]
  | .sc => [.window]
  | .amo _ _ _ => [.window]
  | .vwait => [.window]
  | .wred => [.window]
  | .wfin => [.window]
  | .wpoll => [.window]
  | .copy => [.bytes base (n * 256 * 4 ^ e.ew), .bytes e.sb.toNat (n * 256 * 4 ^ e.ew)]
  | .qset => [.bytes base 32]
  | .qget => [.bytes base 32]
  | .mld => [.bytes e.sb.toNat (256 * (e.ew + 1))]
  | .mst => [.bytes e.sb.toNat (256 * (e.ew + 1))]
  | _ => []

/-- A dispatched instruction that writes memory. -/
def storeType (e : Entry) : Bool :=
  match e.kind with
  | .store _ _ => true
  | .sc => true
  | .amo _ _ _ => true
  | .copy => true
  | .qget => true
  | .wred => true
  | .mst => true
  | _ => false

/-- A dispatched instruction that reads or writes memory. -/
def memoryType (e : Entry) : Bool := rangesOf e != [] || decide (e.kind = .pf)

/-- The scratchpad bytes of an access overlap a range (R107). -/
def overlaps (va n : Nat) : Range → Bool
  | .window => (List.range n).any fun i => inWindow (va + i)
  | .bytes lo len => (List.range n).any fun i => inWindow (va + i) && decide (lo ≤ va + i ∧ va + i < lo + len)

/-- The ranges of a copy that runs, a store-type instruction whose chunks have not all performed (R107, R247). -/
def Copy.ranges (c : Copy) : List Range := [.bytes c.src.toNat c.len, .bytes c.dst.toNat c.len]

/-- A scalar access waits for older dispatched instructions, and running copies, whose range its scratchpad bytes overlap: a load for
those that write, a store or AMO for every one (R107). -/
def Hand.mustWait (h : Hand) (va n : Nat) (isLoad : Bool) : Bool :=
  h.rq.any (fun e => (!isLoad || storeType e) && (rangesOf e).any (overlaps va n))
    || h.copies.any fun c => c.2.ranges.any (overlaps va n)

/-- Bytes that no store buffer serves, because they lie elsewhere or in a register, and that a store of the hand still in its buffer
will write: the load waits for it (R106, R275). -/
def Hand.storeAhead (h : Hand) (locs : List Loc) : Bool :=
  locs.any fun l => (match l with
    | .spad _ _ => false
    | .dram _ nc => nc
    | _ => true) && (fromBuffer h.sb l).isSome

/-- A whistle wait whose read returned partial or final (R303): status bits 0 and 1. -/
def Entry.whistleRead (e : Entry) : Bool :=
  decide ((e.kind = .wfin ∨ e.kind = .wpoll) ∧ e.mode = 1) && decide (e.acc.headD 0 &&& 3 ≠ 0)

/-- A `vwait`, or a `wfin` or `wpoll` that has read partial or final, holds up every later load, store and AMO until it retires
(R251, R303). -/
def Hand.fenced (h : Hand) : Bool := h.rq.any fun e => decide (e.kind = .vwait) || e.whistleRead

/-- A wait of the access stream at an instruction: nothing changes. -/
def waitHere (s : State) : Res := .next s

end Sys2Proof.Machine
end

