-- ==== Sys2Proof/Machine/Tile.lean ====
section
/-!
DEFINITION. The tile (R146 to R150): slots, element indices, masks, the rule by which a destination is written, and the entry of
a dispatched instruction with its captured operands (R101).
-/

namespace Sys2Proof.Machine

/-! ## Register groups as little-endian strings (R147) -/

/-- The `n` registers from `base` on, read as one number, the lowest register in the low bits. -/
def groupRead (x : Hand) (base : Nat) : Nat → Nat
  | 0 => 0
  | n + 1 => (x.vrd (BitVec.ofNat 5 base)).toNat + groupRead x (base + 1) n * 2 ^ 8192

/-- The `n` registers from `base` on written from one number. -/
def groupWrite (x : Hand) (base : Nat) : Nat → Nat → Hand
  | 0, _ => x
  | n + 1, g => groupWrite (x.vwr (BitVec.ofNat 5 base) (BitVec.ofNat 8192 g)) (base + 1) n (g / 2 ^ 8192)

/-- The field of `w` bits at place `p` of a string of such fields. -/
def slotGet (w p g : Nat) : Nat := (g >>> (w * p)) % 2 ^ w

/-- Fields of `w` bits packed, the first in the low bits. -/
def packSlots (w : Nat) (xs : List Nat) : Nat := xs.foldr (fun x acc => x % 2 ^ w + acc * 2 ^ w) 0

/-! ## The tile of a dispatched instruction -/

/-- A captured tile. -/
structure Tile where
  sew    : Nat
  grp    : Nat
  vlrow  : Nat
  vl     : Nat
  rc     : Nat
  vt     : Nat
  vn     : Nat
  tp     : Bool
  mp     : Bool
  vstart : Nat
  deriving DecidableEq, Repr

/-- The tile that an entry captured (R101, R146, R148). -/
def tileOf (e : Entry) : Tile :=
  { sew := sewOf e.vtype, grp := grpOf e.vtype, vlrow := vlrowOf e.vtype, vl := e.vl.toNat, rc := e.rc.toNat, vt := e.vt.toNat
    vn := vnOf e.vl.toNat e.rc.toNat e.vt.toNat, tp := e.vtype.getLsbD 4, mp := e.vtype.getLsbD 5, vstart := e.first }

/-- The element index of a slot; none for a tail slot (R148). -/
def Tile.index (t : Tile) (p : Nat) : Option Nat :=
  let row := p / t.vlrow
  let col := p % t.vlrow
  if row < t.rc ∧ col < t.vl ∧ (row + 1 < t.rc ∨ col < t.vt) then some (row * t.vl + col) else none

/-- slot(i) (Table 0.2). -/
def Tile.slot (t : Tile) (i : Nat) : Nat := i / t.vl * t.vlrow + i % t.vl

/-- Slots of a group (R147). -/
def Tile.slots (t : Tile) : Nat := 8 * t.grp * t.vlrow

/-- The mask bit of a slot (R149). -/
def maskBit (v : VReg) (p : Nat) : Bool := v.getLsbD p

/-- Element i is active: no mask, or its mask bit is 1 (R85, R149). -/
def activeAt (x : Hand) (e : Entry) (i : Nat) : Bool :=
  e.m = 0 || maskBit (x.vrd (e.m.setWidth 5)) ((tileOf e).slot i)

/-- One slot of a destination (R150): `old` is its value before, `act` whether element i is active. -/
def slotWrite (t : Tile) (act : Nat → Bool) (result : Nat → Nat × Nat) (old p : Nat) : Nat × Nat :=
  match t.index p with
  | some i => if i < t.vstart then (old, 0) else if act i then result i else (if t.mp then 0 else old, 0)
  | none => (if t.tp then 0 else old, 0)

/-- A destination of `n` slots of `w` bits written by R150: the new string and the flags of the elements performed. -/
def tileWrite (t : Tile) (w n : Nat) (act : Nat → Bool) (result : Nat → Nat × Nat) (old : Nat) : Nat × Nat :=
  let rs := (List.range n).map fun p => slotWrite t act result (slotGet w p old) p
  (packSlots w (rs.map Prod.fst), rs.foldl (fun f r => f ||| r.2) 0)

/-- What an instruction leaves when it retires: register groups (base, count, string), a scalar, flags, and more. -/
structure VResult where
  groups : List (Nat × Nat × Nat)
  scalar : Option Word
  flags  : Nat
  /-- Count to which a tile writer sets the tile (R199). -/
  count  : Option Nat := none
  deriving DecidableEq, Repr

/-- No effect. -/
def VResult.nothing : VResult := { groups := [], scalar := none, flags := 0 }

/-- A group destination of an element-wise instruction written by R150. -/
def groupResult (x : Hand) (e : Entry) (result : Nat → Nat × Nat) : VResult :=
  let t := tileOf e
  let r := tileWrite t t.sew t.slots (activeAt x e) result (groupRead x e.d.toNat t.grp)
  { groups := [(e.d.toNat, t.grp, r.1)], scalar := none, flags := r.2 }

/-- A mask destination written by R150: one bit a slot, 8,192 of them. -/
def maskResult (x : Hand) (e : Entry) (act : Nat → Bool) (result : Nat → Bool × Nat) : VResult :=
  let t := tileOf e
  let r := tileWrite t 1 8192 act (fun i => ((result i).1.toNat, (result i).2)) (x.vrd e.d).toNat
  { groups := [(e.d.toNat, 1, r.1)], scalar := none, flags := r.2 }

/-- The results written to the hand's registers. -/
def applyGroups (x : Hand) (gs : List (Nat × Nat × Nat)) : Hand :=
  gs.foldl (fun y g => groupWrite y g.1 g.2.1 g.2.2) x

/-- Element i of the group at `base`. -/
def elemOf (x : Hand) (t : Tile) (base i : Nat) : Nat := slotGet t.sew (t.slot i) (groupRead x base t.grp)

/-- The second source of element i. -/
def srcElem (x : Hand) (t : Tile) (src : Src) : Nat → Nat :=
  match src with
  | .val v => fun _ => v.toNat % 2 ^ t.sew
  | .reg n =>
    let g := groupRead x n.toNat t.grp
    fun i => slotGet t.sew (t.slot i) g

/-! ## Entries -/

/-- The entry of an instruction with the values of Table 5.1 that every dispatched instruction captures. -/
def mkEntry (x : Hand) (k : VKind) : Entry :=
  { kind := k, pc := x.pc, d := 0, a := 0, b := 0, m := 0, src := .val 0, ew := 0, mode := 0, imm := 0, vtype := x.vtype
    vl := x.vl, rc := x.rc, vt := x.vt, vstart := x.vstart, bpc := x.bpc, fw := 0, sa := 0, sb := 0, accb := x.accb
    accn := x.accn, det := x.det, rck := x.rck, oper := (0, 0), ret := none, taken := false, first := x.vstart.toNat
    stages := x.bpc.toNat, age := 0, came := 0, renamed := 0, written := 0, acc := [], skipped := 0, ahead := [], torn := []
    offs := none, fault := none, awaiting := none, heldAt := [], since := none, dispute := none, settled := false }

/-- The format-word register of an fs code (R86). -/
def fwReg (f : BitVec 3) : Reg := 24 + f.setWidth 5

/-- A group base is a multiple of n (R147). -/
def aligned (r : Reg) (n : Nat) : Bool := decide (r.toNat % n = 0)

end Sys2Proof.Machine
end

