-- ==== Sys2Proof/Machine/Elem.lean ====
section
/-!
DEFINITION. What the element-wise vector instructions compute (chapter 7): element arithmetic (R162 to R164), compares, masks,
moves, functions and conversion (R165 to R174), and the format words they accept (R160).
-/

namespace Sys2Proof.Machine

/-! ## Elements -/

/-- The result of a float operation: the value scaled, rounded once, with its flags (R133, R138, R162). -/
def floatDone (p : FloatFmt) (w : FormatWord) (r : Num × Nat) : Nat × Nat :=
  let q := roundNum p w.rm w.sat (r.1.scale w.scale)
  (q.1, q.2 ||| r.2)

/-- Float `vmin` and `vmax` (R162): −0 below +0; a NaN operand gives the canonical NaN, with NV if one is signalling. -/
def floatMinMax (p : FloatFmt) (isMax : Bool) (x y : Nat) : Nat × Nat :=
  let X := decodeFloat p x
  let Y := decodeFloat p y
  if X.isNan ∨ Y.isNan then (p.nanBits, snanFlag [X, Y])
  else if decide (orderKey p x < orderKey p y) = isMax then (y, 0) else (x, 0)

/-- Two-operand float arithmetic (Table 7.9). -/
def ewFloat (o : EwOp) (p : FloatFmt) (w : FormatWord) (x y : Nat) : Nat × Nat :=
  let X := decodeFloat p x
  let Y := decodeFloat p y
  match o with
  | .add => floatDone p w (addNum w.rm X Y)
  | .sub => floatDone p w (addNum w.rm X Y.negate)
  | .rsub => floatDone p w (addNum w.rm Y X.negate)
  | .mul => floatDone p w (mulNum X Y)
  | .div => floatDone p w (divNum X Y)
  | .min => floatMinMax p false x y
  | .max => floatMinMax p true x y
  | .and => (x &&& y, 0)
  | .or => (x ||| y, 0)
  | .xor => (x ^^^ y, 0)
  | _ => (0, 0)

/-- The shift amount y[log2(SEW) − 1 : 0] (R163). -/
def shiftAmount (n y : Nat) : Nat := y % n

/-- Two-operand integer arithmetic on n bits, signed for I formats (Table 7.9, R163). -/
def ewInt (o : EwOp) (n : Nat) (signed : Bool) (x y : Nat) : Nat × Nat :=
  let m := 2 ^ n
  let v (z : Nat) : Int := if signed then toSigned n z else (z % m : Nat)
  let f : Fmt := if signed then .int n else .nat n
  match o with
  | .add => ((x + y) % m, 0)
  | .sub => ((x + (m - y % m)) % m, 0)
  | .rsub => ((y + (m - x % m)) % m, 0)
  | .mul => ((x * y) % m, 0)
  | .mulh => (wrapNat n (toSigned n x * toSigned n y / 2 ^ n), 0)
  | .mulhn => (x * y / m % m, 0)
  | .div => let q := divide n signed x y; (q.1, q.2.2)
  | .rem => let q := divide n signed x y; (q.2.1, q.2.2)
  | .min => (if v x < v y then x else y, 0)
  | .max => (if v x < v y then y else x, 0)
  | .sadd => intTo f true (v x + v y)
  | .ssub => intTo f true (v x - v y)
  | .and => (x &&& y, 0)
  | .or => (x ||| y, 0)
  | .xor => (x ^^^ y, 0)
  | .sll => ((x <<< shiftAmount n y) % m, 0)
  | .srl => (x >>> shiftAmount n y, 0)
  | .sra => (wrapNat n (toSigned n x / 2 ^ shiftAmount n y), 0)

/-- A two-operand element in the format fa (R162, R163). -/
def ewElem (o : EwOp) (w : FormatWord) (x y : Nat) : Nat × Nat :=
  match fmtOf w.fa with
  | some (.int n) => ewInt o n true x y
  | some (.nat n) => ewInt o n false x y
  | some (.float p) => ewFloat o p w x y
  | _ => (0, 0)

/-- `vround` (R171): y = x·2^scale to the integral value nearest under rm, in format fa. -/
def roundElem (p : FloatFmt) (w : FormatWord) (x : Nat) : Nat × Nat :=
  match (decodeFloat p x).scale w.scale with
  | .nan b => (p.nanBits, if b then flagNV else 0)
  | .inf n => (p.signed n p.infBits, 0)
  | .fin n m e =>
    let (t, i) := roundInt w.rm n m e
    let r := roundFin p w.rm w.sat n t.natAbs 0
    (r.1, r.2 ||| (if i then flagNX else 0))

/-- The bit of `vclass` for a value (R169). -/
def classBit (p : FloatFmt) (x : Nat) : Nat :=
  match decodeFloat p x with
  | .nan b => if b then 8 else 9
  | .inf n => if n then 0 else 7
  | .fin n m _ =>
    if m = 0 then (if n then 3 else 4)
    else if m < 2 ^ p.f then (if n then 2 else 5)
    else (if n then 1 else 6)

/-- One-operand elements other than `vcvt` (R162, R171). -/
def unElem (o : EwUn) (w : FormatWord) (x : Nat) : Nat × Nat :=
  match fmtOf w.fa with
  | some (.int n) =>
    match o with
    | .neg => ((2 ^ n - x % 2 ^ n) % 2 ^ n, 0)
    | .abs => (if toSigned n x < 0 then (2 ^ n - x % 2 ^ n) % 2 ^ n else x, 0)
    | .not => (2 ^ n - 1 - x % 2 ^ n, 0)
    | _ => (0, 0)
  | some (.nat n) =>
    match o with
    | .neg => ((2 ^ n - x % 2 ^ n) % 2 ^ n, 0)
    | .abs => (x, 0)
    | .not => (2 ^ n - 1 - x % 2 ^ n, 0)
    | _ => (0, 0)
  | some (.float p) =>
    match o with
    | .neg => (x ^^^ p.signBit, 0)
    | .abs => (x % p.signBit, 0)
    | .not => (2 ^ p.width - 1 - x % 2 ^ p.width, 0)
    | .sqrt => floatDone p w (sqrtNum (decodeFloat p x))
    | .rcp => funElem .rcp p w.rm x
    | .rsqrt => funElem .rsqrt p w.rm x
    | .exp2 => funElem .exp2 p w.rm x
    | .log2 => funElem .log2 p w.rm x
    | .tanh => funElem .tanh p w.rm x
    | .round => roundElem p w x
    | .cvt => (x, 0)
  | _ => (0, 0)

/-- The fused forms (R164). -/
def fmaElem (o : FmaOp) (w : FormatWord) (x y z : Nat) : Nat × Nat :=
  match fmtOf w.fa with
  | some (.float p) =>
    let X := decodeFloat p x
    let Y := decodeFloat p y
    let Z := decodeFloat p z
    match o with
    | .ma => floatDone p w (fmaNum w.rm X Y Z)
    | .ms => floatDone p w (fmaNum w.rm X Y Z.negate)
    | .nma => floatDone p w (fmaNum w.rm X.negate Y Z.negate)
    | .nms => floatDone p w (fmaNum w.rm X.negate Y Z)
  | _ => (0, 0)

/-- A compare (R165): the relation and its flags. -/
def cmpElem (o : CmpOp) (w : FormatWord) (x y : Nat) : Bool × Nat :=
  let rel (a b : Int) : Bool :=
    match o with
    | .eq => decide (a = b)
    | .ne => decide (a ≠ b)
    | .lt => decide (a < b)
    | .le => decide (a ≤ b)
    | .gt => decide (b < a)
  match fmtOf w.fa with
  | some (.int n) => (rel (toSigned n x) (toSigned n y), 0)
  | some (.nat _) => (rel (x : Int) (y : Int), 0)
  | some (.float p) =>
    let X := decodeFloat p x
    let Y := decodeFloat p y
    if X.isNan ∨ Y.isNan then
      let quietOp := decide (o = .eq ∨ o = .ne)
      (decide (o = .ne), if quietOp then snanFlag [X, Y] else flagNV)
    else (rel (valueKey p x) (valueKey p y), 0)
  | _ => (false, 0)

/-- `vscale.vs` (R174): k is the sum of S[b] and the scale field, clamped to ±2^20. -/
def scaleElem (w : FormatWord) (sb : Int) (x : Nat) : Nat × Nat :=
  let k := max (-(2 : Int) ^ 20) (min ((2 : Int) ^ 20) (sb + w.scale))
  match fmtOf w.fa with
  | some (.float p) =>
    match decodeFloat p x with
    | .nan b => (p.nanBits, if b then flagNV else 0)
    | .inf n => (p.signed n p.infBits, 0)
    | .fin n m e => roundFin p w.rm w.sat n m (e + k)
  | some f =>
    let v := intValue f x
    intTo f w.sat (roundInt w.rm (decide (v < 0)) v.natAbs k).1
  | none => (0, 0)

/-! ## Conversion (R172, R173) -/

/-- The converted elements of a bfp destination: mantissas by slot, exponent bytes by block, flags by block.  Absent and inactive
elements count as +0; an active element below `vstart` counts with its value (R173). -/
def cvtBlock (x : Hand) (e : Entry) (w : FormatWord) (src : Nat → Num) (B : Nat) : Option (Nat × List (Nat × Nat) × Nat) :=
  let t := tileOf e
  let ps := (List.range 16).map fun k => 16 * B + k
  let live (p : Nat) : Bool := match t.index p with
    | some i => activeAt x e i
    | none => false
  if ps.any live then
    some (toBfpBlock w.md w.rm (ps.map fun p => if live p then src p else .fin false 0 0))
  else none

/-- The value of slot p of a `vcvt` source, scaled (R172). -/
def cvtSource (x : Hand) (e : Entry) (w : FormatWord) (p : Nat) : Num :=
  let t := tileOf e
  match fmtOf w.fa with
  | some (.float q) => (decodeFloat q (slotGet q.width p (groupRead x e.a.toNat t.grp))).scale w.scale
  | some .bfp =>
    let c := bfpWidth w.ma
    let mant := slotGet c p (groupRead x e.a.toNat t.grp)
    let row := 16 * (p / 16) * c / 1024
    let X := slotGet 8 (row * 128 + p / 16 % (64 / c)) (groupRead x (e.a.toNat + t.grp) t.grp)
    (bfpNum w.ma mant X).scale w.scale
  | some f => intNum (intValue f (slotGet (f.width 2) p (groupRead x e.a.toNat t.grp)))
  | none => .nan false

/-- `vcvt` into a format other than bfp. -/
def cvtPlain (x : Hand) (e : Entry) (w : FormatWord) (d : Fmt) : VResult :=
  let t := tileOf e
  let wd := d.width 2
  let result (i : Nat) : Nat × Nat :=
    let p := t.slot i
    match fmtOf w.fa with
    | some .bfp => match d with
      | .float q => roundNum q w.rm w.sat (cvtSource x e w p)
      | _ => (0, 0)
    | some a => convertElem a d 2 w.rm w.sat w.scale 0 (slotGet (a.width 2) p (groupRead x e.a.toNat t.grp))
    | none => (0, 0)
  let r := tileWrite t wd (t.grp * 8192 / wd) (activeAt x e) result (groupRead x e.d.toNat t.grp)
  { groups := [(e.d.toNat, t.grp, r.1)], scalar := none, flags := r.2 }

/-- A dense destination of `n` slots where slots past the tile's group are tail. -/
def denseIndex (t : Tile) (p : Nat) : Option Nat := if p < t.slots then t.index p else none

/-- `vcvt` into bfp (R173): the mantissa group dense, the exponent bytes by block.  R173 zeroes the bytes above 64/c − 1 of each row
written; a row counts as written where a block of it is converted, and in a row that holds no converted block those bytes follow tp
(log 52, DESIGN CHOICE).  Flags are those of the elements performed (R137); the exponent's overflow is one of each such element's.  The
exponent byte of a block whose present elements all lie below `vstart` was written before the fault and stays (R150). -/
def cvtBfp (x : Hand) (e : Entry) (w : FormatWord) : VResult :=
  let t := tileOf e
  let c := bfpWidth w.md
  let nb := t.slots / 16
  let blocks := (List.range nb).map fun B => cvtBlock x e w (cvtSource x e w) B
  let mantOld := groupRead x e.d.toNat t.grp
  let expOld := groupRead x (e.d.toNat + t.grp) t.grp
  let result (i : Nat) : Nat × Nat :=
    let p := t.slot i
    match blocks.getD (p / 16) none with
    | some b =>
      let r := b.2.1.getD (p % 16) (0, 0)
      (wrapNat c (toSigned w.md r.1), r.2 ||| b.2.2)
    | none => (0, 0)
  let r := tileWrite t c (t.grp * 8192 / c) (activeAt x e) result mantOld
  -- exponent byte k of row q belongs to block q·(64/c) + k
  let perRow := 64 / c
  let expByte (k : Nat) : Nat :=
    let row := k / 128
    let pos := k % 128
    let B := row * perRow + pos
    let old := slotGet 8 k expOld
    let rowLive := (List.range perRow).any fun j => (blocks.getD (row * perRow + j) none).isSome
    if pos ≥ perRow then (if rowLive then 0 else if t.tp then 0 else old)
    else
      let present := (List.range 16).filterMap fun j => denseIndex t (16 * B + j)
      if present = [] then (if t.tp then 0 else old)
      else if present.all fun i => decide (i < t.vstart) then old
      else match blocks.getD B none with
        | some b => b.1
        | none => if t.mp then 0 else old
  { groups := [(e.d.toNat, t.grp, r.1), (e.d.toNat + t.grp, t.grp, packSlots 8 ((List.range (1024 * t.grp)).map expByte))]
    scalar := none, flags := r.2 }

/-- `vcvt` (R172). -/
def evalCvt (x : Hand) (e : Entry) : VResult :=
  let w := formatWord e.fw
  match fmtOf w.fd with
  | some .bfp => cvtBfp x e w
  | some d => cvtPlain x e w d
  | none => .nothing

/-! ## Instructions -/

/-- Indices of the present elements. -/
def Tile.indices (t : Tile) : List Nat := List.range t.vn

/-- The element-wise kinds (chapter 7). -/
def evalElem (x : Hand) (e : Entry) : VResult :=
  let t := tileOf e
  let w := formatWord e.fw
  let ga := groupRead x e.a.toNat t.grp
  let ea (i : Nat) : Nat := slotGet t.sew (t.slot i) ga
  let eb := srcElem x t e.src
  let gd := groupRead x e.d.toNat t.grp
  let ed (i : Nat) : Nat := slotGet t.sew (t.slot i) gd
  let ma := x.vrd e.a
  let mb := x.vrd e.b
  match e.kind with
  | .ew o => groupResult x e fun i => ewElem o w (ea i) (eb i)
  | .un .cvt => evalCvt x e
  | .un o => groupResult x e fun i => unElem o w (ea i)
  | .fma o => groupResult x e fun i => fmaElem o w (ea i) (eb i) (ed i)
  | .cmp o => maskResult x e (activeAt x e) fun i => cmpElem o w (ea i) (eb i)
  | .sel =>
    let r := tileWrite t t.sew t.slots (fun _ => true) (fun i => (if activeAt x e i then ea i else eb i, 0)) gd
    { groups := [(e.d.toNat, t.grp, r.1)], scalar := none, flags := 0 }
  | .mask o =>
    maskResult x e (fun _ => true) fun i =>
      let a := maskBit ma (t.slot i)
      let b := maskBit mb (t.slot i)
      (match o with
        | .and => a && b
        | .or => a || b
        | .xor => a != b
        | .andn => a && !b
        | .not => !a, 0)
  | .mpopc =>
    let n := t.indices.countP fun i => activeAt x e i && maskBit ma (t.slot i)
    { groups := [], scalar := some (nat64 n), flags := 0 }
  | .mfirst =>
    let r := match t.indices.find? fun i => activeAt x e i && maskBit ma (t.slot i) with
      | some i => nat64 i
      | none => allOnes
    { groups := [], scalar := some r, flags := 0 }
  | .mv => groupResult x e fun i => (ea i, 0)
  | .bc => groupResult x e fun i => (eb i, 0)
  | .mvSv =>
    let j := e.sb.toNat
    let r := if j < t.vn then BitVec.ofInt 64 (toSigned t.sew (ea j)) else 0
    { groups := [], scalar := some r, flags := 0 }
  | .mvVs =>
    if t.vn > 0 ∧ e.vstart = 0 then
      { groups := [(e.d.toNat, t.grp, gd - gd % 2 ^ t.sew + e.sb.toNat % 2 ^ t.sew)], scalar := none, flags := 0 }
    else { groups := [(e.d.toNat, t.grp, gd)], scalar := none, flags := 0 }
  | .cls =>
    groupResult x e fun i => match fmtOf w.fa with
      | some (.float p) => (2 ^ classBit p (ea i) % 2 ^ t.sew, 0)
      | _ => (0, 0)
  | .iota =>
    groupResult x e fun i =>
      ((List.range i).countP (fun j => activeAt x e j && maskBit ma (t.slot j)) % 2 ^ t.sew, 0)
  | .idx => groupResult x e fun i => (i % 2 ^ t.sew, 0)
  | .scale => groupResult x e fun i => scaleElem w e.sb.toInt (ea i)
  | _ => .nothing

/-! ## Accepted format words (R132, R160) -/

/-- scale and sat are zero (R132 rule 7). -/
def FormatWord.plain (w : FormatWord) : Bool := decide (w.scale = 0) && !w.sat

/-- All three formats are one format of width SEW (R132 rule 6, R160). -/
def FormatWord.same (w : FormatWord) (sew : Nat) : Bool :=
  decide (w.fa = w.fb ∧ w.fa = w.fd) && decide (codeWidth w.fa 2 = sew)

/-- The format word of an element-wise kind is legal (R132, Table 7.7). -/
def fwElem (k : VKind) (w : FormatWord) (sew : Nat) : Bool :=
  let ok (fs : Bool) (scaled : Bool) : Bool := w.basic && w.same sew && fs && (scaled || w.plain)
  let I := isI w.fa
  let N := isN w.fa
  let F := isF w.fa
  match k with
  | .ew .add => ok (I || N || F) F
  | .ew .sub => ok (I || N || F) F
  | .ew .rsub => ok (I || N || F) F
  | .ew .mul => ok (I || N || F) F
  | .ew .div => ok (I || N || F) F
  | .ew .min => ok (I || N || F) false
  | .ew .max => ok (I || N || F) false
  | .ew .and => ok (I || N || F) false
  | .ew .or => ok (I || N || F) false
  | .ew .xor => ok (I || N || F) false
  | .ew .mulh => ok I false
  | .ew .mulhn => ok N false
  | .ew _ => ok (I || N) false
  | .un .neg => ok (I || N || F) false
  | .un .abs => ok (I || N || F) false
  | .un .not => ok (I || N || F) false
  | .un .sqrt => ok F true
  | .un .round => ok F true
  | .un .cvt =>
    let wa := codeWidth w.fa w.ma
    let wd := codeWidth w.fd w.md
    let ints := (I || N) && (isI w.fd || isN w.fd)
    let intBfp := ((I || N) && decide (w.fd = 14)) || (decide (w.fa = 14) && (isI w.fd || isN w.fd))
    w.basic && decide (w.fb = w.fa) && decide (sew = max 8 (max wa wd)) && !intBfp && (!ints || decide (w.scale = 0))
  | .un _ => ok (F && decide (w.fa ≠ 8)) false
  | .fma _ => ok F true
  | .cmp _ => ok (I || N || F) false
  | .cls =>
    w.basic && F && decide (w.fb = w.fa) && (isI w.fd || isN w.fd) && decide (codeWidth w.fa 2 = sew ∧ codeWidth w.fd 2 = sew)
      && w.plain
  | .scale => ok (I || N || F) true
  | _ => true

end Sys2Proof.Machine
end

