-- ==== Sys2Proof/Machine/Cross.lean ====
section
/-!
DEFINITION. The butterfly network (R175 to R189) and the named cross-lane instructions (R190 to R203): operators, passes,
reductions, scans, permutations, sorts and selections.
-/

namespace Sys2Proof.Machine

/-! ## The total order (R194) -/

/-- A key in the total order: floats by value, −0 below +0, every NaN below −∞. -/
def totalKey (f : Fmt) (bits : Nat) : Int :=
  match f with
  | .float p => if (decodeFloat p bits).isNan then -((2 : Int) ^ 64) else orderKey p bits
  | _ => intValue f bits

/-! ## Operator descriptors (Table 1.11) -/

/-- An operator of a slot: the fields of its descriptor. -/
structure Operator where
  cls  : Nat
  code : Nat
  desc : Bool
  kv   : Bool
  sat  : Bool
  use  : Nat
  dw1  : Word
  deriving DecidableEq, Repr

/-- The fields of a descriptor (Table 1.11). -/
def operatorOf (d : Word × Word) : Operator :=
  { cls := fld d.1 3 0, code := fld d.1 7 4, desc := d.1.getLsbD 8, kv := d.1.getLsbD 9, sat := d.1.getLsbD 11
    use := fld d.1 19 16, dw1 := d.2 }

/-- The operator of a fixed slot for an SEW code (Table 8.1). -/
def fixedOperator (slot sewCode : Nat) : Word × Word :=
  (BitVec.ofNat 64 (slot + 16 * (if slot = 3 then 4 + sewCode else sewCode)), 0)

/-- The coefficient ci of a `lin` descriptor, as a signed number (Table 1.11). -/
def linCoeff (dw1 : Word) (i : Nat) : Int := toSigned 16 (fld dw1 (16 * i + 15) (16 * i))

/-- A whole number converts exactly into a format: in range for I and N, representable for F (Table 8.3). -/
def exactIn (code : Nat) (c : Int) : Bool :=
  match fmtOf code with
  | some (.float p) => decide ((roundNum p 0 false (intNum c)).2 = 0)
  | some f => decide ((intBounds f).1 ≤ c ∧ c ≤ (intBounds f).2)
  | none => false

/-- The legality of a descriptor (R181, Table 8.3). -/
def descriptorLegal (d : Word × Word) : Bool :=
  let o := operatorOf d
  let order := decide (o.cls = 0 ∨ o.cls = 5)
  decide (fld d.1 63 20 = 0) && decide (fld d.1 15 12 = 0) && decide (o.cls ≤ 6)
    && decide (o.code ≤ 11) && (decide (o.cls ≠ 6) || decide (o.code ≤ 7)) && !d.1.getLsbD 10
    && (order || (!o.desc && !o.kv)) && (!o.kv || decide (codeWidth o.code 2 ≤ 32))
    && (!o.sat || decide (o.cls = 1 ∨ o.cls = 2 ∨ o.cls = 4)) && (decide (o.use = 0) || decide (o.cls = 4))
    && (if o.cls = 4 then (List.range 4).all fun i => o.use.testBit i || exactIn o.code (linCoeff o.dw1 i)
        else if o.cls = 6 then decide (fld o.dw1 63 8 = 0)
        else decide (o.dw1 = 0))

/-! ## Nodes (R178, R179) -/

/-- A slot of the network: its value, its tag, and the flags its operations raised. -/
structure Cell where
  v : Nat
  t : Bool
  f : Nat
  deriving DecidableEq, Repr

/-- The key of an element under an operator: its upper half with kv (R178). -/
def nodeKey (o : Operator) (v : Nat) : Int :=
  match fmtOf o.code with
  | some f => totalKey f (if o.kv then v >>> f.width 2 else v)
  | none => 0

/-- a comes after b in the effective order of the node, strictly. -/
def nodeAfter (o : Operator) (k a b : Nat) : Bool :=
  let down := o.desc != k.testBit 0
  if down then decide (nodeKey o a < nodeKey o b) else decide (nodeKey o b < nodeKey o a)

/-- A sum of products of a node: the exact value rounded once under RNE, or wrapped or clamped (R179). -/
def nodeSum (o : Operator) (terms : List (Num × Nat)) (whole : Int) : Nat × Nat :=
  match fmtOf o.code with
  | some (.float p) =>
    match terms with
    | [x, y] =>
      let s := addNum 0 x.1 y.1
      let r := roundNum p 0 o.sat s.1
      (r.1, r.2 ||| s.2 ||| x.2 ||| y.2)
    | _ => (0, 0)
  | some f => intTo f o.sat whole
  | none => (0, 0)

/-- An element as an exact value of the operator's format. -/
def nodeNum (o : Operator) (v : Nat) : Num :=
  match fmtOf o.code with
  | some (.float p) => decodeFloat p v
  | some f => intNum (intValue f v)
  | none => .nan false

/-- An element as a whole number of an integer format. -/
def nodeInt (o : Operator) (v : Nat) : Int :=
  match fmtOf o.code with
  | some (.float _) => 0
  | some f => intValue f v
  | none => 0

/-- a ± b in the operator's format. -/
def nodeAdd (o : Operator) (minus : Bool) (a b : Nat) : Nat × Nat :=
  let y := nodeNum o b
  nodeSum o [(nodeNum o a, 0), (if minus then y.negate else y, 0)]
    (if minus then nodeInt o a - nodeInt o b else nodeInt o a + nodeInt o b)

/-- Coefficient i of a `lin` node with constant k: from the constant where its use bit is set (R180). -/
def nodeCoeff (o : Operator) (k i : Nat) : Num × Int :=
  if o.use.testBit i then (nodeNum o k, nodeInt o k) else (intNum (linCoeff o.dw1 i), linCoeff o.dw1 i)

/-- ci·a + cj·b (R179). -/
def nodeLin (o : Operator) (k i j a b : Nat) : Nat × Nat :=
  let ci := nodeCoeff o k i
  let cj := nodeCoeff o k j
  nodeSum o [mulNum ci.1 (nodeNum o a), mulNum cj.1 (nodeNum o b)] (ci.2 * nodeInt o a + cj.2 * nodeInt o b)

/-- A truth table applied bit by bit (class 6). -/
def nodeLogic (tt w a b : Nat) : Nat :=
  packSlots 1 ((List.range w).map fun i => (tt.testBit (2 * (a.testBit i).toNat + (b.testBit i).toNat)).toNat)

/-- One node: the two outputs (Table 8.2). -/
def nodeApply (o : Operator) (w k : Nat) (a b : Cell) : Cell × Cell :=
  let raised (c : Cell) (r : Nat × Nat) : Cell := { v := r.1, t := true, f := c.f ||| r.2 }
  let both := a.t && b.t
  if o.cls = 3 then (if k.testBit 0 then (b, a) else (a, b))
  else if o.cls = 4 then
    if both then (raised a (nodeLin o k 0 1 a.v b.v), raised b (nodeLin o k 2 3 a.v b.v)) else (a, b)
  else if k.testBit 1 then (a, b)
  else match o.cls with
    | 0 =>
      if both then (if nodeAfter o k a.v b.v then (b, a) else (a, b))
      else if !a.t && b.t then (b, a) else (a, b)
    | 1 =>
      if both then
        let r := nodeAdd o false a.v b.v
        if k.testBit 0 then (a, raised b r) else (raised a r, b)
      else if k.testBit 0 then (if a.t then (a, { b with v := a.v, t := true }) else (a, b))
      else (if b.t then ({ a with v := b.v, t := true }, b) else (a, b))
    | 2 =>
      if both then
        let plus := k.testBit 0
        (raised a (nodeAdd o plus a.v b.v), raised b (nodeAdd o (!plus) a.v b.v))
      else (a, b)
    | 5 =>
      if both then (if nodeAfter o k a.v b.v then ({ a with v := b.v }, b) else (a, b))
      else if b.t then ({ a with v := b.v, t := true }, b) else (a, b)
    | 6 =>
      if both then ({ a with v := nodeLogic (fld o.dw1 3 0) w a.v b.v }, { b with v := nodeLogic (fld o.dw1 7 4) w a.v b.v })
      else (a, b)
    | _ => (a, b)

/-! ## Stages and passes (R175, R184) -/

/-- One stage of distance d: blocks of 2d slots, slot p of the lower half paired with slot p + d of the upper (R175). -/
def stageOn (op : Nat → Cell → Cell → Cell × Cell) (d : Nat) : Nat → List Cell → List Nat → List Cell
  | 0, xs, _ => xs
  | n + 1, xs, ks =>
    if xs = [] then []
    else
      let lo := xs.take d
      let hi := (xs.drop d).take d
      let ys := ((lo.zip hi).zip (ks.take d)).map fun q => op q.2 q.1.1 q.1.2
      ys.map Prod.fst ++ ys.map Prod.snd ++ stageOn op d n (xs.drop (2 * d)) (ks.drop (2 * d))

/-- The code of stage s (R176). -/
def stageCode (p : Word) (s : Nat) : Nat := fld p (4 * s + 7) (4 * s + 4)

/-- A stage program is legal for S slots and a captured `bpc` (R176). -/
def stagesLegal (p bpc : Word) (S : Nat) : Bool :=
  let n := stageCount p
  decide (n ≠ 0) && ((List.range n).all fun s => decide (stageCode p s < 12) && decide (2 ^ stageCode p s < S))
    && decide (p.toNat / 2 ^ (4 * n + 4) = 0) && decide (bpc.toNat < n)

/-- The fields of a group as a list. -/
def slotList (w n g : Nat) : List Nat := (List.range n).map fun p => slotGet w p g

/-- Slots of the network of an entry, and its operator. -/
def passSlots (e : Entry) : Nat := (tileOf e).slots

/-- The array that a pass starts its next stage from (R184): group va under the tags of R182, or group vd and the tag store. -/
def passCells (x : Hand) (e : Entry) : List Cell :=
  let t := tileOf e
  if e.stages = 0 then
    let g := groupRead x e.a.toNat t.grp
    (List.range t.slots).map fun p =>
      { v := slotGet t.sew p g
        t := match t.index p with
          | some i => activeAt x e i
          | none => false
        f := 0 }
  else
    let g := groupRead x e.d.toNat t.grp
    (List.range t.slots).map fun p => { v := slotGet t.sew p g, t := x.ptag.getLsbD p, f := 0 }

/-- The node constants of the entry's next stage by lower slot (R180). -/
def passConstants (x : Hand) (e : Entry) : List Nat :=
  let t := tileOf e
  if e.b = 0 then List.replicate t.slots 0
  else slotList t.sew t.slots (groupRead x (e.b.toNat + e.stages * t.grp) t.grp)

/-- One stage of a pass (R184, R185): vd and the tag store take its outcome, its flags are raised, and one more stage is done. -/
def passStage (x : Hand) (e : Entry) : Hand × Entry :=
  let t := tileOf e
  let o := operatorOf e.oper
  let ys := stageOn (nodeApply o t.sew) (2 ^ stageCode e.fw e.stages) t.slots (passCells x e) (passConstants x e)
  let tags := packSlots 1 (ys.map fun c => c.t.toNat)
  let y := groupWrite { x with ptag := BitVec.ofNat 8192 tags } e.d.toNat t.grp (packSlots t.sew (ys.map Cell.v))
  (y.sticky (ys.foldl (fun f c => f ||| c.f) 0), { e with stages := e.stages + 1 })

/-- The end of a pass (R184): tail slots follow tp, slots that hold no present value follow mp. -/
def passFinish (x : Hand) (e : Entry) : Hand :=
  let t := tileOf e
  let g := groupRead x e.d.toNat t.grp
  groupWrite x e.d.toNat t.grp (packSlots t.sew ((List.range t.slots).map fun p =>
    let v := slotGet t.sew p g
    match t.index p with
    | none => if t.tp then 0 else v
    | some _ => if x.ptag.getLsbD p then v else if t.mp then 0 else v))

/-- A pass goes through all its remaining stages. -/
def passAll : Nat → Hand → Entry → Hand × Entry
  | 0, x, e => (x, e)
  | n + 1, x, e =>
    if e.stages < stageCount e.fw then
      let r := passStage x e
      passAll n r.1 r.2
    else (x, e)

/-! ## Shared pieces of the named instructions (R191, R192) -/

/-- Named instructions ignore the captured `vstart` (R191). -/
def Entry.whole (e : Entry) : Entry := { e with first := 0 }

/-- The active elements in ascending index: index and value. -/
def actives (x : Hand) (e : Entry) : List (Nat × Nat) :=
  let t := tileOf e
  let g := groupRead x e.a.toNat t.grp
  (t.indices.filter (activeAt x e)).map fun i => (i, slotGet t.sew (t.slot i) g)

/-- A stable insertion: x goes before the elements that are not before it. -/
def insertBy {α : Type} (before : α → α → Bool) (x : α) : List α → List α
  | [] => [x]
  | y :: ys => if before y x then y :: insertBy before x ys else x :: y :: ys

/-- A stable sort: `before` is a strict order, and elements that it does not order keep their places. -/
def sortBy {α : Type} (before : α → α → Bool) (xs : List α) : List α := xs.foldr (insertBy before) []

/-- A placed-output destination: output t at slot(t) of the tile t' (R192). -/
def placedGroup (t' : Tile) (old : Nat) (out : List Nat) : Nat :=
  packSlots t'.sew ((List.range t'.slots).map fun p =>
    match t'.index p with
    | some i => if i < out.length then out.getD i 0 else if t'.mp then 0 else slotGet t'.sew p old
    | none => if t'.tp then 0 else slotGet t'.sew p old)

/-- The tile of count c (R199). -/
def Tile.counted (t : Tile) (c : Nat) : Tile :=
  if c = 0 then { t with rc := 0, vt := 1, vn := 0 }
  else
    let rc := (c + t.vl - 1) / t.vl
    { t with rc := rc, vt := c - (rc - 1) * t.vl, vn := c }

/-- A result of one group. -/
def oneGroup (e : Entry) (g flags : Nat) : VResult :=
  { groups := [(e.d.toNat, (tileOf e).grp, g)], scalar := none, flags := flags }

/-- A destination of which some slots are written and every other slot follows tp. -/
def slotsOrTail (t : Tile) (old : Nat) (out : Nat → Option Nat) : Nat :=
  packSlots t.sew ((List.range t.slots).map fun p =>
    match out p with
    | some v => v
    | none => if t.tp then 0 else slotGet t.sew p old)

/-! ## Reductions and scans (R193 to R197) -/

/-- The operation of a VRED form or a scan on two elements. -/
def redOp : RedOp → EwOp
  | .sumO => .add
  | .sumT => .add
  | .sumU => .add
  | .max => .max
  | .min => .min
  | .and => .and
  | .or => .or
  | .xor => .xor

/-- Two tree inputs combined: an absent one passes the other through unrounded (R193). -/
def treePair (op : Nat → Nat → Nat × Nat) (a b : Option Nat × Nat) : Option Nat × Nat :=
  match a.1, b.1 with
  | some u, some v => let r := op u v; (some r.1, a.2 ||| b.2 ||| r.2)
  | some u, none => (some u, a.2 ||| b.2)
  | none, v => (v, a.2 ||| b.2)

/-- One stage of the tree: neighbours combined. -/
def treeLevel (op : Nat → Nat → Nat × Nat) : List (Option Nat × Nat) → List (Option Nat × Nat)
  | a :: b :: rest => treePair op a b :: treeLevel op rest
  | xs => xs

/-- The tree value of 2^L inputs after L stages, with its flags (R193). -/
def treeValue (op : Nat → Nat → Nat × Nat) : Nat → List (Option Nat × Nat) → Option Nat × Nat
  | 0, xs => xs.headD (none, 0)
  | n + 1, xs => treeValue op n (treeLevel op xs)

/-- The inputs of a tree over slots: the values of the present active elements (R182). -/
def treeInputs (x : Hand) (e : Entry) (slots : List Nat) : List (Option Nat × Nat) :=
  let t := tileOf e
  let g := groupRead x e.a.toNat t.grp
  slots.map fun p => match t.index p with
    | some i => if activeAt x e i then (some (slotGet t.sew p g), 0) else (none, 0)
    | none => (none, 0)

/-- A sum in element order. -/
def chain (op : Nat → Nat → Nat × Nat) (seed : Nat) (xs : List Nat) : Nat × Nat :=
  xs.foldl (fun acc v => let r := op acc.1 v; (r.1, acc.2 ||| r.2)) (seed, 0)

/-- A sum in a bracketing that free values pick, from number `ch` on (R195, log 12). -/
def freeSum (op : Nat → Nat → Nat × Nat) (ch : Nat) : Nat → List Nat → Nat × Nat
  | 0, xs => (xs.headD 0, 0)
  | n + 1, xs =>
    match xs with
    | [] => (0, 0)
    | [v] => (v, 0)
    | _ =>
      let i := Config.freeNat ch % xs.length
      let ys := xs.eraseIdx i
      let j := Config.freeNat (ch + 1) % ys.length
      let r := op (xs.getD i 0) (ys.getD j 0)
      let rest := freeSum op (ch + 2) n (r.1 :: ys.eraseIdx j)
      (rest.1, r.2 ||| rest.2)

/-- A VRED form (R195). -/
def evalRed (x : Hand) (e : Entry) (o : RedOp) (ch : Nat) : VResult :=
  let t := tileOf e
  let w := formatWord e.fw
  let op := ewElem (redOp o) w
  let seed := (x.vrd e.b).toNat % 2 ^ t.sew
  let xs := (actives x e).map Prod.snd
  let r : Nat × Nat :=
    if xs = [] then (seed, 0)
    else match o with
      | .sumO => chain op seed xs
      | .sumU => if isF w.fa then freeSum op ch xs.length (seed :: xs) else chain op seed xs
      | _ =>
        match treeValue op (Nat.log2 t.slots) (treeInputs x e (List.range t.slots)) with
        | (some v, f) => let r := op seed v; (r.1, f ||| r.2)
        | (none, f) => (seed, f)
  oneGroup e (slotsOrTail t (groupRead x e.d.toNat t.grp) fun p => if p = 0 then some r.1 else none) r.2

/-- The running values of a scan: for each active element its index, the value written and flags (R196). -/
def scanList (op : Nat → Nat → Nat × Nat) (before : Bool) (acc : Nat) : List (Nat × Nat) → List (Nat × Nat × Nat)
  | [] => []
  | (i, v) :: rest =>
    let r := op acc v
    (i, if before then acc else r.1, r.2) :: scanList op before r.1 rest

/-- The values of `vscan.add.u` in F formats: each some bracketing of the seed and the elements so far. -/
def scanFree (op : Nat → Nat → Nat × Nat) (ch : Nat) (sofar : List Nat) : List (Nat × Nat) → List (Nat × Nat × Nat)
  | [] => []
  | (i, v) :: rest =>
    let all := sofar ++ [v]
    let r := freeSum op (ch + 16384 * sofar.length) all.length all
    (i, r.1, r.2) :: scanFree op ch all rest

/-- The operation of a scan. -/
def scanOp : ScanOp → EwOp
  | .max => .max
  | .min => .min
  | _ => .add

/-- A scan (R196): inactive elements leave the chain unbroken and follow mp. -/
def evalScan (x : Hand) (e : Entry) (o : ScanOp) (ch : Nat) : VResult :=
  let t := tileOf e
  let w := formatWord e.fw
  let op := ewElem (scanOp o) w
  let seed := (x.vrd e.b).toNat % 2 ^ t.sew
  let xs := actives x e
  let rs := match o with
    | .addx => scanList op true seed xs
    | .addU => if isF w.fa then scanFree op ch [seed] xs else scanList op false seed xs
    | _ => scanList op false seed xs
  groupResult x e fun i => match rs.find? fun r => r.1 == i with
    | some r => r.2
    | none => (0, 0)

/-- `vrowred` (R197): each row's tree value to column 0 of its row. -/
def evalRowred (x : Hand) (e : Entry) : VResult :=
  let t := tileOf e
  let op := ewElem .add (formatWord e.fw)
  let rows := (List.range t.rc).map fun r =>
    treeValue op (Nat.log2 t.vlrow) (treeInputs x e ((List.range t.vlrow).map (r * t.vlrow + ·)))
  let out (p : Nat) : Option Nat :=
    if p % t.vlrow = 0 ∧ p / t.vlrow < t.rc then some ((rows.getD (p / t.vlrow) (none, 0)).1.getD 0) else none
  oneGroup e (slotsOrTail t (groupRead x e.d.toNat t.grp) out) (rows.foldl (fun f r => f ||| r.2) 0)

/-! ## Permutations (R198, R199) -/

/-- The place from which element i of a form that copies element by element comes (Table 8.9): true for the second source, and the index
there; none where the result is 0.  `acts` are the active elements, n the elements present. -/
def permFrom (o : PermOp) (acts : List Nat) (n : Nat) (sb : Word) (i : Nat) : Option (Bool × Nat) :=
  match o with
  | .expand => some (false, (acts.takeWhile (· < i)).length)
  | .rev => some (false, n - 1 - i)
  | .rot => some (false, (i + (sb.toInt % (n : Int)).toNat) % n)
  | .bcaste => if sb.toNat < n then some (false, sb.toNat) else none
  | .zip => some (decide (i % 2 = 1), i / 2)
  | .unzip => some (false, if i < (n + 1) / 2 then 2 * i else 2 * (i - (n + 1) / 2) + 1)
  | .comp => some (false, i)
  | .perm => some (false, i)

/-- The VPERM forms (Table 8.9). -/
def evalPerm (x : Hand) (e : Entry) (o : PermOp) : VResult :=
  let t := tileOf e
  let ga := groupRead x e.a.toNat t.grp
  let ea (i : Nat) : Nat := slotGet t.sew (t.slot i) ga
  let gb := groupRead x e.b.toNat t.grp
  let eb (i : Nat) : Nat := slotGet t.sew (t.slot i) gb
  let old := groupRead x e.d.toNat t.grp
  let n := t.vn
  let acts := t.indices.filter (activeAt x e)
  match o with
  | .comp =>
    let out := acts.map ea
    { oneGroup e (placedGroup (t.counted out.length) old out) 0 with count := some out.length }
  | .perm => oneGroup e (placedGroup t old ((sortBy (fun i j => decide (eb i < eb j)) acts).map ea)) 0
  | _ => groupResult x e fun i => match permFrom o acts n e.sb i with
    | some (true, j) => (eb j, 0)
    | some (false, j) => (ea j, 0)
    | none => (0, 0)

/-! ## Sorting and selection (R200 to R203) -/

/-- The key of an element in the format fa (R194). -/
def sortKey (w : FormatWord) (bits : Nat) : Int :=
  match fmtOf w.fa with
  | some f => totalKey f bits
  | none => 0

/-- Strictly before, ascending or descending by key. -/
def keyBefore (w : FormatWord) (desc : Bool) (a b : Nat × Nat) : Bool :=
  if desc then decide (sortKey w b.2 < sortKey w a.2) else decide (sortKey w a.2 < sortKey w b.2)

/-- The worst key of a format (R201). -/
def worstKey (w : FormatWord) : Nat :=
  match fmtOf w.fa with
  | some (.float p) => p.nanBits
  | some (.int n) => 2 ^ (n - 1)
  | _ => 0

/-- `vsort`, `vsortd` (R200). -/
def evalSort (x : Hand) (e : Entry) (desc : Bool) : VResult :=
  let t := tileOf e
  let w := formatWord e.fw
  oneGroup e (placedGroup t (groupRead x e.d.toNat t.grp) ((sortBy (keyBefore w desc) (actives x e)).map Prod.snd)) 0

/-- A result of a pair of groups: keys at the base, payloads after them (R190). -/
def pairResult (e : Entry) (keys payloads flags : Nat) (count : Option Nat) : VResult :=
  let g := (tileOf e).grp
  { groups := [(e.d.toNat, g, keys), (e.d.toNat + g, g, payloads)], scalar := none, flags := flags, count := count }

/-- `vsortkv` (R200). -/
def evalSortkv (x : Hand) (e : Entry) : VResult :=
  let t := tileOf e
  let w := formatWord e.fw
  let s := sortBy (keyBefore w false) (actives x e)
  let gb := groupRead x e.b.toNat t.grp
  pairResult e (placedGroup t (groupRead x e.d.toNat t.grp) (s.map Prod.snd))
    (placedGroup t (groupRead x (e.d.toNat + t.grp) t.grp) (s.map fun q => slotGet t.sew (t.slot q.1) gb)) 0 none

/-- `vtopk` (R201).  An element index that does not fit SEW (SEW 8, index 256 and above) is taken modulo 2^SEW: the rule says zero-extended
and no more (log 59, DESIGN CHOICE). -/
def evalTopk (x : Hand) (e : Entry) : VResult :=
  let t := tileOf e
  let w := formatWord e.fw
  let s := sortBy (keyBefore w true) (actives x e)
  let K := min e.sb.toNat (min (8 * t.vlrow) (8 * t.grp * t.vl))
  let place (out : Nat → Nat) (p : Nat) : Option Nat :=
    let col := p % t.vlrow
    let i := p / t.vlrow * t.vl + col
    if col < t.vl ∧ i < K then some (out i % 2 ^ t.sew) else none
  let key (i : Nat) : Nat := if i < s.length then (s.getD i (0, 0)).2 else worstKey w
  let pay (i : Nat) : Nat := if i < s.length then (s.getD i (0, 0)).1 else 2 ^ t.sew - 1
  pairResult e (slotsOrTail t (groupRead x e.d.toNat t.grp) (place key))
    (slotsOrTail t (groupRead x (e.d.toNat + t.grp) t.grp) (place pay)) 0 (some (min K s.length))

/-- The entries of a list of `vmerge`: payload and key of each active element whose payload is not all ones (R202). -/
def mergeList (x : Hand) (e : Entry) (base : Nat) : List (Nat × Nat) :=
  let t := tileOf e
  let gk := groupRead x base t.grp
  let gp := groupRead x (base + t.grp) t.grp
  ((t.indices.filter (activeAt x e)).map fun i => (slotGet t.sew (t.slot i) gp, slotGet t.sew (t.slot i) gk)).filter
    fun q => decide (q.1 ≠ 2 ^ t.sew - 1)

/-- The entries that `vmergeu` keeps, in order, and whether a removed key differed (R202). -/
def dropRepeats (w : FormatWord) : List (Nat × Nat) → List (Nat × Nat) → List (Nat × Nat) × Bool
  | kept, [] => (kept, false)
  | kept, q :: rest =>
    match kept.find? fun k => k.1 == q.1 with
    | some k =>
      let r := dropRepeats w kept rest
      (r.1, r.2 || decide (sortKey w k.2 ≠ sortKey w q.2))
    | none => dropRepeats w (kept ++ [q]) rest

/-- `vmerge`, `vmergeu` (R202). -/
def evalMerge (x : Hand) (e : Entry) (unique : Bool) : VResult :=
  let t := tileOf e
  let w := formatWord e.fw
  let all := sortBy (keyBefore w true) (mergeList x e e.a.toNat ++ mergeList x e e.b.toNat)
  let (ys, dup) := if unique then dropRepeats w [] all else (all, false)
  let put (old : Nat) (f : Nat → Nat) : Nat :=
    packSlots t.sew ((List.range t.slots).map fun p => match t.index p with
      | some i => f i
      | none => if t.tp then 0 else slotGet t.sew p old)
  pairResult e
    (put (groupRead x e.d.toNat t.grp) fun i => if i < ys.length then (ys.getD i (0, 0)).2 else worstKey w)
    (put (groupRead x (e.d.toNat + t.grp) t.grp) fun i => if i < ys.length then (ys.getD i (0, 0)).1 else 2 ^ t.sew - 1)
    (if dup then flagDUP else 0) none

/-- `vrank` (R203).  A rank of 2^SEW or more (SEW 8) is taken modulo 2^SEW, as an N format wraps: the rule does not say (log 59, DESIGN
CHOICE). -/
def evalRank (x : Hand) (e : Entry) : VResult :=
  let t := tileOf e
  let w := formatWord e.fw
  let xs := (actives x e).map fun q => (q.1, sortKey w q.2)
  groupResult x e fun i => match xs.find? fun q => q.1 == i with
    | some q => (xs.countP (fun r => decide (r.2 < q.2) || (decide (r.2 = q.2) && decide (r.1 < q.1))) % 2 ^ t.sew, 0)
    | none => (0, 0)

/-- The named cross-lane kinds; `ch` numbers the first free value of an unordered sum. -/
def evalCross (x : Hand) (e0 : Entry) (ch : Nat) : VResult :=
  let e := e0.whole
  match e.kind with
  | .red o => evalRed x e o ch
  | .scan o => evalScan x e o ch
  | .rowred => evalRowred x e
  | .permute o => evalPerm x e o
  | .sort desc => evalSort x e desc
  | .sortkv => evalSortkv x e
  | .topk => evalTopk x e
  | .merge u => evalMerge x e u
  | .rank => evalRank x e
  | _ => .nothing

/-- The format word of a named kind is legal (R190). -/
def fwCross (k : VKind) (w : FormatWord) (sew : Nat) : Bool :=
  let num := isI w.fa || isN w.fa || isF w.fa
  let same := w.basic && w.same sew && w.plain
  match k with
  | .red .and => same && (isI w.fa || isN w.fa)
  | .red .or => same && (isI w.fa || isN w.fa)
  | .red .xor => same && (isI w.fa || isN w.fa)
  | .rank =>
    w.basic && w.plain && num && decide (w.fb = w.fa) && isN w.fd && decide (codeWidth w.fa 2 = sew)
      && decide (codeWidth w.fd 2 = sew)
  | _ => same && num

/-! ## BFCTL (R188, R189) -/

/-- The byte that `bf.stat` reports for slot k. -/
def statByte (x : Hand) (k : Nat) : Nat :=
  let d : Option (Word × Word) := if k < 4 then some (fixedOperator k (fld x.vtype 1 0)) else
    match (x.slots.toList.getD (k - 4) none) with
    | some d => some d
    | none => none
  match d with
  | some d => 128 + 16 * fld d.1 3 0 + fld d.1 7 4
  | none => 0

/-- `bf.stat` (R189). -/
def statWord (x : Hand) : Word := BitVec.ofNat 64 (leValue ((List.range 8).map fun k => BitVec.ofNat 8 (statByte x k)))

/-- `bf.clr` (R188): q = 0 empties every loaded slot. -/
def clearSlots (x : Hand) (q : Nat) : Hand :=
  if q = 0 then { x with slots := Vector.replicate 4 none }
  else { x with slots := x.slots.setIfInBounds (q - 4) none }

/-- The operator of a slot, as it stands now; none where the slot is empty (R177). -/
def slotOperator (x : Hand) (slot : Nat) : Option (Word × Word) :=
  if slot < 4 then some (fixedOperator slot (fld x.vtype 1 0)) else x.slots.toList.getD (slot - 4) none

end Sys2Proof.Machine
end

