-- ==== Sys2Proof/Machine/Matrix.lean ====
section
/-!
DEFINITION. The matrix unit and the accumulator store (R253 to R266): rows, the B latch, `mma`, `mlatch`, `mzero`, `mrd` and `mwr`,
and the format words that they accept.
-/

namespace Sys2Proof.Machine

/-! ## Rows (R253) -/

/-- Repeat count of a TILE entry. -/
def Entry.rep (e : Entry) : Nat := e.ew + 1
/-- Window row of row j: S[sa] + imm10 + j, computed exactly. -/
def Entry.windowRow (e : Entry) (j : Nat) : Nat := e.sa.toNat + e.imm + j
/-- Every row lies below `accn`. -/
def Entry.rowsInside (e : Entry) : Bool := (List.range e.rep).all fun j => decide (e.windowRow j < e.accn)

/-- A row of a core's accumulator store, as a number of 2,048 bits. -/
def CoreSt.accRow (c : CoreSt) (r : Nat) : Nat := (tabGet (0#2048) c.acc r).toNat
/-- A row set; an unlisted row holds 0. -/
def CoreSt.setAccRow (c : CoreSt) (r v : Nat) : CoreSt := { c with acc := tabSet c.acc r (BitVec.ofNat 2048 v) }

/-- Row j of an entry. -/
def rowOf (s : State) (h : Nat) (e : Entry) (j : Nat) : Nat := (s.core (coreOf h)).accRow (e.accb + e.windowRow j)
/-- The machine with row j of an entry set. -/
def setRow (s : State) (h : Nat) (e : Entry) (j v : Nat) : State :=
  s.setCore (coreOf h) ((s.core (coreOf h)).setAccRow (e.accb + e.windowRow j) v)

/-! ## The operands of `mma` (R254, R258) -/

/-- An input value of a matrix format. -/
def matrixNum (code m bits X : Nat) : Num :=
  match fmtOf code with
  | some (.float p) => decodeFloat p bits
  | some .bfp => bfpNum m bits X
  | some f => intNum (intValue f bits)
  | none => .nan false

/-- Registers of the A span: 1 for rep up to 8, else 2 (R258). -/
def spanG (rep : Nat) : Nat := if rep ≤ 8 then 1 else 2

/-- A row j: K values (R258). -/
def rowA (x : Hand) (e : Entry) (w : FormatWord) (j : Nat) : List Num :=
  let g := spanG e.rep
  let wd := codeWidth w.fa w.ma
  let mant := groupRead x e.a.toNat g
  let exps := groupRead x (e.a.toNat + g) g
  (List.range (1024 / wd)).map fun k =>
    matrixNum w.fa w.ma ((mant >>> (1024 * j + wd * k)) % 2 ^ wd) ((exps >>> (1024 * j + 8 * (k / 16))) % 256)

/-- Column n of the latched B: K values (R254). -/
def colB (x : Hand) (w : FormatWord) (n : Nat) : List Num :=
  let wd := codeWidth w.fb w.mb
  (List.range (1024 / wd)).map fun k =>
    matrixNum w.fb w.mb ((x.blatch.toNat >>> (1024 * (k * wd / 16) + 16 * n + wd * (k % (16 / wd)))) % 2 ^ wd)
      ((x.bexp.toNat >>> (512 * (k / 16) + 8 * n)) % 256)

/-! ## Groups of sixteen products (R259, R260) -/

/-- Sums of finite products: the exact sum, and whether a product of either sign was seen. -/
structure GroupSum where
  total : Num
  plus  : Bool
  minus : Bool
  infP  : Bool
  infM  : Bool
  nan   : Bool
  flags : Nat
  deriving DecidableEq, Repr

/-- One product added to a group. -/
def groupStep (g : GroupSum) (p : Num × Nat) : GroupSum :=
  let f := g.flags ||| p.2
  match p.1 with
  | .nan _ => { g with nan := true, flags := f }
  | .inf n => { g with infP := g.infP || !n, infM := g.infM || n, flags := f }
  | .fin n m e =>
    { g with total := (addNum 0 g.total (.fin n m e)).1, plus := g.plus || !n, minus := g.minus || n, flags := f }

/-- The group G of products, exact, with its NV (R260). -/
def groupOf (rm : Nat) (ps : List (Num × Nat)) : Num × Nat :=
  let g := ps.foldl groupStep
    { total := .fin false 0 0, plus := false, minus := false, infP := false, infM := false, nan := false, flags := 0 }
  if g.infP ∧ g.infM then (.nan false, g.flags ||| flagNV)
  else if g.nan then (.nan false, g.flags)
  else if g.infP then (.inf false, g.flags)
  else if g.infM then (.inf true, g.flags)
  else match g.total with
    | .fin _ 0 _ => (.fin ((g.minus && !g.plus) || (decide (rm = 2) && g.minus && g.plus)) 0 0, g.flags)
    | t => (t, g.flags)

/-- Consecutive groups of sixteen. -/
def groupsOf {α : Type} : Nat → List α → List (List α)
  | 0, _ => []
  | n + 1, xs => xs.take 16 :: groupsOf n (xs.drop 16)

/-- One accumulation of a float group into an accumulator value (R259, R260). -/
def accFloat (w : FormatWord) (first neg : Bool) (acc : Nat) (ps : List (Num × Nat)) : Nat × Nat :=
  let G := groupOf w.rm ps
  let v := (if neg then G.1.negate else G.1).scale w.scale
  let r := if first then (v, 0) else addNum w.rm (decodeFloat fmtF32 acc) v
  let q := roundNum fmtF32 w.rm w.sat r.1
  (q.1, q.2 ||| r.2 ||| G.2)

/-- The whole number of an integer input. -/
def numInt : Num → Int
  | .fin n m _ => if n then -(m : Int) else m
  | _ => 0

/-- One accumulation of an integer group (R259). -/
def accInt (w : FormatWord) (first neg : Bool) (acc : Nat) (ps : List (Num × Num)) : Nat × Nat :=
  let G := ps.foldl (fun t p => t + numInt p.1 * numInt p.2) 0
  intTo (.int 32) w.sat ((if first then 0 else toSigned 32 acc) + if neg then -G else G)

/-- The groups of one column into its accumulator value, in ascending order (R259). -/
def accColumn (w : FormatWord) (mode : Nat) (acc : Nat) (as bs : List Num) : Nat × Nat :=
  let ps := groupsOf (as.length / 16) (as.zip bs)
  let step (r : Nat × Nat × Bool) (g : List (Num × Num)) : Nat × Nat × Bool :=
    let q := if w.fd = 9 then accFloat w r.2.2 (decide (mode = 2)) r.1 (g.map fun p => mulNum p.1 p.2)
      else accInt w r.2.2 (decide (mode = 2)) r.1 g
    (q.1, r.2.1 ||| q.2, false)
  let r := ps.foldl step (acc, 0, decide (mode = 1))
  (r.1, r.2.1)

/-- Row j of the result: the new row and its flags. -/
def mmaRow (x : Hand) (e : Entry) (w : FormatWord) (bs : List (List Num)) (old j : Nat) : Nat × Nat :=
  let as := rowA x e w j
  let cs := (bs.zip (slotList 32 64 old)).map fun q => accColumn w e.mode q.2 as q.1
  (packSlots 32 (cs.map Prod.fst), cs.foldl (fun f c => f ||| c.2) 0)

/-- A row j of A is enabled: no mask, or mask bit j (R258). -/
def rowEnabled (x : Hand) (e : Entry) (j : Nat) : Bool := e.m = 0 || maskBit (x.vrd (e.m.setWidth 5)) j

/-- `mma` over rows from `vstart` on and below n (R259): the machine with its rows, and the flags. -/
def mmaRowsTo (s : State) (h : Nat) (e : Entry) (n : Nat) : State × Nat :=
  let w := formatWord e.fw
  let x := s.hand h
  let bs := (List.range 64).map (colB x w)
  ((List.range n).filter fun j => decide (e.first ≤ j) && rowEnabled x e j).foldl
    (fun r j =>
      let q := mmaRow x e w bs (rowOf r.1 h e j) j
      (setRow r.1 h e j q.1, r.2 ||| q.2)) (s, 0)

/-- `mma` over all its rows. -/
def mmaRows (s : State) (h : Nat) (e : Entry) : State × Nat := mmaRowsTo s h e e.rep

/-- The rows at places ps of an instruction's window are in error no more (R325). -/
def healRows (s : State) (h : Nat) (e : Entry) (ps : List Nat) : State :=
  let k := s.core (coreOf h)
  if k.apoison = [] then s
  else s.setCore (coreOf h) { k with apoison := k.apoison.filter fun r => !ps.any fun j => e.accb + e.windowRow j == r }

/-- Row j of an entry's window carries an uncorrectable error. -/
def rowFoul (s : State) (h : Nat) (e : Entry) (j : Nat) : Bool := (s.core (coreOf h)).apoison.contains (e.accb + e.windowRow j)

/-! ## `mlatch`, `mrd`, `mwr` (R261, R263) -/

/-- `mlatch`: the latch, and for bfp the exponent store (R261). -/
def latchB (x : Hand) (e : Entry) : Hand :=
  let y := { x with blatch := BitVec.ofNat 65536 (groupRead x e.b.toNat 8) }
  if (formatWord e.fw).fb = 14 then
    let g := groupRead x (e.b.toNat + 8) 8
    { y with bexp := BitVec.ofNat 32768 (packSlots 512 ((List.range 64).map fun b => (g >>> (1024 * b)) % 2 ^ 512)) }
  else y

/-- A value converted between an accumulator format and a register format. -/
def rowConvert (w : FormatWord) (bits : Nat) : Nat × Nat :=
  match fmtOf w.fa, fmtOf w.fd with
  | some a, some d => convertElem a d 2 w.rm w.sat w.scale 0 bits
  | _, _ => (0, 0)

/-- `mrd`: slot 64j + c of the group from column c of row j; every other slot is kept (R263). -/
def readRows (s : State) (h : Nat) (e : Entry) : VResult :=
  let t := tileOf e
  let w := formatWord e.fw
  let vals := ((List.range e.rep).map fun j => slotList 32 64 (rowOf s h e j)).flatten.map (rowConvert w)
  let old := groupRead (s.hand h) e.d.toNat t.grp
  let g := packSlots t.sew ((List.range t.slots).map fun p =>
    if p < vals.length then (vals.getD p (0, 0)).1 else slotGet t.sew p old)
  { groups := [(e.d.toNat, t.grp, g)], scalar := none, flags := vals.foldl (fun f v => f ||| v.2) 0 }

/-- `mwr`: column c of row j from slot 64j + c of the group (R263). -/
def writeRows (s : State) (h : Nat) (e : Entry) : State × Nat :=
  let t := tileOf e
  let w := formatWord e.fw
  let g := groupRead (s.hand h) e.a.toNat t.grp
  (List.range e.rep).foldl (fun r j =>
    let vals := (List.range 64).map fun c => rowConvert w (slotGet t.sew (64 * j + c) g)
    (setRow r.1 h e j (packSlots 32 (vals.map Prod.fst)), vals.foldl (fun f v => f ||| v.2) r.2)) (s, 0)

/-- `mzero` (R262). -/
def zeroRows (s : State) (h : Nat) (e : Entry) : State := (List.range e.rep).foldl (fun t j => setRow t h e j 0) s

/-! ## Format words and register spans -/

/-- A code of Table 11.4's input columns. -/
def matrixInput (c : Nat) : Bool := decide (c ∈ [0, 4, 10, 11, 12, 13, 14])

/-- The format word of `mma` (R257, Table 11.4). -/
def fwMma (w : FormatWord) : Bool :=
  let pair := (decide (w.fa = 11) && decide (w.fb = 11)) || (decide (w.fa = 10) && decide (w.fb = 10))
    || (decide (w.fa = 12 ∨ w.fa = 13) && decide (w.fb = 12 ∨ w.fb = 13))
    || (decide (w.fa = 14) && decide (w.fb = 14) && decide (bfpWidth w.ma = bfpWidth w.mb))
  let ints := decide (w.fa = 0 ∨ w.fa = 4) && decide (w.fb = 0 ∨ w.fb = 4)
  w.basic && ((pair && decide (w.fd = 9)) || (ints && decide (w.fd = 2) && decide (w.scale = 0)))

/-- The format word of `mlatch` (R261). -/
def fwMlatch (w : FormatWord) : Bool := w.basic && matrixInput w.fb && w.plain

/-- The integer formats' rule 9 of R132. -/
def noIntScale (w : FormatWord) : Bool :=
  decide (w.scale = 0) || !((isI w.fa || isN w.fa) && (isI w.fd || isN w.fd))

/-- The format word of `mrd` (R263). -/
def fwMrd (w : FormatWord) (sew : Nat) : Bool :=
  w.basic && decide (w.fa = 9 ∨ w.fa = 2) && decide (w.fb = w.fa) && decide (w.fd ≤ 11) && decide (codeWidth w.fd 2 = sew)
    && noIntScale w

/-- The format word of `mwr` (R263). -/
def fwMwr (w : FormatWord) (sew : Nat) : Bool :=
  w.basic && decide (w.fd = 9 ∨ w.fd = 2) && decide (w.fb = w.fa) && decide (w.fa ≤ 11) && decide (codeWidth w.fa 2 = sew)
    && noIntScale w

/-- The A span of `mma` (R258). -/
def spanOk (a : Reg) (rep : Nat) (bfp : Bool) : Bool :=
  let n := if bfp then 2 * spanG rep else spanG rep
  aligned a n && decide (a.toNat + n ≤ 32)

/-- The register span of `mlatch` (R261). -/
def latchOk (b : Reg) (bfp : Bool) : Bool := aligned b (if bfp then 16 else 8)

/-- The group of `mrd` and `mwr` holds 64·rep slots (R263). -/
def rowsFit (base : Reg) (t : Tile) (rep : Nat) : Bool := aligned base t.grp && decide (64 * rep ≤ t.slots)

end Sys2Proof.Machine
end

