-- ==== Sys2Proof/Machine/Deps.lean ====
section
/-!
DEFINITION. What a dispatched instruction reads and writes: the registers of its sources and its destination (R155, R233, R248), and
the bytes that one element's computation reads, for poison (R161, R325).
-/

namespace Sys2Proof.Machine

/-! ## Registers -/

/-- The registers of a group. -/
def regsOf (base : Reg) (n : Nat) : List Nat := (List.range n).map (base.toNat + ·)

/-- Registers of an index operand: 64-bit offsets for every slot (R229). -/
def Entry.indexRegs (e : Entry) : List Nat := regsOf e.b ((tileOf e).grp * 64 / (tileOf e).sew)

/-- Registers in the destination of an entry. -/
def writesOf (e : Entry) : List Nat :=
  let g := (tileOf e).grp
  match e.kind with
  | .cmp _ => regsOf e.d 1
  | .mask _ => regsOf e.d 1
  | .mpopc => []
  | .mfirst => []
  | .mvSv => []
  | .un .cvt => regsOf e.d (if (formatWord e.fw).fd = 14 then 2 * g else g)
  | .sortkv => regsOf e.d (2 * g)
  | .topk => regsOf e.d (2 * g)
  | .merge _ => regsOf e.d (2 * g)
  | .bfLoad => []
  | .bfClr => []
  | .bfStat => []
  | .store _ _ => []
  | .pf => []
  | .amo _ ret _ => if ret then regsOf e.d g else []
  | .sc => regsOf (e.m.setWidth 5) 1
  | .copy => regsOf e.d 1
  | .vwait => regsOf e.d 1
  | .qset => []
  | .qget => []
  | .wred => []
  | .wfin => []
  | .wpoll => []
  | .mma => []
  | .mlatch => []
  | .mzero => []
  | .mwr => []
  | .mld => []
  | .mst => []
  | _ => regsOf e.d g

/-- The register of the mask. -/
def maskReg (e : Entry) : List Nat := if e.m = 0 then [] else [e.m.toNat]

/-- Registers whose values an entry's results come from, the mask and the old destination apart. -/
def sourcesOf (e : Entry) : List Nat :=
  let t := tileOf e
  let g := t.grp
  let w := formatWord e.fw
  let second := match e.src with
    | .reg n => regsOf n g
    | .val _ => []
  match e.kind with
  | .ew _ => regsOf e.a g ++ second
  | .cmp _ => regsOf e.a g ++ second
  | .sel => regsOf e.a g ++ second
  | .fma _ => regsOf e.d g ++ regsOf e.a g ++ second
  | .un .cvt => regsOf e.a (if w.fa = 14 then 2 * g else g)
  | .un _ => regsOf e.a g
  | .cls => regsOf e.a g
  | .scale => regsOf e.a g
  | .mv => regsOf e.a g
  | .mvSv => regsOf e.a g
  | .mvVs => regsOf e.d g
  | .mask .not => regsOf e.a 1
  | .mask _ => regsOf e.a 1 ++ regsOf e.b 1
  | .mpopc => regsOf e.a 1
  | .mfirst => regsOf e.a 1
  | .iota => regsOf e.a 1
  | .bc => []
  | .idx => []
  | .red _ => regsOf e.a g ++ regsOf e.b 1
  | .scan _ => regsOf e.a g ++ regsOf e.b 1
  | .rowred => regsOf e.a g
  | .permute .perm => regsOf e.a g ++ regsOf e.b g
  | .permute .zip => regsOf e.a g ++ regsOf e.b g
  | .permute _ => regsOf e.a g
  | .sort _ => regsOf e.a g
  | .rank => regsOf e.a g
  | .topk => regsOf e.a g
  | .sortkv => regsOf e.a g ++ regsOf e.b g
  | .merge _ => regsOf e.a (2 * g) ++ regsOf e.b (2 * g)
  | .pass => (if e.stages = 0 then regsOf e.a g else regsOf e.d g) ++ (if e.b = 0 then [] else regsOf e.b (stageCount e.fw * g))
  | .load .indexed => e.indexRegs
  | .store .indexed _ => regsOf e.d g ++ e.indexRegs
  | .store _ _ => regsOf e.d g
  | .gl => e.indexRegs
  | .sc => regsOf e.d g ++ e.indexRegs
  | .amo _ _ _ => regsOf e.d g ++ e.indexRegs
  | .vwait => regsOf e.d g ++ e.indexRegs
  | .wred => regsOf e.d g
  | .mma => regsOf e.a (if w.fa = 14 then 2 * spanG e.rep else spanG e.rep)
  | .mlatch => regsOf e.b (if w.fb = 14 then 16 else 8)
  | .mwr => regsOf e.a g
  | _ => []

/-- The old destination shows in the new one: elements below `vstart`, inactive elements, or the tail keep it (R150). -/
def keepsOld (e : Entry) : Bool :=
  let t := tileOf e
  decide (0 < t.vstart) || !t.tp || (decide (e.m ≠ 0) && !t.mp)

/-- Registers that a memory instruction reads before its elements perform (R233). -/
def performReads (e : Entry) : List Nat := maskReg e ++ sourcesOf e

/-- Registers that an instruction reads (R155). -/
def readsOf (e : Entry) : List Nat := performReads e ++ if keepsOld e then writesOf e else []

/-- A TILE form that reads or writes accumulator rows. -/
def Entry.usesRows (e : Entry) : Bool := decide (e.kind ∈ [.mma, .mzero, .mrd, .mwr, .mld, .mst])

/-- The later instruction reads nothing that the earlier one writes; accumulator rows are not renamed. -/
def independent (earlier later : Entry) : Bool :=
  (writesOf earlier).all (fun r => !(performReads later).contains r) && !(earlier.usesRows && later.usesRows)
    && !(decide (earlier.kind = .mlatch) && decide (later.kind = .mma))

/-! ## Bytes of registers, for poison (R161, R325) -/

/-- The bytes of field `p` of `w` bits of the group at `base`, by register·1,024 + byte. -/
def regBytes (base w p : Nat) : List Nat :=
  (List.range ((w * p + w - 1) / 8 - w * p / 8 + 1)).map fun i => base * 1024 + w * p / 8 + i

/-- The bytes of a source of `w`-bit elements of a group, for the element at slot p. -/
def elemBytes (e : Entry) (base : Reg) (p : Nat) : List Nat := regBytes base.toNat (tileOf e).sew p

/-- The bytes of a `vcvt` source at slot p: the element, and for bfp the exponent of its block (R173). -/
def cvtBytes (e : Entry) (p : Nat) : List Nat :=
  let t := tileOf e
  let w := formatWord e.fw
  if w.fa = 14 then
    let c := bfpWidth w.ma
    let row := p * c / 1024
    regBytes e.a.toNat c p ++ regBytes (e.a.toNat + t.grp) 8 (row * 128 + p / 16 % (64 / c))
  else regBytes e.a.toNat (codeWidth w.fa 2) p

/-- The register bytes from which active element k's result is computed; a move computes nothing. -/
def resultBytes (x : Hand) (e : Entry) (k : Nat) : List Nat :=
  let p := (tileOf e).slot k
  let second := match e.src with
    | .reg n => elemBytes e n p
    | .val _ => []
  match e.kind with
  | .ew _ => elemBytes e e.a p ++ second
  | .cmp _ => elemBytes e e.a p ++ second
  | .sel => elemBytes e e.a p
  | .fma _ => elemBytes e e.d p ++ elemBytes e e.a p ++ second
  | .un .cvt => cvtBytes e p
  | .un _ => elemBytes e e.a p
  | .cls => elemBytes e e.a p
  | .scale => elemBytes e e.a p
  | .mask .not => regBytes e.a.toNat 1 p
  | .mask _ => regBytes e.a.toNat 1 p ++ regBytes e.b.toNat 1 p
  | .mpopc => regBytes e.a.toNat 1 p
  | .mfirst => regBytes e.a.toNat 1 p
  | .iota =>
    let t := tileOf e
    (List.range k).flatMap fun j =>
      (if e.m = 0 then [] else regBytes e.m.toNat 1 (t.slot j)) ++ (if activeAt x e j then regBytes e.a.toNat 1 (t.slot j) else [])
  | .mvSv => if k = e.sb.toNat then elemBytes e e.a p else []
  | .store .indexed _ => elemBytes e e.d p ++ regBytes e.b.toNat 64 p
  | .store _ _ => elemBytes e e.d p
  | .load .indexed => regBytes e.b.toNat 64 p
  | .gl => regBytes e.b.toNat 64 p
  | .sc => elemBytes e e.d p ++ regBytes e.b.toNat 64 p
  | .amo _ _ _ => elemBytes e e.d p ++ regBytes e.b.toNat 64 p
  | .vwait => elemBytes e e.d p ++ regBytes e.b.toNat 64 p
  | _ => []

/-- The register bytes from which a named cross-lane instruction computes: its mask over the present elements, and what its active
elements come from. -/
def namedBytes (x : Hand) (e : Entry) : List Nat :=
  let t := tileOf e
  let acts := t.indices.filter (activeAt x e)
  let els (base : Nat) (is : List Nat) : List Nat := is.flatMap fun i => regBytes base t.sew (t.slot i)
  let seed := regBytes e.b.toNat t.sew 0
  let a := e.a.toNat
  let b := e.b.toNat
  (if e.m = 0 then [] else t.indices.flatMap fun i => regBytes e.m.toNat 1 (t.slot i)) ++
  match e.kind with
  | .red _ => els a acts ++ seed
  | .scan _ => els a acts ++ seed
  | .permute .comp => els a acts
  | .permute .perm => els a acts ++ els b acts
  | .permute o => acts.flatMap fun i => match permFrom o acts t.vn e.sb i with
    | some (second, j) => els (if second then b else a) [j]
    | none => []
  | .sortkv => els a acts ++ els b acts
  | .merge _ => els a acts ++ els (a + t.grp) acts ++ els b acts ++ els (b + t.grp) acts
  | _ => els a acts

/-- Some byte of a list carries an uncorrectable error. -/
def Hand.foul (x : Hand) (bytes : List Nat) : Bool := decide (x.vpoison ≠ []) && bytes.any x.vpoison.contains

/-- The register bytes from which inactive element k's result is computed: `vsel` takes its second source there (R166); every other form
keeps the old value or writes 0. -/
def otherBytes (e : Entry) (k : Nat) : List Nat :=
  match e.kind, e.src with
  | .sel, .reg n => elemBytes e n ((tileOf e).slot k)
  | _, _ => []

/-- Element k's computation reads a byte with an uncorrectable error: its mask bit, or what its result comes from. -/
def elemFoul (x : Hand) (e : Entry) (k : Nat) : Bool :=
  x.foul ((if e.m = 0 then [] else regBytes e.m.toNat 1 ((tileOf e).slot k))
    ++ (if activeAt x e k then resultBytes x e k else otherBytes e k))

/-! ## What an instruction consumes (R161, R185, R191, R266, R325) -/

/-- The bytes of row j of A: mantissas, and the exponents of a bfp (R258). -/
def rowABytes (e : Entry) (j : Nat) : List Nat :=
  let w := formatWord e.fw
  (List.range 128).map (fun i => 1024 * e.a.toNat + 128 * j + i)
    ++ (if w.fa = 14 then (List.range (64 / bfpWidth w.ma)).map fun i => 1024 * (e.a.toNat + spanG e.rep) + 128 * j + i else [])

/-- The bytes that `mlatch` reads: eight registers, and for bfp the lower half of each exponent row (R261). -/
def latchBytes (e : Entry) : List Nat :=
  (List.range 8192).map (1024 * e.b.toNat + ·)
    ++ (if (formatWord e.fw).fb = 14 then ((List.range 8192).filter fun i => decide (i % 128 < 64)).map (1024 * (e.b.toNat + 8) + ·) else [])

/-- A place of the latch that an `mma` reads: every row of the mantissas, and of the exponent store the K ÷ 16 rows of a bfp (R254). -/
def latchRead (e : Entry) (q : Nat) : Bool :=
  let w := formatWord e.fw
  decide (q < 8192) || (decide (w.fb = 14) && decide ((q - 8192) / 64 < 64 / bfpWidth w.mb))

/-- Row j of an `mma` cannot be completed: it reads its mask bit or, where that is 1 (R259), a byte of A, of the latch or of the accumulator
row with an uncorrectable error. -/
def mmaFoul (s : State) (h : Nat) (e : Entry) (j : Nat) : Bool :=
  let x := s.hand h
  x.foul (if e.m = 0 then [] else regBytes e.m.toNat 1 j)
    || (rowEnabled x e j && (x.foul (rowABytes e j) || x.lpoison.any (latchRead e) || (decide (e.mode ≠ 1) && rowFoul s h e j)))

/-- The next stage of a pass reads a byte with an uncorrectable error: its mask, a present value, or the constant of a node with one. -/
def passFoul (x : Hand) (e : Entry) : Bool :=
  let t := tileOf e
  let cells := passCells x e
  let here (p : Nat) : Bool := match cells[p]? with
    | some c => c.t
    | none => false
  let d := 2 ^ stageCode e.fw e.stages
  let base := if e.stages = 0 then e.a.toNat else e.d.toNat
  let masks := if e.stages = 0 ∧ e.m ≠ 0 then t.indices.flatMap fun i => regBytes e.m.toNat 1 (t.slot i) else []
  let vals := ((List.range t.slots).filter here).flatMap (regBytes base t.sew)
  let consts := if e.b = 0 then [] else
    ((List.range t.slots).filter fun p => decide (p / d % 2 = 0) && (here p || here (p + d))).flatMap
      (regBytes (e.b.toNat + e.stages * t.grp) t.sew)
  decide (x.vpoison ≠ []) && x.foul (masks ++ vals ++ consts)

/-- The element, or row of A, at which the oldest instruction consumes an uncorrectable error, if it does.  A pass consumes stage by stage,
and a memory instruction element by element in the VMU. -/
def consumes (s : State) (h : Nat) (e : Entry) : Option Nat :=
  let x := s.hand h
  let at0 (bad : Bool) : Option Nat := if bad then some 0 else none
  if x.vpoison = [] ∧ x.lpoison = [] ∧ (s.core (coreOf h)).apoison = [] then none
  else if memoryType e then none
  else match e.kind with
    | .pass => none
    | .bfLoad => none
    | .bfClr => none
    | .bfStat => none
    | .mma => (List.range e.rep).find? fun j => decide (e.first ≤ j) && mmaFoul s h e j
    | .mlatch => at0 (x.foul (latchBytes e))
    | .mzero => none
    | .mrd => at0 ((List.range e.rep).any (rowFoul s h e))
    | .mwr => at0 (x.foul ((List.range (64 * e.rep)).flatMap (regBytes e.a.toNat (tileOf e).sew)))
    | .mpopc => (tileOf e).indices.find? (elemFoul x e)
    | .mfirst => (tileOf e).indices.find? (elemFoul x e)
    | .mvSv => (tileOf e).indices.find? (elemFoul x e)
    | .red _ => at0 (x.foul (namedBytes x e.whole))
    | .scan _ => at0 (x.foul (namedBytes x e.whole))
    | .rowred => at0 (x.foul (namedBytes x e.whole))
    | .permute _ => at0 (x.foul (namedBytes x e.whole))
    | .sort _ => at0 (x.foul (namedBytes x e.whole))
    | .sortkv => at0 (x.foul (namedBytes x e.whole))
    | .topk => at0 (x.foul (namedBytes x e.whole))
    | .merge _ => at0 (x.foul (namedBytes x e.whole))
    | .rank => at0 (x.foul (namedBytes x e.whole))
    | _ =>
      let t := tileOf e
      let block (i : Nat) : List Nat := t.indices.filter fun j => t.slot j / 16 == t.slot i / 16
      let bad (i : Nat) : Bool :=
        elemFoul x e i || (decide (e.kind = .un .cvt ∧ (formatWord e.fw).fd = 14) && activeAt x e i && (block i).any (elemFoul x e))
      t.indices.find? fun i => decide (t.vstart ≤ i) && bad i

/-! ## What a destination keeps of its old value (R150, R192 to R202, R263) -/

/-- Slot p of the destination group keeps its old value. -/
def slotKeeps (x : Hand) (e : Entry) (p : Nat) : Bool :=
  let t := tileOf e
  let n := t.indices.countP (activeAt x e)
  let tail := !t.tp
  let placed (u : Tile) : Bool := match u.index p with
    | some i => decide (n ≤ i) && !t.mp
    | none => tail
  let byElement (lo : Nat) (masked : Bool) : Bool := match t.index p with
    | some i => decide (i < lo) || (masked && !activeAt x e i && !t.mp)
    | none => tail
  match e.kind with
  | .mrd => decide (64 * e.rep ≤ p)
  | .mvVs => !decide (p = 0 ∧ 0 < t.vn ∧ e.vstart = 0)
  | .red _ => decide (p ≠ 0) && tail
  | .rowred => !decide (p % t.vlrow = 0 ∧ p / t.vlrow < t.rc) && tail
  | .topk =>
    let K := min e.sb.toNat (min (8 * t.vlrow) (8 * t.grp * t.vl))
    !decide (p % t.vlrow < t.vl ∧ p / t.vlrow * t.vl + p % t.vlrow < K) && tail
  | .permute .comp => placed (t.counted n)
  | .permute .perm => placed t
  | .sort _ => placed t
  | .sortkv => placed t
  | .permute _ => byElement 0 true
  | .scan _ => byElement 0 true
  | .rank => byElement 0 true
  | .merge _ => byElement 0 false
  | .sel => byElement t.vstart false
  | .mask _ => byElement t.vstart false
  | .pass => match t.index p with
    | some _ => !x.ptag.getLsbD p && !t.mp
    | none => tail
  | _ => byElement t.vstart true

/-- Bits of a slot of the destination. -/
def destWidth (e : Entry) : Nat :=
  let w := formatWord e.fw
  match e.kind with
  | .cmp _ => 1
  | .mask _ => 1
  | .un .cvt => codeWidth w.fd w.md
  | _ => (tileOf e).sew

/-- Byte k of a bfp destination's exponents keeps its old value, in whole or in part (R173, log 52). -/
def expKeeps (x : Hand) (e : Entry) (k : Nat) : Bool :=
  let t := tileOf e
  let perRow := 64 / bfpWidth (formatWord e.fw).md
  let row := k / 128
  let present (B : Nat) : List Nat := ((List.range 16).filterMap fun j => denseIndex t (16 * B + j))
  let live (B : Nat) : Bool := (present B).any (activeAt x e)
  if perRow ≤ k % 128 then !((List.range perRow).any fun j => live (row * perRow + j)) && !t.tp
  else
    let B := row * perRow + k % 128
    if present B = [] then !t.tp
    else (present B).all (fun i => decide (i < t.vstart)) || (!live B && !t.mp)

/-- Byte b of an entry's destination registers keeps some bit of its old value. -/
def byteKeeps (x : Hand) (e : Entry) (b : Nat) : Bool :=
  let t := tileOf e
  let w := destWidth e
  let bytes := 1024 * t.grp
  let c := if e.kind = .un .cvt ∧ bytes ≤ b then none else some (b % bytes)
  match e.kind, c with
  | .sc, _ => false
  | .copy, _ => false
  | .vwait, _ => false
  | _, none => expKeeps x e (b - bytes)
  | _, some k => (List.range ((8 * k + 7) / w - 8 * k / w + 1)).any fun j => slotKeeps x e (8 * k / w + j)

/-- The bytes in error after an instruction has written its destination: those that it has not overwritten, and what `vmv.vv` has
moved (R325).  x is the hand before. -/
def poisonAfter (x : Hand) (e : Entry) : List Nat :=
  let t := tileOf e
  let dst := writesOf e
  let stay := x.vpoison.filter fun q => !dst.contains (q / 1024) || byteKeeps x e (q - 1024 * e.d.toNat)
  let moved := if e.kind = .mv then
      (t.indices.filter fun i => decide (t.vstart ≤ i) && activeAt x e i).flatMap fun i =>
        ((regBytes 0 t.sew (t.slot i)).filter fun b => x.vpoison.contains (1024 * e.a.toNat + b)).map fun b => 1024 * e.d.toNat + b
    else []
  stay ++ moved.filter fun q => !stay.contains q

end Sys2Proof.Machine
end

