-- ==== Sys2Proof/Machine/VMem.lean ====
section
/-!
DEFINITION. The VMU (chapter 10): element addresses and checks (R229, R230), loads, stores, streams, vector atomics, the linked
pair, waits and copies, and what a fault at an element leaves (R235).  `i` is the place of the instruction among the hand's
dispatched instructions, 0 for the oldest.
-/

namespace Sys2Proof.Machine

/-! ## Entries of a hand -/

/-- The machine with the dispatched instruction at place i replaced. -/
def State.setEntry (s : State) (h i : Nat) (e : Entry) : State :=
  s.setHand h { s.hand h with rq := (s.hand h).rq.set i e }

/-- Elements of a memory instruction. -/
def Entry.count (e : Entry) : Nat :=
  match e.kind with
  | .mld => 64 * e.rep
  | .mst => 64 * e.rep
  | .qset => 1
  | .qget => 1
  | .wfin => 1
  | .wpoll => 1
  | .wred => 1
  | _ => (tileOf e).vn

/-- Bytes of an element. -/
def Entry.size (e : Entry) : Nat :=
  match e.kind with
  | .mld => 4
  | .mst => 4
  | .qset => 32
  | .qget => 32
  | .vwait => 8
  | .wfin => 8
  | .wpoll => 8
  | _ => sewOf e.vtype / 8

/-- What an element does at its bytes (R230). -/
def Entry.accType (e : Entry) : AccType :=
  match e.kind with
  | .store _ _ => .store
  | .mst => .store
  | .qget => .store
  | .wred => .store
  | .gl => .both
  | .sc => .both
  | .amo _ _ _ => .both
  | _ => .load

/-- The alignment that an element check asks for (R230, R237, R303). -/
def Entry.alignment (e : Entry) : Nat :=
  match e.kind with
  | .gl => e.size
  | .sc => e.size
  | .amo _ _ _ => e.size
  | .vwait => 8
  | .qset => 8
  | .wfin => 8
  | .wpoll => 8
  | _ => 1

/-- An element is active: by the mask for forms over the tile. -/
def elemActive (x : Hand) (e : Entry) (i : Nat) : Bool :=
  match e.kind with
  | .mld => true
  | .mst => true
  | .qset => true
  | .qget => true
  | .wfin => true
  | .wpoll => true
  | _ => activeAt x e i

/-! ## Addresses (R229, R239) -/

/-- off(i): the doubleword at byte 8·slot(i) of the index operand. -/
def indexOff (x : Hand) (e : Entry) (i : Nat) : Word :=
  let t := tileOf e
  BitVec.ofNat 64 (slotGet 64 (t.slot i) (groupRead x e.b.toNat (t.grp * 64 / t.sew)))

/-- The addressing of a kind over the tile; none for the others. -/
def shapeOf : VKind → Option VAddr
  | .load a => some a
  | .store a _ => some a
  | .pf => some .unit
  | .gl => some .indexed
  | .sc => some .indexed
  | .amo _ _ _ => some .indexed
  | _ => none

/-- addr(i); an indexed stream's offset is the one read for the element under way. -/
def elemAddr (x : Hand) (e : Entry) (i : Nat) : Word :=
  let t := tileOf e
  let E := nat64 (t.sew / 8)
  match shapeOf e.kind with
  | some .unit => e.sa + nat64 i * E
  | some .strided => e.sa + nat64 i * e.sb
  | some .row => e.sa + nat64 (i / t.vl) * e.sb + nat64 (i % t.vl) * E
  | some .indexed => e.sa + indexOff x e i
  | some .stream => e.oper.1 + (if e.mode = 2 then e.offs.getD 0 else nat64 (e.imm + i) * e.oper.2)
  | none =>
    match e.kind with
    | .vwait => indexOff x e i
    | .mld => e.sb + nat64 (4 * i)
    | .mst => e.sb + nat64 (4 * i)
    | _ => e.sa

/-- The element needs its stream offset first (R239). -/
def needsOffset (e : Entry) : Bool := decide (shapeOf e.kind = some .stream) && decide (e.mode = 2) && e.offs.isNone

/-- The check of element i (R230). -/
def elemCheck (s : State) (h : Nat) (e : Entry) (i : Nat) : Located :=
  let a := elemAddr (s.hand h) e i
  if a.toNat % e.alignment ≠ 0 then .fault 0x05 0 a else locate s h a e.size e.accType true

/-- The data of element i of a store form. -/
def elemData (s : State) (h : Nat) (e : Entry) (i : Nat) : List Byte :=
  let x := s.hand h
  let t := tileOf e
  match e.kind with
  | .mst => leBytes 4 (slotGet 32 (i % 64) (rowOf s h e (i / 64)))
  | .qget => [e.oper.1, e.oper.2, e.fw, e.sb].flatMap fun w => leBytes 8 w.toNat
  | _ => leBytes (t.sew / 8) (elemOf x t e.d.toNat i)

/-! ## What has performed (R233, R273) -/

/-- A memory instruction has performed all that it does. -/
def Entry.performed (e : Entry) : Bool :=
  match e.kind with
  | .sc => decide (e.mode = 1)
  | .vwait => decide (e.mode = 1)
  | .wfin => decide (e.mode = 1)
  | .wpoll => decide (e.mode = 1)
  | .wred => decide (e.mode = 1)
  | .pf => true
  | _ => decide (e.count ≤ e.first)

/-- The elements of a memory instruction that are still to perform. -/
def restElems (x : Hand) (e : Entry) : List Nat :=
  let act := (List.range e.count).filter (elemActive x e)
  match e.kind with
  | .store _ true => act.filter fun k => decide (e.first ≤ k) && !e.acc.contains (nat64 k)
  | .amo _ _ true => act.filter fun k => decide (e.first ≤ k) && !e.acc.contains (nat64 k)
  | .amo _ _ false => act.filter fun k => decide (e.first ≤ k) && (tabFind e.ahead k).isNone
  | .vwait => act.filter fun k => !e.skipped.getLsbD k && !e.acc.contains (nat64 k)
  | .sc => if e.stages = 0 then act else act.filter fun k => e.acc.getD k 0 == 2
  | _ => act.filter fun k => decide (e.first ≤ k)

/-- No operation of scope q waits for an access there: one that names another node is performed at domain scope and wider only, one of
the host window at system scope only (R273).  A hand-scope operation is about the hand's own view, which takes in every access (R282,
log 27). -/
def Loc.beyond (q : Nat) : Loc → Bool
  | .remote _ _ _ => decide (1 ≤ q ∧ q < 3)
  | .host _ => decide (1 ≤ q ∧ q < 4)
  | _ => false

/-- The places of an access are known, and no operation of scope q waits for it. -/
def Located.beyond (q : Nat) : Located → Bool
  | .ok locs => locs.all (Loc.beyond q)
  | _ => false

/-- Element k of an indexed stream still needs its offset, so that its place is not known (R239). -/
def offsetAhead (e : Entry) (k : Nat) : Bool :=
  decide (shapeOf e.kind = some .stream) && decide (e.mode = 2) && (decide (k ≠ e.first) || e.offs.isNone)

/-- An operation of scope q does not wait for the instruction: it has performed, or what is left of it lies beyond q (R273).  Of a `wred`
it is the status word that is left; an element whose place is not known can lie within q. -/
def Entry.behind (s : State) (h q : Nat) (e : Entry) : Bool :=
  if e.kind = .pf then true
  else if e.kind = .copy then
    (List.range e.count).all fun k => !activeAt (s.hand h) e k ||
      ((locate s h (e.sb + nat64 (k * (256 * 4 ^ e.ew))) (256 * 4 ^ e.ew) .load true).beyond q
        && (locate s h (e.sa + nat64 (k * (256 * 4 ^ e.ew))) (256 * 4 ^ e.ew) .store true).beyond q)
  else if e.kind = .wred then e.performed || (locate s h e.sa 8 .store false).beyond q
  else e.performed || (restElems (s.hand h) e).all fun k => (!offsetAhead e k) && (elemCheck s h e k).beyond q

/-- The same of a running copy, whose chunks may be written and not yet acknowledged. -/
def Copy.behind (s : State) (h q : Nat) (c : Copy) : Bool :=
  c.left.all fun p => (c.flight.any fun f => f.1 == p.1 && decide (f.2 = .written)) ||
    ((locate s h (c.src + nat64 (p.1 * c.size)) c.size .load true).beyond q
      && (locate s h (c.dst + nat64 (p.1 * c.size)) c.size .store true).beyond q)

/-- The writes that the hand has sent are replied to by base dies, and, where scope q asks for it, acknowledged by other nodes (R305). -/
def Hand.sentDone (x : Hand) (q : Nat) : Bool :=
  decide (x.dieWrites = [] ∧ x.vdieWrites = []) && (decide (1 ≤ q ∧ q < 3) || decide (x.unacked = [] ∧ x.vunacked = []))

/-- Every access of the hand that is earlier than the core-wide stamp `a`, and than the place `upto` among the dispatched instructions, has
performed at scope q (R273, R278); with `faulted` a copy that has faulted is not waited for. -/
def earlierUpto (s : State) (h q a upto : Nat) (faulted : Bool) : Bool :=
  let x := s.hand h
  x.sentDone q && (x.sb.all fun p => decide (a < p.age) || p.locs.all (Loc.beyond q))
    && ((List.range (min upto x.rq.length)).all fun i => match x.rq[i]? with
      | none => true
      | some e => decide (a ≤ e.age) || !memoryType e
          || (e.behind s h q && (e.performed || (x.rq.take i).all fun f => independent f e)))
    && x.copies.all fun c => decide (a ≤ c.2.age) || c.2.behind s h q || (faulted && c.2.fault.isSome)

/-- Every access of the hand that is earlier than the core-wide stamp `a` has performed at scope q (R273, R278). -/
def earlierDone (s : State) (h q a : Nat) : Bool := earlierUpto s h q a (s.hand h).rq.length false

/-- Every earlier access of the running instruction of hand h has performed at scope q (R278). -/
def performedAt (s : State) (h q : Nat) : Bool := earlierDone s h q ((s.core (coreOf h)).age + 1)

/-- Every earlier dispatched memory instruction and copy of the hand has performed and is acknowledged (R109). -/
def vectorDone (x : Hand) : Bool :=
  x.rq.all (fun e => !memoryType e || (decide (e.kind ≠ .copy) && e.performed)) && decide (x.copies = []) && x.vectorStoresDone

/-- Hand h without the marks of `fence.rel` whose earlier accesses have all performed (R282). -/
def clearMarks (s : State) (h : Nat) : State :=
  let x := s.hand h
  if x.marks = [] then s
  else s.setHand h { x with marks := x.marks.filter fun m => !earlierDone s h m.scope m.age }

/-- A store with the stamp `a` is later than a mark: it waits (R282). -/
def Hand.heldBack (x : Hand) (a : Nat) : Bool := x.marks.any fun m => decide (m.age < a)

/-- An executed scalar store with the stamp `a` waits for a mark.  Before an instruction, or a copy, takes its fault every executed scalar
store performs, though what faults and what is younger does not perform before the hand resumes (R315). -/
def storeHeld (s : State) (h a : Nat) : Bool :=
  let x := s.hand h
  let stop : Option Nat := match x.rq.findIdx? fun e => e.fault.isSome with
    | some i => some i
    | none => if x.copies.any fun c => c.2.fault.isSome then some x.rq.length else none
  x.marks.any fun m => decide (m.age < a) && match stop with
    | some i => !earlierUpto s h m.scope m.age i true
    | none => true

/-! ## Faults and what they leave (R235, R316) -/

/-- Element e.first faults; the fault is taken when every older instruction has retired (R315). -/
def entryFault (s : State) (h i : Nat) (e : Entry) (cause sub : Nat) (addr : Word) : State × Bool :=
  (s.setEntry h i { e with fault := some (cause, sub, addr, e.first), awaiting := none, offs := none, torn := [] }, false)

/-- Element k is held by a migrating page; after 200,000 ticks from its first hold it faults with sub-status 5 (R217). -/
def entryHeld (s : State) (h i : Nat) (e : Entry) (k cause : Nat) (addr : Word) : State × Bool :=
  let now := s.coreTick (coreOf h)
  let since := (tabFind e.heldAt k).getD now
  if now - since ≥ Config.holdTicks then entryFault s h i { e with first := k, heldAt := tabSet e.heldAt k since } cause 5 addr
  else ((s.setHand h ((s.hand h).willWalk cause addr)).setEntry h i { e with heldAt := tabSet e.heldAt k since }, false)

/-- The hold of element k has lasted for 200,000 ticks. -/
def holdOver (s : State) (h : Nat) (e : Entry) (k : Nat) : Bool :=
  match tabFind e.heldAt k with
  | some t => decide (Config.holdTicks ≤ s.coreTick (coreOf h) - t)
  | none => false

/-- One element more has performed, with a value. -/
def Entry.advance (e : Entry) (v : Nat) : Entry :=
  { e with first := e.first + 1, acc := nat64 v :: e.acc, offs := none, heldAt := tabDel e.heldAt e.first, awaiting := none, torn := [] }

/-- The elements from `first` up to k, which the mask leaves out, are passed over. -/
def Entry.skipTo (e : Entry) (k : Nat) : Entry :=
  { e with first := max e.first k, acc := List.replicate (k - e.first) 0 ++ e.acc
           skipped := (List.range (k - e.first)).foldl (fun m j => m ||| (1#8192 <<< (e.first + j))) e.skipped }

/-- The values that the elements performed so far left, from the captured `vstart` on. -/
def Entry.values (e : Entry) : List Nat := e.acc.reverse.map BitVec.toNat

/-- The instruction writes element values to vd. -/
def Entry.loads (e : Entry) : Bool :=
  match e.kind with
  | .load _ => true
  | .gl => true
  | .amo _ ret _ => ret
  | _ => false

/-- Slot p of a load's vd keeps its old value when the elements below `upto` are written by R150 (R235); where all have performed, tail
slots are written too.  An element is active as it was when it performed. -/
def loadKeeps (e : Entry) (upto : Nat) (whole : Bool) (p : Nat) : Bool :=
  let t := tileOf e
  match t.index p with
  | some i => decide (i < e.vstart.toNat ∨ upto ≤ i) || (e.skipped.getLsbD i && !t.mp)
  | none => !(whole && t.tp)

/-- vd of a load with the elements below `upto` written; the bytes written are in error no more (R325). -/
def commitLoad (x : Hand) (e : Entry) (upto : Nat) (whole : Bool) : Hand :=
  let t := tileOf e
  let old := groupRead x e.d.toNat t.grp
  let vals := e.values
  let g := packSlots t.sew ((List.range t.slots).map fun p =>
    if loadKeeps e upto whole p then slotGet t.sew p old
    else match t.index p with
      | some i => if e.skipped.getLsbD i then 0 else vals.getD (i - e.vstart.toNat) 0
      | none => 0)
  let y := groupWrite x e.d.toNat t.grp g
  if x.vpoison = [] then y
  else { y with vpoison := x.vpoison.filter fun q =>
    !(regsOf e.d t.grp).contains (q / 1024) || loadKeeps e upto whole ((q - 1024 * e.d.toNat) * 8 / t.sew) }

/-- The oldest dispatched instruction leaves what its elements have performed, and starts again at its first unperformed one (R235).  A
younger one keeps its values in its replay entry, for it leaves no register effect (R315, R316). -/
def commitHead (x : Hand) : Hand :=
  match x.rq with
  | e :: es =>
    if e.loads && decide (e.vstart.toNat < e.first) then
      { commitLoad x e e.first false with rq := { e with vstart := nat64 e.first, acc := [], skipped := 0 } :: es }
    else x
  | [] => x

/-- The fault of an instruction can be taken: nothing of it is under way elsewhere, and every element of an ordered atomic below the
failing one has performed (R241, R324). -/
def Entry.faultReady (e : Entry) : Bool :=
  e.awaiting.isNone && match e.fault, e.kind with
    | some (_, _, _, k), .amo _ _ false => decide (k ≤ e.first)
    | _, _ => true

/-- Where the oldest instruction resumes when its replays give out: a pass at its stage and a named form or a TILE form other than `mma` at
0, any other at its first element not performed (R185, R191, R235, R266). -/
def Entry.replayAt (x : Hand) (e : Entry) : Nat :=
  if e.unordered then (restElems x e).headD e.count
  else if e.kind ∈ [.pass, .rowred, .sortkv, .topk, .rank, .mlatch, .mzero, .mrd, .mwr] then 0
  else match e.kind with
    | .red _ => 0
    | .scan _ => 0
    | .permute _ => 0
    | .sort _ => 0
    | .merge _ => 0
    | _ => e.first

/-- The oldest instruction takes its fault: the hand parks (R235, R315).  Replays that give out leave it at its first unperformed element,
with what was under way counted (R324). -/
def takeFault (s : State) (h : Nat) : State :=
  match (s.hand h).rq with
  | e :: _ =>
    match e.fault with
    | some (cause, sub, addr, k) =>
      if !e.faultReady then s
      else
        let at_ := if cause = 0x0B ∧ sub = 3 then e.replayAt (s.hand h) else k
        impreciseFault (s.setHand h (commitHead (s.hand h))) h cause sub addr at_
    | none => s
  | [] => s

/-! ## Values that have been read -/

/-- A word of a stream descriptor (Table 10.4). -/
def qword (q : BitVec 256) (n : Nat) : Word := (q >>> (64 * n)).setWidth 64

/-- A descriptor is legal (R237). -/
def streamLegal (q : BitVec 256) : Bool :=
  let kind := fld (qword q 2) 33 32
  decide (fld (qword q 0) 63 48 = 0) && decide (fld (qword q 2) 63 36 = 0) && decide (fld (qword q 3) 63 32 = 0)
    && decide (kind ≠ 3) && (decide (kind ≠ 2) || decide (fld (qword q 1) 63 48 = 0))
    && decide (fld (qword q 3) 31 0 ≤ fld (qword q 2) 31 0)

/-- A status word that ends a `wfin`: final or lost (R303). -/
def wfinEnds (w : Word) : Bool := w.getLsbD 1 || w.getLsbD 2

/-- T scalar cycles have passed since the first read of a `vwait` or `wfin` (R250, R303). -/
def waitOver (s : State) (h : Nat) (e : Entry) (T : Word) : Bool :=
  match e.since with
  | some t => decide (T ≠ 0) && decide (T.toNat ≤ ((s.core (coreOf h)).cyc - t).toNat)
  | none => false

/-- A `vgl` has reserved nothing yet: no active element stands before the one under way (R244). -/
def glBegins (x : Hand) (e : Entry) : Bool := (List.range e.first).all fun k => decide (k < e.vstart.toNat) || !elemActive x e k

/-- An agent reserves the granule of an element's bytes: one past the 64th is not reserved (R244). -/
def reserveAt (s : State) (agent : Nat) (locs : List Loc) : State :=
  let g := granuleOf 8 (locs.headD (.spad 0 0))
  let mine := s.resv.filter fun r => r.1 == agent
  if mine.contains (agent, g) ∨ mine.length ≥ 64 then s else { s with resv := s.resv ++ [(agent, g)] }

/-- Before its first element a `vgl` drops every reservation of the hand (R244). -/
def beginGl (s : State) (h : Nat) (e : Entry) : State :=
  if e.kind = .gl ∧ glBegins (s.hand h) e ∧ s.resv ≠ [] then s.dropResv h else s

/-- An accumulator row with one word written: the row has no uncorrectable error once its last word is written (R264, R325). -/
def putRowWord (s : State) (h : Nat) (e : Entry) (v : Nat) : State :=
  let j := e.first / 64
  let c := e.first % 64
  let old := rowOf s h e j
  let t := setRow s h e j (old - slotGet 32 c old * 2 ^ (32 * c) + v * 2 ^ (32 * c))
  let k := t.core (coreOf h)
  if k.apoison ≠ [] ∧ c = 63 ∧ e.vstart.toNat ≤ 64 * j then
    t.setCore (coreOf h) { k with apoison := k.apoison.filter (· != e.accb + e.windowRow j) }
  else t

/-- The bytes of the element under way have been read: what the instruction does with them.  A granule past the caches has been reserved
where it was read (R244). -/
def gotBytes (s : State) (h i : Nat) (e : Entry) (locs : List Loc) (bytes : List Byte) : State × Bool :=
  let v := leValue bytes
  if needsOffset e then (s.setEntry h i { e with offs := some (nat64 v), awaiting := none, torn := [] }, true)
  else match e.kind with
    | .gl => ((if (dieOf (.vmu h) locs).isSome then s else reserveAt s h locs).setEntry h i (e.advance v), true)
    | .vwait =>
      let met := decide (v = elemOf (s.hand h) (tileOf e) e.d.toNat e.first)
      let e1 := { e with first := e.first + 1, awaiting := none, heldAt := tabDel e.heldAt e.first
                         since := some (e.since.getD (s.core (coreOf h)).cyc) }
      (s.setEntry h i (if met then { e1 with acc := nat64 e.first :: e.acc } else e1), true)
    | .qset =>
      let q := BitVec.ofNat 256 v
      if streamLegal q then
        let x := s.hand h
        let y := { x with q := x.q.setIfInBounds e.b.toNat q }
        ((s.setHand h y).setEntry h i (e.advance 0), true)
      else entryFault s h i e 0x11 4 0
    | .mld => ((putRowWord s h e v).setEntry h i (e.advance 0), true)
    | .wfin =>
      let w := nat64 v
      let e1 := { e with since := some (e.since.getD (s.core (coreOf h)).cyc), awaiting := none, heldAt := tabDel e.heldAt e.first }
      let s1 := if w.getLsbD 0 ∨ w.getLsbD 1 then dropDcache s h else s
      if wfinEnds w ∨ waitOver s h e1 e.sb then (s1.setEntry h i { e1 with acc := [w], mode := 1 }, true)
      else (s1.setEntry h i e1, false)
    | .wpoll =>
      let w := nat64 v
      let s1 := if w.getLsbD 0 ∨ w.getLsbD 1 then dropDcache s h else s
      (s1.setEntry h i { e with acc := [w], mode := 1, awaiting := none, heldAt := tabDel e.heldAt e.first }, true)
    | _ => (s.setEntry h i (e.advance v), true)

/-- The bytes of several elements have been read by one request: each in turn. -/
def gotElems (h i : Nat) : List Nat → State → List Loc → List Byte → State × Bool
  | [], s, _, _ => (s, true)
  | k :: ks, s, locs, bytes =>
    match (s.hand h).rq[i]? with
    | none => (s, false)
    | some e =>
      let r := gotBytes s h i (e.skipTo k) (locs.take e.size) (bytes.take e.size)
      gotElems h i ks r.1 (locs.drop e.size) (bytes.drop e.size)

/-- The outcome of the reads of the element under way, or of the elements that one request serves. -/
def readOutcome (h i : Nat) (e : Entry) (elems : List Nat) (locs : List Loc) (addr : Word) (r : State × Gather) : State × Bool :=
  match r.2 with
  | .done bytes => if elems = [] then gotBytes r.1 h i e locs bytes else gotElems h i elems (r.1.setEntry h i e) locs bytes
  | .wait a => (r.1.setEntry h i { e with awaiting := some { a with elems := elems } }, false)
  | .poison => entryFault r.1 h i e 0x0B 1 0
  | .remote sub before =>
    entryFault (r.1.setHand h { r.1.hand h with rerr := (r.1.hand h).rerr + 1 }) h i e 0x0C sub (addr + nat64 before)
  | .violation c off => (violate r.1 (r.1.hand h).part c (.engine h) (nat64 (Config.regBase + off)), false)

/-- The transfers of an access of the hand's VMU are paid for before it performs; where a port has no token it waits (R224). -/
def whenPaid (s : State) (h : Nat) (locs : List Loc) (f : State → State × Bool) : State × Bool :=
  let p := payFor s (.vmu h) locs
  if p.2 then f p.1 else (p.1, false)

/-- Reads `n` bytes at an address for the element under way. -/
def readAt (s : State) (h i : Nat) (e : Entry) (addr : Word) (n cause : Nat) (w : Located) (op : MemOp) : State × Bool :=
  match w with
  | .fault c sub ad => entryFault s h i e c sub ad
  | .hold ad => entryHeld s h i e e.first cause ad
  | .ok locs =>
    whenPaid s h locs fun t =>
      readOutcome h i e [] locs addr (gather (.handEntry h) (.vmu h) op readLoc addr (n + 1) (noteTlb t h addr n e.accType) locs [])

/-! ## Pages ahead, pieces of an element, elements of one request -/

/-- The next four pages of a stream after the element under way: of its elements where it is affine, of its offsets where it is
indexed (R219). -/
def pagesAhead (e : Entry) : List Nat :=
  let from_ (a step : Int) : List Nat :=
    let d : Int := if step = 0 then 0 else if step.natAbs < 4096 then (if step < 0 then -4096 else 4096) else step
    if d = 0 then [] else (List.range 4).map fun (k : Nat) => wrapNat 64 (a + d * ((k : Int) + 1))
  if shapeOf e.kind ≠ some .stream then []
  else if e.mode = 2 then from_ (e.oper.2 + nat64 (8 * (e.imm + e.first))).toNat 8
  else from_ (e.oper.1 + nat64 (e.imm + e.first) * e.oper.2).toNat e.oper.2.toInt

/-- The stream engine translates ahead: up to the next four pages, how many is free (R219, log 21). -/
def runAhead (s : State) (h : Nat) (e : Entry) : State :=
  match pagesAhead e with
  | [] => s
  | ps => (ps.take (s.freeAt 0 5)).foldl (fun t va => if inWindow va then t else fillHtlb t h va e.accType) s

/-- A free part, not empty, of what is left: each is a byte event of its own (R276, log 21); in lockstep all of it (log 2). -/
def freePart (s : State) (xs : List Nat) : List Nat :=
  if s.lockstep then xs
  else match xs.filter fun i => s.freeAt i 2 == 1 with
    | [] => xs.take 1
    | ys => ys

/-- Memory of this device that needs no request. -/
def plainMem : Loc → Bool
  | .spad _ _ => true
  | .dram _ nc => !nc
  | _ => false

/-- A misaligned access of this device's memory is a set of independent byte events (R276). -/
def isTorn (s : State) (addr : Word) (n : Nat) (locs : List Loc) : Bool :=
  !s.lockstep && decide (n ≤ 8 ∧ addr.toNat % n ≠ 0) && locs.all plainMem

/-- The location of byte k of an access. -/
def locAt (locs : List Loc) (k : Nat) : Loc := locs.getD k (.spad 0 0)

/-- The bytes of an access that are still to be read or written. -/
def tornLeft (e : Entry) (locs : List Loc) : List Nat := (List.range locs.length).filter fun k => (tabFind e.torn k).isNone

/-- Some bytes of a misaligned element are read. -/
def tornLoad (s : State) (h i : Nat) (e : Entry) (locs : List Loc) : State × Bool :=
  let now := freePart s (tornLeft e locs)
  if now.any fun k => poisonedLoc s (locAt locs k) then entryFault s h i e 0x0B 1 0
  else
    let t := (freshen s (.vmu h) (now.map (locAt locs))).used
    let got := now.foldl (fun m k => tabSet m k (readLoc s (locAt locs k))) e.torn
    if got.length = locs.length then gotBytes t h i e locs (got.map Prod.snd) else (t.setEntry h i { e with torn := got }, false)

/-- The read of a stream offset X[p + i]: its fault is a load page fault whatever the form (R239). -/
def readOffset (s : State) (h i : Nat) (e : Entry) : State × Bool :=
  let addr := e.oper.2 + nat64 (8 * (e.imm + e.first))
  match locate s h addr 8 .load true with
  | .fault c sub ad => entryFault s h i e c sub ad
  | .hold ad => entryHeld s h i e e.first 0x06 ad
  | .ok locs =>
    if e.torn ≠ [] then tornLoad s h i e locs
    else whenPaid s h locs fun p =>
      let t := noteTlb p h addr 8 .load
      if isTorn t addr 8 locs then tornLoad t h i e locs
      else readOutcome h i e [] locs addr (gather (.handEntry h) (.vmu h) (readOp addr.toNat 8) readLoc addr 9 t locs [])

/-- Some bytes of a misaligned element are written. -/
def tornStore (s : State) (h i : Nat) (e : Entry) (locs : List Loc) (bytes : List Byte) : State × Bool :=
  let now := freePart s (tornLeft e locs)
  let t := (performWrite s (.vmu h) (now.map (locAt locs)) (now.map fun k => bytes.getD k 0)).used
  let put := now.foldl (fun m k => tabSet m k (bytes.getD k 0)) e.torn
  if put.length = locs.length then (t.setEntry h i (e.advance 0), true) else (t.setEntry h i { e with torn := put }, false)

/-- An access past the caches or of host memory goes by granules (R211, R212). -/
def byGranule : Loc → Bool
  | .dram _ nc => nc
  | .host _ => true
  | _ => false

/-- Element k cannot be computed: a register byte that it needs, or the accumulator row that it stores, carries an uncorrectable error
(R264, R325). -/
def vmemFoul (s : State) (h : Nat) (e : Entry) (k : Nat) : Bool :=
  match e.kind with
  | .mst => (s.core (coreOf h)).apoison.contains (e.accb + e.windowRow (k / 64))
  | .mld => false
  | .qset => false
  | .qget => false
  | _ => elemFoul (s.hand h) e k

/-- Element k is misaligned: its bytes are events of their own (R276). -/
def oddElem (x : Hand) (e : Entry) (k : Nat) : Bool := decide ((elemAddr x e k).toNat % e.size ≠ 0)

/-- The active elements among those listed that lie in one granule with a location, up to the first that does not: one request serves
them (R211, R212).  One that comes back to the granule later is a request of its own, since elements perform in ascending order (R231,
R232). -/
def batchFrom (s : State) (h : Nat) (e : Entry) (l : Loc) : List Nat → List (Nat × List Loc)
  | [] => []
  | k :: ks =>
    if !elemActive (s.hand h) e k then batchFrom s h e l ks
    else match elemCheck s h e k with
      | .ok locs =>
        if locs.all (sameRun l) && !vmemFoul s h e k && oddElem (s.hand h) e k == oddElem (s.hand h) e e.first then
          (k, locs) :: batchFrom s h e l ks
        else []
      | _ => []

/-- The elements that go with the one under way; the place of a later element of an indexed stream is not known yet (R239). -/
def batchOf (s : State) (h : Nat) (e : Entry) (locs : List Loc) : List (Nat × List Loc) :=
  match locs.head? with
  | some l =>
    if byGranule l && locs.all (sameRun l) && decide (shapeOf e.kind ≠ some .stream ∨ e.mode ≠ 2) then
      (e.first, locs) :: batchFrom s h e l ((List.range e.count).drop (e.first + 1))
    else [(e.first, locs)]
  | none => [(e.first, locs)]

/-! ## Plain elements (R231, R232) -/

/-- The element under way of a load form. -/
def loadElem (s : State) (h i : Nat) (e : Entry) : State × Bool :=
  if vmemFoul s h e e.first then entryFault s h i e 0x0B 2 0
  else if !elemActive (s.hand h) e e.first then (s.setEntry h i (e.skipTo (e.first + 1)), true)
  else if needsOffset e then readOffset s h i e
  else
    let room := decide ((s.resv.filter fun r => r.1 == h).length < 64) || glBegins (s.hand h) e
    let addr := elemAddr (s.hand h) e e.first
    let op : MemOp := if e.kind = .gl ∧ room then .reserve else readOp addr.toNat e.size
    match elemCheck s h e e.first with
    | .fault c sub ad => entryFault s h i e c sub ad
    | .hold ad => entryHeld s h i e e.first e.accType.cause ad
    | .ok locs =>
      if e.torn ≠ [] then tornLoad s h i e locs
      else whenPaid (beginGl s h e) h locs fun p =>
        let t := runAhead (noteTlb p h addr e.size e.accType) h e
        if isTorn t addr e.size locs then tornLoad t h i e locs
        else
          let b := batchOf t h e locs
          let all := b.flatMap Prod.snd
          readOutcome h i e (if b.length ≤ 1 then [] else b.map Prod.fst) all addr
            (gather (.handEntry h) (.vmu h) op readLoc addr (all.length + 1) t all [])

/-- The element under way of an ordered store form, with those of its granule. -/
def storeElem (s : State) (h i : Nat) (e : Entry) : State × Bool :=
  if vmemFoul s h e e.first then entryFault s h i e 0x0B 2 0
  else if !elemActive (s.hand h) e e.first then (s.setEntry h i (e.skipTo (e.first + 1)), true)
  else if needsOffset e then readOffset s h i e
  else
    let addr := elemAddr (s.hand h) e e.first
    match elemCheck s h e e.first with
    | .fault c sub ad => entryFault s h i e c sub ad
    | .hold ad => entryHeld s h i e e.first e.accType.cause ad
    | .ok locs =>
      let data := elemData s h e e.first
      if e.torn ≠ [] then tornStore s h i e locs data
      else whenPaid s h locs fun p =>
        let t := runAhead (noteTlb p h addr e.size e.accType) h e
        if isTorn t addr e.size locs then tornStore t h i e locs data
        else
          let b := batchOf t h e locs
          let u := storeAt t (.vmu h) addr.toNat e.size (b.flatMap Prod.snd) (b.flatMap fun q => elemData s h e q.1)
          let last := (b.getLastD (e.first, [])).1
          (u.setEntry h i ((e.skipTo last).advance 0), decide ((u.hand h).st ≠ .frozen))

/-! ## Read-modify-writes (R240 to R243) -/

/-- Why an element of an atomic or of `vsc` cannot perform: its check, a register or memory byte in error, or a member that is dead. -/
def rmwCheck (s : State) (h : Nat) (e : Entry) (k : Nat) : Located :=
  if elemFoul (s.hand h) e k then .fault 0x0B 2 0
  else match elemCheck s h e k with
    | .ok locs =>
      match locs.head? with
      | some (.remote node _ _) =>
        if decide (e.kind ≠ .sc) && nodeDead s (s.hand h).part node then .fault 0x0C 2 (elemAddr (s.hand h) e k) else .ok locs
      | some (.host _) => .ok locs
      | _ => if decide (e.kind ≠ .sc) && locs.any (poisonedLoc s) then .fault 0x0B 1 0 else .ok locs
    | l => l

/-- What becomes of a group of elements at one place: done with the old values, sent with the elements that it serves, or stopped by a
violation. -/
inductive AmoDone where
  | old (s : State) (vs : List Nat)
  | sent (s : State) (a : Awaited)
  | stopped (s : State)

/-- Elements that one event, or one request, serves: those of this device's memory, of one other node, or of one granule past the
caches; one of host memory goes alone (R212, R241). -/
def sameEvent : Loc → Loc → Bool
  | .remote n _ a, .remote m _ b => n == m && a == b
  | .dram a true, .dram b true => a / 64 == b / 64
  | .host _, _ => false
  | a, b => plainMem a && plainMem b

/-- The read-modify-writes of elements at one place, in order (R241). -/
def amoGroup (s : State) (h : Nat) (e : Entry) (o : AmoOp) (els : List (Nat × List Loc)) : AmoDone :=
  let x := s.hand h
  let n := e.size
  let y (k : Nat) : Nat := elemOf x (tileOf e) e.d.toNat k
  let all := els.flatMap Prod.snd
  let addr := elemAddr x e (els.headD (0, [])).1
  let s1 := els.foldl (fun t q => noteTlb t h (elemAddr x e q.1) n .both) s
  let vals := els.flatMap fun q => leBytes n (y q.1)
  let sent (r : State × Nat) : AmoDone := .sent r.1 { tag := r.2, locs := all, got := [], elems := els.map Prod.fst }
  match all.head? with
  | some (.remote node _ _) => sent (sendRemote s1 (.handEntry h) x.part node (.amo o) all vals [] addr n)
  | some (.host _) => sent (sendHost s1 (.handEntry h) x.part addr fun g => .cas g x.part (locPas all) o (nat64 (leValue vals)) 0 0)
  | _ =>
    match dieOf (.vmu h) all with
    | some c => sent (sendDie s1 (.handEntry h) x.part c (.amo o) all vals [] addr n)
    | none =>
      match regBad s (.vmu h) all with
      | some (c, off) => .stopped (violate s1 x.part c (.engine h) (nat64 (Config.regBase + off)))
      | none =>
        let r := els.foldl (fun (q : State × List Nat) p =>
          let r := amoLocal q.1 (.vmu h) o n p.2 (y p.1) 0
          (r.1, q.2 ++ [r.2])) (s1, [])
        .old r.1 r.2

/-- The next piece among elements in order: they touch at most 64 distinct lines, and an element that cannot perform ends it (R241). -/
def pieceOf (s : State) (h : Nat) (e : Entry) (lines : List Loc) : List Nat → List (Nat × List Loc) × Option (Nat × Located)
  | [] => ([], none)
  | k :: ks =>
    match rmwCheck s h e k with
    | .ok locs =>
      let l := granuleOf 64 (locs.headD (.spad 0 0))
      let ls := if lines.contains l then lines else l :: lines
      if ls.length > 64 then ([], none)
      else
        let r := pieceOf s h e ls ks
        ((k, locs) :: r.1, r.2)
    | w => ([], some (k, w))

/-- The elements of an atomic that have performed, or that the mask leaves out, are passed over up to the first that has not. -/
def Entry.catchUp (x : Hand) : Nat → Entry → Entry
  | 0, e => e
  | n + 1, e =>
    if e.count ≤ e.first then e
    else match tabFind e.ahead e.first with
      | some v => Entry.catchUp x n { e.advance v.toNat with ahead := tabDel e.ahead e.first }
      | none => if elemActive x e e.first then e else Entry.catchUp x n (e.skipTo (e.first + 1))

/-- Elements of an atomic have performed with their old values. -/
def Entry.took (x : Hand) (e : Entry) (ks vs : List Nat) : Entry :=
  Entry.catchUp x (e.count + 1) { e with awaiting := none, ahead := (ks.zip vs).foldl (fun t p => tabSet t p.1 (nat64 p.2)) e.ahead }

/-- An element of an atomic that is performed elsewhere, or at a base die, where it can still fail. -/
def amoFar (h : Nat) (locs : List Loc) : Bool := locs.any (fun l => !isLocal l) || (dieOf (.vmu h) locs).isSome

/-- The elements of a piece at one place: one event of the piece.  Those that can still fail come before those of this device's memory, so
that none of these is above one that fails (R241). -/
def amoEvent (s : State) (h i : Nat) (e : Entry) (o : AmoOp) (els : List (Nat × List Loc)) : State × Bool :=
  let start := match els.findIdx? fun q => amoFar h q.2 with
    | some n => els.drop n
    | none => els
  let l := ((start.headD (0, [])).2).headD (.spad 0 0)
  let group := start.take 1 ++ (start.drop 1).filter fun q => sameEvent l (q.2.headD (.spad 0 0))
  whenPaid s h (group.flatMap Prod.snd) fun p =>
    match amoGroup p h e o group with
    | .old t vs => (t.setEntry h i (e.took (s.hand h) (group.map Prod.fst) vs), true)
    | .sent t a => (t.setEntry h i { e with awaiting := some a }, false)
    | .stopped t => (t, false)

/-- An ordered vector atomic goes on: the piece under way, which ends before element `stages`, or the next one.  An element that cannot
perform ends its piece, and faults once those below it have performed (R241); one that has failed elsewhere ends it too. -/
def amoPiece (s : State) (h i : Nat) (e0 : Entry) (o : AmoOp) : State × Bool :=
  let x := s.hand h
  let e := Entry.catchUp x (e0.count + 1) e0
  let todo := match e.fault with
    | some (_, _, _, k) => (restElems x e).filter fun j => decide (j < k)
    | none => restElems x e
  let piece := if e.first < e.stages then todo.filter fun k => decide (k < e.stages) else todo
  let r := pieceOf s h e [] piece
  match todo with
  | [] => match e.fault with
    | some (_, _, _, k) => (s.setEntry h i (e.skipTo k), true)
    | none => (s.setEntry h i (e.skipTo e.count), true)
  | _ =>
    match r.1, r.2 with
    | [], some (k, .fault c sub ad) =>
      let f := { e with first := k }
      entryFault (if c = 0x0C then s.setHand h { x with rerr := x.rerr + 1 } else s) h i f c sub ad
    | [], some (k, .hold ad) => entryHeld s h i e k e.accType.cause ad
    | [], _ => (s, false)
    | els, some (k, .hold ad) =>
      if holdOver s h e k then amoEvent s h i { e with stages := (els.getLastD (0, [])).1 + 1 } o els
      else entryHeld s h i e k e.accType.cause ad
    | els, _ => amoEvent s h i { e with stages := (els.getLastD (0, [])).1 + 1 } o els

/-! ## Unordered elements (R232, R234, R242) -/

/-- Two elements share a byte. -/
def sharesByte (x : Hand) (e : Entry) (i j : Nat) : Bool :=
  let a := elemAddr x e i
  let b := elemAddr x e j
  decide ((a - b).toNat < e.size) || decide ((b - a).toNat < e.size)

/-- The lowest active element whose bytes overlap a lower active one's, under determinism (R234). -/
def detClash (x : Hand) (e : Entry) (act : List Nat) : Option Nat :=
  act.find? fun i => act.any fun j => decide (j < i) && sharesByte x e i j

/-- Element k has performed. -/
def Entry.noted (e : Entry) (k : Nat) : Entry := { e with acc := nat64 k :: e.acc, heldAt := tabDel e.heldAt k }

/-- Why an element of an unordered form cannot perform. -/
def unLook (s : State) (h : Nat) (e : Entry) (amo : Bool) (k : Nat) : Located :=
  if amo then rmwCheck s h e k else if elemFoul (s.hand h) e k then .fault 0x0B 2 0 else elemCheck s h e k

/-- The place of an element that can still fail once it has been asked for: of an atomic past the caches, on another node or of the
host. -/
def unFar (s : State) (h : Nat) (e : Entry) (amo : Bool) (k : Nat) : Option Loc :=
  match unLook s h e amo k with
  | .ok (l :: _) => if amo && (!isLocal l || (dieOf (.vmu h) [l]).isSome) then some l else none
  | _ => none

/-- The elements that go with element k of an unordered form in one request for its granule (R211, R212): of a store every one of `todo`
that lies in it; of an atomic those up to the first that can fail at another place, since no element above a failing one performs
(R235).  Host memory takes one read-modify-write at a time. -/
def unMates (s : State) (h : Nat) (e : Entry) (amo : Bool) (todo : List Nat) (k : Nat) (locs : List Loc) : List (Nat × List Loc) :=
  let l := locs.headD (.spad 0 0)
  let host : Bool := match l with
    | .host _ => true
    | _ => false
  let inIt (j : Nat) : Option (List Loc) := match unLook s h e amo j with
    | .ok ls => if ls.all (sameRun l) then some ls else none
    | _ => none
  if !byGranule l || !locs.all (sameRun l) || (amo && host) then [(k, locs)]
  else
    let near := if amo then todo.takeWhile fun j => (unFar s h e amo j).isNone || (inIt j).isSome else todo
    near.filterMap fun j => (inIt j).map fun ls => (j, ls)

/-- The next element of an unordered form: a free value picks it among the unperformed ones below the lowest that fails or is held, for
none at or above that one performs (R235, log 13).  The elements performed are in `acc`.  An atomic past the caches, on another node or
in host memory, which can still fail, goes once all below it have performed, and none above it goes before it. -/
def unorderedElem (s : State) (h i : Nat) (e : Entry) (amo : Bool) : State × Bool :=
  let x := s.hand h
  let todo := restElems x e
  let clash := if amo ∨ !e.det then none else detClash x e ((List.range e.count).filter (elemActive x e))
  let stops (k : Nat) : Bool := decide (clash = some k) || match unLook s h e amo k with
    | .ok _ => false
    | _ => true
  let free := todo.takeWhile fun k => !stops k
  match free with
  | [] =>
    match todo with
    | [] => (s.setEntry h i { e with first := e.count }, true)
    | f :: _ =>
      let e1 := { e with first := f }
      if clash = some f then entryFault s h i e1 0x0D 0 0
      else match unLook s h e amo f with
        | .fault c sub ad => entryFault (if c = 0x0C then s.setHand h { x with rerr := x.rerr + 1 } else s) h i e1 c sub ad
        | .hold ad => entryHeld s h i e1 f e.accType.cause ad
        | .ok _ => (s, false)
  | f0 :: _ =>
    let near := free.takeWhile fun k => (unFar s h e amo k).isNone
    let k := if near = [] then f0 else near.getD (s.free near.length) f0
    match unLook s h e amo k with
    | .ok locs =>
      let group := unMates s h e amo free k locs
      whenPaid s h (group.flatMap Prod.snd) fun p =>
        if amo then
          match amoGroup p h e .add group with
          | .old t _ => (t.used.setEntry h i (group.foldl (fun f q => f.noted q.1) e), true)
          | .sent t a => (t.used.setEntry h i { e with first := k, awaiting := some a }, false)
          | .stopped t => (t, false)
        else
          let t := group.foldl (fun t q => noteTlb t h (elemAddr x e q.1) e.size .store) p
          let u := store t (.vmu h) (elemAddr x e k) (group.flatMap Prod.snd) (group.flatMap fun q => elemData s h e q.1)
          (u.used.setEntry h i (group.foldl (fun f q => f.noted q.1) e), decide ((u.hand h).st ≠ .frozen))
    | _ => (s, false)

/-! ## `vsc` (R246) -/

/-- The outcome of the checks of every active element of `vsc`. -/
def scCheck (s : State) (h : Nat) (e : Entry) : List Nat → Except (Nat × Located) (List (Nat × List Loc))
  | [] => .ok []
  | k :: ks =>
    match rmwCheck s h e k with
    | .ok locs =>
      match scCheck s h e ks with
      | .ok r => .ok ((k, locs) :: r)
      | .error r => .error r
    | l => .error (k, l)

/-- The granule of an element's bytes. -/
def granuleOfLocs (locs : List Loc) : Loc := granuleOf 8 (locs.headD (.spad 0 0))

/-- An element of `vsc` that its home decides: of another node. -/
def scFar (locs : List Loc) : Bool :=
  locs.any fun l => match l with
    | .remote _ _ _ => true
    | _ => false

/-- The elements of `vsc` that win are written, in the one event of R246: those past the caches too, at their base dies. -/
def scWrite (s : State) (h : Nat) (e : Entry) (q : Nat × List Loc) : State :=
  if (dieOf (.vmu h) q.2).isSome then performWrite s (.vmu h) q.2 (elemData s h e q.1)
  else store s (.vmu h) (elemAddr (s.hand h) e q.1) q.2 (elemData s h e q.1)

/-- `vsc` begins: it checks every element, and in one event settles and writes every element of this device; elements of other nodes are
marked 2 and asked of their home (R246). -/
def scBegin (s : State) (h i : Nat) (e : Entry) : State × Bool :=
  let x := s.hand h
  let act := (List.range e.count).filter (activeAt x e)
  match scCheck s h e act with
  | .error (k, .fault c sub ad) => entryFault (s.dropResv h) h i { e with first := k } c sub ad
  | .error (k, .hold ad) =>
    if holdOver s h e k then entryFault (s.dropResv h) h i { e with first := k } 0x07 5 ad else entryHeld s h i e k 0x07 ad
  | .error (_, .ok _) => (s, false)
  | .ok els =>
    let isLast (k : Nat) (locs : List Loc) : Bool :=
      !els.any fun q => decide (k < q.1) && decide (granuleOfLocs q.2 = granuleOfLocs locs)
    let wins (q : Nat × List Loc) : Bool := s.resv.contains (h, granuleOfLocs q.2) && isLast q.1 q.2
    let won := els.filter wins
    let here := won.filter fun q => !scFar q.2
    let mark := (List.range e.count).map fun k =>
      if won.any (fun q => q.1 == k && scFar q.2) then 2#64 else if won.any (fun q => q.1 == k) then 1 else 0
    whenPaid s h (here.flatMap Prod.snd) fun p =>
      let t := here.foldl (fun t q => scWrite t h e q) p
      (t.setEntry h i { e with first := 0, acc := mark, stages := 1, heldAt := [] }, decide ((t.hand h).st ≠ .frozen))

/-- `vsc` goes on: the elements of the next place that must decide, or the end. -/
def scStep (s : State) (h i : Nat) (e : Entry) : State × Bool :=
  if e.stages = 0 then scBegin s h i e
  else
    let x := s.hand h
    let todo := (List.range e.count).filter fun k => e.acc.getD k 0 == 2
    let els := todo.filterMap fun k => match elemCheck s h e k with
      | .ok locs => some (k, locs)
      | _ => none
    match todo, els with
    | [], _ => (s.setEntry h i { e with mode := 1 }, true)
    | _, [] => (s.setEntry h i { e with acc := e.acc.map fun w => if w = 2 then 0 else w }, true)
    | _, q :: _ =>
      let l := q.2.headD (.spad 0 0)
      let group := els.filter fun p => sameEvent l (p.2.headD (.spad 0 0))
      let ks := group.map Prod.fst
      let all := group.flatMap Prod.snd
      let data := ks.flatMap fun k => elemData s h e k
      let lost (t : State) : State × Bool := (t.setEntry h i { e with acc := ks.foldl (fun a k => a.set k 0) e.acc }, true)
      let sent (r : State × Nat) : State × Bool :=
        (r.1.setEntry h i { e with awaiting := some { tag := r.2, locs := all, got := [], elems := ks } }, false)
      match l with
      | .remote node _ _ =>
        if nodeDead s x.part node then lost (storeLost s (.vmu h))
        else sent (sendRemote s (.handEntry h) x.part node .condWrite all data [] (elemAddr x e q.1) e.size)
      | _ => lost s

/-- The home of some elements of `vsc` has decided: one byte answers each of their bytes, 1 where the element was written. -/
def scAnswer (s : State) (h i : Nat) (e : Entry) (elems : List Nat) (bytes : List Byte) : State :=
  let bit (j : Nat) : Word := if bytes.getD (j * e.size) 0 = 1 then 1 else 0
  let acc := (elems.zip (List.range elems.length)).foldl (fun a p => a.set p.1 (bit p.2)) e.acc
  s.setEntry h i { e with acc := acc, awaiting := none }

/-! ## `vwait` (R250) -/

/-- The element under way of a `vwait`; at the end of a round it is over, or it waits for the next re-read. -/
def vwaitStep (s : State) (h i : Nat) (e : Entry) : State × Bool :=
  let x := s.hand h
  if e.first < e.count then
    if elemFoul x e e.first then entryFault s h i e 0x0B 2 0
    else if e.acc.contains (nat64 e.first) || e.skipped.getLsbD e.first then (s.setEntry h i { e with first := e.first + 1 }, true)
    else if !activeAt x e e.first then
      (s.setEntry h i { e with first := e.first + 1, skipped := e.skipped ||| (1#8192 <<< e.first) }, true)
    else readAt s h i e (elemAddr x e e.first) 8 0x06 (elemCheck s h e e.first) .read
  else
    let left := ((List.range e.count).filter fun k => !e.skipped.getLsbD k && !e.acc.contains (nat64 k))
    let ended := left = [] ∨ waitOver s h e e.sa
    let s1 := if ended ∧ e.ew ≥ 2 then dropDcache s h else s
    if ended then (s1.setEntry h i { e with mode := 1 }, true) else (s.setEntry h i { e with first := 0 }, false)

/-- The result mask of a `vwait`: the active elements not met.  An element is active as it was when it was first looked at, for the mask can
be a register of chunk bits (R248). -/
def vwaitMask (e : Entry) : VReg :=
  let t := tileOf e
  BitVec.ofNat 8192 (packSlots 1 ((List.range 8192).map fun p => match t.index p with
    | some k => (decide (p < t.slots) && !e.skipped.getLsbD k && !e.acc.contains (nat64 k)).toNat
    | none => 0))

/-! ## `wred` (R303) -/

/-- A registered group of a partition. -/
def State.group (s : State) (part id : Nat) : Option Group := s.groups.find? fun g => g.id == id && g.part == part

/-- The key of a group: partition and id. -/
def groupKey (part id : Nat) : Nat := part * 65536 + id
/-- A group that takes contributions: it is registered everywhere, and is not being destroyed (R289, R303). -/
def State.openGroup (s : State) (part id : Nat) : Option Group :=
  if s.barred.contains (groupKey part id) then none else s.group part id
/-- The key of a slot's instance counter. -/
def counterKey (key slot : Nat) : Nat := key * 4096 + slot

/-- A message to the fabric block of a node: it arrives here at once if the node is this device. -/
def sendFabric (s : State) (node : Nat) (m : FabMsg) : State :=
  if node = Config.node then { s with inq := s.inq ++ [m] } else { s with outq := s.outq ++ [(node, m)] }

/-- The element type of a group or a `wred` by code, as a format code: f32, bf16, f64, i32, i64 (R302, Table 1.12). -/
def whistleFormat (t : Nat) : Nat := [9, 11, 8, 2, 3].getD t 15

/-- What a delivery writes into a result buffer: the header bytes from 0x008 on, and the data (R297, Table 15.4). -/
def deliveryBytes (g slot : Nat) (E : Nat) (d : WDelivery) : List Byte × List Byte :=
  let n := (List.range 4096).countP fun k => d.bitmap.getLsbD k
  let head := leBytes 8 n ++ leBytes 8 (g + slot * 2 ^ 16 + d.elems.length * 2 ^ 32) ++ List.replicate 40 0
    ++ leBytes 512 d.bitmap.toNat
  (head, d.elems.flatMap fun v => leBytes E v.toNat)

/-- The status bits that a delivery sets (Table 15.4). -/
def deliveryStatus (d : WDelivery) : Nat :=
  (match d.kind with
    | .partialRes => 1
    | .final => 2
    | .lost => 4) + (if d.late then 8 else 0) + (if d.malformed then 16 else 0)

/-- Every write that the units of partition p have sent is acknowledged (R298, R305). -/
def unitWritesDone (s : State) (p : Nat) : Bool := !s.outs.any fun o => o.write && decide (o.who = .unit p)

/-- A migrating page holds a write of `n` bytes (R217). -/
def writeHeld (s : State) (p : Nat) (va : Word) (n : Nat) : Bool :=
  match locateIn s p va n .store with
  | .hold _ => true
  | _ => false

/-- Bytes that a fabric block writes at a VA of partition `p`: true where they are written, false where they cannot be (R298), none where
they wait for a migration (R217) or for tokens (R224). -/
def blockWrite (s : State) (p : Nat) (va : Word) (bytes : List Byte) : State × Option Bool :=
  match locateIn s p va bytes.length .store with
  | .ok locs =>
    let bad := locs.any fun l => match l with
      | .reg _ => true
      | .remote node _ _ => nodeDead s p node
      | _ => poisonedLoc s l
    if bad then (s, some false)
    else
      let q := payFor s (.other p) locs
      if q.2 then (store q.1 (.other p) va locs bytes, some true) else (q.1, none)
  | .hold _ => (s, none)
  | .fault _ _ _ => (s, some false)

/-- A slot's instance. -/
def SlotInst.is (q : SlotInst) (g slot n : Nat) : Bool := q.group == g && q.slot == slot && q.n == n

/-- The machine with one slot's instance changed. -/
def State.updSlot (s : State) (g slot n : Nat) (f : SlotInst → SlotInst) : State :=
  { s with slots := s.slots.map fun q => if q.is g slot n then f q else q }

/-- The first delivery kept for a slot whose buffer is named goes on by one write: the data, then the header from +0x008, then, once
those are acknowledged, the status doubleword, which is a release (R298).  A final leaves the bits that stand and sets its own.  False
where nothing went on. -/
def deliverOnce (s : State) (g : Group) (q : SlotInst) : State × Bool :=
  let gk := groupKey g.part g.id
  match q.buf, q.kept with
  | some va, d :: ds =>
    let E := codeWidth (whistleFormat g.type_) 2 / 8
    let (head, data) := deliveryBytes g.id q.slot E d
    let upd (t : State) (f : SlotInst → SlotInst) : State := t.updSlot gk q.slot q.n f
    let status := q.status ||| deliveryStatus d
    let (at_, bytes) := match q.stage with
      | 0 => (va + 0x240, data)
      | 1 => (va + 8, head)
      | _ => (va, leBytes 8 (q.n % 2 ^ 32 * 2 ^ 32 + status))
    let r := if bytes = [] then (s, some true)
      else if q.stage < 2 ∨ unitWritesDone s g.part then blockWrite s g.part at_ bytes else (s, none)
    let held := writeHeld s g.part at_ bytes.length
    let drop (t : State) : State :=
      (upd t fun q => { q with kept := ds, stage := 0, heldAt := none }).boxWrite 0x0E g.id g.part q.slot 0
    match r.2 with
    | none =>
      if held && holdExpired s q.heldAt then (drop s, true)
      else if held then (upd r.1 fun q => { q with heldAt := some (q.heldAt.getD s.tick) }, false) else (r.1, false)
    | some false => (drop r.1, true)
    | some true =>
      (upd r.1 fun q => { (if q.stage < 2 then { q with stage := q.stage + 1 } else { q with kept := ds, stage := 0, status := status } : SlotInst)
                          with heldAt := none }, true)
  | _, _ => (s, false)

/-- The deliveries kept for a slot are written as far as they can be, in order. -/
def deliverSlot (g : Group) (slot n : Nat) : Nat → State → State
  | 0, s => s
  | fuel + 1, s =>
    match s.slots.find? fun q => q.is (groupKey g.part g.id) slot n with
    | none => s
    | some q =>
      let r := deliverOnce s g q
      if r.2 then deliverSlot g slot n fuel r.1 else r.1

/-- A slot that awaits its buffer or its deliveries. -/
def SlotInst.fresh (g slot n : Nat) : SlotInst :=
  { group := g, slot := slot, n := n, buf := none, kept := [], stage := 0, status := 0, heldAt := none, ended := none }

/-- The first failing byte of a `wred`'s buffer, checked as a store (R303). -/
def wredCheck (s : State) (h : Nat) (e : Entry) (n : Nat) : Located := locate s h e.sa n .store false

/-- The buffer of an instance is named to the block: kept deliveries are written; a slot of an instance that the block no longer
holds gets lost and late-dropped (R298). -/
def namedBuffer (s : State) (g : Group) (slot k : Nat) (va : Word) (gone : Bool) : State :=
  let gk := groupKey g.part g.id
  let lost : WDelivery := { kind := .lost, elems := [], bitmap := 0, late := true, malformed := false }
  let known := s.slots.any fun q => q.is gk slot k
  let t := if known then s else { s with slots := s.slots ++ [SlotInst.fresh gk slot k] }
  let u := t.updSlot gk slot k fun q => { q with buf := some va, kept := bif gone then [lost] else q.kept }
  deliverSlot g slot k 16 u

/-- `wred` in the VMU: its checks, the instance number and the status word; and, once that write is acknowledged, the contribution and
the buffer's name (R303, R292, R298). -/
def wredStep (s : State) (h i : Nat) (e : Entry) : State × Bool :=
  let x := s.hand h
  let t := tileOf e
  let E := t.sew / 8
  let n := 0x240 + t.vn * E
  let gid := fld e.sb 15 0
  let slot := fld e.sb 31 16
  let e0 := { e with first := 0 }
  match (if e.stages = 0 then s.openGroup x.part gid else s.group x.part gid) with
  | none => entryFault s h i e0 0x10 2 0
  | some g =>
    match g.members[slot]? with
    | none => entryFault s h i e0 0x10 2 0
    | some m =>
      let gk := groupKey x.part gid
      let key := counterKey gk slot
      if e.stages = 0 then
        if m.node ≠ Config.node ∨ g.type_ ≠ e.ew then entryFault s h i e0 0x10 2 0
        else if (List.range n).any fun k => inWindow ((e.sa.toNat + k) % 2 ^ 64) then entryFault s h i e0 0x10 3 0
        else if (List.range t.vn).any fun j => x.foul (elemBytes e e.d (t.slot j)) then entryFault s h i e0 0x0B 2 0
        else match wredCheck s h e n with
          | .fault c sub ad => entryFault s h i e0 c sub ad
          | .hold ad => entryHeld s h i e0 0 0x07 ad
          | .ok locs =>
            let k := tabGet 0 s.counters key
            whenPaid s h (locs.take 8) fun p =>
              let s1 := { noteTlb p h e.sa n .store with counters := tabSet p.counters key (k + 1) }
              let s2 := store s1 (.vmu h) e.sa (locs.take 8) (leBytes 8 (k % 2 ^ 32 * 2 ^ 32))
              (s2.setEntry h i { e with stages := 1, imm := k, heldAt := [] }, true)
      else
        let k := e.imm
        let elems := (List.range t.vn).map fun j => nat64 (elemOf x t e.d.toNat j)
        let input : WInput := { elems := elems, bitmap := 1#4096 <<< slot, det := e.det }
        let host := (g.tree.getD m.leaf { parent := 0xFFFF, level := 0, children := 0, host := Config.node }).host
        let port := (g.members.take slot).countP fun q => q.leaf == m.leaf
        let gone : Bool := match s.slots.find? fun q => q.is gk slot k with
          | some q => q.ended.isSome && q.kept.isEmpty && q.buf.isNone
          | none => false
        let s3 := bif gone then s else sendFabric s host (.winput gk m.leaf port k input)
        let s4 := namedBuffer s3 g slot k e.sa gone
        (s4.setEntry h i { e with mode := 1 }, true)

/-! ## One step of a memory instruction -/

/-- An instruction that writes a register of an active copy's vd waits until the copy has finished (R248). -/
def copyBlocks (x : Hand) (e : Entry) : Bool := (writesOf e).any fun r => x.copies.any fun p => p.2.d.toNat == r

/-- One element, piece or round of the memory instruction at place i; true where it went on.  It waits for the writes of earlier
elements and instructions that base dies have not replied to and other nodes have not acknowledged (R232, R233), for a copy whose chunk
bits it would overwrite (R248), and, where it stores, for what a `fence.rel` has marked (R282). -/
def memStep (s0 : State) (h i : Nat) : State × Bool :=
  let s := clearMarks s0 h
  match (s.hand h).rq[i]? with
  | none => (s, false)
  | some e =>
    if (e.fault.isSome && e.faultReady) || e.awaiting.isSome || e.performed then (s, false)
    else if !(s.hand h).vectorStoresDone || copyBlocks (s.hand h) e || (storeType e && (s.hand h).heldBack e.age) then (s, false)
    else match e.kind with
      | .amo _ _ true => unorderedElem s h i e true
      | .amo o _ false => amoPiece s h i e o
      | .store _ true => unorderedElem s h i e false
      | .store _ false => storeElem s h i e
      | .mst => storeElem s h i e
      | .qget => storeElem s h i e
      | .sc => scStep s h i e
      | .vwait => vwaitStep s h i e
      | .wred => wredStep s h i e
      | .wfin => readAt s h i e e.sa 8 0x06 (elemCheck s h e 0) .read
      | .wpoll => readAt s h i e e.sa 8 0x06 (elemCheck s h e 0) .read
      | _ => loadElem s h i e

/-- The steps of a memory instruction until it is over or waits. -/
def memRun (h i : Nat) : Nat → State → State
  | 0, s => s
  | n + 1, s =>
    let r := memStep s h i
    if r.2 then memRun h i n r.1 else r.1

/-- The place of the instruction that awaits a reply. -/
def awaitingAt (x : Hand) (tag : Nat) : Option Nat :=
  x.rq.findIdx? fun e => match e.awaiting with
    | some a => a.tag == tag
    | none => false

/-- The address of the element under way, or of its stream offset. -/
def underWay (x : Hand) (e : Entry) : Word := if needsOffset e then e.oper.2 + nat64 (8 * (e.imm + e.first)) else elemAddr x e e.first

/-- The values of a list of bytes cut into pieces of n bytes. -/
def valuesOf (n : Nat) : Nat → List Byte → List Nat
  | 0, _ => []
  | k + 1, bs => leValue (bs.take n) :: valuesOf n k (bs.drop n)

/-- The bytes of an element's reads have come back (R305, R212). -/
def entryReply (s : State) (h tag : Nat) (bytes : List Byte) : State :=
  let x := s.hand h
  match awaitingAt x tag with
  | none => s
  | some i =>
    match x.rq[i]? with
    | none => s
    | some e =>
      let e1 := { e with awaiting := none }
      match e.awaiting, e.kind with
      | some a, .amo _ _ un =>
        if un then s.setEntry h i (a.elems.foldl Entry.noted e1) else s.setEntry h i (e1.took x a.elems (valuesOf e.size a.elems.length bytes))
      | some a, .sc => scAnswer s h i e1 a.elems bytes
      | some a, _ =>
        let addr := underWay x e
        let op : MemOp := if e.kind = .gl then .reserve else readOp addr.toNat (if needsOffset e then 8 else e.size)
        (readOutcome h i e1 a.elems a.locs addr (gatherOn (.handEntry h) (.vmu h) op readLoc addr (s.setEntry h i e1) a bytes)).1
      | none, _ => s

/-- The home of some elements of an atomic has performed those before element k, which it found in error (R226, R241): k faults once
every element below it has performed.  An unordered form asks again for k when none below it is left. -/
def amoPoison (s : State) (h i : Nat) (e : Entry) (un : Bool) (done vals : List Nat) (k : Nat) : State :=
  let x := s.hand h
  let f := if un then done.foldl Entry.noted e else e.took x done vals
  if !un ∨ (restElems x f).head? = some k then s.setEntry h i { f with fault := some (0x0B, 1, 0, k), first := if un then k else f.first }
  else s.setEntry h i f

/-- Bytes that a base die has read for some elements, of which `bad` tells the poisoned ones (R226): the elements below the lowest that
uses one perform, and that one faults. -/
def entryPoison (s : State) (h tag : Nat) (bytes : List Byte) (bad : Nat → Bool) : State :=
  let x := s.hand h
  match awaitingAt x tag with
  | none => s
  | some i =>
    match x.rq[i]? with
    | none => s
    | some e =>
      let e1 := { e with awaiting := none }
      match e.awaiting with
      | none => s
      | some a =>
        let uses (j : Nat) : Bool := (List.range e.size).any fun k => bad (j * e.size + k)
        let n := ((List.range a.elems.length).find? uses).getD 0
        match e.kind with
        | .amo _ _ un => amoPoison s h i e1 un (a.elems.take n) (valuesOf e.size n bytes) (a.elems.getD n e.first)
        | _ =>
        let r := gotElems h i (a.elems.take n) (s.setEntry h i e1) a.locs bytes
        match (r.1.hand h).rq[i]?, a.elems[n]? with
        | some f, some k => (entryFault r.1 h i (f.skipTo k) 0x0B 1 0).1
        | some f, none => (entryFault r.1 h i f 0x0B 1 0).1
        | none, _ => r.1

/-- An element's access has failed (Table 15.12): `sub` is 1 timed out, 2 dead, 4 refused; a timed-out atomic is indeterminate.  The
frame names the lowest failing byte (R318). -/
def entryFail (s : State) (h tag sub : Nat) : State :=
  let x := s.hand h
  match awaitingAt x tag with
  | none => s
  | some i =>
    match x.rq[i]? with
    | none => s
    | some e =>
      let before := (e.awaiting.map fun a => a.got.length).getD 0
      let k := (e.awaiting.bind fun a => a.elems.head?).getD e.first
      let addr := (if k = e.first then underWay x e else elemAddr x e k) + nat64 before
      let s1 := s.setHand h { x with rerr := x.rerr + 1 }
      match e.kind with
      | .amo _ _ _ =>
        s1.setEntry h i { e with fault := some (0x0C, if sub = 1 then 3 else sub, addr, k), awaiting := none }
      | .sc =>
        let ks := (e.awaiting.map fun a => a.elems).getD []
        (storeLost s (.vmu h)).setEntry h i { e with acc := ks.foldl (fun a k => a.set k 0) e.acc, awaiting := none }
      | _ => (entryFault s1 h i e 0x0C sub addr).1

/-! ## Copies (R247 to R249) -/

/-- A `vcopy` starts in a copy slot: its vd is cleared, and its active chunks are to be copied. -/
def startCopy (x : Hand) (slot : Nat) (e : Entry) : Hand :=
  let t := tileOf e
  let act := (t.indices.filter (activeAt x e)).map fun c => (c, t.slot c)
  let size := 256 * 4 ^ e.ew
  let c : Copy := { pc := e.pc, age := e.age, src := e.sb, dst := e.sa, size := size, len := t.vn * size, d := e.d, left := act, flight := []
                    fault := none, heldAt := [] }
  let y := { x.vwr e.d 0 with chunks := tabSet x.chunks e.d.toNat 1 }
  if act = [] then y else { y with copies := y.copies ++ [(slot, c)] }

/-- The copies of a hand with one slot's changed; a copy whose chunks are all done leaves its slot. -/
def setCopy (x : Hand) (slot : Nat) (c : Copy) : Hand :=
  { x with copies := (x.copies.map fun p => if p.1 == slot then (slot, c) else p).filter fun p => decide (p.2.left ≠ []) }

/-- A copy with what chunk k is doing. -/
def Copy.doing (c : Copy) (k : Nat) (f : Option Chunk) : Copy :=
  let rest := c.flight.filter fun q => q.1 != k
  { c with flight := match f with
    | some y => rest ++ [(k, y)]
    | none => rest }

/-- The scope of a chunk (R248): core in the scratchpad, domain where it names another node, device otherwise. -/
def chunkScope (locs : List Loc) : Nat :=
  if locs.any (fun l => match l with | .remote _ _ _ => true | _ => false) then 3
  else if locs.all (fun l => match l with | .spad _ _ => true | _ => false) then 1 else 2

/-- Chunk k has performed: its bit is set (R248). -/
def chunkBit (x : Hand) (slot : Nat) (c : Copy) (k q : Nat) : Hand :=
  match c.left.find? fun q => q.1 == k with
  | none => x
  | some (_, p) =>
    let y := x.vwr c.d (x.vrd c.d ||| (1#8192 <<< p))
    let z := { y with chunks := tabSet y.chunks c.d.toNat (max q (tabGet 1 y.chunks c.d.toNat)) }
    setCopy z slot { c.doing k none with left := c.left.filter fun q => q.1 != k, heldAt := tabDel c.heldAt k }

/-- A chunk faults: the lowest one counts (R249). -/
def chunkFault (s : State) (h slot : Nat) (c : Copy) (k cause sub : Nat) (addr : Word) : State :=
  let lower : Bool := match c.fault with
    | some f => decide (k < f.1)
    | none => true
  let f := if lower then some (k, cause, sub, addr) else c.fault
  s.setHand h (setCopy (s.hand h) slot { c.doing k none with fault := f })

/-- A chunk waits for a migrating page (R217). -/
def chunkHeld (s : State) (h slot : Nat) (c : Copy) (k cause : Nat) (addr : Word) : State :=
  let now := s.coreTick (coreOf h)
  let since := (tabFind c.heldAt k).getD now
  if now - since ≥ Config.holdTicks then chunkFault s h slot c k cause 5 addr
  else s.setHand h (setCopy ((s.hand h).willWalk cause addr) slot { c.doing k none with heldAt := tabSet c.heldAt k since })

/-- Where the bytes of chunk k go. -/
def chunkPlaces (s : State) (h : Nat) (c : Copy) (k : Nat) : Located := locate s h (c.dst + nat64 (k * c.size)) c.size .store true

/-- The bit of a chunk whose bytes are written is a release of them, and of every access of the hand that precedes the `vcopy`: it is set
once they have performed at the chunk's scope, the chunks of earlier copies among them (R248, R278). -/
def chunkDone (s : State) (h slot : Nat) (c : Copy) (k : Nat) : State :=
  let x := s.hand h
  let q := match chunkPlaces s h c k with
    | .ok locs => chunkScope locs
    | _ => 3
  if earlierDone s h q c.age then s.setHand h (chunkBit x slot c k q) else s.setHand h (setCopy x slot (c.doing k (some .written)))

/-- Bytes of a chunk are written: in lockstep all at once, otherwise a free part of those that are left (R248, R276).  They wait for what a
`fence.rel` before the `vcopy` has marked (R282). -/
def chunkPut (s : State) (h slot : Nat) (c : Copy) (k : Nat) (bytes : List Byte) (left : List Nat) : State :=
  if (s.hand h).heldBack c.age then s.setHand h (setCopy (s.hand h) slot (c.doing k (some (.putting bytes left)))) else
  match chunkPlaces s h c k with
  | .fault cause sub ad => chunkFault s h slot c k cause sub ad
  | .hold ad => chunkHeld s h slot c k 0x07 ad
  | .ok locs =>
    let p := payFor s (.vmu h) locs
    if !p.2 then p.1.setHand h (setCopy (p.1.hand h) slot (c.doing k (some (.putting bytes left))))
    else
      let dst := c.dst + nat64 (k * c.size)
      let t := noteTlb p.1 h dst c.size .store
      if locs.all plainMem then
        let now := freePart t left
        let u := performWrite t (.vmu h) (now.map (locAt locs)) (now.map fun j => bytes.getD j 0)
        let rest := left.filter fun j => !now.contains j
        if rest = [] then chunkDone u h slot c k else u.used.setHand h (setCopy (u.hand h) slot (c.doing k (some (.putting bytes rest))))
      else
        let u := storeAt t (.vmu h) 1 2 locs bytes
        if (u.hand h).st = .frozen then u else chunkDone u h slot c k

/-- A chunk's bytes have been read: they are to be written. -/
def chunkWrite (s : State) (h slot : Nat) (c : Copy) (k : Nat) (bytes : List Byte) : State :=
  chunkPut s h slot c k bytes (List.range c.size)

/-- The outcome of a chunk's reads. -/
def chunkOutcome (h slot : Nat) (c : Copy) (k : Nat) (addr : Word) (r : State × Gather) : State :=
  match r.2 with
  | .done bytes => chunkWrite r.1 h slot c k bytes
  | .wait a => r.1.setHand h (setCopy (r.1.hand h) slot (c.doing k (some (.reading a))))
  | .poison => chunkFault r.1 h slot c k 0x0B 1 0
  | .remote sub before =>
    chunkFault (r.1.setHand h { r.1.hand h with rerr := (r.1.hand h).rerr + 1 }) h slot c k 0x0C sub (addr + nat64 before)
  | .violation code off => violate r.1 (r.1.hand h).part code (.engine h) (nat64 (Config.regBase + off))

/-- A chunk is read: in lockstep, or where it lies elsewhere, at once, otherwise by free parts (R248, R276). -/
def chunkTake (s : State) (h slot : Nat) (c : Copy) (k : Nat) (got : Table Byte) : State :=
  let src := c.src + nat64 (k * c.size)
  match locate s h src c.size .load true with
  | .fault cause sub ad => chunkFault s h slot c k cause sub ad
  | .hold ad => chunkHeld s h slot c k 0x06 ad
  | .ok locs =>
    let p := if got = [] then payFor s (.vmu h) locs else (s, true)
    if !p.2 then p.1
    else
      let t := noteTlb p.1 h src c.size .load
      if s.lockstep || !locs.all plainMem then
        chunkOutcome h slot c k src (gather (.handCopy h) (.vmu h) .readBytes readLoc src (c.size + 1) t locs [])
      else
        let now := freePart t ((List.range c.size).filter fun j => (tabFind got j).isNone)
        if now.any fun j => poisonedLoc t (locAt locs j) then chunkFault t h slot c k 0x0B 1 0
        else
          let u := (freshen t (.vmu h) (now.map (locAt locs))).used
          let g := now.foldl (fun m j => tabSet m j (readLoc t (locAt locs j))) got
          u.setHand h (setCopy (u.hand h) slot (c.doing k (some
            (if g.length = c.size then .putting (g.map Prod.snd) (List.range c.size) else .taking g))))

/-- The hand's copies go on, in Held and Parked too (R249, R315): not while it is Frozen or Off. -/
def Hand.copiesRun (x : Hand) : Bool := decide (x.st ≠ .frozen ∧ x.st ≠ .off)

/-- Chunk `k` of slot `slot` goes on: at most 16 are in flight, and none at or above a faulting one begins (R247, R249).  A faulted
copy waits for its hand to take the fault and to leave Parked. -/
def chunkStep (s0 : State) (h slot k : Nat) : State :=
  let s := clearMarks s0 h
  let x := s.hand h
  match x.copies.find? fun p => p.1 == slot with
  | none => s
  | some (_, c) =>
    let blocked : Bool := match c.fault with
      | some f => decide (f.1 ≤ k)
      | none => false
    if !x.copiesRun || blocked || !(c.left.any fun q => q.1 == k) then s
    else match c.flight.find? fun q => q.1 == k with
      | some (_, .reading _) => s
      | some (_, .taking got) => chunkTake s h slot c k got
      | some (_, .putting bytes left) => chunkPut s h slot c k bytes left
      | some (_, .written) => chunkDone s h slot c k
      | none => if c.flight.length < 16 then chunkTake s h slot c k [] else s

/-- A faulting copy parks its hand once every chunk below has its bit, the oldest dispatched instruction has not begun and the scalar
stores have drained (R249, R315).  A hand that is Parked already takes the fault when it resumes. -/
def copyFault (s : State) (h : Nat) : State :=
  let x := s.hand h
  let begun : Bool := match x.rq with
    | e :: _ => decide (0 < e.first ∨ 0 < e.stages ∨ e.awaiting.isSome)
    | [] => false
  match x.copies.find? fun p => match p.2.fault with
      | some f => p.2.left.all fun q => decide (f.1 ≤ q.1)
      | none => false with
  | some (slot, c) =>
    match c.fault with
    | some (k, cause, sub, addr) =>
      if !x.copiesRun || decide (x.st = .parked) || (begun && decide (x.st ≠ .held)) || !x.scalarStoresDone || x.accessOut then s
      else
        let y := commitHead (setCopy x slot { c with flight := [] })
        parkHeld (s.setHand h y) (decide (c.heldAt ≠ [])) h 1 cause sub x.pc c.pc
          (if cause = 0x05 then c.dst else frameAddr cause addr) k
    | none => s
  | none => s

/-- Every chunk of every copy of the hand goes on as far as it can, lowest first. -/
def copiesStep (s : State) (h : Nat) : State :=
  let todo := (s.hand h).copies.flatMap fun p => p.2.left.map fun q => (p.1, q.1)
  copyFault (todo.foldl (fun t q => chunkStep t h q.1 q.2) s) h

/-- The chunk that awaits a reply. -/
def chunkAwaiting (x : Hand) (tag : Nat) : Option (Nat × Copy × Nat × Awaited) :=
  x.copies.findSome? fun p => p.2.flight.findSome? fun q => match q.2 with
    | .reading a => if a.tag = tag then some (p.1, p.2, q.1, a) else none
    | _ => none

/-- Bytes of a chunk's reads have come back. -/
def copyReply (s : State) (h tag : Nat) (bytes : List Byte) : State :=
  match chunkAwaiting (s.hand h) tag with
  | none => s
  | some (slot, c, k, a) =>
    let addr := c.src + nat64 (k * c.size)
    chunkOutcome h slot c k addr (gatherOn (.handCopy h) (.vmu h) .readBytes readLoc addr s a bytes)

/-- Bytes of a chunk's reads are poisoned (R226). -/
def copyPoison (s : State) (h tag : Nat) : State :=
  match chunkAwaiting (s.hand h) tag with
  | none => s
  | some (slot, c, k, _) => chunkFault s h slot c k 0x0B 1 0

/-- A chunk's access has failed: the frame names its lowest failing byte (R318). -/
def copyFail (s : State) (h tag sub : Nat) : State :=
  match chunkAwaiting (s.hand h) tag with
  | none => s
  | some (slot, c, k, a) =>
    chunkFault (s.setHand h { s.hand h with rerr := (s.hand h).rerr + 1 }) h slot c k 0x0C sub (c.src + nat64 (k * c.size + a.got.length))

end Sys2Proof.Machine
end

