-- ==== Sys2Proof/Machine/Scalar.lean ====
section
/-!
DEFINITION. The scalar instructions that compute: ALU, ALUI, `lim`, `lsh` (R112 to R114), branches and jumps (R117), HINT (R96)
and the compressed forms of them (R97), one meaning per instruction over the shared shapes of Operands.lean.
-/

namespace Sys2Proof.Machine

/-! ## Results of Table 5.4 -/

/-- x << y[5:0] (Table 5.4). -/
def shl64 (x y : Word) : Word := x <<< (y.toNat % 64)
/-- x » y[5:0], zero fill. -/
def shr64 (x y : Word) : Word := x >>> (y.toNat % 64)
/-- x » y[5:0], sign fill. -/
def sar64 (x y : Word) : Word := x.sshiftRight (y.toNat % 64)
/-- 1 or 0. -/
def bool64 (b : Bool) : Word := if b then 1 else 0
/-- (x · y)[127:64], both signed. -/
def mulHighS (x y : Word) : Word := BitVec.ofInt 64 (x.toInt * y.toInt / 2 ^ 64)
/-- (x · y)[127:64], both unsigned. -/
def mulHighU (x y : Word) : Word := BitVec.ofNat 64 (x.toNat * y.toNat / 2 ^ 64)
/-- Leading zero bits of a value of `n` bits. -/
def leadingZeros (n x : Nat) : Nat := if x = 0 then n else n - 1 - Nat.log2 x
/-- Trailing zero bits among `fuel` bits. -/
def trailingZeros : Nat → Nat → Nat
  | 0, _ => 0
  | fuel + 1, x => if x % 2 = 1 then 0 else trailingZeros fuel (x / 2) + 1
/-- Number of 1 bits among `fuel` bits. -/
def onesCount : Nat → Nat → Nat
  | 0, _ => 0
  | fuel + 1, x => x % 2 + onesCount fuel (x / 2)
/-- Trailing zero bits; 64 when x = 0. -/
def ctz64 (x : Word) : Word := BitVec.ofNat 64 (if x = 0 then 64 else trailingZeros 64 x.toNat)
/-- Leading zero bits; 64 when x = 0. -/
def clz64 (x : Word) : Word := BitVec.ofNat 64 (leadingZeros 64 x.toNat)
/-- Number of 1 bits. -/
def popc64 (x : Word) : Word := BitVec.ofNat 64 (onesCount 64 x.toNat)
/-- The signed lesser. -/
def minS (x y : Word) : Word := if x.slt y then x else y
/-- The signed greater. -/
def maxS (x y : Word) : Word := if x.slt y then y else x
/-- The unsigned lesser. -/
def minU (x y : Word) : Word := if x.ult y then x else y
/-- The unsigned greater. -/
def maxU (x y : Word) : Word := if x.ult y then y else x

/-! ## ALU (R112, R113) -/

/-- `add`: x + y. -/
def execAdd (d a b : Reg) (s : State) : Res := alu2 (· + ·) d a b 4 s
/-- `sub`: x − y. -/
def execSub (d a b : Reg) (s : State) : Res := alu2 (· - ·) d a b 4 s
/-- `and`. -/
def execAnd (d a b : Reg) (s : State) : Res := alu2 (· &&& ·) d a b 4 s
/-- `or`. -/
def execOr (d a b : Reg) (s : State) : Res := alu2 (· ||| ·) d a b 4 s
/-- `xor`. -/
def execXor (d a b : Reg) (s : State) : Res := alu2 (· ^^^ ·) d a b 4 s
/-- `sll`. -/
def execSll (d a b : Reg) (s : State) : Res := alu2 shl64 d a b 4 s
/-- `srl`. -/
def execSrl (d a b : Reg) (s : State) : Res := alu2 shr64 d a b 4 s
/-- `sra`. -/
def execSra (d a b : Reg) (s : State) : Res := alu2 sar64 d a b 4 s
/-- `slt`: signed. -/
def execSlt (d a b : Reg) (s : State) : Res := alu2 (fun x y => bool64 (x.slt y)) d a b 4 s
/-- `sltn`: unsigned. -/
def execSltn (d a b : Reg) (s : State) : Res := alu2 (fun x y => bool64 (x.ult y)) d a b 4 s
/-- `mul`. -/
def execMul (d a b : Reg) (s : State) : Res := alu2 (· * ·) d a b 4 s
/-- `mulh`. -/
def execMulh (d a b : Reg) (s : State) : Res := alu2 mulHighS d a b 4 s
/-- `mulhn`. -/
def execMulhn (d a b : Reg) (s : State) : Res := alu2 mulHighU d a b 4 s
/-- `min`: signed. -/
def execMin (d a b : Reg) (s : State) : Res := alu2 minS d a b 4 s
/-- `max`: signed. -/
def execMax (d a b : Reg) (s : State) : Res := alu2 maxS d a b 4 s
/-- `minn`: unsigned. -/
def execMinn (d a b : Reg) (s : State) : Res := alu2 minU d a b 4 s
/-- `maxn`: unsigned. -/
def execMaxn (d a b : Reg) (s : State) : Res := alu2 maxU d a b 4 s
/-- `div` (R113). -/
def execDiv (d a b : Reg) (s : State) : Res := aluDiv true true d a b s
/-- `divn` (R113). -/
def execDivn (d a b : Reg) (s : State) : Res := aluDiv false true d a b s
/-- `rem` (R113). -/
def execRem (d a b : Reg) (s : State) : Res := aluDiv true false d a b s
/-- `remn` (R113). -/
def execRemn (d a b : Reg) (s : State) : Res := aluDiv false false d a b s
/-- `clz`. -/
def execClz (d a : Reg) (s : State) : Res := alu1 clz64 d a 4 s
/-- `ctz`. -/
def execCtz (d a : Reg) (s : State) : Res := alu1 ctz64 d a 4 s
/-- `popc`. -/
def execPopc (d a : Reg) (s : State) : Res := alu1 popc64 d a 4 s

/-! ## ALUI (R112) -/

/-- `addi`: y = sext(imm11). -/
def execAddi (d a : Reg) (im : BitVec 11) (s : State) : Res := alu1 (· + sext im) d a 4 s
/-- `andi`: y = sext(imm11). -/
def execAndi (d a : Reg) (im : BitVec 11) (s : State) : Res := alu1 (· &&& sext im) d a 4 s
/-- `ori`: y = sext(imm11). -/
def execOri (d a : Reg) (im : BitVec 11) (s : State) : Res := alu1 (· ||| sext im) d a 4 s
/-- `xori`: y = sext(imm11). -/
def execXori (d a : Reg) (im : BitVec 11) (s : State) : Res := alu1 (· ^^^ sext im) d a 4 s
/-- `slti`: y = sext(imm11). -/
def execSlti (d a : Reg) (im : BitVec 11) (s : State) : Res := alu1 (fun x => bool64 (x.slt (sext im))) d a 4 s
/-- `slli`: y = imm11[5:0]. -/
def execSlli (d a : Reg) (im : BitVec 6) (s : State) : Res := alu1 (fun x => shl64 x (zext im)) d a 4 s
/-- `srli`: y = imm11[5:0]. -/
def execSrli (d a : Reg) (im : BitVec 6) (s : State) : Res := alu1 (fun x => shr64 x (zext im)) d a 4 s
/-- `srai`: y = imm11[5:0]. -/
def execSrai (d a : Reg) (im : BitVec 6) (s : State) : Res := alu1 (fun x => sar64 x (zext im)) d a 4 s

/-! ## `lim`, `lsh` (R114) -/

/-- `lim`: S[d] ← sext(imm19). -/
def execLim (d : Reg) (im : BitVec 19) (s : State) : Res := whenReady s [d] (writeBack s s.me d (sext im) 4)
/-- `lsh`: S[d] ← ((S[d] << 19) mod 2^64) OR imm19. -/
def execLsh (d : Reg) (im : BitVec 19) (s : State) : Res := alu1 (fun x => (x <<< 19) ||| zext im) d d 4 s

/-! ## Branches and jumps (R117) -/

/-- 2·sext of an offset in halfwords (R82). -/
def halves {n : Nat} (o : BitVec n) : Word := sext o <<< 1

/-- `beq`: S[a] = S[b]. -/
def execBeq (a b : Reg) (o : BitVec 11) (s : State) : Res := branch (fun x y => decide (x = y)) a b (halves o) 4 s
/-- `bne`: S[a] ≠ S[b]. -/
def execBne (a b : Reg) (o : BitVec 11) (s : State) : Res := branch (fun x y => decide (x ≠ y)) a b (halves o) 4 s
/-- `blt`: signed <. -/
def execBlt (a b : Reg) (o : BitVec 11) (s : State) : Res := branch (fun x y => x.slt y) a b (halves o) 4 s
/-- `bge`: signed ≥. -/
def execBge (a b : Reg) (o : BitVec 11) (s : State) : Res := branch (fun x y => !x.slt y) a b (halves o) 4 s
/-- `bltn`: unsigned <. -/
def execBltn (a b : Reg) (o : BitVec 11) (s : State) : Res := branch (fun x y => x.ult y) a b (halves o) 4 s
/-- `bgen`: unsigned ≥. -/
def execBgen (a b : Reg) (o : BitVec 11) (s : State) : Res := branch (fun x y => !x.ult y) a b (halves o) 4 s
/-- `bbs`: bit S[b][5:0] of S[a] is 1. -/
def execBbs (a b : Reg) (o : BitVec 11) (s : State) : Res := branch (fun x y => x.getLsbD (y.toNat % 64)) a b (halves o) 4 s
/-- `bbc`: bit S[b][5:0] of S[a] is 0. -/
def execBbc (a b : Reg) (o : BitVec 11) (s : State) : Res := branch (fun x y => !x.getLsbD (y.toNat % 64)) a b (halves o) 4 s

/-- `jal`: S[d] ← PC + 4, PC ← PC + 2·sext(off19). -/
def execJal (d : Reg) (o : BitVec 19) (s : State) : Res :=
  whenReady s [d] (.next (jumpTo s ((s.me.wr d (s.me.pc + 4)).setSld d) (s.me.pc + halves o)))

/-- `jalr`: the target is computed before S[d] is written; an odd target raises misaligned and writes nothing. -/
def execJalr (d a : Reg) (im : BitVec 11) (s : State) : Res :=
  let t := s.me.rd a + sext im
  whenReady s [d, a]
    (if t.getLsbD 0 then raise s 0x05 0 t else .next (jumpTo s ((s.me.wr d (s.me.pc + 4)).setSld d) t))

/-- HINT: only the program counter changes (R96). -/
def execHint (im : BitVec 24) (s : State) : Res := .next (finish s s.me 4)

/-! ## Compressed forms (R97): L is s(sld) -/

/-- `c.add`: L ← L op S[b]. -/
def execCAdd (b : Reg) (s : State) : Res := alu2 (· + ·) s.me.sld s.me.sld b 2 s
/-- `c.sub`: L ← L op S[b]. -/
def execCSub (b : Reg) (s : State) : Res := alu2 (· - ·) s.me.sld s.me.sld b 2 s
/-- `c.and`: L ← L op S[b]. -/
def execCAnd (b : Reg) (s : State) : Res := alu2 (· &&& ·) s.me.sld s.me.sld b 2 s
/-- `c.or`: L ← L op S[b]. -/
def execCOr (b : Reg) (s : State) : Res := alu2 (· ||| ·) s.me.sld s.me.sld b 2 s
/-- `c.xor`: L ← L op S[b]. -/
def execCXor (b : Reg) (s : State) : Res := alu2 (· ^^^ ·) s.me.sld s.me.sld b 2 s
/-- sext11(b‖imm6) (R97). -/
def cImm (b : Reg) (im : BitVec 6) : Word := sext (b ++ im)
/-- `c.addi`: L ← L + sext11(b‖imm6). -/
def execCAddi (b : Reg) (im : BitVec 6) (s : State) : Res := alu1 (· + cImm b im) s.me.sld s.me.sld 2 s
/-- `c.slli`: L ← L << imm6. -/
def execCSlli (im : BitVec 6) (s : State) : Res := alu1 (fun x => shl64 x (zext im)) s.me.sld s.me.sld 2 s
/-- `c.mv`: L ← S[b]. -/
def execCMv (b : Reg) (s : State) : Res := alu2 (· ||| ·) s.me.sld b 0 2 s
/-- `c.beqz`: if L = 0, PC ← PC + 2·sext11(b‖imm6). -/
def execCBeqz (b : Reg) (im : BitVec 6) (s : State) : Res :=
  branch (fun x y => decide (x = y)) s.me.sld 0 (cImm b im <<< 1) 2 s
/-- `c.bnez`: if L ≠ 0, PC ← PC + 2·sext11(b‖imm6). -/
def execCBnez (b : Reg) (im : BitVec 6) (s : State) : Res :=
  branch (fun x y => decide (x ≠ y)) s.me.sld 0 (cImm b im <<< 1) 2 s

end Sys2Proof.Machine
end

