-- ==== Sys2Proof/Machine/ScalarMem.lean ====
section
/-!
DEFINITION. The scalar instructions that access memory: loads and stores (R111, R115), AMO, `ld.acq`, `st.rel` (R116), and the
completion of an access that went to another node or to the host (R305, R308, R212).
-/

namespace Sys2Proof.Machine

/-! ## Shared steps -/

/-- The access of hand `h` at `addr` is held by a migrating page (R217): it performs nothing and re-walks later; held for
200,000 reference ticks, it faults with sub-status 5. -/
def holdAccessOf (s : State) (h cause : Nat) (addr : Word) : State :=
  let x := s.hand h
  let now := s.coreTick (coreOf h)
  let m : MigHold := { since := (x.migHold.map MigHold.since).getD now, cause := cause, addr := addr }
  if now - m.since ≥ Config.holdTicks then preciseFault (s.setHand h { x with migHold := none }) h cause 5 addr x.pc
  else s.setHand h { x.willWalk cause addr with migHold := some m }

/-- The access of the running hand is held. -/
def holdAccess (s : State) (cause : Nat) (addr : Word) : Res := .next (holdAccessOf s s.curHand cause addr)

/-- The running hand's instruction goes on, unless the hand was frozen meanwhile (R330). -/
def goOn (s : State) (h len : Nat) : State :=
  if (s.hand h).st = .frozen then s else finishOf s h { s.hand h with migHold := none } len

/-- The value of a load of `n` bytes (R115). -/
def loadValue (n : Nat) (signed : Bool) (bytes : List Byte) : Word :=
  let v := leValue bytes
  if signed then BitVec.ofInt 64 (toSigned (8 * n) v) else BitVec.ofNat 64 v

/-- The transfers of the running hand's access are paid for, or the instruction waits for tokens (R224). -/
def whenFunded (s : State) (a : Agent) (locs : List Loc) (f : State → State) : Res :=
  let p := payFor s a locs
  .next (if p.2 then f p.1 else p.1)

/-- A hand's load completes: S[d] ← the value, sld ← d.  An acquire at device scope or wider removes the data cache lines (R210). -/
def completeLoad (s : State) (h : Nat) (d : Reg) (n : Nat) (signed acq : Bool) (len : Nat) (bytes : List Byte) : State :=
  let t := if acq then dropDcache s h else s
  let x := t.hand h
  finishOf t h { (x.wr d (loadValue n signed bytes)).setSld d with acc := none, migHold := none } len

/-- A remote failure of a hand's scalar access that writes S[d]: sld has changed already (R93, R308). -/
def remoteFault (s : State) (h : Nat) (d : Reg) (sub : Nat) (addr : Word) : State :=
  scalarFault (s.setHand h ((s.hand h).setSld d)) h 1 0x0C sub addr (s.hand h).pc

/-- The outcome of a load's reads. -/
def loadOutcome (h : Nat) (d : Reg) (n : Nat) (signed acq : Bool) (len : Nat) (addr : Word) (r : State × Gather) : State :=
  match r.2 with
  | .done bytes => completeLoad r.1 h d n signed acq len bytes
  | .wait w =>
    r.1.setHand h { r.1.hand h with
      acc := some { tag := w.tag, kind := .load d n signed acq, addr := addr, len := len, locs := w.locs, got := w.got } }
  | .poison => preciseFault r.1 h 0x0B 1 0 (r.1.hand h).pc
  | .remote sub before => remoteFault r.1 h d sub (addr + nat64 before)
  | .violation c off => violate r.1 (r.1.hand h).part c (.hand h) (BitVec.ofNat 64 (Config.regBase + off))

/-- A misaligned load of this device's memory begins: its bytes as they stand (R276). -/
def tornBegin (s : State) (h : Nat) (d : Reg) (n : Nat) (signed : Bool) (len : Nat) (addr : Word) (locs : List Loc) : State :=
  let t := fillDcache s h locs
  t.setHand h { t.hand h with
    acc := some { tag := 0, kind := .torn d n signed, addr := addr, len := len, locs := locs, got := locs.map (readCached h t) } }

/-- A misaligned load goes on: some of its bytes are read again, and a free choice ends it (R276, log 21). -/
def tornTurn (s : State) (h : Nat) (o : OutAccess) (d : Reg) (n : Nat) (signed : Bool) : State :=
  let now := freePart s (List.range o.locs.length)
  let got := (List.range o.locs.length).map fun k => if now.contains k then readCached h s (locAt o.locs k) else o.got.getD k 0
  if o.locs.any (poisonedFor s (.hand h)) then preciseFault (s.setHand h { s.hand h with acc := none }) h 0x0B 1 0 (s.hand h).pc
  else if s.freeAt 64 2 = 1 then completeLoad s.used h d n signed false o.len got
  else s.used.setHand h { s.hand h with acc := some { o with got := got } }

/-- A plain load of n bytes at S[a] + off (R111, R115). -/
def loadForm (d a : Reg) (off : Word) (n : Nat) (signed : Bool) (len : Nat) (s : State) : Res :=
  let addr := s.me.rd a + off
  let h := s.curHand
  whenReady s [d, a] <|
  if s.me.fenced || s.me.acc.isSome then waitHere s else
  match locate s h addr n .load true with
  | .fault c sub ad => raise s c sub ad
  | .hold ad => holdAccess s 0x06 ad
  | .ok locs =>
    if s.me.mustWait addr.toNat n true || s.me.storeAhead locs then waitHere s else
    whenFunded s (.hand h) (missing s h locs) fun p =>
      let s1 := noteTlb p h addr n .load
      if isTorn s1 addr n locs then tornBegin s1 h d n signed len addr locs
      else loadOutcome h d n signed false len addr
        (gather (.handAccess h) (.hand h) (readOp addr.toNat n) (readCached h) addr (n + 1) (fillDcache s1 h locs) locs [])

/-- True when every byte lies in the scratchpad: such a store performs at once (R107). -/
def allSpad (locs : List Loc) : Bool := locs.all fun l => match l with
  | .spad _ _ => true
  | _ => false

/-- An executed store performs at once where no older one waits and it is paid for, or goes to the hand's store buffer (R106, R115,
log 2). -/
def putStore (s : State) (h : Nat) (addr : Word) (locs : List Loc) (bytes : List Byte) : State :=
  let x := s.hand h
  let p := if allSpad locs then (s, true)
    else if s.lockstep && decide (x.sb = [] ∧ x.dieWrites = [] ∧ x.marks = []) then payFor s (.hand h) locs else (s, false)
  if p.2 then storeAt p.1 (.hand h) addr.toNat bytes.length locs bytes
  else p.1.setHand h { p.1.hand h with sb := (p.1.hand h).sb ++ [{ age := (s.core (coreOf h)).age, locs := locs, bytes := bytes }] }

/-- A plain store of the low n bytes of S[b] at S[a] + off (R111, R115). -/
def storeForm (b a : Reg) (off : Word) (n len : Nat) (s : State) : Res :=
  let addr := s.me.rd a + off
  let h := s.curHand
  whenReady s [b, a] <|
  if s.me.fenced || s.me.acc.isSome then waitHere s else
  match locate s h addr n .store true with
  | .fault c sub ad => raise s c sub ad
  | .hold ad => holdAccess s 0x07 ad
  | .ok locs =>
    let t := clearMarks s h
    if s.me.mustWait addr.toNat n false || (allSpad locs && decide ((t.hand h).marks ≠ [])) then waitHere s else
    let s1 := noteTlb t h addr n .store
    .next (goOn (putStore s1 h addr locs (leBytes n (s.me.rd b).toNat)) h len)

/-- The oldest store of a hand's buffer performs: once base dies have replied to the ones before it, what a `fence.rel` before it has
marked has performed, and it is paid for (R106, R224, R282).  The bytes of a misaligned one are events of their own (R276). -/
def performOldest (s0 : State) (h : Nat) : State :=
  let s := clearMarks s0 h
  let x := s.hand h
  match x.sb with
  | [] => s
  | p :: ps =>
    if x.dieWrites ≠ [] ∨ storeHeld s h p.age then s
    else
      let q := payFor s (.hand h) p.locs
      let n := p.locs.length
      let at_ := (locPas p.locs).headD 0
      if !q.2 then q.1
      else if s.lockstep || decide (at_ % n = 0) || !p.locs.all plainMem then
        storeAt (q.1.setHand h { q.1.hand h with sb := ps }) (.hand h) at_ n p.locs p.bytes
      else
        let now := freePart s (List.range n)
        let rest := (List.range n).filter fun k => !now.contains k
        let left : PendingStore := { p with locs := rest.map (locAt p.locs), bytes := rest.map fun k => p.bytes.getD k 0 }
        let t := (performWrite q.1 (.hand h) (now.map (locAt p.locs)) (now.map fun k => p.bytes.getD k 0)).used
        t.setHand h { t.hand h with sb := if rest = [] then ps else left :: ps }

/-- The value S[d] receives from a read-modify-write (R116). -/
def amoResult (o : AmoOp) (n old : Nat) : Word :=
  match o with
  | .maxn => BitVec.ofNat 64 old
  | .minn => BitVec.ofNat 64 old
  | _ => BitVec.ofInt 64 (toSigned (8 * n) old)

/-- A hand's AMO completes with the old value: the acquire drops the data cache lines at device scope and wider (R116, R210). -/
def completeAmo (s : State) (h : Nat) (o : AmoOp) (d : Reg) (n q old len : Nat) : State :=
  let s1 := if q ≥ 2 then dropDcache s h else s
  let x := s1.hand h
  finishOf s1 h { (x.wr d (amoResult o n old)).setSld d with acc := none, migHold := none } len

/-- The older scalar stores have left the store buffer, base dies have replied to them, and what a `fence.rel` has marked has performed:
an AMO or a `st.rel` performs after them (R106, R282). -/
def Hand.storesLeft (x : Hand) : Bool := decide (x.sb = [] ∧ x.dieWrites = [] ∧ x.marks = [])

/-- An AMO (R116): release at q, one indivisible step, acquire at q.  R116 makes an AMO's faults precise and Table 17.1 makes poison
consumed precise for a scalar load only: the model takes an AMO's as imprecise (log 51, DEDUCED). -/
def amoForm (o : AmoOp) (d a b : Reg) (q : BitVec 3) (w : BitVec 1) (s : State) : Res :=
  let n := if w = 1 then 4 else 8
  let addr := s.me.rd a
  let h := s.curHand
  let y := (s.me.rd b).toNat
  let e := (s.me.rd d).toNat
  whenReady s [d, a, b] <|
  if addr.toNat % n ≠ 0 then raise s 0x05 0 addr
  else if s.me.fenced || s.me.acc.isSome then waitHere s
  else match locate s h addr n .both true with
    | .fault c sub ad => raise s c sub ad
    | .hold ad => holdAccess s 0x07 ad
    | .ok locs =>
      let t := clearMarks s h
      if s.me.mustWait addr.toNat n false || !(t.hand h).storesLeft || !performedAt t h q.toNat then waitHere s else
      whenFunded t (.vmu h) locs fun p =>
        let s1 := noteTlb p h addr n .both
        let kind : AccessKind := .amo o d n q.toNat
        let out (r : State × Nat) : State :=
          r.1.setHand h { r.1.hand h with acc := some { tag := r.2, kind := kind, addr := addr, len := 4, locs := locs, got := [] } }
        match locs.head? with
        | some (.remote node _ _) =>
          if nodeDead s s.me.part node then remoteFault s1 h d 2 addr
          else out (sendRemote s1 (.handAccess h) s.me.part node (.amo o) locs (leBytes n y) (leBytes n e) addr)
        | some (.host _) => out (sendHost s1 (.handAccess h) s.me.part addr fun g => .cas g s.me.part (locPas locs) o (s.me.rd b) (s.me.rd d) 0)
        | _ =>
          match regBad s (.hand h) locs with
          | some (c, off) => violate s1 s.me.part c (.hand h) (BitVec.ofNat 64 (Config.regBase + off))
          | none =>
            if locs.any (poisonedLoc s) then scalarFault (s1.setHand h ((s1.hand h).setSld d)) h 1 0x0B 1 0 s.me.pc
            else match dieOf (.vmu h) locs with
              | some c => out (sendDie s1 (.handAccess h) s.me.part c (.amo o) locs (leBytes n y) (leBytes n e) addr)
              | none =>
                let r := amoLocal s1 (.vmu h) o n locs y e
                completeAmo r.1 h o d n q.toNat r.2 4

/-- `ld.acq` (R116): an aligned load, sign-extended, an acquire at q; it bypasses the data cache at device scope and wider, and removes
its lines once it has performed (R210). -/
def execLdAcq (d a : Reg) (q : BitVec 3) (w : BitVec 1) (s : State) : Res :=
  let n := if w = 1 then 4 else 8
  let addr := s.me.rd a
  let h := s.curHand
  whenReady s [d, a] <|
  if addr.toNat % n ≠ 0 then raise s 0x05 0 addr
  else if s.me.fenced || s.me.acc.isSome then waitHere s
  else match locate s h addr n .load true with
    | .fault c sub ad => raise s c sub ad
    | .hold ad => holdAccess s 0x06 ad
    | .ok locs =>
      if s.me.mustWait addr.toNat n true || s.me.storeAhead locs then waitHere s else
      let wide := decide (q.toNat ≥ 2)
      let ag : Agent := if wide then .bypass h else .hand h
      whenFunded s ag (if wide then locs else missing s h locs) fun p =>
        let s1 := noteTlb p h addr n .load
        let s2 := if wide then s1 else fillDcache s1 h locs
        let rd := if wide then readUncached h else readCached h
        loadOutcome h d n true wide 4 addr (gather (.handAccess h) ag .read rd addr (n + 1) s2 locs [])

/-- `st.rel` (R116): an aligned store, a release at q; it bypasses the data cache at device scope and wider. -/
def execStRel (a b : Reg) (q : BitVec 3) (w : BitVec 1) (s : State) : Res :=
  let n := if w = 1 then 4 else 8
  let addr := s.me.rd a
  let h := s.curHand
  whenReady s [a, b] <|
  if addr.toNat % n ≠ 0 then raise s 0x05 0 addr
  else if s.me.fenced || s.me.acc.isSome then waitHere s
  else match locate s h addr n .store true with
    | .fault c sub ad => raise s c sub ad
    | .hold ad => holdAccess s 0x07 ad
    | .ok locs =>
      let t := clearMarks s h
      if s.me.mustWait addr.toNat n false || !(t.hand h).storesLeft || !performedAt t h q.toNat then waitHere s else
      let ag : Agent := if q.toNat ≥ 2 then .bypass h else .hand h
      whenFunded t ag locs fun p => goOn (store (noteTlb p h addr n .store) ag addr locs (leBytes n (s.me.rd b).toNat)) h 4

/-! ## The instructions -/

/-- `ld.b`: 1 byte, sign-extended. -/
def execLdB (d a : Reg) (im : BitVec 11) (s : State) : Res := loadForm d a (sext im) 1 true 4 s
/-- `ld.h`: 2 bytes, sign-extended. -/
def execLdH (d a : Reg) (im : BitVec 11) (s : State) : Res := loadForm d a (sext im) 2 true 4 s
/-- `ld.w`: 4 bytes, sign-extended. -/
def execLdW (d a : Reg) (im : BitVec 11) (s : State) : Res := loadForm d a (sext im) 4 true 4 s
/-- `ld.d`: 8 bytes, sign-extended. -/
def execLdD (d a : Reg) (im : BitVec 11) (s : State) : Res := loadForm d a (sext im) 8 true 4 s
/-- `ld.bn`: 1 byte, zero-extended. -/
def execLdBn (d a : Reg) (im : BitVec 11) (s : State) : Res := loadForm d a (sext im) 1 false 4 s
/-- `ld.hn`: 2 bytes, zero-extended. -/
def execLdHn (d a : Reg) (im : BitVec 11) (s : State) : Res := loadForm d a (sext im) 2 false 4 s
/-- `ld.wn`: 4 bytes, zero-extended. -/
def execLdWn (d a : Reg) (im : BitVec 11) (s : State) : Res := loadForm d a (sext im) 4 false 4 s
/-- `st.b`: the low 1 byte of S[b]. -/
def execStB (b a : Reg) (im : BitVec 11) (s : State) : Res := storeForm b a (sext im) 1 4 s
/-- `st.h`: the low 2 bytes of S[b]. -/
def execStH (b a : Reg) (im : BitVec 11) (s : State) : Res := storeForm b a (sext im) 2 4 s
/-- `st.w`: the low 4 bytes of S[b]. -/
def execStW (b a : Reg) (im : BitVec 11) (s : State) : Res := storeForm b a (sext im) 4 4 s
/-- `st.d`: the low 8 bytes of S[b]. -/
def execStD (b a : Reg) (im : BitVec 11) (s : State) : Res := storeForm b a (sext im) 8 4 s
/-- `amo.swap`. -/
def execAmoSwap (d a b : Reg) (q : BitVec 3) (w : BitVec 1) (s : State) : Res := amoForm .swap d a b q w s
/-- `amo.add`. -/
def execAmoAdd (d a b : Reg) (q : BitVec 3) (w : BitVec 1) (s : State) : Res := amoForm .add d a b q w s
/-- `amo.and`. -/
def execAmoAnd (d a b : Reg) (q : BitVec 3) (w : BitVec 1) (s : State) : Res := amoForm .and d a b q w s
/-- `amo.or`. -/
def execAmoOr (d a b : Reg) (q : BitVec 3) (w : BitVec 1) (s : State) : Res := amoForm .or d a b q w s
/-- `amo.xor`. -/
def execAmoXor (d a b : Reg) (q : BitVec 3) (w : BitVec 1) (s : State) : Res := amoForm .xor d a b q w s
/-- `amo.max`. -/
def execAmoMax (d a b : Reg) (q : BitVec 3) (w : BitVec 1) (s : State) : Res := amoForm .max d a b q w s
/-- `amo.min`. -/
def execAmoMin (d a b : Reg) (q : BitVec 3) (w : BitVec 1) (s : State) : Res := amoForm .min d a b q w s
/-- `amo.maxn`. -/
def execAmoMaxn (d a b : Reg) (q : BitVec 3) (w : BitVec 1) (s : State) : Res := amoForm .maxn d a b q w s
/-- `amo.minn`. -/
def execAmoMinn (d a b : Reg) (q : BitVec 3) (w : BitVec 1) (s : State) : Res := amoForm .minn d a b q w s
/-- `amo.cas`. -/
def execAmoCas (d a b : Reg) (q : BitVec 3) (w : BitVec 1) (s : State) : Res := amoForm .cas d a b q w s
/-- `c.ld`: L ← mem64[S[b] + 8·imm6]. -/
def execCLd (b : Reg) (im : BitVec 6) (s : State) : Res := loadForm s.me.sld b (zext im <<< 3) 8 true 2 s
/-- `c.st`: mem64[S[b] + 8·imm6] ← L. -/
def execCSt (b : Reg) (im : BitVec 6) (s : State) : Res := storeForm s.me.sld b (zext im <<< 3) 8 2 s

/-! ## Completion of accesses that left the device -/

/-- The bytes of an outstanding access of a hand have come back (R305, R212). -/
def accessReply (s : State) (h : Nat) (bytes : List Byte) : State :=
  let x := s.hand h
  match x.acc with
  | none => s
  | some o =>
    let w : Awaited := { tag := o.tag, locs := o.locs, got := o.got }
    match o.kind with
    | .load d n signed acq =>
      let s1 := s.setHand h { x with acc := none }
      let ag : Agent := if acq then .bypass h else .hand h
      let rd := if acq then readUncached h else readCached h
      loadOutcome h d n signed acq o.len o.addr (gatherOn (.handAccess h) ag (readOp o.addr.toNat n) rd o.addr s1 w bytes)
    | .amo op d n q => completeAmo s h op d n q (leValue bytes) o.len
    | .torn _ _ _ => s
    | .add => handOff s h
    | .fetch base =>
      let b : Buf := { base := base, bytes := bytes, failed := none }
      s.setHand h { x with acc := none, cur := some b }

/-- The bytes of an outstanding access of a hand are poisoned (R226): a load faults precisely, an AMO as its own poison (log 51), a fetch
leaves the buffer marked failed. -/
def accessPoison (s : State) (h : Nat) : State :=
  let x := s.hand h
  match x.acc with
  | none => s
  | some o =>
    let s1 := s.setHand h { x with acc := none }
    match o.kind with
    | .load _ _ _ _ => preciseFault s1 h 0x0B 1 0 x.pc
    | .amo _ d _ _ => scalarFault (s1.setHand h ((s1.hand h).setSld d)) h 1 0x0B 1 0 x.pc
    | .torn _ _ _ => s
    | .add => scalarFault s1 h 1 0x0B 1 0 x.pc
    | .fetch base => s1.setHand h { s1.hand h with cur := some { base := base, bytes := [], failed := some 0 } }

/-- An outstanding access of a hand has failed (Table 15.12): a load or AMO parks with remote failure at its lowest failing byte (R318), a
fetch leaves the buffer marked failed and counts in `rerr` (R308).  `sub` is 1 timed out, 2 dead, 4 refused; a timed-out AMO is
indeterminate, 3. -/
def accessFail (s : State) (h sub : Nat) : State :=
  let x := s.hand h
  match x.acc with
  | none => s
  | some o =>
    let s1 := s.setHand h { x with acc := none }
    let addr := o.addr + nat64 o.got.length
    match o.kind with
    | .load d _ _ _ => remoteFault s1 h d sub addr
    | .amo _ d _ _ => remoteFault s1 h d (if sub = 1 then 3 else sub) addr
    | .torn _ _ _ => s
    | .add => scalarFault s1 h 1 0x0C (if sub = 1 then 3 else sub) addr x.pc
    | .fetch base =>
      s1.setHand h { s1.hand h with rerr := x.rerr + 1, cur := some { base := base, bytes := [], failed := some 0 } }

/-- A fetch into the next buffer ends, unless another has taken its place (R69). -/
def nextDone (s : State) (h tag : Nat) (bytes : List Byte) (failed : Option Nat) : State :=
  let x := s.hand h
  match x.nacc, x.nxt with
  | some o, some b =>
    if o.tag = tag then s.setHand h { x with nacc := none, nxt := some { base := b.base, bytes := bytes, failed := failed } } else s
  | _, _ => s

/-- The block that was to go into the next buffer has come (R69). -/
def nextReply (s : State) (h tag : Nat) (bytes : List Byte) : State := nextDone s h tag bytes none

/-- It could not be fetched: the next buffer is marked failed, and no fault is raised (R69); a remote failure counts in `rerr` (R308). -/
def nextFail (s : State) (h tag : Nat) (remote : Bool) : State :=
  let t := if remote then s.setHand h { s.hand h with rerr := (s.hand h).rerr + 1 } else s
  nextDone t h tag [] (some 0)

end Sys2Proof.Machine
end

