-- ==== Sys2Proof/Machine/Csr.lean ====
section
/-!
DEFINITION. The hand CSRs (R88 to R92, Table 4.17) and the CSR instructions (R105, R118).
-/

namespace Sys2Proof.Machine

/-- `hstat`: [0] det, [1] rck, [2] frozen-cause-valid (Table 4.17). -/
def Hand.hstat (x : Hand) : Word :=
  BitVec.ofNat 64 ((if x.det then 1 else 0) + (if x.rck then 2 else 0) + (if x.fcv then 4 else 0))

/-- The value of a hand CSR (Table 4.17); a number without a CSR reads 0 here and is illegal where it is decoded (R88). -/
def csrRead (s : State) (h n : Nat) : Word :=
  let x := s.hand h
  match n with
  | 0x000 => x.vtype
  | 0x001 => x.vl
  | 0x002 => x.rc
  | 0x003 => x.vt
  | 0x004 => x.vstart
  | 0x005 => x.bpc
  | 0x006 => x.lastd
  | 0x007 => x.fflags
  | 0x008 => x.hstat
  | 0x009 => BitVec.ofNat 64 h
  | 0x00A => BitVec.ofNat 64 x.farm
  | 0x00B => x.strip
  | 0x00C => (s.core (coreOf h)).cyc
  | 0x00D => BitVec.ofNat 64 x.accb
  | 0x00E => BitVec.ofNat 64 x.accn
  | 0x00F => BitVec.ofNat 64 x.spb
  | 0x010 => BitVec.ofNat 64 x.spn
  | 0x011 => BitVec.ofNat 64 Config.node
  | 0x012 => BitVec.ofNat 64 x.part
  | 0x013 => BitVec.ofNat 64 (vlrowOf x.vtype)
  | 0x014 => BitVec.ofNat 64 (vnOf x.vl.toNat x.rc.toNat x.vt.toNat)
  | 0x015 => x.evt
  | 0x016 => x.rerr
  | _ => 0

/-- A hand whose windows lie inside the granted ones (R90). -/
def windowsOk (x : Hand) : Bool :=
  decide (x.gAccb ≤ x.accb) && decide (x.accb + x.accn ≤ x.gAccb + x.gAccn) && decide (x.gSpb ≤ x.spb)
    && decide (x.spb + x.spn ≤ x.gSpb + x.gSpn)

/-- The hand if its tile is legal (R89). -/
def ifTile (x : Hand) : Option Hand := if tileOk x.vtype x.vl x.rc x.vt then some x else none
/-- The hand if its windows lie inside the granted ones (R90). -/
def ifWindows (x : Hand) : Option Hand := if windowsOk x then some x else none

/-- A write of a hand CSR; nothing where the write is illegal (R88 to R92). -/
def csrWrite (x : Hand) (n : Nat) (v : Word) : Option Hand :=
  match n with
  | 0x000 => ifTile { x with vtype := v }
  | 0x001 => ifTile { x with vl := v }
  | 0x002 => ifTile { x with rc := v }
  | 0x003 => ifTile { x with vt := v }
  | 0x004 => some { x with vstart := v }
  | 0x005 => some { x with bpc := v }
  | 0x006 => some { x with lastd := v &&& 0x1F1F#64 }
  | 0x007 => some { x with fflags := v &&& 0x1FF#64 }
  | 0x00B => some { x with strip := v }
  | 0x00D => ifWindows { x with accb := v.toNat }
  | 0x00E => ifWindows { x with accn := v.toNat }
  | 0x00F => ifWindows { x with spb := v.toNat }
  | 0x010 => ifWindows { x with spn := v.toNat }
  | 0x015 => some { x with evt := v }
  | 0x016 => some { x with rerr := v }
  | _ => none

/-- CSRs that wait for the hand's earlier dispatched instructions (R105). -/
def csrWaits (n : Nat) : Bool := decide (n = 0x007 ∨ n = 0x004 ∨ n = 0x005 ∨ n = 0x016)

/-- CSRs of the tile (R199). -/
def csrTile (n : Nat) : Bool := decide (n ∈ [0x000, 0x001, 0x002, 0x003, 0x014])

/-- The CSR instruction waits: for earlier dispatched instructions (R105), or for a pending tile (R199). -/
def csrHeld (x : Hand) (n : Nat) : Bool := (csrWaits n && decide (x.rq ≠ [])) || (csrTile n && x.tilePending)

/-- A CSR instruction that writes `new old S[a]` (R118): S[d] ← old; its own change of sld comes first, so that a written
`lastd` stands. -/
def csrForm (new : Word → Word → Word) (d a : Reg) (c : BitVec 12) (s : State) : Res :=
  let n := c.toNat
  let old := csrRead s s.curHand n
  whenReady s [d, a] <|
  if csrHeld s.me n then waitHere s
  else match csrWrite (s.me.setSld d) n (new old (s.me.rd a)) with
    | none => raise s 0x01 0 0
    | some y => .next (finish s (y.wr d old) 4)

/-- `csrr`: S[d] ← CSR. -/
def execCsrr (d : Reg) (c : BitVec 12) (s : State) : Res :=
  whenReady s [d] <|
  if csrHeld s.me c.toNat then waitHere s
  else writeBack s s.me d (csrRead s s.curHand c.toNat) 4
/-- `csrw`: new = S[a]. -/
def execCsrw (d a : Reg) (c : BitVec 12) (s : State) : Res := csrForm (fun _ x => x) d a c s
/-- `csrs`: new = old or S[a]. -/
def execCsrs (d a : Reg) (c : BitVec 12) (s : State) : Res := csrForm (fun o x => o ||| x) d a c s
/-- `csrc`: new = old and not S[a]. -/
def execCsrc (d a : Reg) (c : BitVec 12) (s : State) : Res := csrForm (fun o x => o &&& ~~~x) d a c s

end Sys2Proof.Machine
end

