-- ==== Sys2Proof/Machine/Control.lean ====
section
/-!
DEFINITION. VCFG (R151), the fences (R108, R109, R282), hand control and synchronisation (R66 to R77), `ecall`, `ebreak` (R119) and
`end` (R339, R340), with the ways a hand leaves Wait (R51).
-/

namespace Sys2Proof.Machine

/-! ## VCFG (R151) -/

/-- The tile set by a VCFG form: S[d] ← vn (R151). -/
def vcfgDone (s : State) (x : Hand) (d : Reg) (vtype : Word) (vl rc vt : Nat) : Res :=
  writeBack s { x with vtype := vtype, vl := nat64 vl, rc := nat64 rc, vt := nat64 vt } d (nat64 (vnOf vl rc vt)) 4

/-- `vtype`: a value with [63:6] ≠ 0 is illegal; vl, rc and vt are clamped (R151). -/
def execVtype (d a : Reg) (s : State) : Res :=
  let x := s.me
  let n := x.rd a
  let vl := min x.vl.toNat (vlrowOf n)
  whenTile s <| whenReady s [d, a]
    (if n.toNat ≥ 64 then raise s 0x01 0 0
     else vcfgDone s x d n vl (min x.rc.toNat (rmaxOf n)) (min x.vt.toNat vl))

/-- `setvl`: vl ← max(1, min(n, VLROW)); vt ← vl (R151). -/
def execSetvl (d a : Reg) (s : State) : Res :=
  let x := s.me
  let vl := max 1 (min (x.rd a).toNat (vlrowOf x.vtype))
  whenTile s <| whenReady s [d, a] (vcfgDone s x d x.vtype vl x.rc.toNat vl)

/-- `setrc`: rc ← min(n, RMAX) (R151). -/
def execSetrc (d a : Reg) (s : State) : Res :=
  let x := s.me
  whenTile s <| whenReady s [d, a] (vcfgDone s x d x.vtype x.vl.toNat (min (x.rd a).toNat (rmaxOf x.vtype)) x.vt.toNat)

/-- `setvt`: vt ← max(1, min(n, vl)) (R151). -/
def execSetvt (d a : Reg) (s : State) : Res :=
  let x := s.me
  whenTile s <| whenReady s [d, a] (vcfgDone s x d x.vtype x.vl.toNat x.rc.toNat (max 1 (min (x.rd a).toNat x.vl.toNat)))

/-- `setvn`: the tile of n elements, capped at the full group (R151). -/
def execSetvn (d a : Reg) (s : State) : Res :=
  let x := s.me
  let n := (x.rd a).toNat
  whenTile s <| whenReady s [d, a] <|
  if n = 0 then vcfgDone s x d x.vtype 1 0 1
  else
    let vl := min n (vlrowOf x.vtype)
    let rc := min ((n + vl - 1) / vl) (rmaxOf x.vtype)
    vcfgDone s x d x.vtype vl rc (min vl (n - (rc - 1) * vl))

/-! ## Fences -/

/-- The instruction goes on once a wait has ended. -/
def goWhen (c : Bool) (s : State) : Res := if c then .next (finish s s.me 4) else waitHere s

/-- `fence.sv`: every earlier scalar access has performed and is acknowledged (R108). -/
def execFenceSv (s : State) : Res := goWhen (s.me.scalarStoresDone && s.me.acc.isNone) s
/-- `fence.vs`: every earlier dispatched memory access has performed and is acknowledged (R109).  A later scalar load performs after them
at every scope, so it reads no line filled before: the data cache lines go (R286). -/
def execFenceVs (s : State) : Res := if vectorDone s.me then goWhen true (dropDcache s s.curHand) else waitHere s

/-- A dispatched instruction that reads memory (R282). -/
def loadType (e : Entry) : Bool :=
  match e.kind with
  | .store _ _ => false
  | .sc => false
  | .qget => false
  | .mst => false
  | .wred => false
  | _ => memoryType e

/-- A fence that acts as an acquire at device scope or wider drops the data cache lines (R282). -/
def fenceDone (q : BitVec 3) (s : State) : Res :=
  let t := if q.toNat ≥ 2 then dropDcache s s.curHand else s
  .next (finish t { t.me with fencing := false } 4)

/-- A fence waits: from now on its instruction is no safe point (R283). -/
def fenceWaits (s : State) : Res := .next (s.setMe { s.me with fencing := true })

/-- Every earlier read of a copy's chunks has been made (R282). -/
def Copy.read (c : Copy) : Bool := c.left.all fun p => c.flight.any fun f => f.1 == p.1 && (match f.2 with
  | .putting _ _ => true
  | .written => true
  | _ => false)

/-- Every earlier load of the hand has performed (R282). -/
def Hand.loadsDone (x : Hand) : Bool :=
  x.rq.all (fun e => !loadType e || e.kind == .pf || (decide (e.kind ≠ .copy) && e.performed)) && x.copies.all (fun c => c.2.read) && x.acc.isNone

/-- `fence.acq`: waits for every earlier load (R282). -/
def execFenceAcq (q : BitVec 3) (s : State) : Res := if s.me.loadsDone then fenceDone q s else fenceWaits s
/-- `fence.rel` waits for nothing: it marks every later store, which performs once every access earlier than the fence has performed at q
(R282). -/
def execFenceRel (q : BitVec 3) (s : State) : Res :=
  let c := s.core (coreOf s.curHand)
  let t := s.setCore (coreOf s.curHand) { c with age := c.age + 1 }
  .next (finish t { t.me with marks := t.me.marks ++ [{ scope := q.toNat, age := c.age }] } 4)
/-- `fence.ar`: waits for every earlier access at q (R282). -/
def execFenceAr (q : BitVec 3) (s : State) : Res :=
  if performedAt s s.curHand q.toNat && s.me.acc.isNone then fenceDone q s else fenceWaits s

/-! ## Wait -/

/-- The hand enters Wait at its instruction; what pends takes effect there, Wait being a safe point (R48, R50). -/
def enterWait (s : State) (x : Hand) (w : WaitOn) (arrived : Option Bool) : State :=
  takeRequests (s.setMe { x with st := .wait, resume := x.resumeNow, waiting := some w, arrived := arrived }) s.curHand

/-- Hand `n` was placed in the farm of hand `h` (R72). -/
def placedWith (s : State) (h n : Nat) : Bool :=
  match s.farm (s.hand h).farm with
  | some f => f.hands.any fun p => p.hid == n
  | none => decide ((s.hand n).farm = (s.hand h).farm ∧ (s.hand n).st ≠ .off)

/-- The hand that a put of hand `h` reaches: its east or west neighbour (R72). -/
def neighbour (h : Nat) (east : Bool) : Nat := (h / 16) * 16 + (h % 16 + (if east then 1 else 15)) % 16

/-- The queue of a neighbour accepts values: it is of this farm and not Off (R72). -/
def linkOpen (s : State) (h n : Nat) : Bool := decide ((s.hand n).farm = (s.hand h).farm ∧ (s.hand n).st ≠ .off)

/-- The inbound queue that a put fills: from-west of the east neighbour, from-east of the west one (R72). -/
def linkQueue (x : Hand) (east : Bool) : List Word := if east then x.linkW else x.linkE

/-- A value appended to a neighbour's queue. -/
def linkAppend (s : State) (n : Nat) (east : Bool) (v : Word) : State :=
  let x := s.hand n
  s.setHand n (if east then { x with linkW := x.linkW ++ [v] } else { x with linkE := x.linkE ++ [v] })

/-- `lnk.put` (R72): l0 (q = 0) to the east, l1 to the west. -/
def execLnkPut (a : Reg) (q : BitVec 3) (s : State) : Res :=
  let east := decide (q = 0)
  let n := neighbour s.curHand east
  let v := s.me.rd a
  whenReady s [a] <|
  if !placedWith s s.curHand n then raise s 0x01 0 0
  else if !linkOpen s s.curHand n then .next (finish s s.me 4)
  else if (linkQueue (s.hand n) east).length < 4 then
    let t := linkAppend s n east v
    .next (finish t t.me 4)
  else .next (enterWait s s.me (.lnkPut east v) none)

/-- The oldest entry of a hand's own queue taken into S[d] (R72). -/
def linkTake (x : Hand) (d : Reg) (fromWest : Bool) : Option Hand :=
  match (if fromWest then x.linkW else x.linkE) with
  | [] => none
  | v :: rest =>
    let y := (x.wr d v).setSld d
    some (if fromWest then { y with linkW := rest } else { y with linkE := rest })

/-- `lnk.get` (R72): l2 (q = 2) from the west, l3 from the east. -/
def execLnkGet (d : Reg) (q : BitVec 3) (s : State) : Res :=
  let west := decide (q = 2)
  whenReady s [d] <|
  match linkTake s.me d west with
  | some y => .next (finish s y 4)
  | none => .next (enterWait s (s.me.setSld d) (.lnkGet d west) none)

/-- `sig`: once every earlier access has performed at core scope, bit S[a][5:0] of the reeve's `hsig` is set (R73). -/
def execSig (a : Reg) (s : State) : Res :=
  whenReady s [a] <|
  if performedAt s s.curHand 1 then
    let c := coreOf s.curHand
    let r := s.reeve c
    let t := s.setReeve c { r with hsig := r.hsig ||| (1#64 <<< ((s.me.rd a).toNat % 64)) }
    .next (finish t t.me 4)
  else waitHere s

/-- A barrier among the farm's hands on the core or on the device (R75, R76): the hand arrives, the last arrival completes it, and only
then, where it still waits, a request that pends takes effect (R50). -/
def barrier (device : Bool) (s : State) : Res :=
  let h := s.curHand
  if performedAt s h (if device then 2 else 1) then
    let x := s.me
    let t := s.setMe { x with st := .wait, resume := x.resumeNow, waiting := some (if device then .fbar else .bar), arrived := some device }
    let u := barrierCheck t x.farm (if device then none else some (coreOf h))
    .next (if (u.hand h).st.quiet then takeRequests u h else u)
  else waitHere s

/-- `bar` (R75). -/
def execBar (s : State) : Res := barrier false s
/-- `fbar` (R76). -/
def execFbar (s : State) : Res := barrier true s

/-- `claim` (R77): the next strip, or all ones. -/
def execClaim (d : Reg) (s : State) : Res :=
  whenReady s [d] <|
  match s.farm s.me.farm with
  | some f =>
    let v := if f.ctr < f.pkt.strips then nat64 f.ctr else allOnes
    let t := s.updFarm s.me.farm fun g => { g with ctr := if g.ctr < g.pkt.strips then g.ctr + 1 else g.ctr }
    writeBack t { t.me with strip := v } d v 4
  | none => writeBack s { s.me with strip := allOnes } d allOnes 4

/-- `wfe`: once `evt` ≠ 0, S[d] ← evt and evt ← 0 in one step (R74). -/
def execWfe (d : Reg) (s : State) : Res :=
  whenReady s [d] <|
  if s.me.evt ≠ 0 then writeBack s { s.me with evt := 0 } d s.me.evt 4
  else .next (enterWait s (s.me.setSld d) (.wfe d) none)

/-- `yield`: Wait for 64 scalar cycles (R70). -/
def execYield (s : State) : Res := .next (enterWait s s.me (.yield (s.core (coreOf s.curHand)).cyc) none)

/-- 64 scalar cycles have passed since a `yield` began (R70). -/
def yieldOver (s : State) (h : Nat) (start : Word) : Bool := decide (((s.core (coreOf h)).cyc - start).toNat ≥ 64)

/-- A hand in Wait whose condition holds goes to its resume state, after the instruction (R49, R51).  One whose hold has taken effect
is not released: it becomes Held (R64). -/
def waitTry (s : State) (h : Nat) : State :=
  let x := s.hand h
  if x.draining then s else
  match x.waiting with
  | some (.wfe d) => if x.evt ≠ 0 then s.setHand h ({ x with evt := 0 }.wr d x.evt).passWait else s
  | some .bar => barrierCheck s x.farm (some (coreOf h))
  | some .fbar => barrierCheck s x.farm none
  | some (.yield start) => if yieldOver s h start then s.setHand h x.passWait else s
  | some (.lnkPut east v) =>
    let n := neighbour h east
    if !linkOpen s h n then s.setHand h x.passWait
    else if (linkQueue (s.hand n) east).length < 4 then
      let t := linkAppend s n east v
      t.setHand h (t.hand h).passWait
    else s
  | some (.lnkGet d west) =>
    match linkTake x d west with
    | some y => s.setHand h y.passWait
    | none => s
  | none => s

/-- What follows a hand's leaving Wait: one that has come to Idle at the end of its block takes the requests that pend (R50, R54). -/
def afterWait (s : State) (h : Nat) : State := if (s.hand h).st = .idle then takeRequests s h else s

/-- WAIT_CONDITION_MET: the condition of a hand in Wait holds (R51). -/
def execWaitConditionMet (h : Nat) (s : State) : Res :=
  forUnit h Config.numHands (onlyIf (decide ((s.hand h).st = .wait)) s (afterWait (waitTry s h) h))

/-- YIELD_EXPIRY: 64 scalar cycles after `yield` (R70). -/
def execYieldExpiry (h : Nat) (s : State) : Res :=
  forUnit h Config.numHands
    (match (s.hand h).waiting with
      | some (.yield _) => onlyIf (decide ((s.hand h).st = .wait)) s (afterWait (waitTry s h) h)
      | _ => .next s)

/-! ## Control -/

/-- `stop`: the hand returns to Idle after its own issue; its VIQ drains (R70). -/
def execStop (s : State) : Res :=
  .next (takeRequests (s.setMe { s.me with st := .idle, pc := s.me.pc + 4 }) s.curHand)

/-- `go` (R68): an odd target is misaligned. -/
def execGo (a : Reg) (s : State) : Res :=
  let t := s.me.rd a
  whenReady s [a] (if t.getLsbD 0 then raise s 0x05 0 t else .next (goTo s s.me t))

/-- The block that contains an address. -/
def blockBase (a : Word) : Nat := a.toNat / 64 * 64

/-- The number of a block of this device's cacheable memory in a core's hand instruction cache: its PA line.  The spec does not say how
the cache is tagged, nor that other blocks are cached: the model keeps those of cacheable DRAM by place (log 9, DESIGN CHOICE). -/
def icacheKey (locs : List Loc) : Option Nat :=
  if locs.all (fun l => match l with | .dram _ nc => !nc | _ => false) then
    match locs.head? with
    | some (.dram pa _) => some (pa / 64)
    | _ => none
  else none

/-- The outcome of a block fetch through the core's hand instruction cache (R67, R71). -/
inductive Fetched where
  | buf (b : Buf)
  | wait (a : Awaited)
  | hold
  /-- It waits for tokens (R224). -/
  | unpaid
  | violation (code off : Nat)
  deriving DecidableEq, Repr

/-- A block that could not be fetched: the buffer is marked failed. -/
def failedBuf (base sub : Nat) : Fetched := .buf { base := base, bytes := [], failed := some sub }

/-- Fetches the block at `base` (R67): it is translated every time, and a failed translation or fetch leaves the buffer marked failed.
Where the cache holds the block and memory has changed, each byte is old or new, by a free choice (R71, log 9). -/
def fetchBlock (s : State) (who : Waiter) (h base : Nat) : State × Fetched :=
  match locate s h (nat64 base) 64 .fetch true with
  | .fault _ sub _ => (s, failedBuf base sub)
  | .hold _ => (s, .hold)
  | .ok locs =>
    let c := s.core (coreOf h)
    let s1 := noteTlb s h (nat64 base) 64 .fetch
    match (icacheKey locs).bind fun k => (tabFind c.icache k).map fun line => (k, line) with
    | some (k, line) =>
      if [2 * k, 2 * k + 1].any c.ipoison.contains then (s1, failedBuf base 0)
      else
        let bytes := (List.range 64).map fun j => pick s j [line.getD j 0, readLoc s (locAt locs j)] 0
        (s1, .buf { base := base, bytes := bytes, failed := none })
    | none =>
      let p := payFor s1 (.hand h) locs
      if !p.2 then (p.1, .unpaid) else
      match gather who (.bypass h) .read (readUncached h) (nat64 base) 65 p.1 locs [] with
      | (t, .done bytes) =>
        let c := t.core (coreOf h)
        let u := match icacheKey locs with
          | some k => t.setCore (coreOf h) { c with
              icache := cacheAdd t c.icache k bytes, ipoison := c.ipoison.filter fun n => n / 2 != k }
          | none => t
        (u, .buf { base := base, bytes := bytes, failed := none })
      | (t, .wait a) => (t, .wait a)
      | (t, .violation c off) => (t, .violation c off)
      | (t, .remote _ _) => (t.setHand h { t.hand h with rerr := (t.hand h).rerr + 1 }, failedBuf base 0)
      | (t, .poison) => (t, failedBuf base 0)

/-- The hand needs another block: it is in Fetch and its program counter has left the current one (R67). -/
def Hand.needsBlock (x : Hand) : Bool :=
  decide (x.st = .fetch) && match x.cur with
    | some b => decide (b.base ≠ blockBase x.pc)
    | none => true

/-- The next buffer holds the block that the hand needs, filled or failed (R67). -/
def Hand.nextHits (x : Hand) : Bool := match x.nxt with
  | some b => decide (b.base = blockBase x.pc) && (decide (b.bytes ≠ []) || b.failed.isSome)
  | none => false

/-- A block fetch held by a migrating page (R217): held too long, it leaves the buffer marked failed with sub-status 5. -/
def holdFetch (s : State) (h base : Nat) : State :=
  let x := s.hand h
  let now := s.coreTick (coreOf h)
  let m : MigHold := { since := (x.migHold.map MigHold.since).getD now, cause := 0x08, addr := nat64 base }
  if now - m.since ≥ Config.holdTicks then
    s.setHand h { x with migHold := none, cur := some { base := base, bytes := [], failed := some 5 } }
  else s.setHand h { x.willWalk 0x08 (nat64 base) with migHold := some m }

/-- The block that a Fetch hand needs arrives in the current buffer, from the next buffer or by a fetch (R67). -/
def blockArrives (s : State) (h : Nat) : State :=
  let x := s.hand h
  if !x.needsBlock || x.acc.isSome then s
  else if x.nextHits then s.setHand h { x with cur := x.nxt, nxt := x.cur }
  else
    match fetchBlock s (.handAccess h) h (blockBase x.pc) with
    | (t, .buf b) => t.setHand h { t.hand h with cur := some b, migHold := none }
    | (t, .hold) => holdFetch t h (blockBase x.pc)
    | (t, .unpaid) => t
    | (t, .violation c off) => violate t x.part c (.hand h) (nat64 (Config.regBase + off))
    | (t, .wait w) => t.setHand h { t.hand h with
        acc := some { tag := w.tag, kind := .fetch (blockBase x.pc), addr := nat64 (blockBase x.pc), len := 0, locs := w.locs
                      got := w.got } }

/-- BLOCK_FETCH_ARRIVAL (R67). -/
def execBlockFetchArrival (h : Nat) (s : State) : Res :=
  forUnit h Config.numHands (onlyIf (s.hand h).needsBlock s (blockArrives s h))

/-- The next buffer is filled, wherever the block lies (R69). -/
def fillNext (s : State) (h : Nat) : State :=
  let x := s.hand h
  match x.nxt with
  | some b =>
    if b.bytes = [] ∧ b.failed = none ∧ x.nacc = none then
      match fetchBlock s (.handNext h) h b.base with
      | (t, .buf c) => t.setHand h { t.hand h with nxt := some c }
      | (t, .wait w) => t.setHand h { t.hand h with
          nacc := some { tag := w.tag, kind := .fetch b.base, addr := nat64 b.base, len := 0, locs := w.locs, got := w.got } }
      | (t, .violation c off) => violate t x.part c (.hand h) (nat64 (Config.regBase + off))
      | (_, .hold) => s
      | (t, .unpaid) => t
    else s
  | none => s

/-- NEXT_BUFFER_FILL (R69). -/
def execNextBufferFill (h : Nat) (s : State) : Res := forUnit h Config.numHands (.next (fillNext s h))

/-- `bfetch` starts to fill the next buffer; it never stalls and never faults; in Block it has no effect (R69). -/
def execBfetch (a : Reg) (s : State) : Res :=
  whenReady s [a] <|
  if s.me.st = .fetch then
    let t := s.setMe { s.me with nacc := none, nxt := some { base := blockBase (s.me.rd a), bytes := [], failed := none } }
    let u := if t.lockstep then fillNext t t.curHand else t
    .next (finish u u.me 4)
  else .next (finish s s.me 4)

/-- `ecall`: cause 0x0E once every earlier dispatched instruction has retired; the resume PC is PC + 4 (R119). -/
def execEcall (s : State) : Res := .next (preciseFault s s.curHand 0x0E 0 0 (s.me.pc + 4))
/-- `ebreak`: cause 0x0F (R119). -/
def execEbreak (s : State) : Res := .next (preciseFault s s.curHand 0x0F 0 0 (s.me.pc + 4))

/-! ## `end` (R339, R340) -/

/-- What `end` waits for: dispatched instructions, stores and copies (R339). -/
def Hand.endReady (x : Hand) : Bool := decide (x.rq = []) && x.storesDone && decide (x.copies = [])

/-- The completion word VA of a hand's farm. -/
def doneVa (s : State) (h : Nat) : Word := match s.farm (s.hand h).farm with
  | some f => f.pkt.done
  | none => 0

/-- The step of `end` (R339): the translation as a store that is never windowed, then one indivisible step at the word's
performing point that ORs the flags and adds 1 to the count; the hand is then Off. -/
def endStep (s : State) (h : Nat) : State :=
  let x := s.hand h
  let c := doneVa s h
  match locate s h c 8 .store false with
  | .fault cause sub ad => preciseFault s h cause sub ad x.pc
  | .hold ad => holdAccessOf s h 0x07 ad
  | .ok locs =>
    let p := payFor s (.vmu h) locs
    if !p.2 then p.1 else
    let s1 := noteTlb p.1 h c 8 .store
    let out (r : State × Nat) : State :=
      r.1.setHand h { r.1.hand h with acc := some { tag := r.2, kind := .add, addr := c, len := 4, locs := locs, got := [] } }
    let flags := leBytes 8 x.fflags.toNat
    match locs.head? with
    | some (.remote node _ _) =>
      if nodeDead s x.part node then scalarFault s1 h 1 0x0C 2 c x.pc
      else out (sendRemote s1 (.handEnd h) x.part node (.amo .complete) locs flags [] c)
    | some (.host _) => out (sendHost s1 (.handEnd h) x.part c fun g => .cas g x.part (locPas locs) .complete x.fflags 0 0)
    | _ =>
      match regBad s (.hand h) locs with
      | some (code, off) => violate s1 x.part code (.hand h) (nat64 (Config.regBase + off))
      | none =>
        if locs.any (poisonedLoc s) then scalarFault s1 h 1 0x0B 1 0 x.pc
        else match dieOf (.vmu h) locs with
          | some c' => out (sendDie s1 (.handEnd h) x.part c' (.amo .complete) locs flags [] c)
          | none => handOff (amoLocal s1 (.vmu h) .complete 8 locs x.fflags.toNat 0).1 h

/-- `end`: it waits for the hand's earlier work; a hold or stop request that reaches it while it waits takes effect
(R340). -/
def execEndHand (s : State) : Res :=
  if s.me.acc.isSome then waitHere s
  else if s.me.endReady then .next (endStep s s.curHand)
  else .next (takeRequests (s.setMe { s.me with ending := true }) s.curHand)

/-- END_COMPLETION_ADD: an `end` that waited makes its add (R339); a stop or hold request that has reached the hand takes effect instead,
and nothing is added (R340). -/
def execEndCompletionAdd (h : Nat) (s : State) : Res :=
  forUnit h Config.numHands
    (let x := s.hand h
     if x.ending && x.endReady && x.acc.isNone && decide (x.st = .block ∨ x.st = .fetch) then
      .next (if (x.stopReq.isSome || x.holdDue) && x.migHold.isNone then takeRequests s h else endStep s h)
     else .next s)

end Sys2Proof.Machine
end

