-- ==== Sys2Proof/Machine/Micro.lean ====
section
/-!
DEFINITION. Micro-ops (R153 to R157, R187, R204): what a renamed instruction is cracked into, the rows that each micro-op reads and
writes, and its cost.  A row is numbered register·8 + row of the register.
-/

namespace Sys2Proof.Machine

/-! ## Cracking (R153, R187, R204) -/

/-- What a micro-op does. -/
inductive Work where
  /-- Computes row r of the destination. -/
  | row (r : Nat)
  /-- Copies the old row r. -/
  | fill (r : Nat)
  /-- Rows of the stage at place j among those that the instruction goes through: one, or a pair. -/
  | stage (j : Nat) (rows : List Nat)
  /-- The whole instruction. -/
  | whole
  deriving DecidableEq, Repr

/-- Stages of a named form (Table 8.10); none where it has none. -/
def namedStages (e : Entry) : Option Nat :=
  let t := tileOf e
  let F := isF (formatWord e.fw).fa
  let L := Nat.log2 t.slots
  match e.kind with
  | .red .sumO => if F then none else some (L + 1)
  | .red .sumU => some (2 * L)
  | .red _ => some (L + 1)
  | .scan .add => if F then none else some (L + 1)
  | .scan .addx => if F then none else some (L + 1)
  | .scan _ => some (2 * L)
  | .rowred => some (Nat.log2 t.vlrow)
  | .permute .perm => some (L * (L + 1) / 2)
  | .permute _ => some (2 * L - 1)
  | .sort _ => some (L * (L + 1) / 2)
  | .sortkv => some (L * (L + 1) / 2)
  | .topk => some (L * (L + 1) / 2)
  | .rank => some (L * (L + 1) / 2)
  | .merge _ => some (L + 2)
  | _ => none

/-- The distance codes of the stages that an instruction goes through.  Table 8.10 gives a named form only the number of its stages; the
distance of its stage j is 2^(j mod L) (log 53, DESIGN CHOICE). -/
def stagesOf (e : Entry) : List Nat :=
  if e.kind = .pass then (List.range (stageCount e.fw - e.bpc.toNat)).map fun j => stageCode e.fw (e.bpc.toNat + j)
  else (List.range ((namedStages e).getD 0)).map (· % Nat.log2 (tileOf e).slots)

/-- A stage exchanges rows: its distance is VLROW or more (R187). -/
def rowExchange (t : Tile) (code : Nat) : Bool := decide (t.vlrow ≤ 2 ^ code)

/-- The rows of each micro-op of a stage: one row, or the pair of rows that a row-exchange stage exchanges (R187). -/
def stageRows (t : Tile) (code : Nat) : List (List Nat) :=
  let rows := 8 * t.grp
  if rowExchange t code then
    let dr := 2 ^ code / t.vlrow
    (List.range (rows / 2)).map fun j => [j / dr * (2 * dr) + j % dr, j / dr * (2 * dr) + j % dr + dr]
  else (List.range rows).map fun r => [r]

/-- The micro-ops of an instruction, in order (R153, R187, R204).  A mask destination is cracked by data row.  R153 counts destination
rows: a form with a scalar destination has none, and takes one micro-op; a `vcvt` into a bfp pair is cracked by its data rows, which fill
both groups (log 53, DESIGN CHOICE).  `vmv.vs` keeps every slot but one, so its rows past `rc` are copied whatever tp says. -/
def worksOf (e : Entry) : List Work :=
  let t := tileOf e
  let byRow : List Work := (List.range t.rc).map .row
    ++ (if t.tp && decide (e.kind ≠ .mvVs) then [] else ((List.range (8 * t.grp)).drop t.rc).map .fill)
  if memoryType e then []
  else match e.kind with
    | .bfLoad => []
    | .bfClr => []
    | .bfStat => []
    | .mpopc => [.whole]
    | .mfirst => [.whole]
    | .mvSv => [.whole]
    | .mma => [.whole]
    | .mlatch => [.whole]
    | .mzero => [.whole]
    | .mrd => [.whole]
    | .mwr => [.whole]
    | _ =>
      if e.kind = .pass ∨ (namedStages e).isSome then
        ((stagesOf e).zipIdx.map fun c => (stageRows t c.1).map (Work.stage c.2)).flatten
      else match e.kind with
        | .red _ => [.whole]
        | .scan _ => [.whole]
        | _ => byRow

/-- How many micro-ops an instruction is cracked into. -/
def opsOf (e : Entry) : Nat := (worksOf e).length

/-- Fresh physical registers that an instruction takes (R152). -/
def freshRegs (e : Entry) : Nat := min 8 (writesOf e).length

/-! ## Rows read and written (R155, R156) -/

/-- The row of a mask, or of a destination mask, that holds the bits of data row r (R156). -/
def maskRow (t : Tile) (r : Nat) : Nat := r * t.vlrow / 1024

/-- The row of a group of w-bit fields, packed without gaps, that holds the fields of data row r. -/
def denseRow (t : Tile) (w r : Nat) : Nat := r * w / t.sew

/-- Rows of the destination that data row r reaches. -/
def destRows (e : Entry) (r : Nat) : List Nat :=
  let t := tileOf e
  let w := formatWord e.fw
  let d := 8 * e.d.toNat
  match e.kind with
  | .cmp _ => [d + maskRow t r]
  | .mask _ => [d + maskRow t r]
  | .un .cvt =>
    let q := denseRow t (codeWidth w.fd w.md) r
    if w.fd = 14 then [d + q, d + 8 * t.grp + q] else [d + q]
  | .sortkv => [d + r, d + 8 * t.grp + r]
  | .topk => [d + r, d + 8 * t.grp + r]
  | .merge _ => [d + r, d + 8 * t.grp + r]
  | _ => [d + r]

/-- Rows that a micro-op writes for later instructions: of a stage form, only its last stage. -/
def opWrites (e : Entry) : Work → List Nat
  | .row r => destRows e r
  | .fill r => destRows e r
  | .stage j rows => if j + 1 = (stagesOf e).length then rows.flatMap (destRows e) else []
  | .whole =>
    match e.kind with
    | .mrd => (List.range (8 * (tileOf e).grp)).flatMap (destRows e)
    | .red _ => (List.range (8 * (tileOf e).grp)).flatMap (destRows e)
    | .scan _ => (List.range (8 * (tileOf e).grp)).flatMap (destRows e)
    | _ => []

/-- Row r of the destination keeps something of its old value under R150: elements below `vstart`, inactive elements, or tail slots. -/
def rowKeeps (e : Entry) (r : Nat) : Bool :=
  let t := tileOf e
  let masked := decide (e.m ≠ 0) && !t.mp && decide (e.kind ≠ .sel)
  let cols := if r + 1 = t.rc then t.vt else t.vl
  decide (e.kind = .mvVs) || decide (r * t.vl < t.vstart) || masked || (!t.tp && decide (cols < t.vlrow))

/-- Rows of the mask for data row r: `viota` counts the active elements of the rows before it too. -/
def maskRows (e : Entry) (r : Nat) : List Nat :=
  let q := maskRow (tileOf e) r
  if e.m = 0 then [] else if e.kind = .iota then (List.range (q + 1)).map (8 * e.m.toNat + ·) else [8 * e.m.toNat + q]

/-- Rows of the sources from which data row r is computed. -/
def sourceRows (e : Entry) (r : Nat) : List Nat :=
  let t := tileOf e
  let w := formatWord e.fw
  let a := 8 * e.a.toNat
  let b := 8 * e.b.toNat
  let d := 8 * e.d.toNat
  let second := match e.src with
    | .reg n => [8 * n.toNat + r]
    | .val _ => []
  match e.kind with
  | .ew _ => [a + r] ++ second
  | .cmp _ => [a + r] ++ second
  | .sel => [a + r] ++ second
  | .fma _ => [d + r, a + r] ++ second
  | .un .cvt =>
    let q := denseRow t (codeWidth w.fa w.ma) r
    if w.fa = 14 then [a + q, a + 8 * t.grp + q] else [a + q]
  | .un _ => [a + r]
  | .cls => [a + r]
  | .scale => [a + r]
  | .mv => [a + r]
  | .mask .not => [a + maskRow t r]
  | .mask _ => [a + maskRow t r, b + maskRow t r]
  | .iota => (List.range (maskRow t r + 1)).map (a + ·)
  | .permute .perm => [a + r, b + r]
  | .permute .zip => [a + r, b + r]
  | .sortkv => [a + r, b + r]
  | .merge _ => [a + r, a + 8 * t.grp + r, b + r, b + 8 * t.grp + r]
  | .red _ => [a + r, b]
  | .scan _ => [a + r, b]
  | .rowred => [a + r]
  | .permute _ => [a + r]
  | .sort _ => [a + r]
  | .topk => [a + r]
  | .rank => [a + r]
  | .pass => [(if e.bpc = 0 then a else d) + r]
  | _ => []

/-- Rows that a micro-op reads (R155, R156); what a stage takes from the stage before it is no row of another instruction. -/
def opReads (e : Entry) : Work → List Nat
  | .row r => maskRows e r ++ sourceRows e r ++ (if rowKeeps e r then destRows e r else [])
  | .fill r => destRows e r
  | .stage j rows =>
    let t := tileOf e
    let first := if j = 0 then rows.flatMap fun r => maskRows e r ++ sourceRows e r else []
    let consts := if e.kind = .pass ∧ e.b ≠ 0 then rows.map fun r => 8 * (e.b.toNat + (e.bpc.toNat + j) * t.grp) + r else []
    let old := if e.kind ≠ .pass ∧ keepsOld e ∧ j + 1 = (stagesOf e).length then rows.flatMap (destRows e) else []
    first ++ consts ++ old
  | .whole =>
    let t := tileOf e
    let rows := List.range t.rc
    let all (rs : List Nat) : List Nat := rs.flatMap fun n => (List.range 8).map (8 * n + ·)
    match e.kind with
    | .mpopc => rows.flatMap fun r => maskRows e r ++ [8 * e.a.toNat + maskRow t r]
    | .mfirst => rows.flatMap fun r => maskRows e r ++ [8 * e.a.toNat + maskRow t r]
    | .mvSv => if e.sb.toNat < t.vn then [8 * e.a.toNat + e.sb.toNat / t.vl] else []
    | .red _ => rows.flatMap (fun r => maskRows e r ++ sourceRows e r) ++ (if keepsOld e then all (writesOf e) else [])
    | .scan _ => rows.flatMap (fun r => maskRows e r ++ sourceRows e r) ++ (if keepsOld e then all (writesOf e) else [])
    | .mrd => all (writesOf e)
    | _ => all (performReads e)

/-- Two TILE forms meet in an accumulator row or in the B latch, which are not renamed. -/
def rowsMeet (f e : Entry) : Bool :=
  (f.usesRows && e.usesRows) || (decide (f.kind = .mlatch) && decide (e.kind = .mma)) || (decide (f.kind = .mma) && decide (e.kind = .mlatch))
    || (decide (f.kind = .mlatch) && decide (e.kind = .mlatch))

/-! ## Cost (Tables 7.4 and 11.5, R187, R204) -/

/-- Latency of a row stage of an instruction (R187).  R204 says that a stage of a named form costs as in R187, which goes by the operator of
a pass, and names no operator for the forms: a stage that adds in an F format takes the 4 of `addp`, and every other, of sums in I and N formats,
maxima, minima, scans, sorts and moves, 2 (log 53, DESIGN CHOICE). -/
def stageLatency (e : Entry) : Nat :=
  let F := isF (formatWord e.fw).fa
  match e.kind with
  | .pass =>
    let o := operatorOf e.oper
    if o.cls = 4 then 5 else if (o.cls = 1 ∨ o.cls = 2) ∧ isF o.code then 4 else 2
  | .red .sumT => if F then 4 else 2
  | .red .sumU => if F then 4 else 2
  | .scan .addU => if F then 4 else 2
  | .rowred => if F then 4 else 2
  | _ => 2

/-- Occupancy and latency of a micro-op that computes a row (Table 7.4), or of a TILE form (Table 11.5).  Table 7.4 does not list
`vneg` and `vabs`, nor the bitwise forms in F formats: they cost 1 and 2, as moves and logic do (log 53, DESIGN CHOICE). -/
def rowCost (e : Entry) : Nat × Nat :=
  let w := formatWord e.fw
  let t := tileOf e
  let F := isF w.fa
  let slow := if w.fa = 9 then (3, 11) else (2, 10)
  match e.kind with
  | .ew .mul => (1, 5)
  | .ew .mulh => (1, 5)
  | .ew .mulhn => (1, 5)
  | .fma _ => (1, 5)
  | .ew .div => if F then (if t.sew = 64 then (8, 14) else (4, 10)) else if t.sew = 64 then (16, 20) else (8, 12)
  | .ew .rem => if t.sew = 64 then (16, 20) else (8, 12)
  | .un .sqrt => if t.sew = 64 then (8, 14) else (4, 10)
  | .un .rcp => slow
  | .un .rsqrt => slow
  | .un .exp2 => slow
  | .un .log2 => slow
  | .un .tanh => slow
  | .un .round => (1, 4)
  | .un .cvt => (1, 4)
  | .scale => (1, 4)
  | .cls => (1, 4)
  | .ew .add => (1, if F then 4 else 2)
  | .ew .sub => (1, if F then 4 else 2)
  | .ew .rsub => (1, if F then 4 else 2)
  | .ew .min => (1, if F then 4 else 2)
  | .ew .max => (1, if F then 4 else 2)
  | .cmp _ => (1, if F then 4 else 2)
  | .mma =>
    let n := if w.fa = 14 then (e.rep * w.ma + 4 * bfpWidth w.ma - 1) / (4 * bfpWidth w.ma) else (e.rep + 3) / 4
    (n, n + 8)
  | .mlatch => (4, 4)
  | .mzero => (1, 2)
  | .mrd => ((e.rep * 64 * t.sew + 1023) / 1024, (e.rep * 64 * t.sew + 1023) / 1024 + 4)
  | .mwr => ((e.rep * 64 * t.sew + 1023) / 1024, (e.rep * 64 * t.sew + 1023) / 1024 + 4)
  | _ => (1, 2)

/-- Occupancy and latency of a micro-op; `acts` counts the instruction's active elements. -/
def opCost (e : Entry) (acts : Nat) : Work → Nat × Nat
  | .row _ => rowCost e
  | .fill _ => (1, 2)
  | .stage j _ => if rowExchange (tileOf e) ((stagesOf e).getD j 0) then (2, stageLatency e + 1) else (1, stageLatency e)
  | .whole =>
    match e.kind with
    | .red _ => (4 * acts + 4, 4 * acts + 4)
    | .scan _ => (4 * acts + 4, 4 * acts + 4)
    | _ => rowCost e

/-- Issues to the matrix unit's row slots (units 4 to 7); every other micro-op issues to a lane cluster (0 to 3). -/
def Entry.matrixOp (e : Entry) : Bool := decide (e.kind ∈ [.mma, .mlatch, .mzero, .mrd, .mwr])

/-- The work of a micro-op. -/
def Entry.work (e : Entry) (k : Nat) : Work := (worksOf e).getD k .whole

end Sys2Proof.Machine
end

