-- ==== Sys2Proof/Machine/Issue.lean ====
section
/-!
DEFINITION. Dispatch (R99 to R102), what a dispatched instruction does when it retires (R158), what it leaves when it consumes an
uncorrectable error (R161, R185, R266, R325), and the engines in lockstep (log 2).
-/

namespace Sys2Proof.Machine

/-! ## Order of memory instructions (R233) -/

/-- A memory instruction of the VMU (Table 10.1, R264, R303), `vcopy` apart. -/
def Entry.inVmu (e : Entry) : Bool := memoryType e && decide (e.kind ≠ .copy)

/-- The memory instruction that performs: the oldest one not over, copies apart (R248), once the older ones have written what it reads
(R233) and none of them has a fault to take. -/
def memTarget (x : Hand) : Option Nat :=
  match x.rq.findIdx? fun e => e.inVmu && !e.performed with
  | none => none
  | some i =>
    match x.rq[i]? with
    | none => none
    | some e => if (x.rq.take i).all fun f => f.fault.isNone && independent f e then some i else none

/-! ## Retirement -/

/-- `vcopy` can start: a copy slot is free (R249). -/
def freeSlot (x : Hand) : Option Nat := (List.range 4).find? fun k => !(x.copies.any fun p => p.1 == k)

/-- Free values that an instruction uses (log 12). -/
def choicesOf (e : Entry) : Nat :=
  match e.kind with
  | .red .sumU => 2 * (tileOf e).vn + 2
  | .scan .addU => 16384 * ((tileOf e).vn + 1)
  | _ => 0

/-- The results of an instruction that accesses no memory and no accumulator row. -/
def evalVector (s : State) (h : Nat) (e : Entry) : VResult :=
  match e.kind with
  | .red _ => evalCross (s.hand h) e s.choice
  | .scan _ => evalCross (s.hand h) e s.choice
  | .rowred => evalCross (s.hand h) e s.choice
  | .permute _ => evalCross (s.hand h) e s.choice
  | .sort _ => evalCross (s.hand h) e s.choice
  | .sortkv => evalCross (s.hand h) e s.choice
  | .topk => evalCross (s.hand h) e s.choice
  | .merge _ => evalCross (s.hand h) e s.choice
  | .rank => evalCross (s.hand h) e s.choice
  | .mrd => readRows s h e
  | _ => evalElem (s.hand h) e

/-- The results of an instruction that accesses no memory written to the hand, its flags raised, and the free values it has used counted. -/
def putResult (s : State) (h : Nat) (e : Entry) : State :=
  let x := s.hand h
  let r := evalVector s h e
  let y := applyGroups x r.groups
  let z := if x.vpoison = [] then y else { y with vpoison := poisonAfter x (if (namedStages e).isSome then e.whole else e) }
  { s.setHand h (z.sticky r.flags) with choice := s.choice + choicesOf e }

/-- A whole register written: its bytes are in error no more. -/
def Hand.vwrClean (x : Hand) (n : Reg) (v : VReg) : Hand :=
  let y := x.vwr n v
  if x.vpoison = [] then y else { y with vpoison := x.vpoison.filter fun q => q / 1024 != n.toNat }

/-- The end of a pass; what slots without a present value keep stays in error where it was. -/
def endPass (x : Hand) (e : Entry) : Hand :=
  let y := passFinish x e
  if x.vpoison = [] then y else { y with vpoison := poisonAfter x e }

/-- The bytes of the latch that `mlatch` has written are in error no more. -/
def latchClean (x : Hand) (e : Entry) : Hand :=
  let y := latchB x e
  if x.lpoison = [] then y
  else { y with lpoison := x.lpoison.filter fun q => decide (8192 ≤ q ∧ (formatWord e.fw).fb ≠ 14) }

/-- The effect of the retiring instruction on everything but the return queue. -/
def retireEffect (s : State) (h : Nat) (e : Entry) : State :=
  let x := s.hand h
  match e.kind with
  | .pass =>
    let r := passAll 16 x e
    s.setHand h (endPass r.1 r.2)
  | .bfLoad => s
  | .bfClr => s
  | .bfStat => s
  | .load _ => s.setHand h (commitLoad x e e.count true)
  | .gl => s.setHand h (commitLoad x e e.count true)
  | .amo _ ret _ => if ret then s.setHand h (commitLoad x e e.count true) else s
  | .store _ _ => s
  | .pf => s
  | .sc =>
    let t := tileOf e
    let won := (List.range e.count).filter fun k => e.acc.getD k 0 == 1
    let bits := won.foldl (fun v k => v ||| (1#8192 <<< t.slot k)) 0#8192
    (s.setHand h (x.vwrClean (e.m.setWidth 5) bits)).dropResv h
  | .vwait => s.setHand h (x.vwrClean e.d (vwaitMask e))
  | .copy =>
    match freeSlot x with
    | some k => s.setHand h (startCopy (x.vwrClean e.d 0) k e)
    | none => s
  | .qset => s
  | .qget => s
  | .wred => s
  | .wfin => s.setHand h (if (e.acc.headD 0).getLsbD 0 then x.sticky flagWP else x)
  | .wpoll => s.setHand h (if (e.acc.headD 0).getLsbD 0 then x.sticky flagWP else x)
  | .mma =>
    let r := mmaRows s h e
    let t := r.1.setHand h ((r.1.hand h).sticky r.2)
    healRows t h e ((List.range e.rep).filter fun j => decide (e.first ≤ j) && rowEnabled x e j)
  | .mlatch => s.setHand h (latchClean x e)
  | .mzero => healRows (zeroRows s h e) h e (List.range e.rep)
  | .mwr =>
    let r := writeRows s h e
    healRows (r.1.setHand h ((r.1.hand h).sticky r.2)) h e (List.range e.rep)
  | .mld => s
  | .mst => s
  | _ => putResult s h e

/-- What the retiring instruction puts into the return queue (R103, R199); `s` is the machine before its effect. -/
def retireRet (s : State) (h : Nat) (e : Entry) : List Ret :=
  match e.kind with
  | .bfStat => [{ d := e.ret, v := e.sa, count := none }]
  | .wfin => [{ d := e.ret, v := e.acc.headD 0, count := none }]
  | .wpoll => [{ d := e.ret, v := e.acc.headD 0, count := none }]
  | .mpopc => [{ d := e.ret, v := ((evalElem (s.hand h) e).scalar).getD 0, count := none }]
  | .mfirst => [{ d := e.ret, v := ((evalElem (s.hand h) e).scalar).getD 0, count := none }]
  | .mvSv => [{ d := e.ret, v := ((evalElem (s.hand h) e).scalar).getD 0, count := none }]
  | .topk => [{ d := none, v := 0, count := (evalVector s h e).count }]
  | .permute .comp => [{ d := none, v := 0, count := (evalVector s h e).count }]
  | _ => []

/-- An instruction executed twice under `hstat.rck` (R326): majors 0x10 to 0x1E, `mma`, `mrd`, `mwr`. -/
def Entry.rechecked (e : Entry) : Bool :=
  e.rck && !memoryType e && decide (e.kind ∉ [.bfLoad, .bfClr, .bfStat, .mlatch, .mzero])

/-- A rechecked instruction counts in the windows of the core's fouled units, and a count whose window is over returns to 0 (R327). -/
def countRecheck (s : State) (h : Nat) (e : Entry) : State :=
  if e.rechecked then
    let c := s.core (coreOf h)
    let w := c.fouls.count.foldl (fun t p => tabSet t p.1 (tabGet 0 t p.1 + 1)) c.fouls.window
    s.setCore (coreOf h) { c with fouls := ({ c.fouls with window := w } : Fouls).expire (fld c.rckcfg 20 16) }
  else s

/-- Reading a bit of an active or ended `vcopy` as 1 is an acquire of its chunk (R248): at device scope or wider the data cache lines go.
Registers that the instruction writes hold chunk bits no more. -/
def readChunks (s : State) (h : Nat) (e : Entry) : State :=
  let x := s.hand h
  if x.chunks = [] then s
  else
    let seen := (readsOf e).any fun r => decide (2 ≤ tabGet 0 x.chunks r) && decide (x.vrd (BitVec.ofNat 5 r) ≠ 0)
    let t := if seen then s.setCore (coreOf h) { s.core (coreOf h) with dcache := [] } else s
    if e.kind = .copy then t
    else t.setHand h { x with chunks := x.chunks.filter fun p => !(writesOf e).contains p.1 }

/-- The micro-ops of a retired instruction stand in the window no more. -/
def dropOps (s : State) (h age : Nat) : State :=
  let c := s.core (coreOf h)
  if c.win = [] then s else s.setCore (coreOf h) { c with win := c.win.filter fun m => !(m.hand == h && m.age == age) }

/-- The oldest instruction retires (R158): its effect, its flags and its return value; its replay entry is free.  A scalar load that
depends on a return value performs after the vector accesses before it, so it reads no line filled before them: the data cache lines go
(R286). -/
def retireHead (s : State) (h : Nat) : State :=
  match (s.hand h).rq with
  | [] => s
  | e :: _ =>
    let rets := retireRet s h e
    let s := if rets.any fun r => r.d.isSome then dropDcache s h else s
    let t := dropOps (countRecheck (retireEffect (readChunks s h e) h e) h e) h e.age
    let x := t.hand h
    let y := { x with rq := x.rq.drop 1, retq := x.retq ++ rets, replays := 0 }
    t.setHand h (if t.lockstep then y.flushRet else y)

/-! ## Poison consumed (R161, R185, R191, R266) -/

/-- What the oldest instruction leaves that cannot complete element, or row, k: of an element-wise form the elements below k by R150, of
`mma` the rows below j; the others leave what stood before. -/
def partEffect (s : State) (h : Nat) (e : Entry) (k : Nat) : State :=
  let below : Entry :=
    if k = 0 then { e with rc := 0, vtype := e.vtype &&& 0x2F#64 }
    else
      let vl := e.vl.toNat
      let rc := (k + vl - 1) / vl
      { e with rc := nat64 rc, vt := nat64 (k - (rc - 1) * vl), vtype := e.vtype &&& 0x2F#64 }
  match e.kind with
  | .mma =>
    let x := s.hand h
    let r := mmaRowsTo s h e k
    let t := r.1.setHand h ((r.1.hand h).sticky r.2)
    healRows t h e ((List.range k).filter fun j => decide (e.first ≤ j) && rowEnabled x e j)
  | .mlatch => s
  | .mrd => s
  | .mwr => s
  | .mpopc => s
  | .mfirst => s
  | .mvSv => s
  | .mvVs => s
  | _ => if (namedStages e).isSome then s else if e.first < k then putResult s h below else s

/-- The oldest instruction consumes an uncorrectable error at k: the part below k has its effect once, and the instruction has a fault to
take, from which it resumes at k. -/
def strike (s : State) (h : Nat) (e : Entry) (k : Nat) : State :=
  let t := partEffect s h e k
  t.setEntry h 0 { e with first := k, vstart := nat64 k, fault := some (0x0B, 2, 0, k) }

/-- One stage of the pass that is the oldest instruction, or the error that the stage consumes: then the stage is discarded (R185).  An
absent value keeps its error at its place. -/
def passOn (s : State) (h : Nat) (e : Entry) : State :=
  let x := s.hand h
  if passFoul x e then s.setEntry h 0 { e with fault := some (0x0B, 2, 0, 0) }
  else
    let r := passStage x e
    let t := tileOf e
    let y := if x.vpoison = [] ∨ 0 < e.stages then r.1
      else
        let absent := (List.range t.slots).filter fun p => match t.index p with
          | some i => !activeAt x e i
          | none => true
        let moved := absent.flatMap fun p =>
          ((regBytes 0 t.sew p).filter fun b => x.vpoison.contains (1024 * e.a.toNat + b)).map fun b => 1024 * e.d.toNat + b
        { r.1 with vpoison := (x.vpoison.filter fun q => !(regsOf e.d t.grp).contains (q / 1024)) ++ moved }
    s.setHand h { y with rq := r.2 :: y.rq.drop 1 }

/-- A pass that is the oldest instruction goes through its stages while `may` allows the next one, and no running copy has its destination
(R248). -/
def passRun (h : Nat) (may : Entry → Bool) : Nat → State → State
  | 0, s => s
  | n + 1, s =>
    match (s.hand h).rq with
    | e :: _ =>
      if e.kind = .pass ∧ e.fault.isNone ∧ e.dispute.isNone ∧ e.stages < stageCount e.fw ∧ copyBlocks (s.hand h) e = false ∧ may e then
        passRun h may n (passOn s h e)
      else s
    | [] => s

/-- The oldest instruction ends: it retires, or takes note of the error that it consumes. -/
def endHead (s : State) (h : Nat) : State :=
  match (s.hand h).rq with
  | [] => s
  | e :: _ => match consumes s h e with
    | some k => strike s h e k
    | none => retireHead s h

/-- What follows progress of the execute stream: a drain that ends makes the hand Held (R64), an abandoned hand may go Off
(R56). -/
def afterProgress (s : State) (h : Nat) : State :=
  let x := s.hand h
  if x.draining && x.drained then (if x.holdDue then enterHeld s h else undrain s h) else leaveIfDone s h

/-! ## The engines in lockstep (log 2) -/

/-- The hand's execute stream works: not while it is Held, Parked, Frozen or Off. -/
def Hand.executing (x : Hand) : Bool := decide (x.st ≠ .held ∧ x.st ≠ .parked ∧ x.st ≠ .frozen ∧ x.st ≠ .off)

/-- The oldest instruction can end when it is over: its micro-ops have completed where it has been renamed, its results agree (R326), no
active copy has its destination (R248), and a `vcopy` finds a slot and every earlier vector store performed (R247, R249). -/
def headReady (x : Hand) (e : Entry) : Bool :=
  e.dispute.isNone && !copyBlocks x e && (!e.taken || decide (opsOf e ≤ e.written))
    && (if e.kind = .copy then (freeSlot x).isSome && x.vectorStoresDone else !e.inVmu || e.performed)

/-- The oldest instruction's fault is taken, once the scalar stores have drained and no scalar access is under way (R315). -/
def faultDue (s : State) (h : Nat) : State :=
  if (s.hand h).scalarStoresDone && !(s.hand h).accessOut then takeFault s h else s

/-- The oldest instruction goes on by itself: its elements, or its stages. -/
def headRun (s : State) (h : Nat) (e : Entry) : State :=
  if e.inVmu then memRun h 0 (3 * e.count + 4) s
  else if e.kind = .pass ∧ (!e.taken ∨ opsOf e ≤ e.written) then passRun h (fun _ => true) 16 s
  else s

/-- The instructions of a hand go on in order until one waits or faults. -/
def settleRun (h : Nat) : Nat → State → State
  | 0, s => s
  | n + 1, s =>
    let x := s.hand h
    if !x.executing then s
    else match x.rq with
      | [] => s
      | e :: _ =>
        if e.fault.isSome && e.faultReady then faultDue s h
        else
          let s1 := headRun s h e
          match (s1.hand h).rq with
          | [] => s1
          | f :: _ =>
            if f.fault.isSome then faultDue s1 h
            else if (s1.hand h).executing && headReady (s1.hand h) f then settleRun h n (endHead s1 h) else s1

/-- The dispatched instructions and the copies of a hand go on as far as they can. -/
def settle (s : State) (h : Nat) : State :=
  let t := copiesStep (settleRun h 65 s) h
  let u := if (t.hand h).rq ≠ [] then settleRun h 65 t else t
  afterProgress (copiesStep u h) h

/-- The engines of a hand work at once in lockstep. -/
def engines (s : State) (h : Nat) : State := if s.lockstep then settle s h else s

/-! ## Dispatch (R99 to R103) -/

/-- No VIQ, replay or return entry is free for an entry (R100). -/
def Hand.full (x : Hand) (e : Entry) : Bool :=
  let returns (f : Entry) : Bool := f.ret.isSome || f.tileWriter
  decide (64 ≤ x.rq.length) || decide (32 ≤ x.rq.countP fun f => !f.taken)
    || (returns e && decide (8 ≤ x.rq.countP returns + x.retq.length))

/-- The hand after a dispatch: the entry joins the queue, `vstart` and `bpc` become 0 (R102), the last destinations change (R93). -/
def Hand.dispatched (x : Hand) (e : Entry) (sld vld : Option Reg) : Hand :=
  let y := { x with rq := x.rq ++ [e], vstart := 0, bpc := 0 }
  let z := match sld with
    | some d => y.setSld d
    | none => y
  match vld with
  | some d => z.setVld d
  | none => z

/-- A dispatched instruction of the hand has a fault to take: nothing is dispatched after it (R315). -/
def Hand.faulting (x : Hand) : Bool := x.rq.any fun e => e.fault.isSome

/-- Dispatches an instruction: it waits for the scalar registers it captures, for a pending tile and for room, and while an older one has
a fault to take (R315); a failed check is a precise fault, before any resource is taken (R100).  `f` is an effect that belongs to dispatch
itself. -/
def dispatchWith (f : State → State) (regs : List Reg) (bad : Option (Nat × Nat × Word)) (e : Entry) (sld vld : Option Reg)
    (len : Nat) (s : State) : Res :=
  whenTile s <| whenReady s regs <|
  match bad with
  | some (c, sub, ad) => raise s c sub ad
  | none =>
    if s.me.full e || s.me.faulting then .next s
    else
      let c := s.core (coreOf s.curHand)
      let t := f (s.setCore (coreOf s.curHand) { c with age := c.age + 1 })
      .next (engines (finish t (t.me.dispatched { e.restart with age := c.age } sld vld) len) s.curHand)

/-- Dispatches an instruction that does nothing else at dispatch. -/
def dispatch (regs : List Reg) (bad : Option (Nat × Nat × Word)) (e : Entry) (sld vld : Option Reg) (len : Nat) (s : State) : Res :=
  dispatchWith id regs bad e sld vld len s

/-- The first failed check of a list, in order. -/
def firstBad (cs : List (Bool × Nat × Nat × Word)) : Option (Nat × Nat × Word) :=
  (cs.find? fun c => !c.1).map fun c => c.2

end Sys2Proof.Machine
end

