-- ==== Sys2Proof/Machine/Vector.lean ====
section
/-!
DEFINITION. The vector instructions of majors 0x10 to 0x1F and their compressed forms (chapters 7 and 8): what each captures,
the checks its entry assigns to dispatch, and its entry (R159, R160, R183, R190).
-/

namespace Sys2Proof.Machine

/-! ## Checks and shapes -/

/-- The format word S[24 + fs] (R86). -/
def State.fword (s : State) (f : BitVec 3) : Word := s.me.rd (fwReg f)
/-- The element width in force. -/
def State.sew (s : State) : Nat := sewOf s.me.vtype
/-- The group size in force. -/
def State.grp (s : State) : Nat := grpOf s.me.vtype

/-- A check of group bases (R147, R159): cause 0x01. -/
def basesOk (s : State) (rs : List Reg) : Bool × Nat × Nat × Word := (rs.all fun r => aligned r s.grp, 0x01, 0, 0)
/-- A check of pair bases (R172, R190). -/
def pairsOk (s : State) (rs : List Reg) : Bool × Nat × Nat × Word := (rs.all fun r => aligned r (2 * s.grp), 0x01, 0, 0)
/-- A check of the format word of an element-wise kind (R132, R160): cause 0x02. -/
def fmtElem (s : State) (k : VKind) (f : BitVec 3) : Bool × Nat × Nat × Word :=
  (fwElem k (formatWord (s.fword f)) s.sew, 0x02, 0, 0)
/-- A check of the format word of a named cross-lane kind (R190). -/
def fmtCross (s : State) (k : VKind) (f : BitVec 3) : Bool × Nat × Nat × Word :=
  (fwCross k (formatWord (s.fword f)) s.sew, 0x02, 0, 0)
/-- Order-dependent forms are refused under determinism (R195, R196, R242): cause 0x0D. -/
def detOk (s : State) : Bool × Nat × Nat × Word := (!s.me.det, 0x0D, 0, 0)

/-- The immediate of a `.vi` arithmetic form as an element of format fb (R159). -/
def immElem (w : Word) (im : BitVec 5) : Word :=
  match fmtOf (formatWord w).fb with
  | some (.float p) => nat64 (roundNum p 0 false (intNum im.toInt)).1
  | _ => sext im

/-- The entry of a V form. -/
def vEntry (s : State) (k : VKind) (d a : Reg) (m : BitVec 3) : Entry := { mkEntry s.me k with d := d, a := a, m := m }

/-- A form of two vector operands. -/
def vvForm (k : VKind) (d a b : Reg) (m f : BitVec 3) (len : Nat) (s : State) : Res :=
  dispatch [fwReg f] (firstBad [basesOk s [d, a, b], fmtElem s k f])
    { vEntry s k d a m with src := .reg b, fw := s.fword f } none (some d) len s

/-- A form of a vector and a captured scalar. -/
def vsForm (k : VKind) (d a b : Reg) (m f : BitVec 3) (s : State) : Res :=
  dispatch [fwReg f, b] (firstBad [basesOk s [d, a], fmtElem s k f])
    { vEntry s k d a m with src := .val (s.me.rd b), sb := s.me.rd b, fw := s.fword f } none (some d) 4 s

/-- A form of a vector and an immediate. -/
def viForm (k : VKind) (d a : Reg) (v : Word) (m f : BitVec 3) (s : State) : Res :=
  dispatch [fwReg f] (firstBad [basesOk s [d, a], fmtElem s k f])
    { vEntry s k d a m with src := .val v, fw := s.fword f } none (some d) 4 s

/-- A form of one vector operand. -/
def v1Form (k : VKind) (d a : Reg) (m f : BitVec 3) (s : State) : Res :=
  dispatch [fwReg f] (firstBad [basesOk s [d, a], fmtElem s k f]) { vEntry s k d a m with fw := s.fword f } none (some d) 4 s

/-- A compare of two vectors into a mask (R165). -/
def cmpVV (o : CmpOp) (d a b : Reg) (m f : BitVec 3) (s : State) : Res :=
  dispatch [fwReg f] (firstBad [basesOk s [a, b], fmtElem s (.cmp o) f])
    { vEntry s (.cmp o) d a m with src := .reg b, fw := s.fword f } none (some d) 4 s

/-- A compare of a vector with a captured scalar. -/
def cmpVS (o : CmpOp) (d a b : Reg) (m f : BitVec 3) (s : State) : Res :=
  dispatch [fwReg f, b] (firstBad [basesOk s [a], fmtElem s (.cmp o) f])
    { vEntry s (.cmp o) d a m with src := .val (s.me.rd b), fw := s.fword f } none (some d) 4 s

/-- A mask operation (R167). -/
def maskForm (o : MaskOp) (d a b : Reg) (s : State) : Res :=
  dispatch [] none { vEntry s (.mask o) d a 0 with b := b } none (some d) 4 s

/-- A form that counts a mask into a scalar register (R168). -/
def countForm (k : VKind) (d a : Reg) (m : BitVec 3) (s : State) : Res :=
  dispatch [d] none { vEntry s k 0 a m with ret := some d } (some d) none 4 s

/-- A named form with a seed register (R190, R195, R196). -/
def seedForm (k : VKind) (ordered : Bool) (d a b : Reg) (m f : BitVec 3) (s : State) : Res :=
  dispatch [fwReg f] (firstBad ([basesOk s [d, a], fmtCross s k f] ++ if ordered then [] else [detOk s]))
    { vEntry s k d a m with b := b, fw := s.fword f } none (some d) 4 s

/-- A named form of one group with a format word. -/
def namedForm (k : VKind) (d a : Reg) (m f : BitVec 3) (s : State) : Res :=
  dispatch [fwReg f] (firstBad [basesOk s [d, a], fmtCross s k f]) { vEntry s k d a m with fw := s.fword f } none (some d) 4 s

/-- A permutation of one group (R198). -/
def permForm (o : PermOp) (d a : Reg) (m : BitVec 3) (s : State) : Res :=
  dispatch [] (firstBad [basesOk s [d, a]]) (vEntry s (.permute o) d a m) none (some d) 4 s

/-- A permutation of two groups. -/
def permVV (o : PermOp) (d a b : Reg) (m : BitVec 3) (s : State) : Res :=
  dispatch [] (firstBad [basesOk s [d, a, b]]) { vEntry s (.permute o) d a m with b := b } none (some d) 4 s

/-- A permutation with a captured scalar. -/
def permVS (o : PermOp) (d a b : Reg) (m : BitVec 3) (s : State) : Res :=
  dispatch [b] (firstBad [basesOk s [d, a]]) { vEntry s (.permute o) d a m with sb := s.me.rd b } none (some d) 4 s

/-- A merge of two pairs (R202). -/
def mergeForm (unique : Bool) (d a b : Reg) (m f : BitVec 3) (s : State) : Res :=
  dispatch [fwReg f] (firstBad [pairsOk s [d, a, b], fmtCross s (.merge unique) f])
    { vEntry s (.merge unique) d a m with b := b, fw := s.fword f } none (some d) 4 s

/-- The base of a `vcvt` operand: a pair for bfp (R172). -/
def cvtBase (s : State) (r : Reg) (code : Nat) : Bool := aligned r (if code = 14 then 2 * s.grp else s.grp)

/-! ## VADD, VMUL, VMIN, VLOG, VSH, VFMA (R162 to R164) -/

/-- `vadd.vv`. -/
def execVaddVv (d a b : Reg) (m f : BitVec 3) (s : State) : Res := vvForm (.ew .add) d a b m f 4 s
/-- `vadd.vs`. -/
def execVaddVs (d a b : Reg) (m f : BitVec 3) (s : State) : Res := vsForm (.ew .add) d a b m f s
/-- `vsub.vv`. -/
def execVsubVv (d a b : Reg) (m f : BitVec 3) (s : State) : Res := vvForm (.ew .sub) d a b m f 4 s
/-- `vsub.vs`. -/
def execVsubVs (d a b : Reg) (m f : BitVec 3) (s : State) : Res := vsForm (.ew .sub) d a b m f s
/-- `vmul.vv`. -/
def execVmulVv (d a b : Reg) (m f : BitVec 3) (s : State) : Res := vvForm (.ew .mul) d a b m f 4 s
/-- `vmul.vs`. -/
def execVmulVs (d a b : Reg) (m f : BitVec 3) (s : State) : Res := vsForm (.ew .mul) d a b m f s
/-- `vmulh.vv`. -/
def execVmulhVv (d a b : Reg) (m f : BitVec 3) (s : State) : Res := vvForm (.ew .mulh) d a b m f 4 s
/-- `vmulh.vs`. -/
def execVmulhVs (d a b : Reg) (m f : BitVec 3) (s : State) : Res := vsForm (.ew .mulh) d a b m f s
/-- `vmulhn.vv`. -/
def execVmulhnVv (d a b : Reg) (m f : BitVec 3) (s : State) : Res := vvForm (.ew .mulhn) d a b m f 4 s
/-- `vmulhn.vs`. -/
def execVmulhnVs (d a b : Reg) (m f : BitVec 3) (s : State) : Res := vsForm (.ew .mulhn) d a b m f s
/-- `vdiv.vv`. -/
def execVdivVv (d a b : Reg) (m f : BitVec 3) (s : State) : Res := vvForm (.ew .div) d a b m f 4 s
/-- `vdiv.vs`. -/
def execVdivVs (d a b : Reg) (m f : BitVec 3) (s : State) : Res := vsForm (.ew .div) d a b m f s
/-- `vrem.vv`. -/
def execVremVv (d a b : Reg) (m f : BitVec 3) (s : State) : Res := vvForm (.ew .rem) d a b m f 4 s
/-- `vrem.vs`. -/
def execVremVs (d a b : Reg) (m f : BitVec 3) (s : State) : Res := vsForm (.ew .rem) d a b m f s
/-- `vmin.vv`. -/
def execVminVv (d a b : Reg) (m f : BitVec 3) (s : State) : Res := vvForm (.ew .min) d a b m f 4 s
/-- `vmin.vs`. -/
def execVminVs (d a b : Reg) (m f : BitVec 3) (s : State) : Res := vsForm (.ew .min) d a b m f s
/-- `vmax.vv`. -/
def execVmaxVv (d a b : Reg) (m f : BitVec 3) (s : State) : Res := vvForm (.ew .max) d a b m f 4 s
/-- `vmax.vs`. -/
def execVmaxVs (d a b : Reg) (m f : BitVec 3) (s : State) : Res := vsForm (.ew .max) d a b m f s
/-- `vand.vv`. -/
def execVandVv (d a b : Reg) (m f : BitVec 3) (s : State) : Res := vvForm (.ew .and) d a b m f 4 s
/-- `vand.vs`. -/
def execVandVs (d a b : Reg) (m f : BitVec 3) (s : State) : Res := vsForm (.ew .and) d a b m f s
/-- `vor.vv`. -/
def execVorVv (d a b : Reg) (m f : BitVec 3) (s : State) : Res := vvForm (.ew .or) d a b m f 4 s
/-- `vor.vs`. -/
def execVorVs (d a b : Reg) (m f : BitVec 3) (s : State) : Res := vsForm (.ew .or) d a b m f s
/-- `vxor.vv`. -/
def execVxorVv (d a b : Reg) (m f : BitVec 3) (s : State) : Res := vvForm (.ew .xor) d a b m f 4 s
/-- `vxor.vs`. -/
def execVxorVs (d a b : Reg) (m f : BitVec 3) (s : State) : Res := vsForm (.ew .xor) d a b m f s
/-- `vsll.vv`. -/
def execVsllVv (d a b : Reg) (m f : BitVec 3) (s : State) : Res := vvForm (.ew .sll) d a b m f 4 s
/-- `vsll.vs`. -/
def execVsllVs (d a b : Reg) (m f : BitVec 3) (s : State) : Res := vsForm (.ew .sll) d a b m f s
/-- `vsrl.vv`. -/
def execVsrlVv (d a b : Reg) (m f : BitVec 3) (s : State) : Res := vvForm (.ew .srl) d a b m f 4 s
/-- `vsrl.vs`. -/
def execVsrlVs (d a b : Reg) (m f : BitVec 3) (s : State) : Res := vsForm (.ew .srl) d a b m f s
/-- `vfma.vv`. -/
def execVfmaVv (d a b : Reg) (m f : BitVec 3) (s : State) : Res := vvForm (.fma .ma) d a b m f 4 s
/-- `vfma.vs`. -/
def execVfmaVs (d a b : Reg) (m f : BitVec 3) (s : State) : Res := vsForm (.fma .ma) d a b m f s
/-- `vfms.vv`. -/
def execVfmsVv (d a b : Reg) (m f : BitVec 3) (s : State) : Res := vvForm (.fma .ms) d a b m f 4 s
/-- `vfms.vs`. -/
def execVfmsVs (d a b : Reg) (m f : BitVec 3) (s : State) : Res := vsForm (.fma .ms) d a b m f s
/-- `vfnma.vv`. -/
def execVfnmaVv (d a b : Reg) (m f : BitVec 3) (s : State) : Res := vvForm (.fma .nma) d a b m f 4 s
/-- `vfnma.vs`. -/
def execVfnmaVs (d a b : Reg) (m f : BitVec 3) (s : State) : Res := vsForm (.fma .nma) d a b m f s
/-- `vfnms.vv`. -/
def execVfnmsVv (d a b : Reg) (m f : BitVec 3) (s : State) : Res := vvForm (.fma .nms) d a b m f 4 s
/-- `vfnms.vs`. -/
def execVfnmsVs (d a b : Reg) (m f : BitVec 3) (s : State) : Res := vsForm (.fma .nms) d a b m f s
/-- `vsadd.vv`. -/
def execVsaddVv (d a b : Reg) (m f : BitVec 3) (s : State) : Res := vvForm (.ew .sadd) d a b m f 4 s
/-- `vssub.vv`. -/
def execVssubVv (d a b : Reg) (m f : BitVec 3) (s : State) : Res := vvForm (.ew .ssub) d a b m f 4 s
/-- `vsra.vv`. -/
def execVsraVv (d a b : Reg) (m f : BitVec 3) (s : State) : Res := vvForm (.ew .sra) d a b m f 4 s
/-- `vrsub.vs`. -/
def execVrsubVs (d a b : Reg) (m f : BitVec 3) (s : State) : Res := vsForm (.ew .rsub) d a b m f s
/-- `vadd.vi`. -/
def execVaddVi (d a : Reg) (im : BitVec 5) (m f : BitVec 3) (s : State) : Res := viForm (.ew .add) d a (immElem (s.fword f) im) m f s
/-- `vrsub.vi`. -/
def execVrsubVi (d a : Reg) (im : BitVec 5) (m f : BitVec 3) (s : State) : Res := viForm (.ew .rsub) d a (immElem (s.fword f) im) m f s
/-- `vsll.vi`: the amount is unsigned (R163). -/
def execVsllVi (d a : Reg) (im : BitVec 5) (m f : BitVec 3) (s : State) : Res := viForm (.ew .sll) d a (zext im) m f s
/-- `vsrl.vi`: the amount is unsigned (R163). -/
def execVsrlVi (d a : Reg) (im : BitVec 5) (m f : BitVec 3) (s : State) : Res := viForm (.ew .srl) d a (zext im) m f s
/-- `vsra.vi`: the amount is unsigned (R163). -/
def execVsraVi (d a : Reg) (im : BitVec 5) (m f : BitVec 3) (s : State) : Res := viForm (.ew .sra) d a (zext im) m f s
/-- `vneg`. -/
def execVneg (d a : Reg) (m f : BitVec 3) (s : State) : Res := v1Form (.un .neg) d a m f s
/-- `vabs`. -/
def execVabs (d a : Reg) (m f : BitVec 3) (s : State) : Res := v1Form (.un .abs) d a m f s
/-- `vnot`. -/
def execVnot (d a : Reg) (m f : BitVec 3) (s : State) : Res := v1Form (.un .not) d a m f s
/-- `vsqrt`. -/
def execVsqrt (d a : Reg) (m f : BitVec 3) (s : State) : Res := v1Form (.un .sqrt) d a m f s
/-- `vrcp`. -/
def execVrcp (d a : Reg) (m f : BitVec 3) (s : State) : Res := v1Form (.un .rcp) d a m f s
/-- `vrsqrt`. -/
def execVrsqrt (d a : Reg) (m f : BitVec 3) (s : State) : Res := v1Form (.un .rsqrt) d a m f s
/-- `vexp2`. -/
def execVexp2 (d a : Reg) (m f : BitVec 3) (s : State) : Res := v1Form (.un .exp2) d a m f s
/-- `vlog2`. -/
def execVlog2 (d a : Reg) (m f : BitVec 3) (s : State) : Res := v1Form (.un .log2) d a m f s
/-- `vtanh`. -/
def execVtanh (d a : Reg) (m f : BitVec 3) (s : State) : Res := v1Form (.un .tanh) d a m f s
/-- `vround`. -/
def execVround (d a : Reg) (m f : BitVec 3) (s : State) : Res := v1Form (.un .round) d a m f s
/-- `vcvt` (R172). -/
def execVcvt (d a : Reg) (m f : BitVec 3) (s : State) : Res := 
  let w := formatWord (s.fword f)
  dispatch [fwReg f] (firstBad [(cvtBase s d w.fd && cvtBase s a w.fa, 0x01, 0, 0), fmtElem s (.un .cvt) f])
    { vEntry s (.un .cvt) d a m with fw := s.fword f } none (some d) 4 s
/-- `vclass` (R169). -/
def execVclass (d a : Reg) (m f : BitVec 3) (s : State) : Res := v1Form .cls d a m f s
/-- `vscale.vs` (R174). -/
def execVscaleVs (d a b : Reg) (m f : BitVec 3) (s : State) : Res := vsForm .scale d a b m f s

/-! ## VCMP, VMSK, VMOV (R165 to R170) -/

/-- `vceq.vv`. -/
def execVceqVv (d a b : Reg) (m f : BitVec 3) (s : State) : Res := cmpVV .eq d a b m f s
/-- `vceq.vs`. -/
def execVceqVs (d a b : Reg) (m f : BitVec 3) (s : State) : Res := cmpVS .eq d a b m f s
/-- `vcne.vv`. -/
def execVcneVv (d a b : Reg) (m f : BitVec 3) (s : State) : Res := cmpVV .ne d a b m f s
/-- `vclt.vv`. -/
def execVcltVv (d a b : Reg) (m f : BitVec 3) (s : State) : Res := cmpVV .lt d a b m f s
/-- `vclt.vs`. -/
def execVcltVs (d a b : Reg) (m f : BitVec 3) (s : State) : Res := cmpVS .lt d a b m f s
/-- `vcle.vv`. -/
def execVcleVv (d a b : Reg) (m f : BitVec 3) (s : State) : Res := cmpVV .le d a b m f s
/-- `vcle.vs`. -/
def execVcleVs (d a b : Reg) (m f : BitVec 3) (s : State) : Res := cmpVS .le d a b m f s
/-- `vcgt.vs`. -/
def execVcgtVs (d a b : Reg) (m f : BitVec 3) (s : State) : Res := cmpVS .gt d a b m f s
/-- `vsel` (R166). -/
def execVsel (d a b : Reg) (m : BitVec 3) (s : State) : Res := 
  dispatch [] (firstBad [basesOk s [d, a, b]]) { vEntry s .sel d a m with src := .reg b } none (some d) 4 s
/-- `vmand` (R167). -/
def execVmand (d a b : Reg) (s : State) : Res := maskForm .and d a b s
/-- `vmor` (R167). -/
def execVmor (d a b : Reg) (s : State) : Res := maskForm .or d a b s
/-- `vmxor` (R167). -/
def execVmxor (d a b : Reg) (s : State) : Res := maskForm .xor d a b s
/-- `vmandn` (R167). -/
def execVmandn (d a b : Reg) (s : State) : Res := maskForm .andn d a b s
/-- `vmnot` (R167). -/
def execVmnot (d a : Reg) (s : State) : Res := maskForm .not d a 0 s
/-- `vmpopc` (R168). -/
def execVmpopc (d a : Reg) (m : BitVec 3) (s : State) : Res := countForm .mpopc d a m s
/-- `vmfirst` (R168). -/
def execVmfirst (d a : Reg) (m : BitVec 3) (s : State) : Res := countForm .mfirst d a m s
/-- `vmv.vv` (R169). -/
def execVmvVv (d a : Reg) (m : BitVec 3) (s : State) : Res := dispatch [] (firstBad [basesOk s [d, a]]) (vEntry s .mv d a m) none (some d) 4 s
/-- `vbc.vs` (R169). -/
def execVbcVs (d b : Reg) (m : BitVec 3) (s : State) : Res := 
  dispatch [b] (firstBad [basesOk s [d]]) { vEntry s .bc d 0 m with src := .val (s.me.rd b) } none (some d) 4 s
/-- `vbc.vi` (R169). -/
def execVbcVi (d : Reg) (im : BitVec 5) (m : BitVec 3) (s : State) : Res := 
  dispatch [] (firstBad [basesOk s [d]]) { vEntry s .bc d 0 m with src := .val (sext im) } none (some d) 4 s
/-- `vmv.sv` (R170). -/
def execVmvSv (d a b : Reg) (s : State) : Res := 
  dispatch [d, b] (firstBad [basesOk s [a]]) { vEntry s .mvSv 0 a 0 with sb := s.me.rd b, ret := some d } (some d) none 4 s
/-- `vmv.vs` (R170). -/
def execVmvVs (d b : Reg) (s : State) : Res := 
  dispatch [b] (firstBad [basesOk s [d]]) { vEntry s .mvVs d 0 0 with sb := s.me.rd b } none (some d) 4 s
/-- `viota` (R169). -/
def execViota (d a : Reg) (m : BitVec 3) (s : State) : Res := dispatch [] (firstBad [basesOk s [d]]) (vEntry s .iota d a m) none (some d) 4 s
/-- `vidx` (R169). -/
def execVidx (d : Reg) (m : BitVec 3) (s : State) : Res := dispatch [] (firstBad [basesOk s [d]]) (vEntry s .idx d 0 m) none (some d) 4 s

/-! ## VRED, VSCAN, VPERM, VSORT (R190 to R203) -/

/-- `vredsum.o` (R195). -/
def execVredsumO (d a b : Reg) (m f : BitVec 3) (s : State) : Res := seedForm (.red .sumO) true d a b m f s
/-- `vredsum.t` (R195). -/
def execVredsumT (d a b : Reg) (m f : BitVec 3) (s : State) : Res := seedForm (.red .sumT) true d a b m f s
/-- `vredsum.u` (R195). -/
def execVredsumU (d a b : Reg) (m f : BitVec 3) (s : State) : Res := seedForm (.red .sumU) false d a b m f s
/-- `vredmax.t` (R195). -/
def execVredmaxT (d a b : Reg) (m f : BitVec 3) (s : State) : Res := seedForm (.red .max) true d a b m f s
/-- `vredmin.t` (R195). -/
def execVredminT (d a b : Reg) (m f : BitVec 3) (s : State) : Res := seedForm (.red .min) true d a b m f s
/-- `vredand.t` (R195). -/
def execVredandT (d a b : Reg) (m f : BitVec 3) (s : State) : Res := seedForm (.red .and) true d a b m f s
/-- `vredor.t` (R195). -/
def execVredorT (d a b : Reg) (m f : BitVec 3) (s : State) : Res := seedForm (.red .or) true d a b m f s
/-- `vredxor.t` (R195). -/
def execVredxorT (d a b : Reg) (m f : BitVec 3) (s : State) : Res := seedForm (.red .xor) true d a b m f s
/-- `vscan.add` (R196). -/
def execVscanAdd (d a b : Reg) (m f : BitVec 3) (s : State) : Res := seedForm (.scan .add) true d a b m f s
/-- `vscan.addx` (R196). -/
def execVscanAddx (d a b : Reg) (m f : BitVec 3) (s : State) : Res := seedForm (.scan .addx) true d a b m f s
/-- `vscan.max` (R196). -/
def execVscanMax (d a b : Reg) (m f : BitVec 3) (s : State) : Res := seedForm (.scan .max) true d a b m f s
/-- `vscan.min` (R196). -/
def execVscanMin (d a b : Reg) (m f : BitVec 3) (s : State) : Res := seedForm (.scan .min) true d a b m f s
/-- `vscan.add.u` (R196). -/
def execVscanAddU (d a b : Reg) (m f : BitVec 3) (s : State) : Res := seedForm (.scan .addU) false d a b m f s
/-- `vrowred` (R197). -/
def execVrowred (d a : Reg) (m f : BitVec 3) (s : State) : Res := namedForm .rowred d a m f s
/-- `vcomp` (R198). -/
def execVcomp (d a : Reg) (m : BitVec 3) (s : State) : Res := permForm .comp d a m s
/-- `vexpand` (R198). -/
def execVexpand (d a : Reg) (m : BitVec 3) (s : State) : Res := permForm .expand d a m s
/-- `vrev` (R198). -/
def execVrev (d a : Reg) (m : BitVec 3) (s : State) : Res := permForm .rev d a m s
/-- `vunzip` (R198). -/
def execVunzip (d a : Reg) (m : BitVec 3) (s : State) : Res := permForm .unzip d a m s
/-- `vperm` (R198). -/
def execVperm (d a b : Reg) (m : BitVec 3) (s : State) : Res := permVV .perm d a b m s
/-- `vzip` (R198). -/
def execVzip (d a b : Reg) (m : BitVec 3) (s : State) : Res := permVV .zip d a b m s
/-- `vrot.vs` (R198). -/
def execVrotVs (d a b : Reg) (m : BitVec 3) (s : State) : Res := permVS .rot d a b m s
/-- `vbcaste` (R198). -/
def execVbcaste (d a b : Reg) (m : BitVec 3) (s : State) : Res := permVS .bcaste d a b m s
/-- `vsort` (R200). -/
def execVsort (d a : Reg) (m f : BitVec 3) (s : State) : Res := namedForm (.sort false) d a m f s
/-- `vsortd` (R200). -/
def execVsortd (d a : Reg) (m f : BitVec 3) (s : State) : Res := namedForm (.sort true) d a m f s
/-- `vrank` (R203). -/
def execVrank (d a : Reg) (m f : BitVec 3) (s : State) : Res := namedForm .rank d a m f s
/-- `vsortkv` (R200). -/
def execVsortkv (d a b : Reg) (m f : BitVec 3) (s : State) : Res := 
  dispatch [fwReg f] (firstBad [pairsOk s [d], basesOk s [a, b], fmtCross s .sortkv f])
    { vEntry s .sortkv d a m with b := b, fw := s.fword f } none (some d) 4 s
/-- `vtopk` (R201). -/
def execVtopk (d a b : Reg) (m f : BitVec 3) (s : State) : Res := 
  dispatch [fwReg f, b] (firstBad [pairsOk s [d], basesOk s [a], fmtCross s .topk f])
    { vEntry s .topk d a m with sb := s.me.rd b, fw := s.fword f } none (some d) 4 s
/-- `vmerge` (R202). -/
def execVmerge (d a b : Reg) (m f : BitVec 3) (s : State) : Res := mergeForm false d a b m f s
/-- `vmergeu` (R202). -/
def execVmergeu (d a b : Reg) (m f : BitVec 3) (s : State) : Res := mergeForm true d a b m f s

/-! ## Passes and BFCTL (R183, R188, R189) -/

/-- The constant groups of a pass with `n` stages (R183): aligned, inside the registers, and apart from vd. -/
def constantsOk (s : State) (d k : Reg) (n : Nat) : Bool :=
  let g := s.grp
  decide (k = 0) || (aligned k g && decide (k.toNat + n * g ≤ 32)
    && (decide (d.toNat + g ≤ k.toNat) || decide (k.toNat + n * g ≤ d.toNat)))

/-- SEW is the operator's width, or twice that with kv (R183). -/
def operatorFits (s : State) (o : Option (Word × Word)) : Bool :=
  match o with
  | none => false
  | some d =>
    let p := operatorOf d
    decide (s.sew = (if p.kv then 2 else 1) * codeWidth p.code 2)

/-- `bf.pass` (R183 to R185). -/
def execBfPass (d a k : Reg) (m l q : BitVec 3) (s : State) : Res :=
  let prog := s.fword q
  let o := slotOperator s.me l.toNat
  let S := 8 * s.grp * vlrowOf s.me.vtype
  dispatch [fwReg q]
    (firstBad [basesOk s [d, a], (constantsOk s d k (stageCount prog), 0x01, 0, 0), (operatorFits s o, 0x03, 0, 0),
      (stagesLegal prog s.me.bpc S, 0x04, 0, 0)])
    { vEntry s .pass d a m with b := k, fw := prog, oper := o.getD (0, 0) } none (some d) 4 s

/-- `bf.load` (R188): the descriptor is checked and loaded at dispatch. -/
def execBfLoad (a b : Reg) (q : BitVec 3) (s : State) : Res :=
  let o := (s.me.rd a, s.me.rd b)
  dispatchWith (fun t => t.setMe { t.me with slots := t.me.slots.setIfInBounds (q.toNat - 4) (some o) })
    [a, b] (firstBad [(descriptorLegal o, 0x03, 0, 0)]) (mkEntry s.me .bfLoad) none none 4 s

/-- `bf.clr` (R188). -/
def execBfClr (q : BitVec 3) (s : State) : Res :=
  dispatchWith (fun t => t.setMe (clearSlots t.me q.toNat)) [] none (mkEntry s.me .bfClr) none none 4 s

/-- `bf.stat` (R189): the slots as they stand at dispatch, through the return queue. -/
def execBfStat (d : Reg) (s : State) : Res :=
  dispatch [d] none { mkEntry s.me .bfStat with sa := statWord s.me, ret := some d } (some d) none 4 s

/-! ## Compressed vector forms (R97) -/

/-- `c.vadd vb`: `vadd.vv vL, vL, vb` with fs = s24 and no mask. -/
def execCVadd (b : Reg) (s : State) : Res := vvForm (.ew .add) s.me.vld s.me.vld b 0 0 2 s
/-- `c.vmul vb`: `vmul.vv vL, vL, vb`. -/
def execCVmul (b : Reg) (s : State) : Res := vvForm (.ew .mul) s.me.vld s.me.vld b 0 0 2 s
/-- `c.vfma vb, vc`: `vfma.vv vL, vb, vc`. -/
def execCVfma (b c : Reg) (s : State) : Res := vvForm (.fma .ma) s.me.vld b c 0 0 2 s

end Sys2Proof.Machine
end

