-- ==== Sys2Proof/Machine/VectorMem.lean ====
section
/-!
DEFINITION. The vector memory instructions of majors 0x20 to 0x24 and the TILE forms (chapters 10, 11 and 15): what each captures,
the checks its entry assigns to dispatch, and its entry (R227, R228, R238, R247, R253 to R264, R303).
-/

namespace Sys2Proof.Machine

/-! ## Checks (R227, R228) -/

/-- A check of the width code: it equals `vtype.sew`. -/
def widthOf (s : State) (w : BitVec 3) : Bool × Nat × Nat × Word := (decide (w.toNat = fld s.me.vtype 1 0), 0x01, 0, 0)

/-- Registers of an index operand. -/
def State.indexRegs (s : State) : Nat := s.grp * 64 / s.sew

/-- A check of an index operand. -/
def indexOk (s : State) (b : Reg) : Bool × Nat × Nat × Word :=
  (aligned b s.indexRegs && decide (b.toNat + s.indexRegs ≤ 32), 0x01, 0, 0)

/-- A check that the vd group and the index operand do not overlap. -/
def apartOk (s : State) (d b : Reg) : Bool × Nat × Nat × Word :=
  (decide (d.toNat + s.grp ≤ b.toNat) || decide (b.toNat + s.indexRegs ≤ d.toNat), 0x01, 0, 0)

/-- The entry of an M form: S[a] and the width code captured. -/
def memEntry (s : State) (k : VKind) (d a : Reg) (m w : BitVec 3) : Entry :=
  { mkEntry s.me k with d := d, m := m, sa := s.me.rd a, ew := w.toNat }

/-- A unit-stride form. -/
def unitForm (k : VKind) (vld : Option Reg) (d a : Reg) (m w : BitVec 3) (s : State) : Res :=
  dispatch [a] (firstBad [widthOf s w, basesOk s [d]]) (memEntry s k d a m w) none vld 4 s

/-- A form with a stride or a row pitch S[b]. -/
def strideForm (k : VKind) (vld : Option Reg) (d a b : Reg) (m w : BitVec 3) (s : State) : Res :=
  dispatch [a, b] (firstBad [widthOf s w, basesOk s [d]]) { memEntry s k d a m w with sb := s.me.rd b } none vld 4 s

/-- An indexed form that writes no vector group of its own. -/
def indexedForm (k : VKind) (vld : Option Reg) (d a b : Reg) (m w : BitVec 3) (s : State) : Res :=
  dispatch [a] (firstBad [widthOf s w, basesOk s [d], indexOk s b]) { memEntry s k d a m w with b := b } none vld 4 s

/-- An indexed form that writes vd: it must not overlap the index operand. -/
def gatherForm (f : State → State) (k : VKind) (d a b : Reg) (m w : BitVec 3) (s : State) : Res :=
  dispatchWith f [a] (firstBad [widthOf s w, basesOk s [d], indexOk s b, apartOk s d b]) { memEntry s k d a m w with b := b } none
    (some d) 4 s

/-! ## Streams (R237 to R239) -/

/-- A `vqset` of stream n has not completed: no form that names the stream is dispatched (R237). -/
def streamPending (x : Hand) (n : Reg) : Bool := x.rq.any fun e => decide (e.kind = .qset ∧ e.b = n)

/-- The descriptor of stream n. -/
def Hand.stream (x : Hand) (n : Reg) : BitVec 256 := x.q.toList.getD n.toNat 0

/-- The position of stream n moved on by k elements. -/
def advanceStream (n : Reg) (k : Nat) (s : State) : State :=
  let x := s.me
  let q := x.stream n
  let p := fld (qword q 3) 31 0
  let q' := (q &&& ~~~(0xFFFFFFFF#256 <<< 192)) ||| ((BitVec.ofNat 32 (p + k)).setWidth 256 <<< 192)
  s.setMe { x with q := x.q.setIfInBounds n.toNat q' }

/-- A stream form (R238). -/
def streamForm (k : VKind) (vld : Option Reg) (d n : Reg) (m w : BitVec 3) (s : State) : Res :=
  let x := s.me
  let q := x.stream n
  let p := fld (qword q 3) 31 0
  let vn := vnOf x.vl.toNat x.rc.toNat x.vt.toNat
  let kind := fld (qword q 2) 33 32
  if streamPending x n then .next s
  else
    dispatchWith (advanceStream n vn) []
      (firstBad [widthOf s w, basesOk s [d], (decide (kind ≠ 0), 0x11, 1, 0),
        (decide (fld (qword q 2) 35 34 = w.toNat), 0x11, 2, 0), (decide (p + vn ≤ fld (qword q 2) 31 0), 0x11, 3, 0)])
      { mkEntry x k with d := d, b := n, m := m, ew := w.toNat, oper := (qword q 0, qword q 1), mode := kind, imm := p }
      none vld 4 s

/-! ## The instructions -/

/-- `vld`. -/
def execVld (d a : Reg) (m e : BitVec 3) (s : State) : Res := unitForm (.load .unit) (some d) d a m e s
/-- `vlds`. -/
def execVlds (d a b : Reg) (m e : BitVec 3) (s : State) : Res := strideForm (.load .strided) (some d) d a b m e s
/-- `vldx`. -/
def execVldx (d a b : Reg) (m e : BitVec 3) (s : State) : Res := gatherForm id (.load .indexed) d a b m e s
/-- `vldq`. -/
def execVldq (d b : Reg) (m e : BitVec 3) (s : State) : Res := streamForm (.load .stream) (some d) d b m e s
/-- `vldr`. -/
def execVldr (d a b : Reg) (m e : BitVec 3) (s : State) : Res := strideForm (.load .row) (some d) d a b m e s
/-- `vpf` (R252). -/
def execVpf (a : Reg) (m e : BitVec 3) (s : State) : Res := unitForm .pf none 0 a m e s
/-- `vgl`: its dispatch drops the reservations of the hand (R244, R245). -/
def execVgl (d a b : Reg) (m e : BitVec 3) (s : State) : Res := gatherForm (fun t => t.dropResv t.curHand) .gl d a b m e s
/-- `vst`. -/
def execVst (d a : Reg) (m e : BitVec 3) (s : State) : Res := unitForm (.store .unit false) none d a m e s
/-- `vsts`. -/
def execVsts (d a b : Reg) (m e : BitVec 3) (s : State) : Res := strideForm (.store .strided false) none d a b m e s
/-- `vstx`. -/
def execVstx (d a b : Reg) (m e : BitVec 3) (s : State) : Res := indexedForm (.store .indexed false) none d a b m e s
/-- `vstx.un`. -/
def execVstxUn (d a b : Reg) (m e : BitVec 3) (s : State) : Res := indexedForm (.store .indexed true) none d a b m e s
/-- `vstq`. -/
def execVstq (d b : Reg) (m e : BitVec 3) (s : State) : Res := streamForm (.store .stream false) none d b m e s
/-- `vstr`. -/
def execVstr (d a b : Reg) (m e : BitVec 3) (s : State) : Res := strideForm (.store .row false) none d a b m e s
/-- `vsc`: it sets vld to its mask register (R93, R246). -/
def execVsc (d a b : Reg) (m e : BitVec 3) (s : State) : Res := indexedForm .sc (some (m.setWidth 5)) d a b m e s
/-- `vamo.add`. -/
def execVamoAdd (d a b : Reg) (m e : BitVec 3) (s : State) : Res := indexedForm (.amo .add false false) none d a b m e s
/-- `vamo.min`. -/
def execVamoMin (d a b : Reg) (m e : BitVec 3) (s : State) : Res := indexedForm (.amo .min false false) none d a b m e s
/-- `vamo.max`. -/
def execVamoMax (d a b : Reg) (m e : BitVec 3) (s : State) : Res := indexedForm (.amo .max false false) none d a b m e s
/-- `vamo.and`. -/
def execVamoAnd (d a b : Reg) (m e : BitVec 3) (s : State) : Res := indexedForm (.amo .and false false) none d a b m e s
/-- `vamo.or`. -/
def execVamoOr (d a b : Reg) (m e : BitVec 3) (s : State) : Res := indexedForm (.amo .or false false) none d a b m e s
/-- `vamo.xor`. -/
def execVamoXor (d a b : Reg) (m e : BitVec 3) (s : State) : Res := indexedForm (.amo .xor false false) none d a b m e s
/-- `vamo.swap`. -/
def execVamoSwap (d a b : Reg) (m e : BitVec 3) (s : State) : Res := indexedForm (.amo .swap false false) none d a b m e s
/-- `vamo.add.un` (R242). -/
def execVamoAddUn (d a b : Reg) (m e : BitVec 3) (s : State) : Res := 
  dispatch [a] (firstBad [widthOf s e, basesOk s [d], indexOk s b, detOk s])
    { memEntry s (.amo .add false true) d a m e with b := b } none none 4 s
/-- `vamof.add`. -/
def execVamofAdd (d a b : Reg) (m e : BitVec 3) (s : State) : Res := gatherForm id (.amo .add true false) d a b m e s
/-- `vamof.swap`. -/
def execVamofSwap (d a b : Reg) (m e : BitVec 3) (s : State) : Res := gatherForm id (.amo .swap true false) d a b m e s
/-- `vcopy` (R247). -/
def execVcopy (d a b : Reg) (m e : BitVec 3) (s : State) : Res := 
  let ok (r : Reg) : Bool × Nat × Nat × Word := (decide ((s.me.rd r).toNat % 64 = 0), 0x05, 0, s.me.rd r)
  dispatch [a, b] (firstBad [ok a, ok b]) { memEntry s .copy d a m e with sb := s.me.rd b } none (some d) 4 s
/-- `vwait` (R250). -/
def execVwait (d a b : Reg) (m e : BitVec 3) (s : State) : Res := 
  dispatch [a] (firstBad [(decide (s.sew = 64), 0x01, 0, 0), basesOk s [d], indexOk s b, apartOk s d b])
    { memEntry s .vwait d a m e with b := b } none (some d) 4 s
/-- `vqset` (R237). -/
def execVqset (a b : Reg) (s : State) : Res := dispatch [a] none { mkEntry s.me .qset with b := b, sa := s.me.rd a } none none 4 s
/-- `vqget`: the descriptor as it stands at dispatch (R237, R238). -/
def execVqget (a b : Reg) (s : State) : Res := 
  let q := s.me.stream b
  if streamPending s.me b then .next s
  else
    dispatch [a] none { mkEntry s.me .qget with b := b, sa := s.me.rd a, oper := (qword q 0, qword q 1), fw := qword q 2, sb := qword q 3 }
      none none 4 s
/-- `wred` (R302, R303). -/
def execWred (d a b : Reg) (e : BitVec 3) (s : State) : Res := 
  let x := s.me
  let bytes := vnOf x.vl.toNat x.rc.toNat x.vt.toNat * (s.sew / 8)
  dispatch [a, b]
    (firstBad [(decide (codeWidth (whistleFormat e.toNat) 2 = s.sew), 0x01, 0, 0), basesOk s [d],
      (decide ((x.rd a).toNat % 64 = 0), 0x05, 0, x.rd a), (decide (0 < bytes ∧ bytes ≤ 4096), 0x10, 1, 0)])
    { memEntry s .wred d a 0 e with sb := x.rd b } none none 4 s
/-- `wfin` (R303). -/
def execWfin (d a b : Reg) (s : State) : Res := 
  dispatch [d, a, b] none { mkEntry s.me .wfin with sa := s.me.rd a, sb := s.me.rd b, ret := some d } (some d) none 4 s
/-- `wpoll` (R303). -/
def execWpoll (d a : Reg) (s : State) : Res := 
  dispatch [d, a] none { mkEntry s.me .wpoll with sa := s.me.rd a, ret := some d } (some d) none 4 s

/-! ## TILE (R253 to R264) -/

/-- The entry of a TILE form over accumulator rows. -/
def tileEntry (s : State) (k : VKind) (r : Reg) (im : BitVec 10) (rep : BitVec 4) : Entry :=
  { mkEntry s.me k with sa := s.me.rd r, imm := im.toNat, ew := rep.toNat }

/-- A check of the rows (R253): cause 0x0A. -/
def rowsOk (e : Entry) : Bool × Nat × Nat × Word := (e.rowsInside, 0x0A, 0, 0)

/-- `mma` (R257 to R260).  R256 lists the dispatch checks in no order: of several that fail the model takes the register span (0x01), then the
format word (0x02), then the rows (0x0A), as every TILE form does (log 18, DEDUCED). -/
def execMma (sa : Reg) (im : BitVec 10) (rep : BitVec 4) (f : BitVec 3) (mode : BitVec 2) (a : Reg) (m : BitVec 3) (s : State) :
    Res :=
  let w := formatWord (s.fword f)
  let e : Entry := { tileEntry s .mma sa im rep with a := a, m := m, mode := mode.toNat, fw := s.fword f }
  dispatch [sa, fwReg f] (firstBad [(spanOk a e.rep (decide (w.fa = 14)), 0x01, 0, 0), (fwMma w, 0x02, 0, 0), rowsOk e])
    e none none 8 s

/-- `mlatch` (R261). -/
def execMlatch (b : Reg) (f : BitVec 3) (s : State) : Res :=
  let w := formatWord (s.fword f)
  dispatch [fwReg f] (firstBad [(latchOk b (decide (w.fb = 14)), 0x01, 0, 0), (fwMlatch w, 0x02, 0, 0)])
    { mkEntry s.me .mlatch with b := b, fw := s.fword f } none none 8 s

/-- `mzero` (R262). -/
def execMzero (sa : Reg) (im : BitVec 10) (rep : BitVec 4) (s : State) : Res :=
  let e := tileEntry s .mzero sa im rep
  dispatch [sa] (firstBad [rowsOk e]) e none none 8 s

/-- `mrd` (R263). -/
def execMrd (d sa : Reg) (im : BitVec 10) (rep : BitVec 4) (f : BitVec 3) (s : State) : Res :=
  let e : Entry := { tileEntry s .mrd sa im rep with d := d, fw := s.fword f }
  dispatch [sa, fwReg f]
    (firstBad [(rowsFit d (tileOf e) e.rep, 0x01, 0, 0), (fwMrd (formatWord e.fw) s.sew, 0x02, 0, 0), rowsOk e]) e none (some d) 8 s

/-- `mwr` (R263). -/
def execMwr (sa : Reg) (im : BitVec 10) (rep : BitVec 4) (a : Reg) (f : BitVec 3) (s : State) : Res :=
  let e : Entry := { tileEntry s .mwr sa im rep with a := a, fw := s.fword f }
  dispatch [sa, fwReg f]
    (firstBad [(rowsFit a (tileOf e) e.rep, 0x01, 0, 0), (fwMwr (formatWord e.fw) s.sew, 0x02, 0, 0), rowsOk e]) e none none 8 s

/-- `mld` and `mst`: rows at S[b] (R264). -/
def rowMemForm (k : VKind) (sa : Reg) (im : BitVec 10) (rep : BitVec 4) (b : Reg) (s : State) : Res :=
  let e : Entry := { tileEntry s k sa im rep with sb := s.me.rd b }
  dispatch [sa, b] (firstBad [rowsOk e, (decide (e.sb.toNat % 4 = 0), 0x05, 0, e.sb)]) e none none 8 s

/-- `mld` (R264). -/
def execMld (sa : Reg) (im : BitVec 10) (rep : BitVec 4) (b : Reg) (s : State) : Res := rowMemForm .mld sa im rep b s
/-- `mst` (R264). -/
def execMst (sa : Reg) (im : BitVec 10) (rep : BitVec 4) (b : Reg) (s : State) : Res := rowMemForm .mst sa im rep b s

end Sys2Proof.Machine
end

