-- ==== Sys2Proof/Machine/Fetch.lean ====
section
/-!
DEFINITION. A hand's turn (R48 to R51, R67, R78): what a hand does when it moves, up to the instruction that it decodes at its
program counter; the branch queue (R104); and the steps by which holds, stops and abandons take effect (R50, R56, R63, R64).
-/

namespace Sys2Proof.Machine

/-! ## Parking, holding and stopping -/

/-- A fault of the access stream is taken once every older instruction has retired and the store buffer has drained (R314, R315). -/
def parkDue (s : State) (h : Nat) : State :=
  let x := s.hand h
  match x.pfault with
  | some f => if x.rq = [] ∧ x.scalarStoresDone then park s h f.cls f.cause f.sub f.apc x.pc f.addr 0 else s
  | none => s

/-- The hand stands at a safe point (R50): at once in the quiet states, at an instruction boundary in Fetch but for a
fence that waits (R283), at a waiting `end` in Block; an access held by a migrating page is none (R217). -/
def atSafePoint (x : Hand) : Bool :=
  x.st.quiet || (decide (x.st = .fetch) && x.acc.isNone && x.pfault.isNone && x.migHold.isNone && !x.fencing)
    || (decide (x.st = .block) && x.ending && x.acc.isNone && x.pfault.isNone && x.migHold.isNone)

/-- A request pends. -/
def Hand.requested (x : Hand) : Bool := x.stopReq.isSome || x.holdDue

/-- HOLD_SAFE_POINT: a hold that pends has reached its safe point, where the drain of R64 starts; a stop comes first (R50). -/
def execHoldSafePoint (h : Nat) (s : State) : Res :=
  forUnit h Config.numHands
    (onlyIf ((s.hand h).holdDue && !(s.hand h).draining && atSafePoint (s.hand h) && decide ((s.hand h).st ≠ .parked)) s
      (takeRequests s h))

/-- HELD_ENTRY: the drain has ended and the hand is Held (R64). -/
def execHeldEntry (h : Nat) (s : State) : Res :=
  forUnit h Config.numHands (onlyIf ((s.hand h).draining && (s.hand h).drained) s (afterProgress s h))

/-- STOP_TAKES_EFFECT (R56). -/
def execStopTakesEffect (h : Nat) (s : State) : Res :=
  forUnit h Config.numHands
    (match (s.hand h).stopReq with
      | some ab => onlyIf (atSafePoint (s.hand h)) s (stopAt s h ab)
      | none => .next s)

/-- ABANDON_OFF: an abandoned hand whose VIQ is empty and whose stores are acknowledged is Off (R56). -/
def execAbandonOff (h : Nat) (s : State) : Res := forUnit h Config.numHands (.next (leaveIfDone s h))

/-! ## The instruction at the program counter -/

/-- The bytes of the current block from the program counter on (R67, R80). -/
def instrBytes (x : Hand) : List Byte :=
  match x.cur with
  | some b => b.bytes.drop (x.pc.toNat % 64)
  | none => []

/-- The instruction that the hand decodes next. -/
noncomputable def instrAt (x : Hand) : Option Instr := (decodeHand (instrBytes x)).map Prod.fst

/-- What a turn comes to: a machine, or an instruction to run on one. -/
inductive Prepared where
  | done (s : State)
  | run (i : Instr) (s : State)

/-- The turn of a hand that runs a block: what pends at a boundary, the fetch of its block, and its next instruction.  A misaligned load
goes on byte by byte (R276), and nothing is decoded while a dispatched instruction has a fault to take (R315). -/
noncomputable def blockTurn (s : State) (h : Nat) : Prepared :=
  let x := s.hand h
  if x.pfault.isSome then .done (if x.faulting then engines s h else parkDue s h)
  else match x.acc with
  | some o => match o.kind with
    | .torn d n signed => .done (tornTurn s h o d n signed)
    | _ => .done (engines s h)
  | none =>
  if x.draining || x.faulting then .done (engines s h)
  else if x.requested && atSafePoint x then .done (takeRequests s h)
  else if x.needsBlock then .done (blockArrives s h)
  else match x.cur with
    | none => .done s
    | some b =>
      match b.failed with
      | some sub => .done (preciseFault s h 0x08 sub (nat64 b.base) x.pc)
      | none =>
        match instrAt x with
        | none => .done (preciseFault s h 0x01 0 0 x.pc)
        | some i => .run i s

/-- The turn of a hand. -/
noncomputable def handTurn (s : State) (h : Nat) : Prepared :=
  let t := { s with curHand := h }
  match (s.hand h).st with
  | .idle => .done (if (s.hand h).requested ∧ !(s.hand h).draining then takeRequests t h else engines (leaveIfDone t h) h)
  | .block => blockTurn t h
  | .fetch => blockTurn t h
  | .wait => .done (if (s.hand h).draining || (s.hand h).faulting then engines t h else afterWait (waitTry t h) h)
  | .held => .done (engines t h)
  | .parked => .done (engines t h)
  | .frozen => .done t
  | .off => .done t

/-! ## The branch queue (R104) -/

/-- The meaning of a 32-bit branch (major 0x08) from its word; none for every other word. -/
def branchMeaning (w : BitVec 32) : Option (State → Res) :=
  let a : Reg := getF w 8 5
  let b : Reg := getF w 13 5
  let o : BitVec 11 := getF w 21 11
  if (getF w 0 8 : BitVec 8) ≠ 0x21 then none
  else some (match (getF w 18 3 : BitVec 3).toNat with
    | 0 => execBeq a b o
    | 1 => execBne a b o
    | 2 => execBlt a b o
    | 3 => execBge a b o
    | 4 => execBltn a b o
    | 5 => execBgen a b o
    | 6 => execBbs a b o
    | _ => execBbc a b o)

/-- The meaning of a compressed branch from its halfword. -/
def shortBranchMeaning (w : BitVec 16) : Option (State → Res) :=
  let b : Reg := getF w 5 5
  let im : BitVec 6 := getF w 10 6
  match (getF w 0 5 : BitVec 5).toNat with
  | 0x16 => some (execCBeqz b im)
  | 0x18 => some (execCBnez b im)
  | _ => none

/-- The branch at the program counter. -/
def branchAt (x : Hand) : Option (State → Res) :=
  let bs := instrBytes x
  match handLength (leValue (bs.take 2)) with
  | 2 => if bs.length < 2 then none else shortBranchMeaning (BitVec.ofNat 16 (leValue (bs.take 2)))
  | 4 => if bs.length < 4 then none else branchMeaning (BitVec.ofNat 32 (leValue (bs.take 4)))
  | _ => none

/-- The hand can decode the instruction at its program counter. -/
def Hand.decodes (x : Hand) : Bool :=
  decide (x.st = .block ∨ x.st = .fetch) && x.pfault.isNone && !x.draining && !x.faulting && x.acc.isNone && !(x.requested && atSafePoint x)
    && !x.needsBlock && (match x.cur with
      | some b => b.failed.isNone
      | none => false)

/-- BRANCH_QUEUE_OUTCOME: the comparison of a branch whose operand was pending comes back, and decode goes on (R104). -/
def execBranchQueueOutcome (h : Nat) (s : State) : Res :=
  forUnit h Config.numHands
    (match branchAt (s.hand h) with
      | some f => if (s.hand h).decodes then f { s with curHand := h } else .next s
      | none => .next s)

end Sys2Proof.Machine
end

