-- ==== Sys2Proof/Machine/Reeve.lean ====
section
/-!
DEFINITION. The reeve (R45 to R47): RV64IMAC with Zicsr, Zifencei, Zba and Zbb, its modes, CSRs, traps and interrupts, its
translation (R46, R215) and accesses (R276, R360), `rexit` (Table 3.3), and debug.  What the RISC-V specifications leave to an
implementation is in log 5.
-/

namespace Sys2Proof.Machine

/-! ## Registers -/

/-- X[n]: x0 reads 0. -/
def Reeve.rd (r : Reeve) (n : Reg) : Word := if n = 0 then 0 else r.x[n.toNat]'(n.isLt)
/-- X[n] ← v: a write of x0 is discarded. -/
def Reeve.wr (r : Reeve) (n : Reg) (v : Word) : Reeve := if n = 0 then r else { r with x := r.x.set n.toNat v n.isLt }
/-- The reeve whose instruction runs. -/
def State.rv (s : State) : Reeve := s.reeve s.curReeve
/-- A CSR as stored. -/
def Reeve.csrOf (r : Reeve) (n : Nat) : Word := tabGet 0 r.csr n
/-- The reeve with a CSR stored. -/
def Reeve.setCsr (r : Reeve) (n : Nat) (v : Word) : Reeve := { r with csr := tabSet r.csr n v }

/-- Code of a mode (RISC-V Privileged Specification). -/
def Mode.code : Mode → Nat
  | .u => 0
  | .s => 1
  | .m => 3

/-- The mode of a code; 2 names none and gives U. -/
def Mode.ofCode (n : Nat) : Mode := if n = 3 then .m else if n = 1 then .s else .u

/-- The writable bits of `mstatus`. -/
def mstatusMask : Word := 0x7E19AA
/-- The bits of `mstatus` that `sstatus` shows. -/
def sstatusMask : Word := 0xC0122
/-- UXL and SXL, both 64 bits. -/
def xlBits : Word := 0xA00000000
/-- Interrupts that exist: SSI, MSI, STI, MTI, SEI, MEI and hand event, bit 16 (R47). -/
def intMask : Word := 0x10AAA
/-- Interrupts that may be delegated. -/
def delegMask : Word := 0x10222

/-- Bit 16 of `mip`: `hpend` or `hsig` is nonzero (R47). -/
def Reeve.handEvent (r : Reeve) : Bool := decide (r.hpend ≠ 0 ∨ r.hsig ≠ 0)
/-- `mip` as read. -/
def Reeve.mip (r : Reeve) : Word := (r.csrOf 0x344 &&& 0xAAA#64) ||| (if r.handEvent then 0x10000 else 0)

/-- `hfarm` (Table 3.4). -/
def Reeve.hfarmWord (r : Reeve) : Word := BitVec.ofNat 64 (r.hfarm % 2 ^ 32 * 65536 + r.hmask.toNat)

/-- A field of bits replaced. -/
def maskIn (mask old new : Word) : Word := (old &&& ~~~mask) ||| (new &&& mask)

/-- A CSR number that exists; RV64 has the even `pmpcfg` only. -/
def csrExists (n : Nat) : Bool :=
  decide (n ∈ [0x300, 0x301, 0x302, 0x303, 0x304, 0x305, 0x306, 0x30A, 0x320, 0x340, 0x341, 0x342, 0x343, 0x344, 0x100, 0x104, 0x105,
    0x106, 0x10A, 0x140, 0x141, 0x142, 0x143, 0x144, 0x180, 0xF11, 0xF12, 0xF13, 0xF14, 0xF15, 0x5C0, 0x5C1, 0x5C2, 0x5C3])
  || decide (0xB00 ≤ n ∧ n ≤ 0xB1F ∧ n ≠ 0xB01) || decide (0xC00 ≤ n ∧ n ≤ 0xC1F) || decide (0x323 ≤ n ∧ n ≤ 0x33F)
  || decide (0x3A0 ≤ n ∧ n ≤ 0x3AF ∧ n % 2 = 0) || decide (0x3B0 ≤ n ∧ n ≤ 0x3EF)

/-- A CSR as read (Tables 3.1 to 3.4, log 5). -/
def rvCsrRead (s : State) (c n : Nat) : Word :=
  let r := s.reeve c
  match n with
  | 0x300 => r.csrOf 0x300 ||| xlBits
  | 0x301 => 0x8000000000141105
  | 0x344 => r.mip
  | 0x100 => (r.csrOf 0x300 &&& sstatusMask) ||| 0x200000000
  | 0x104 => r.csrOf 0x304 &&& r.csrOf 0x303
  | 0x144 => r.mip &&& r.csrOf 0x303
  | 0xF14 => nat64 c
  | 0x5C0 => r.hpend
  | 0x5C1 => r.hsig
  | 0x5C2 => 0
  | 0x5C3 => r.hfarmWord
  | 0xB00 => (s.core c).cyc + r.csrOf 0xB00
  | 0xC00 => (s.core c).cyc + r.csrOf 0xB00
  | 0xC01 => nat64 (s.coreTick c)
  | 0xC02 => r.csrOf 0xB02
  | _ => r.csrOf n

/-- `mstatus` with a value written: MPP takes no reserved code. -/
def mstatusSet (old v : Word) : Word :=
  let new := maskIn mstatusMask old v
  if fld new 12 11 = 2 then maskIn 0x1800 new old else new

/-- The end of the reeve's part of a farm on core `c` (R36, Table 3.3). -/
def reevePartEnds (s : State) (c f : Nat) : State :=
  let r := s.reeve c
  if r.serving ∧ r.hfarm = f ∧ f ≠ 0 then
    (s.setReeve c { r with serving := false, hfarm := 0, hmask := 0, kwaiting := false }).updFarm f fun g =>
      { g with reeves := g.reeves.filter (· != c) }
  else s

/-- A CSR written (Tables 3.1 to 3.4, R46, log 5); read-only fields keep their value. -/
def rvCsrWrite (s : State) (c n : Nat) (v : Word) : State :=
  let r := s.reeve c
  let put (k : Nat) (x : Word) : State := s.setReeve c (r.setCsr k x)
  match n with
  | 0x300 => put 0x300 (mstatusSet (r.csrOf 0x300) v)
  | 0x100 => put 0x300 (maskIn sstatusMask (r.csrOf 0x300) v)
  | 0x302 => put 0x302 (v &&& 0xB3FF)
  | 0x303 => put 0x303 (v &&& delegMask)
  | 0x304 => put 0x304 (v &&& intMask)
  | 0x104 => put 0x304 (maskIn (r.csrOf 0x303) (r.csrOf 0x304) v)
  | 0x344 => put 0x344 (maskIn 0x222 (r.csrOf 0x344) v)
  | 0x144 => put 0x344 (maskIn (0x2 &&& r.csrOf 0x303) (r.csrOf 0x344) v)
  | 0x305 => put 0x305 (v &&& ~~~2#64)
  | 0x105 => put 0x105 (v &&& ~~~2#64)
  | 0x306 => put 0x306 (v &&& 7)
  | 0x106 => put 0x106 (v &&& 7)
  | 0x30A => put 0x30A (v &&& 1)
  | 0x10A => put 0x10A (v &&& 1)
  | 0x340 => put 0x340 v
  | 0x341 => put 0x341 (v &&& ~~~1#64)
  | 0x342 => put 0x342 v
  | 0x343 => put 0x343 v
  | 0x140 => put 0x140 v
  | 0x141 => put 0x141 (v &&& ~~~1#64)
  | 0x142 => put 0x142 v
  | 0x143 => put 0x143 v
  | 0x180 => if fld v 63 60 = 0 ∨ fld v 63 60 = 15 then put 0x180 v else s
  | 0x5C0 => s.setReeve c { r with hpend := r.hpend &&& ~~~v }
  | 0x5C1 => s.setReeve c { r with hsig := r.hsig &&& ~~~v }
  | 0x5C2 => if fld v 63 32 = 0 then reevePartEnds s c v.toNat else s
  | 0xB00 => put 0xB00 (v - (s.core c).cyc)
  | 0xB02 => put 0xB02 v
  | _ => s

/-! ## Traps (RISC-V Privileged Specification) -/

/-- The handler's address: vectored for an interrupt where the mode bit is 1. -/
def trapPc (tvec : Word) (interrupt : Bool) (code : Nat) : Word :=
  (tvec &&& ~~~3#64) + (if interrupt ∧ tvec.getLsbD 0 then nat64 (4 * code) else 0)

/-- A bit of a word set or cleared. -/
def setBit (w : Word) (n : Nat) (b : Bool) : Word := if b then w ||| (1#64 <<< n) else w &&& ~~~(1#64 <<< n)

/-- The key of a page in a reeve's TLB: ASID and page number (R218). -/
def rtlbKey (r : Reeve) (va : Nat) : Nat := fld (r.csrOf 0x180) 59 44 * 2 ^ 36 + va / 4096

/-- The reeve's instruction walks when its access to a page is made again (R217, R218). -/
def Reeve.willWalk (r : Reeve) (va : Word) : Reeve :=
  if r.walks.contains (va.toNat / 4096, r.pc) then r else { r with walks := r.walks ++ [(va.toNat / 4096, r.pc)] }

/-- A page that faulted walks again: no cached leaf that could translate it is kept, and the access walks when it executes again
(R218). -/
def Reeve.forget (r : Reeve) (code : Nat) (va : Word) : Reeve :=
  if code ∈ [12, 13, 15] then { r with tlb := dropLeaf r.tlb (rtlbKey r va.toNat) }.willWalk va else r

/-- A trap of reeve `c`, delegated to supervisor mode or taken in machine mode: the status stacks, the pc, cause and value are
saved, and the handler runs. -/
def rvEnter (s : State) (c : Nat) (interrupt : Bool) (code : Nat) (tval : Word) : State :=
  let r := if interrupt then s.reeve c else (s.reeve c).forget code tval
  let deleg := if interrupt then r.csrOf 0x303 else r.csrOf 0x302
  let ms := r.csrOf 0x300
  let cause := nat64 code ||| (if interrupt then 1#64 <<< 63 else 0)
  let base := { r with kwaiting := false, wfi := false, migHold := none, dbuf := none, ibuf := none, framing := false }
  if r.mode ≠ .m ∧ deleg.getLsbD code then
    let ms1 := setBit (setBit (setBit ms 8 (decide (r.mode = .s))) 5 (ms.getLsbD 1)) 1 false
    let x := (((base.setCsr 0x300 ms1).setCsr 0x141 r.pc).setCsr 0x142 cause).setCsr 0x143 tval
    s.setReeve c { x with mode := .s, pc := trapPc (r.csrOf 0x105) interrupt code }
  else
    let ms1 := maskIn 0x1800 (setBit (setBit ms 7 (ms.getLsbD 3)) 3 false) (nat64 (r.mode.code * 2048))
    let x := (((base.setCsr 0x300 ms1).setCsr 0x341 r.pc).setCsr 0x342 cause).setCsr 0x343 tval
    s.setReeve c { x with mode := .m, pc := trapPc (r.csrOf 0x305) interrupt code }

/-- An exception of the running reeve. -/
def rvTrap (s : State) (code : Nat) (tval : Word) : State := rvEnter s s.curReeve false code tval

/-- The bits of dcsr that can be written: ebreakm, ebreaks, ebreaku and step (RISC-V External Debug Support 0.13.2, log 25). -/
def dcsrMask : Word := 0xB004

/-- The bit of dcsr by which `ebreak` enters debug mode. -/
def ebreakBit (m : Mode) : Nat :=
  match m with
  | .m => 15
  | .s => 13
  | .u => 12

/-- Reeve `c` enters debug mode: dpc and dcsr record its program counter, mode and cause (R45, log 25). -/
def rvDebug (s : State) (c cause : Nat) : State :=
  let r := s.reeve c
  s.setReeve c { r.setCsr 0x7B0 ((r.csrOf 0x7B0 &&& dcsrMask) ||| nat64 (64 * cause + r.mode.code)) with
    debug := true, dpc := r.pc, due := .none, wfi := false, kwaiting := false, migHold := none, dbuf := none, ibuf := none, framing := false }

/-- The interrupt that the reeve takes now, if any.  Neither R47 nor the Privileged Specification orders the hand-event interrupt 16
against the others: the model takes it last (log 5, DESIGN CHOICE). -/
def rvPending (r : Reeve) : Option Nat :=
  let p := r.mip &&& r.csrOf 0x304
  let ms := r.csrOf 0x300
  let d := r.csrOf 0x303
  let mOn := decide (r.mode ≠ .m) || ms.getLsbD 3
  let sOn := decide (r.mode = .u) || (decide (r.mode = .s) && ms.getLsbD 1)
  let taken (n : Nat) : Bool := p.getLsbD n && (if d.getLsbD n then sOn else mOn)
  match [11, 3, 7, 9, 1, 5, 16].find? fun n => taken n && !d.getLsbD n with
  | some n => some n
  | none => [9, 1, 5, 16].find? fun n => taken n && d.getLsbD n

/-! ## Translation (R46, R215) -/

/-- Who translates: the mode that counts for a data access (MPRV) or a fetch. -/
def Reeve.accessMode (r : Reeve) (fetch : Bool) : Mode :=
  if !fetch ∧ r.mode = .m ∧ (r.csrOf 0x300).getLsbD 17 then Mode.ofCode (fld (r.csrOf 0x300) 12 11) else r.mode

/-- Addresses are translated: MODE 15, and not machine mode. -/
def Reeve.translates (r : Reeve) (fetch : Bool) : Bool :=
  decide (r.accessMode fetch ≠ .m) && decide (fld (r.csrOf 0x180) 63 60 = 15)

/-- U, R, W and X under the RISC-V rules with SUM and MXR (R215); `rx` asks for R and X (R54). -/
def rvPermitted (r : Reeve) (t : AccType) (rx : Bool) (pte : Word) : Bool :=
  let ms := r.csrOf 0x300
  let fetch := decide (t = .fetch)
  let u := pteBit pte 4
  let user := match r.accessMode fetch with
    | .u => u
    | _ => !u || (ms.getLsbD 18 && !fetch)
  let mxr := decide (t = .load) && ms.getLsbD 19 && pteBit pte 3
  user && (rwxOk pte t || mxr) && (!rx || (pteBit pte 1 && pteBit pte 3))

/-- The leaf that translates a reeve's page: of the TLB or of a walk, its own or one of its group (R216, R218); of a walk where the
instruction's access there has faulted or is held (R217, R218). -/
def rvLeaf (s : State) (c va : Nat) : Except Nat Leaf :=
  let r := s.reeve c
  pickLeaf s (fld (r.csrOf 0x180) 43 0) (if r.walks.contains (va / 4096, r.pc) then [] else r.tlb) (rtlbKey r va) va

/-- The translation of a reeve's page; without translation the address is the PA. -/
def rvXlat (s : State) (c : Nat) (t : AccType) (rx : Bool) (va : Nat) : Xlat :=
  let r := s.reeve c
  if r.translates (decide (t = .fetch)) then
    if va ≥ 2 ^ 48 then .fault 7
    else match rvLeaf s c va with
      | .error n => .fault n
      | .ok l => leafCheck l va t (rvPermitted r t rx l.pte)
  else if populated va then .page Config.node va false else .fault 6

/-- The exception code of a page fault, or of an access fault, by access. -/
def rvCode (t : AccType) (access : Bool) : Nat :=
  match t with
  | .load => if access then 5 else 13
  | .fetch => if access then 1 else 12
  | _ => if access then 7 else 15

/-- Where the bytes of a reeve's access lie.  The cause of a fault is a RISC-V exception code. -/
def rvLocate (s : State) (c : Nat) (addr : Word) (n : Nat) (t : AccType) (rx : Bool) : Located :=
  let bare := !(s.reeve c).translates (decide (t = .fetch))
  locateParts (rvXlat s c t rx) (rvCode t bare) (pageParts (n / 4096 + 2) addr.toNat n)

/-- An access of reeve `c` has performed on some pages: its instruction need not walk for them again (R217, R218). -/
def rvNoteWalks (s : State) (c : Nat) (pages : List Nat) : State :=
  let r := s.reeve c
  let done (w : Nat × Word) : Bool := decide (w.2 = r.pc) && pages.any fun va => va / 4096 == w.1
  if r.walks.any done then s.setReeve c { r with walks := r.walks.filter fun w => !done w } else s

/-- The reeve's TLB keeps the leaves of the pages that an access used (R217, R218). -/
def rvNoteTlb (s : State) (c : Nat) (addr : Word) (n : Nat) (fetch : Bool) : State :=
  if !(s.reeve c).translates fetch then s
  else
    let pages := (pageParts (n / 4096 + 2) addr.toNat n).map Prod.fst
    rvNoteWalks (pages.foldl (fun t va =>
      match rvLeaf t c va with
      | .ok l => if pteBit l.pte 8 then t else
        let r := t.reeve c
        t.setReeve c { r with tlb := tabAdd Config.tlbEntries r.tlb (rtlbKey r va) l }
      | .error _ => t) s) c pages

/-! ## The end of an instruction -/

/-- Where an access of reeve `c` is an acquire, the lines of its core's hand data cache go, so that no hand that the reeve then releases to
reads an older value from one (R210, R279). -/
def rvAcquired (s : State) (c : Nat) (acq : Bool) : State :=
  if acq ∧ (s.core c).dcache ≠ [] then s.setCore c { s.core c with dcache := [] } else s

/-- Reeve `c` goes on after an instruction of `len` bytes. -/
def rvNextOf (s : State) (c : Nat) (r : Reeve) (len : Nat) : State :=
  if (s.reeve c).frozen then s
  else
    let x := r.setCsr 0xB02 (r.csrOf 0xB02 + 1)
    s.setReeve c { x with pc := x.pc + nat64 len, kwaiting := false, migHold := none, dbuf := none, ibuf := none, out := none, framing := false }

/-- The running reeve goes on. -/
def rvNext (s : State) (r : Reeve) (len : Nat) : State := rvNextOf s s.curReeve r len

/-- X[d] ← v and the next instruction. -/
def rvSet (s : State) (d : Reg) (v : Word) (len : Nat) : State := rvNext s (s.rv.wr d v) len

/-- A transfer of control. -/
def rvJump (s : State) (r : Reeve) (t : Word) : State :=
  let n := rvNext s r 0
  n.setReeve s.curReeve { n.reeve s.curReeve with pc := t }

/-! ## Accesses (R276, R305, R360) -/

/-- The access is held by a migrating page (R217). -/
def rvHold (s : State) (t : AccType) (addr : Word) : State :=
  let r := s.rv
  let now := s.coreTick s.curReeve
  let m : MigHold := { since := (r.migHold.map MigHold.since).getD now, cause := rvCode t false, addr := addr }
  if now - m.since ≥ Config.holdTicks then rvTrap (s.setReeve s.curReeve { r with migHold := none }) m.cause addr
  else s.setReeve s.curReeve { r.willWalk addr with migHold := some m }

/-- A reeve's value of a load. -/
def rvLoadValue (n : Nat) (signed : Bool) (bytes : List Byte) : Word := loadValue n signed bytes

/-- Reeve `c` consumes a poisoned byte: an access fault, and event 0x02 (R226, R347). -/
def rvPoison (s : State) (c code : Nat) (addr : Word) : State := rvEnter (s.boxCore c 0x02 c (s.reeve c).part 1 0) c false code addr

/-- The outcome of a reeve's reads; `done` says what the bytes do. -/
def rvOutcome (c : Nat) (t : AccType) (kind : ReeveAccess) (len : Nat) (addr : Word) (done : State → List Byte → State)
    (r : State × Gather) : State :=
  let x := r.1.reeve c
  match r.2 with
  | .done bytes => done r.1 bytes
  | .wait w => r.1.setReeve c { x with out := some { tag := w.tag, kind := kind, addr := addr, len := len, locs := w.locs, got := w.got } }
  | .poison => rvPoison r.1 c (rvCode t true) addr
  | .remote _ before => rvEnter r.1 c false (rvCode t true) (addr + nat64 before)
  | .violation code off => violate r.1 x.part code (.reeve c) (nat64 (Config.regBase + off))

/-- The writes that a reeve has sent are replied to by base dies and acknowledged by other nodes (R211, R305). -/
def Reeve.storesDone (r : Reeve) : Bool := decide (r.unacked = [] ∧ r.dieWrites = [])

/-- An access past the caches goes out once base dies have replied to the reeve's earlier writes there, so that the reeve sees its own
writes in order (R284). -/
def Reeve.behindDie (r : Reeve) (locs : List Loc) : Bool :=
  decide (r.dieWrites ≠ []) && locs.any fun l => match l with
    | .dram _ nc => nc
    | _ => false

/-- Some of the writes that a fence has named are still under way (R284). -/
def Reeve.waitsFor (r : Reeve) (tags : List Nat) : Bool := tags.any fun t => r.unacked.contains t || r.dieWrites.contains t

/-- A fence holds an access that reads, or that writes (R284). -/
def Reeve.fenced (r : Reeve) (t : AccType) : Bool :=
  match t with
  | .fetch => false
  | .load => r.waitsFor r.fenceR
  | .store => r.waitsFor r.fenceW
  | .both => r.waitsFor r.fenceR || r.waitsFor r.fenceW

/-- An access of the running reeve goes on once its transfers are paid for (R224), its own earlier writes past the caches have been
replied to, and no fence holds it (R284). -/
def rvPaid (s : State) (t : AccType) (locs : List Loc) (f : State → State) : State :=
  if s.rv.behindDie locs || s.rv.fenced t then s
  else
    let p := payFor s (.reeve s.curReeve) locs
    if p.2 then f p.1 else p.1

/-- Reads the bytes of an access of the running reeve. -/
def rvRead (s : State) (addr : Word) (n : Nat) (t : AccType) (rx : Bool) (op : MemOp) (kind : ReeveAccess) (len : Nat)
    (done : State → List Loc → List Byte → State) : State :=
  let c := s.curReeve
  match rvLocate s c addr n t rx with
  | .fault code _ ad => rvTrap s code ad
  | .hold ad => rvHold s t ad
  | .ok locs =>
    rvPaid s t locs fun p =>
      rvOutcome c t kind len addr (fun u bs => done u locs bs)
        (gather (.reeve c) (.reeve c) op readLoc addr (n + 1) (rvNoteTlb p c addr n (decide (t = .fetch))) locs [])

/-- A load completes. -/
def rvLoadDone (c : Nat) (d : Reg) (n : Nat) (signed : Bool) (len : Nat) (s : State) (bytes : List Byte) : State :=
  rvNextOf s c ((s.reeve c).wr d (rvLoadValue n signed bytes)) len

/-- A load.  The bytes of a misaligned one of this device's memory are accesses of their own (R45, R276): outside lockstep they are read
at times of their own. -/
def rvLoad (d a : Reg) (off : Word) (n : Nat) (signed : Bool) (len : Nat) (s : State) : State :=
  let c := s.curReeve
  let addr := s.rv.rd a + off
  rvRead s addr n .load false (readOp addr.toNat n) (.load d n signed) len fun u locs bs =>
    if isTorn u addr n locs then
      u.setReeve c { u.reeve c with
        out := some { tag := 0, kind := .torn d n signed, addr := addr, len := len, locs := locs, got := bs } }
    else rvLoadDone c d n signed len u bs

/-- A store of the low n bytes of X[b]. -/
def rvStore (b a : Reg) (off : Word) (n len : Nat) (s : State) : State :=
  let c := s.curReeve
  let addr := s.rv.rd a + off
  match rvLocate s c addr n .store false with
  | .fault code _ ad => rvTrap s code ad
  | .hold ad => rvHold s .store ad
  | .ok locs =>
    rvPaid s .store locs fun p =>
      let data := leBytes n (s.rv.rd b).toNat
      let q := rvNoteTlb p c addr n false
      if isTorn q addr n locs then
        q.setReeve c { q.reeve c with out := some { tag := 0, kind := .tear data, addr := addr, len := len, locs := locs, got := [] } }
      else
        let t := storeAt q (.reeve c) addr.toNat n locs data
        rvNext t (t.reeve c) len

/-- A misaligned access goes on: a free part of its bytes is read again or written, and a load ends at a free time (R45, R276, log 21). -/
def rvTorn (s : State) (c : Nat) (o : ReeveOut) : State :=
  let r := s.reeve c
  match o.kind with
  | .torn d n signed =>
    let now := freePart s (List.range n)
    let got := (List.range n).map fun k => if now.contains k then readLoc s (locAt o.locs k) else o.got.getD k 0
    if o.locs.any (poisonedLoc s) then rvPoison (s.setReeve c { r with out := none }) c 5 o.addr
    else if s.freeAt 64 2 = 1 then rvLoadDone c d n signed o.len s.used got
    else s.used.setReeve c { r with out := some { o with got := got } }
  | .tear bytes =>
    let now := freePart s (List.range o.locs.length)
    let rest := (List.range o.locs.length).filter fun k => !now.contains k
    let t := (performWrite s (.reeve c) (now.map (locAt o.locs)) (now.map fun k => bytes.getD k 0)).used
    if rest = [] then rvNextOf t c { t.reeve c with out := none } o.len
    else t.setReeve c { t.reeve c with
      out := some { o with kind := .tear (rest.map fun k => bytes.getD k 0), locs := rest.map (locAt o.locs) } }
  | _ => s

/-- The number under which a reeve holds a reservation. -/
def rvResv (c : Nat) : Nat := 4096 + c

/-- LR completes: the granule is reserved. -/
def rvLrDone (c : Nat) (d : Reg) (n : Nat) (acq : Bool) (loc : Loc) (len : Nat) (s : State) (bytes : List Byte) : State :=
  let t := (rvAcquired s c acq).dropResv (rvResv c)
  let u := { t with resv := t.resv ++ [(rvResv c, granuleOf 8 loc)] }
  rvLoadDone c d n true len u bytes

/-- LR (R45): misaligned, it raises exception 4; with rl it is a release at system scope (R284). -/
def rvLr (w aq rl : Bool) (d a : Reg) (len : Nat) (s : State) : State :=
  let n := if w then 4 else 8
  let addr := s.rv.rd a
  if addr.toNat % n ≠ 0 then rvTrap s 4 addr
  else if rl && !s.rv.storesDone then s
  else
    let first := match rvLocate s s.curReeve addr n .load false with
      | .ok (l :: _) => l
      | _ => .dram 0 false
    rvRead s addr n .load false .reserve (.lr d n aq first) len
      fun u locs bs => rvLrDone s.curReeve d n aq (locs.headD first) len u bs

/-- SC (R45): it writes if the reservation stands, and drops it. -/
def rvSc (w aq rl : Bool) (d a b : Reg) (len : Nat) (s : State) : State :=
  let n := if w then 4 else 8
  let c := s.curReeve
  let addr := s.rv.rd a
  if addr.toNat % n ≠ 0 then rvTrap s 6 addr
  else if rl && !s.rv.storesDone then s
  else match rvLocate s c addr n .both false with
    | .fault code _ ad => rvTrap s code ad
    | .hold ad => rvHold s .both ad
    | .ok locs => rvPaid s .both locs fun p =>
      let data := leBytes n (s.rv.rd b).toNat
      let mine := s.resv.contains (rvResv c, granuleOf 8 (locs.headD (.dram 0 false)))
      let s1 := (rvAcquired (rvNoteTlb p c addr n false) c aq).dropResv (rvResv c)
      if !mine then rvNext s1 ((s1.reeve c).wr d 1) len
      else match locs.head? with
        | some (.remote node _ _) =>
          if nodeDead s s.rv.part node then rvTrap s1 7 addr
          else
            let (t, tag) := sendRemote s1 (.reeve c) s.rv.part node .condWrite locs data [] addr n
            t.setReeve c { t.reeve c with out := some { tag := tag, kind := .sc d aq, addr := addr, len := len, locs := locs, got := [] } }
        | some (.host _) => rvNext s1 ((s1.reeve c).wr d 1) len
        | _ => match dieOf (.reeve c) locs with
        | some k =>
          let (t, tag) := sendDie p (.reeve c) s.rv.part k .condWrite locs data [] addr n
          t.setReeve c { t.reeve c with out := some { tag := tag, kind := .sc d aq, addr := addr, len := len, locs := locs, got := [] } }
        | none =>
          let t := store s1 (.reeve c) addr locs data
          rvNext t ((t.reeve c).wr d 0) len

/-- An AMO completes with the old value. -/
def rvAmoDone (c : Nat) (d : Reg) (n old : Nat) (acq : Bool) (len : Nat) (s : State) : State :=
  rvNextOf (rvAcquired s c acq) c ((s.reeve c).wr d (BitVec.ofInt 64 (toSigned (8 * n) old))) len

/-- An AMO (R45): misaligned, it raises exception 6. -/
def rvAmo (o : AmoOp) (w aq rl : Bool) (d a b : Reg) (len : Nat) (s : State) : State :=
  let n := if w then 4 else 8
  let c := s.curReeve
  let addr := s.rv.rd a
  let y := s.rv.rd b
  if addr.toNat % n ≠ 0 then rvTrap s 6 addr
  else if rl && !s.rv.storesDone then s
  else match rvLocate s c addr n .both false with
    | .fault code _ ad => rvTrap s code ad
    | .hold ad => rvHold s .both ad
    | .ok locs => rvPaid s .both locs fun p =>
      let s1 := rvNoteTlb p c addr n false
      let out (t : State) (tag : Nat) : State :=
        t.setReeve c { t.reeve c with out := some { tag := tag, kind := .amo o d n y aq, addr := addr, len := len, locs := locs, got := [] } }
      match locs.head? with
      | some (.remote node _ _) =>
        if nodeDead s s.rv.part node then rvTrap s1 7 addr
        else
          let (t, tag) := sendRemote s1 (.reeve c) s.rv.part node (.amo o) locs (leBytes n y.toNat) [] addr
          out t tag
      | some (.host _) =>
        let (t, tag) := sendHost s1 (.reeve c) s.rv.part addr fun g => .cas g s.rv.part (locPas locs) o y 0 0
        out t tag
      | _ =>
        match regBad s (.reeve c) locs with
        | some (code, off) => violate s1 s.rv.part code (.reeve c) (nat64 (Config.regBase + off))
        | none =>
          if locs.any (poisonedLoc s) then rvPoison s1 c 7 addr
          else match dieOf (.reeve c) locs with
          | some k =>
            let (t, tag) := sendDie s1 (.reeve c) s.rv.part k (.amo o) locs (leBytes n y.toNat) [] addr
            out t tag
          | none =>
            let r := amoLocal s1 (.reeve c) o n locs y.toNat 0
            rvAmoDone c d n r.2 aq len r.1

/-! ## Arithmetic -/

/-- The low 32 bits, sign-extended. -/
def word32 (n : Nat) : Word := BitVec.ofInt 64 (toSigned 32 n)
/-- The low 32 bits, zero-extended. -/
def low32 (x : Word) : Word := x &&& 0xFFFFFFFF

/-- Two-operand operations. -/
def rvAluValue (o : RvAlu) (x y : Word) : Word :=
  let k := y.toNat % 64
  let j := y.toNat % 32
  let x32 := x.toNat % 2 ^ 32
  match o with
  | .add => x + y
  | .sub => x - y
  | .sll => x <<< k
  | .slt => bool64 (x.slt y)
  | .sltu => bool64 (x.ult y)
  | .xor => x ^^^ y
  | .srl => x >>> k
  | .sra => x.sshiftRight k
  | .or => x ||| y
  | .and => x &&& y
  | .addw => word32 (x + y).toNat
  | .subw => word32 (x - y).toNat
  | .sllw => word32 (x32 <<< j)
  | .srlw => word32 (x32 >>> j)
  | .sraw => BitVec.ofInt 64 (toSigned 32 x32 / 2 ^ j)
  | .mul => x * y
  | .mulh => mulHighS x y
  | .mulhsu => BitVec.ofInt 64 (x.toInt * (y.toNat : Int) / 2 ^ 64)
  | .mulhu => mulHighU x y
  | .div => nat64 (divide 64 true x.toNat y.toNat).1
  | .divu => nat64 (divide 64 false x.toNat y.toNat).1
  | .rem => nat64 (divide 64 true x.toNat y.toNat).2.1
  | .remu => nat64 (divide 64 false x.toNat y.toNat).2.1
  | .mulw => word32 (x * y).toNat
  | .divw => word32 (divide 32 true x.toNat y.toNat).1
  | .divuw => word32 (divide 32 false x.toNat y.toNat).1
  | .remw => word32 (divide 32 true x.toNat y.toNat).2.1
  | .remuw => word32 (divide 32 false x.toNat y.toNat).2.1
  | .addUw => low32 x + y
  | .sh1add => (x <<< 1) + y
  | .sh2add => (x <<< 2) + y
  | .sh3add => (x <<< 3) + y
  | .sh1addUw => (low32 x <<< 1) + y
  | .sh2addUw => (low32 x <<< 2) + y
  | .sh3addUw => (low32 x <<< 3) + y
  | .slliUw => low32 x <<< k
  | .andn => x &&& ~~~y
  | .orn => x ||| ~~~y
  | .xnor => ~~~(x ^^^ y)
  | .max => maxS x y
  | .maxu => maxU x y
  | .min => minS x y
  | .minu => minU x y
  | .rol => x.rotateLeft k
  | .ror => x.rotateRight k
  | .rolw => word32 ((BitVec.ofNat 32 x32).rotateLeft j).toNat
  | .rorw => word32 ((BitVec.ofNat 32 x32).rotateRight j).toNat

/-- One-operand operations. -/
def rvUnaryValue (o : RvUnary) (x : Word) : Word :=
  let x32 := x.toNat % 2 ^ 32
  match o with
  | .clz => clz64 x
  | .ctz => ctz64 x
  | .cpop => popc64 x
  | .clzw => nat64 (leadingZeros 32 x32)
  | .ctzw => nat64 (if x32 = 0 then 32 else trailingZeros 32 x32)
  | .cpopw => nat64 (onesCount 32 x32)
  | .sextB => BitVec.ofInt 64 (toSigned 8 x.toNat)
  | .sextH => BitVec.ofInt 64 (toSigned 16 x.toNat)
  | .zextH => nat64 (x.toNat % 65536)
  | .orcB => nat64 (leValue ((leBytes 8 x.toNat).map fun b => if b = 0 then 0 else 0xFF))
  | .rev8 => nat64 (leValue (leBytes 8 x.toNat).reverse)

/-- Branch conditions. -/
def rvCond (k : RvCond) (x y : Word) : Bool :=
  match k with
  | .beq => decide (x = y)
  | .bne => decide (x ≠ y)
  | .blt => x.slt y
  | .bge => !x.slt y
  | .bltu => x.ult y
  | .bgeu => !x.ult y

/-- Width and sign of a load. -/
def rvLoadKind : RvLoad → Nat × Bool
  | .lb => (1, true)
  | .lh => (2, true)
  | .lw => (4, true)
  | .ld => (8, true)
  | .lbu => (1, false)
  | .lhu => (2, false)
  | .lwu => (4, false)

/-! ## CSR and system instructions -/

/-- A counter that the mode may read. -/
def counterOk (r : Reeve) (n : Nat) : Bool :=
  if 0xC00 ≤ n ∧ n ≤ 0xC1F then
    let b := n - 0xC00
    match r.mode with
    | .m => true
    | .s => (r.csrOf 0x306).getLsbD b
    | .u => (r.csrOf 0x306).getLsbD b && (r.csrOf 0x106).getLsbD b
  else true

/-- The CSR may be accessed in the mode. -/
def csrAllowed (r : Reeve) (n : Nat) (write : Bool) : Bool :=
  csrExists n && decide (n / 256 % 4 ≤ r.mode.code) && (!write || decide (n / 1024 ≠ 3)) && counterOk r n
    && !(decide (n = 0x180) && decide (r.mode = .s) && (r.csrOf 0x300).getLsbD 20)

/-- A Zicsr instruction.  A write of `minstret` takes the place of the instruction's own increment (Zicsr 20191213). -/
def rvCsr (k : RvCsrOp) (d src : Reg) (imm : Bool) (num : BitVec 12) (len : Nat) (s : State) : State :=
  let n := num.toNat
  let c := s.curReeve
  let v := if imm then src.setWidth 64 else s.rv.rd src
  let write := decide (k = .rw) || decide (src ≠ 0)
  if !csrAllowed s.rv n write then rvTrap s 2 0
  else
    let old := rvCsrRead s c n
    let new := match k with
      | .rw => v
      | .rs => old ||| v
      | .rc => old &&& ~~~v
    let t := if write then rvCsrWrite s c n (if n = 0xB02 then new - 1 else new) else s
    rvNext t ((t.reeve c).wr d old) len

/-- `mret`. -/
def rvMret (s : State) : State :=
  let r := s.rv
  let ms := r.csrOf 0x300
  if r.mode ≠ .m then rvTrap s 2 0
  else
    let mpp := Mode.ofCode (fld ms 12 11)
    let ms1 := setBit (setBit ms 3 (ms.getLsbD 7)) 7 true &&& ~~~0x1800#64
    let ms2 := if mpp = .m then ms1 else setBit ms1 17 false
    rvJump s { r.setCsr 0x300 ms2 with mode := mpp } (r.csrOf 0x341)

/-- `sret`. -/
def rvSret (s : State) : State :=
  let r := s.rv
  let ms := r.csrOf 0x300
  if r.mode = .u ∨ (r.mode = .s ∧ ms.getLsbD 22) then rvTrap s 2 0
  else
    let spp : Mode := if ms.getLsbD 8 then .s else .u
    let ms1 := setBit (setBit (setBit (setBit ms 1 (ms.getLsbD 5)) 5 true) 8 false) 17 false
    rvJump s { r.setCsr 0x300 ms1 with mode := spp } (r.csrOf 0x141)

/-- `wfi`: the reeve waits for an enabled interrupt; in user mode it ends at once. -/
def rvWfi (len : Nat) (s : State) : State :=
  let r := s.rv
  if r.mode ≠ .m ∧ (r.csrOf 0x300).getLsbD 21 then rvTrap s 2 0
  else rvNext s { r with wfi := decide (r.mode ≠ .u) } len

/-- `sfence.vma`: the TLB entries of the address, of the ASID, or all of them. -/
def rvSfence (a b : Reg) (len : Nat) (s : State) : State :=
  let r := s.rv
  if r.mode = .u ∨ (r.mode = .s ∧ (r.csrOf 0x300).getLsbD 20) then rvTrap s 2 0
  else
    let keep (p : Nat × Leaf) : Bool := (decide (a ≠ 0) && !leafHit ((r.rd a).toNat / 4096) 1 p)
      || (decide (b ≠ 0) && decide (p.1 / 2 ^ 36 ≠ (r.rd b).toNat % 65536))
    rvNext s { r with tlb := r.tlb.filter keep } len

/-- `FENCE` and `FENCE.TSO` (R284).  The reads before it have ended; of the writes before it that are under way, where its predecessor set
has w or o, the later accesses of the kinds in its successor set wait; under TSO later reads do not.  Reads before it are acquires where
its predecessor set has r or i (R278).  The rules name no I/O region, so i counts as r and o as w (log 25). -/
def rvFence (pred succ : BitVec 4) (tso : Bool) (len : Nat) (s : State) : State :=
  let r := s.rv
  let has (b : BitVec 4) (i j : Nat) : Bool := b.getLsbD i || b.getLsbD j
  let sent := if has pred 0 2 then r.unacked ++ r.dieWrites else []
  let more (old : List Nat) (c : Bool) : List Nat := if c then (old ++ sent).eraseDups.filter fun t => r.waitsFor [t] else old
  rvNext (rvAcquired s s.curReeve (has pred 1 3))
    { r with fenceW := more r.fenceW (has succ 0 2), fenceR := more r.fenceR (has succ 1 3 && !tso) } len

/-- Exception code of `ecall` by mode. -/
def ecallCode : Mode → Nat
  | .u => 8
  | .s => 9
  | .m => 11

/-- The effect of a RISC-V instruction of the running reeve. -/
def rvStep (i : RvInstr) (len : Nat) (s : State) : State :=
  let r := s.rv
  match i with
  | .lui d v => rvSet s d v len
  | .auipc d v => rvSet s d (r.pc + v) len
  | .jal d off => rvJump s (r.wr d (r.pc + nat64 len)) (r.pc + off)
  | .jalr d a v => rvJump s (r.wr d (r.pc + nat64 len)) ((r.rd a + v) &&& ~~~1#64)
  | .branch k a b off => if rvCond k (r.rd a) (r.rd b) then rvJump s r (r.pc + off) else rvNext s r len
  | .load k d a v => rvLoad d a v (rvLoadKind k).1 (rvLoadKind k).2 len s
  | .store n b a v => rvStore b a v n len s
  | .op o d a b => rvSet s d (rvAluValue o (r.rd a) (r.rd b)) len
  | .opImm o d a v => rvSet s d (rvAluValue o (r.rd a) v) len
  | .unary o d a => rvSet s d (rvUnaryValue o (r.rd a)) len
  | .fence p q tso => rvFence p q tso len s
  | .fenceI => rvNext s r len
  | .ecall => rvTrap s (ecallCode r.mode) 0
  | .ebreak => if (r.csrOf 0x7B0).getLsbD (ebreakBit r.mode) then rvDebug s s.curReeve 1 else rvTrap s 3 r.pc
  | .csr k d a m n => rvCsr k d a m n len s
  | .lr w aq rl d a => rvLr w aq rl d a len s
  | .sc w aq rl d a b => rvSc w aq rl d a b len s
  | .amo o w aq rl d a b => rvAmo o w aq rl d a b len s
  | .mret => rvMret s
  | .sret => rvSret s
  | .wfi => rvWfi len s
  | .sfenceVma a b => rvSfence a b len s
  | .illegal => rvTrap s 2 0

/-- REEVE_INSTRUCTION: one RISC-V instruction of a reeve (R45); a compressed one is 2 bytes long. -/
def execReeveInstruction (r : RvInstr) (short : Bool) (s : State) : Res := .next (rvStep r (if short then 2 else 4) s)

/-! ## Completions -/

/-- Bytes of a reeve's outstanding access have come back (R305, R212). -/
def reeveReply (s : State) (c : Nat) (bytes : List Byte) : State :=
  let r := s.reeve c
  match r.out with
  | none => s
  | some o =>
    let s1 := s.setReeve c { r with out := none }
    let w : Awaited := { tag := o.tag, locs := o.locs, got := o.got }
    let on (t : AccType) (op : MemOp) (done : State → List Byte → State) : State :=
      rvOutcome c t o.kind o.len o.addr done (gatherOn (.reeve c) (.reeve c) op readLoc o.addr s1 w bytes)
    match o.kind with
    | .load d n signed => on .load (readOp o.addr.toNat n) (rvLoadDone c d n signed o.len)
    | .lr d n acq loc => on .load .reserve (rvLrDone c d n acq loc o.len)
    | .fetch => on .fetch .read fun u bs => u.setReeve c { u.reeve c with ibuf := some (o.addr, bs) }
    | .data => on .load .read fun u bs => u.setReeve c { u.reeve c with dbuf := some (o.addr, bs) }
    | .amo _ d n _ acq => rvAmoDone c d n (leValue bytes) acq o.len s1
    | .sc d acq => rvNextOf ((rvAcquired s1 c acq).dropResv (rvResv c)) c ((s1.reeve c).wr d (if leValue bytes % 2 = 1 then 0 else 1)) o.len
    | .torn _ _ _ => s
    | .tear _ => s

/-- Bytes of a reeve's outstanding access are poisoned: an access fault (R226). -/
def reevePoison (s : State) (c : Nat) : State :=
  let r := s.reeve c
  match r.out with
  | none => s
  | some o =>
    let code := match o.kind with
      | .fetch => 1
      | .amo _ _ _ _ _ => 7
      | .sc _ _ => 7
      | _ => 5
    rvPoison (s.setReeve c { r with out := none }) c code o.addr

/-- A reeve's outstanding access has failed: the trap value is its lowest failing address (R360). -/
def reeveFail (s : State) (c : Nat) : State :=
  let r := s.reeve c
  match r.out with
  | none => s
  | some o =>
    let s1 := s.setReeve c { r with out := none }
    match o.kind with
    | .fetch => rvEnter s1 c false 1 (o.addr + nat64 o.got.length)
    | .amo _ _ _ _ _ => rvEnter s1 c false 7 o.addr
    | .sc _ _ => rvEnter s1 c false 7 o.addr
    | _ => rvEnter s1 c false 5 (o.addr + nat64 o.got.length)

/-! ## A reeve's turn -/

/-- The instruction bits at the program counter: the 2 or 4 bytes there, from memory or from a fetch that left the device. -/
def rvFetch (s : State) : Except State (State × BitVec 32) :=
  let c := s.curReeve
  let r := s.rv
  let word (bs : List Byte) : BitVec 32 := BitVec.ofNat 32 (leValue bs)
  let from_ (n : Nat) : Except State (State × List Byte) :=
    match r.ibuf with
    | some (a, bs) => if a = r.pc ∧ n ≤ bs.length then .ok (s, bs.take n) else .error (s.setReeve c { r with ibuf := none })
    | none =>
      match rvLocate s c r.pc n .fetch false with
      | .fault code _ ad => .error (rvTrap s code ad)
      | .hold ad => .error (rvHold s .fetch ad)
      | .ok locs =>
        let p := payFor s (.reeve c) locs
        if r.behindDie locs then .error s
        else if !p.2 then .error p.1
        else match gather (.reeve c) (.reeve c) .read readLoc r.pc (n + 1) (rvNoteTlb p.1 c r.pc n true) locs [] with
        | (t, .done bs) => .ok (t, bs)
        | g => .error (rvOutcome c .fetch .fetch 0 r.pc (fun u _ => u) g)
  match from_ 2 with
  | .error t => .error t
  | .ok (t, bs) =>
    if (leValue bs) % 4 ≠ 3 then .ok (t, word bs)
    else match from_ 4 with
      | .error u => .error u
      | .ok (u, cs) => .ok (u, word cs)

/-- A halt that the debug module asked for takes effect now, or the instruction of a single step is over (R45, log 25). -/
def debugNow (r : Reeve) : Option Nat :=
  match r.due with
  | .halt => some 3
  | .stepping => if r.kwaiting || r.migHold.isSome || r.dbuf.isSome || r.ibuf.isSome then none else some 4
  | _ => none

/-- The instruction of a single step is under way. -/
def stepBegun (s : State) (c : Nat) (d : DebugDue) : State :=
  if d = .stepArmed then s.setReeve c { s.reeve c with due := .stepping } else s

/-- The turn of a reeve: a halt for the debug module, an interrupt (none within a single step), or its next instruction. -/
noncomputable def reeveTurn (s : State) (c : Nat) : Prepared :=
  let t := { s with curReeve := c }
  let r := t.rv
  if r.frozen || r.halted || r.debug then .done t
  else match r.out with
  | some o => .done (rvTorn t c o)
  | none =>
  match debugNow r with
  | some cause => .done (rvDebug t c cause)
  | none =>
    if r.wfi && decide (r.mip &&& r.csrOf 0x304 = 0) then .done t
    else match (if r.migHold.isSome || decide (r.due ≠ .none) then none else rvPending r) with
      | some n => .done (rvEnter (t.setReeve c { r with wfi := false }) c true n 0)
      | none =>
        match rvFetch (t.setReeve c { r with wfi := false }) with
        | .error u => .done (if (u.reeve c).pc = r.pc then u else stepBegun u c r.due)
        | .ok (u, w) => .run (decodeReeve w).1 (stepBegun u c r.due)

/-! ## Debug (R45, log 25) -/

/-- A CSR as the debug module reads it; none where it does not exist. -/
def debugCsr (s : State) (c n : Nat) : Option Word :=
  let r := s.reeve c
  match n with
  | 0x7B0 => some (r.csrOf 0x7B0 ||| 0x40000000)
  | 0x7B1 => some r.dpc
  | 0x7B2 => some (r.csrOf 0x7B2)
  | 0x7B3 => some (r.csrOf 0x7B3)
  | _ => if csrExists n then some (rvCsrRead s c n) else none

/-- A CSR as the debug module writes it; the mode in dcsr takes no reserved code. -/
def debugCsrSet (s : State) (c n : Nat) (v : Word) : State :=
  let r := s.reeve c
  match n with
  | 0x7B0 => s.setReeve c (r.setCsr 0x7B0 (maskIn (if fld v 1 0 = 2 then dcsrMask else dcsrMask ||| 3) (r.csrOf 0x7B0) v))
  | 0x7B1 => s.setReeve c { r with dpc := v &&& ~~~1#64 }
  | 0x7B2 => s.setReeve c (r.setCsr 0x7B2 v)
  | 0x7B3 => s.setReeve c (r.setCsr 0x7B3 v)
  | _ => if csrExists n then rvCsrWrite s c n v else s

/-- Bytes at a physical address of this device; none where there is nothing. -/
def debugPlace (a : Word) (n : Nat) (t : AccType) : Option (List Loc) :=
  match locateParts (fun va => if populated va then .page Config.node va false else .fault 6) (rvCode t true)
      (pageParts 2 a.toNat n) with
  | .ok locs => some locs
  | _ => none

/-- The debug module's read of memory; none where it fails. -/
def debugRead (s : State) (c : Nat) (a : Word) (n : Nat) : Option Word :=
  match debugPlace a n .load with
  | none => none
  | some locs =>
    match (gather (.reeve c) (.reeve c) .read readLoc a (n + 1) s locs []).2 with
    | .done bytes => some (loadValue n false bytes)
    | _ => none

/-- The reeve leaves debug mode: at dpc, in the mode that dcsr names, for one instruction where dcsr asks for a single step. -/
def debugResume (r : Reeve) : Reeve :=
  let d := r.csrOf 0x7B0
  { r with debug := false, pc := r.dpc, mode := Mode.ofCode (fld d 1 0), due := if d.getLsbD 2 then .stepArmed else .none }

/-- JTAG_DEBUG_REQUEST: the debug module halts a reeve, at once or when its access elsewhere has ended, resumes it, or accesses it
while it is halted: registers, CSRs and memory. -/
def execJtagDebugRequest (c : Nat) (q : DebugReq) (s : State) : Res :=
  forUnit c (Config.numCores + Config.numStewards) <|
    let r := s.reeve c
    let put (x : Reeve) : State := s.setReeve c x
    let t := match q with
      | .halt => if r.debug then s else if r.out.isSome then put { r with due := .halt } else rvDebug s c 3
      | .resume => if r.debug then put (debugResume r) else s
      | .readGpr n => if r.debug then { s with hostRead := some (r.rd n) } else s
      | .writeGpr n v => if r.debug then put (r.wr n v) else s
      | .readCsr n => if r.debug then { s with hostRead := debugCsr s c n.toNat } else s
      | .writeCsr n v => if r.debug then debugCsrSet s c n.toNat v else s
      | .readMem a z => if r.debug then { s with hostRead := debugRead s c a (2 ^ z.toNat) } else s
      | .writeMem a z v =>
        if r.debug then (match debugPlace a (2 ^ z.toNat) .store with
          | some locs => store s (.reeve c) a locs (leBytes (2 ^ z.toNat) v.toNat)
          | none => s) else s
    .next t

/-- REXIT_WRITE: a write of `rexit` on core c (Table 3.3, R36). -/
def execRexitWrite (c : Nat) (v : Word) (s : State) : Res := forUnit c Config.numCores (.next (rvCsrWrite s c 0x5C2 v))

end Sys2Proof.Machine
end

