-- ==== Sys2Proof/Machine/Frames.lean ====
section
/-!
DEFINITION. The hand context image (R318 to R321): its bytes, and a hand restored from it.  The opaque part of a frame names a
record that the device keeps; the check word is a free value (R319, log 10).
-/

namespace Sys2Proof.Machine

/-- The code of a hand state (Table 3.5). -/
def HState.code : HState → Nat
  | .idle => 0
  | .block => 1
  | .fetch => 2
  | .wait => 3
  | .held => 4
  | .parked => 5
  | .frozen => 6
  | .off => 7

/-- The code of a resume state (Table 17.2). -/
def Resume.code : Resume → Nat
  | .idle => 0
  | .block => 1
  | .fetch => 2

/-- Bytes of a context image (R320). -/
def imageSize : Nat := 0x24000
/-- Offset of the frame in the image (Table 17.3). -/
def frameOffset : Nat := 0x23000

/-- Word +0x00 of the frame header (Table 17.2). -/
def frameWord0 (f : Frame) : Nat :=
  f.replay % 256 * 2 ^ 24 + f.resume.code * 2 ^ 20 + f.cls % 4 * 2 ^ 16 + f.sub % 256 * 256 + f.cause % 256

/-- The frame header (Table 17.2): 64 bytes. -/
def frameHeader (h : Nat) (x : Hand) : List Byte :=
  let f := x.frame
  leBytes 8 (frameWord0 f) ++ leBytes 8 f.apc.toNat ++ leBytes 8 f.fpc.toNat ++ leBytes 8 f.addr.toNat
    ++ leBytes 8 (f.elem % 2 ^ 32) ++ leBytes 8 (h % 2 ^ 16 * 2 ^ 32 + x.farm % 2 ^ 32) ++ leBytes 8 f.cyc.toNat ++ leBytes 8 0

/-- Frame bytes +0x000 to +0xFF7: the header, the key of the record, zeros (log 10). -/
def frameBody (h : Nat) (x : Hand) (key : Nat) : List Byte :=
  frameHeader h x ++ leBytes 8 key ++ List.replicate 0xFB0 0

/-- The accumulator window of a hand: 384 rows, those at or above `accn` zero (R321). -/
def windowRows (s : State) (h : Nat) : List Byte :=
  let x := s.hand h
  (List.range 384).flatMap fun r =>
    leBytes 256 (if r < x.accn then (tabGet 0 (s.core (coreOf h)).acc (x.accb + r)).toNat else 0)

/-- The context image of hand `h` with the key of its record (Table 17.3). -/
def imageBytes (s : State) (h key : Nat) : List Byte :=
  let x := s.hand h
  let body := frameBody h x key
  ((List.range 32).flatMap fun n => leBytes 1024 (x.vrd (BitVec.ofNat 5 n)).toNat)
    ++ leBytes 8192 x.blatch.toNat ++ leBytes 4096 x.bexp.toNat ++ windowRows s h
    ++ body ++ leBytes 8 (Config.checkWord body).toNat

/-- The key under which the next record of hand `h` is kept. -/
def frameKey (s : State) (h : Nat) : Nat := s.frames.length * 2048 + h

/-- The record of a saved image is kept (R319, log 10). -/
def keepFrame (s : State) (h key : Nat) : State :=
  let x := s.hand h
  { s with frames := tabSet s.frames key { hand := x, check := Config.checkWord (frameBody h x key) } }

/-- The record that a frame of an image names, if its bytes and its check word are those that the device wrote (R319). -/
def checkedFrame (s : State) (img : List Byte) : Option SavedFrame :=
  let fr := (img.drop frameOffset).take 4096
  let key := (dwordAt fr 8).toNat
  match tabFind s.frames key with
  | some r => if fr.take 0xFF8 = frameBody (key % 2048) r.hand key ∧ dwordAt fr 511 = r.check then some r else none
  | none => none

/-- `hid` and farm id of an image's header. -/
def imageOwner (img : List Byte) : Nat × Nat :=
  let w := dwordAt (img.drop frameOffset) 5
  (fld w 47 32, fld w 31 0)

/-- Accumulator rows of a window taken from an image, as far as `accn` (R321). -/
def restoreRows (s : State) (h : Nat) (x : Hand) (img : List Byte) : State :=
  let c := s.core (coreOf h)
  let rows := (List.range (min 384 x.accn)).foldl (fun t r =>
    tabSet t (x.accb + r) (BitVec.ofNat 2048 (leValue ((img.drop (0xB000 + 256 * r)).take 256)))) c.acc
  s.setCore (coreOf h) { c with
    acc := rows, apoison := c.apoison.filter fun r => !decide (x.accb ≤ r ∧ r < x.accb + min 384 x.accn) }

/-- A saved dispatched instruction of an image: what was under way at the VMU is asked for again. -/
def Entry.restored (e : Entry) : Entry := { e.unissued with awaiting := none }

/-- The hand that an image and its record describe: the visible part is the image's, the rest the record's (R319, R320).  Chunks
of copies that were in flight begin again (R249). -/
def imageHand (r : Hand) (img : List Byte) : Hand :=
  let regs := (List.range 32).foldl (fun x n =>
    Hand.vwr x (BitVec.ofNat 5 n) (BitVec.ofNat 8192 (leValue ((img.drop (1024 * n)).take 1024)))) r
  { regs with
    blatch := BitVec.ofNat 65536 (leValue ((img.drop 0x8000).take 8192))
    bexp := BitVec.ofNat 32768 (leValue ((img.drop 0xA000).take 4096))
    rq := r.rq.map Entry.restored
    copies := r.copies.map fun p => (p.1, { p.2 with flight := [] }) }

/-- A hand takes the state of an image and its record (R61); what pends at the hand now stays, and its registers are written anew, without
errors (R325). -/
def restoreHand (s : State) (h : Nat) (r : Hand) (img : List Byte) : State :=
  let x := s.hand h
  let y := imageHand r img
  let z := { y with
    stopReq := x.stopReq, holdReq := x.holdReq, heldBy := x.heldBy, placed := x.placed, leaving := x.leaving, sb := x.sb, unacked := x.unacked
    dieWrites := x.dieWrites, vunacked := x.vunacked, vdieWrites := x.vdieWrites, marks := x.marks
    draining := false, waiting := none, arrived := none, ending := false, pfault := none, acc := none, nacc := none, migHold := none
    vpoison := [], lpoison := [] }
  restoreRows (s.setHand h z) h z img

end Sys2Proof.Machine
end

