-- ==== Sys2Proof/Machine/Xkry.lean ====
section
/-!
DEFINITION. The Xkry extension (R52 to R65): broadcasts, starts, stops and holds, waits, hand registers, context images, child
packets and events.
-/

namespace Sys2Proof.Machine

/-! ## Hands of the current farm (R48, R53) -/

/-- Hand `k` of core `c` is in the current farm of the core's reeve. -/
def farmHand (s : State) (c k : Nat) : Bool :=
  (s.reeve c).hmask.getLsbD k && decide ((s.hand (c * 16 + k)).farm = (s.reeve c).hfarm)

/-- The hands that a mask operand names (R53). -/
def maskHands (s : State) (c : Nat) (m : Word) : List Nat := (List.range 16).filter fun k => m.getLsbD k && farmHand s c k

/-- The result mask of a list of hands. -/
def handMask (ks : List Nat) : Word := ks.foldl (fun v k => v ||| (1#64 <<< k)) 0

/-- The state of a hand as its reeve reads it (R48). -/
def seenState (s : State) (c k : Nat) : HState := if farmHand s c k then (s.hand (c * 16 + k)).st else .off

/-- What `kstat` reads (R58). -/
def kstatWord (s : State) (c : Nat) : Word :=
  nat64 ((List.range 16).foldl (fun v k => v + (seenState s c k).code * 16 ^ k) 0)

/-! ## Operands in memory -/

/-- The bytes of an operand of the running reeve; those of another node or of the host come back first, and the instruction then
runs again (R305, R212). -/
def rvOperand (s : State) (addr : Word) (n : Nat) (rx : Bool) (done : State → List Byte → State) : State :=
  match s.rv.dbuf with
  | some (a, bs) =>
    if a = addr ∧ bs.length = n then done s bs
    else s.setReeve s.curReeve { s.rv with dbuf := none }
  | none => rvRead s addr n .load rx .read .data 4 fun u _ bs => done u bs

/-- A release at core or device scope waits until base dies have replied to the reeve's earlier writes past the caches (R273, R278). -/
def whenReleased (s t : State) : State := if s.rv.dieWrites = [] then t else s

/-! ## `kbc`, `kgo` (R54, R55) -/

/-- No stop or hold request pends at a hand. -/
def Hand.unrequested (x : Hand) : Bool := x.stopReq.isNone && !x.holdDue && !x.draining && !x.leaving

/-- An Idle hand of the farm without a pending request. -/
def accepts (s : State) (c k : Nat) : Bool :=
  decide (seenState s c k = .idle) && (s.hand (c * 16 + k)).unrequested

/-- A hand accepts a broadcast block (R54). -/
def acceptBlock (base : Word) (bytes : List Byte) (x : Hand) : Hand :=
  { x with cur := some { base := base.toNat, bytes := bytes, failed := none }, nxt := none, pc := base, blk := base.toNat, st := .block }

/-- The hands `ks` of core `c` changed by `f`. -/
def updHands (s : State) (c : Nat) (ks : List Nat) (f : Hand → Hand) : State :=
  ks.foldl (fun t k => t.setHand (c * 16 + k) (f (t.hand (c * 16 + k)))) s

/-- X[d] ← v for the running reeve, and the next instruction. -/
def kDone (s : State) (d : Reg) (v : Word) : State := rvSet s d v 4

/-- `kbc` (R54). -/
def execKbc (d a b : Reg) (s : State) : Res :=
  .next <|
    let addr := s.rv.rd a
    let m := s.rv.rd b
    if addr.toNat % 64 ≠ 0 then rvTrap s 4 addr
    else whenReleased s <| rvOperand s addr 64 true fun t bytes =>
      let ks := (maskHands t t.curReeve m).filter (accepts t t.curReeve)
      kDone (updHands t t.curReeve ks (acceptBlock addr bytes)) d (handMask ks)

/-- `kgo` (R55): the started hands fetch their first block anew. -/
def execKgo (d a b : Reg) (s : State) : Res :=
  .next <|
    let addr := s.rv.rd a
    if addr.getLsbD 0 ∨ 2 ^ 48 ≤ addr.toNat then rvTrap s 2 0
    else whenReleased s <|
      let ks := (maskHands s s.curReeve (s.rv.rd b)).filter (accepts s s.curReeve)
      kDone (updHands s s.curReeve ks fun x => { x with st := .fetch, pc := addr, cur := none, nxt := none }) d (handMask ks)

/-! ## `kstop` (R56) -/

/-- A stop or abandon request at a hand; at a quiet hand it takes effect at once (R50, R56).  It supersedes a hold that the reeve
asked for before (R63); one asked for later takes effect after it (R50). -/
def requestStop (abandon : Bool) (s : State) (h : Nat) : State :=
  let x := s.hand h
  let ab := abandon || decide (x.stopReq = some true)
  let earlier := decide (x.holdReq = some .reeve)
  let t := s.setHand h { x with
    stopReq := some ab, holdReq := if earlier then none else x.holdReq, draining := x.draining && (!earlier || x.placed) }
  if x.st.quiet then takeRequests t h else t

/-- `kstop` (R56). -/
def execKstop (d a b : Reg) (s : State) : Res :=
  .next <|
    let c := s.curReeve
    let ab := (s.rv.rd b).getLsbD 0
    let ks := (maskHands s c (s.rv.rd a)).filter fun k => decide (seenState s c k ≠ .frozen ∧ seenState s c k ≠ .off)
    kDone (ks.foldl (fun t k => requestStop ab t (c * 16 + k)) s) d (handMask ks)

/-! ## `kwait` (R57) -/

/-- Quiescent (R57). -/
def quiescent (s : State) (c k : Nat) : Bool :=
  match seenState s c k with
  | .idle => decide ((s.hand (c * 16 + k)).rq = []) && (s.hand (c * 16 + k)).storesDone
  | .parked => true
  | .frozen => true
  | .off => true
  | _ => false

/-- The farm of core `c`'s reeve is pre-empted (R40). -/
def farmAway (s : State) (c : Nat) : Bool :=
  match s.farm (s.reeve c).hfarm with
  | some f => decide (f.phase = .preempting ∨ f.phase = .saved)
  | none => false

/-- The wait goes on. -/
def stayWaiting (s : State) : State := s.setReeve s.curReeve { s.rv with kwaiting := true, dbuf := none }

/-- X[d] ← v of an instruction that is an acquire past its core (R279, R280), and the next instruction. -/
def kAcquired (s : State) (d : Reg) (v : Word) : State := kDone (rvAcquired s s.curReeve true) d v

/-- The hand operand of `kwait`. -/
def kwaitHands (s : State) (d : Reg) (ks : List Nat) : State :=
  if ks ≠ [] ∧ ks.all (quiescent s s.curReeve) then kDone s d (kstatWord s s.curReeve) else stayWaiting s

/-- `kwait` (R57). -/
def execKwait (d a b : Reg) (s : State) : Res :=
  .next <|
    let c := s.curReeve
    let addr := s.rv.rd a
    let ks := (List.range 16).filter fun k => (s.rv.rd b).getLsbD k && s.rv.hmask.getLsbD k
    if addr.toNat % 8 ≠ 0 then rvTrap s 4 addr
    else if farmAway s c then stayWaiting s
    else if addr = 0 ∧ ks = [] then kDone s d 0
    else if addr = 0 then kwaitHands s d ks
    else rvOperand s addr 8 false fun t bytes =>
      let w := dwordAt bytes 0
      if w.getLsbD 0 then kAcquired t d w else kwaitHands t d ks

/-! ## `kstat`, `kread`, `kwrite` (R58, R59) -/

/-- `kstat` (R58). -/
def execKstat (d _a _b : Reg) (s : State) : Res := .next (kDone s d (kstatWord s s.curReeve))

/-- A selector (Table 3.9): hand, class (true for a CSR) and number. -/
def selectorOf (w : Word) : Option (Nat × Bool × Nat) :=
  let k := fld w 19 16
  let n := fld w 11 0
  if fld w 63 20 ≠ 0 ∨ fld w 15 14 ≠ 0 then none
  else if fld w 13 12 = 0 then (if n < 32 then some (k, false, n) else none)
  else if fld w 13 12 = 1 then (if n ≤ 0x16 then some (k, true, n) else none)
  else none

/-- A hand whose registers the reeve may reach (R59). -/
def reachable (s : State) (c k : Nat) : Bool :=
  decide (seenState s c k = .idle ∨ seenState s c k = .held ∨ seenState s c k = .parked)

/-- A register of a hand. -/
def selRead (s : State) (h : Nat) (csr : Bool) (n : Nat) : Word :=
  if csr then csrRead s h n else (s.hand h).rd (BitVec.ofNat 5 n)

/-- A register of a hand written as the hand's own `csrw` would (R59); none where that is illegal. -/
def selWrite (x : Hand) (csr : Bool) (n : Nat) (v : Word) : Option Hand :=
  if csr then csrWrite x n v else some (x.wr (BitVec.ofNat 5 n) v)

/-- The values of a hand's return queue reach its registers before a reeve looks at them (R59, R103). -/
def retDelivered (s : State) (h : Nat) : State := if (s.hand h).retq = [] then s else s.setHand h (s.hand h).flushRet

/-- `kread` (R59). -/
def execKread (d a _b : Reg) (s : State) : Res :=
  .next <|
    let c := s.curReeve
    match selectorOf (s.rv.rd a) with
    | none => rvTrap s 2 0
    | some (k, csr, n) =>
      if reachable s c k then
        let t := retDelivered s (c * 16 + k)
        kDone t d (selRead t (c * 16 + k) csr n)
      else rvTrap s 2 0

/-- `kwrite` (R59). -/
def execKwrite (d a b : Reg) (s : State) : Res :=
  .next <|
    let c := s.curReeve
    match selectorOf (s.rv.rd a) with
    | none => rvTrap s 2 0
    | some (k, csr, n) =>
      if reachable s c k then
        let t := retDelivered s (c * 16 + k)
        match selWrite (t.hand (c * 16 + k)) csr n (s.rv.rd b) with
        | none => rvTrap s 2 0
        | some x => kDone (t.setHand (c * 16 + k) x) d (selRead t (c * 16 + k) csr n)
      else rvTrap s 2 0

/-! ## `kframe`, `krest` (R60, R61) -/

/-- Where the n pages from an address on lie, up to the first that faults or is held. -/
def rvPages (s : State) (addr : Word) : Nat → List (Word × List Loc) × Option Located
  | 0 => ([], none)
  | n + 1 =>
    match rvLocate s s.curReeve addr 4096 .store false with
    | .ok locs =>
      let r := rvPages s (addr + 4096) n
      ((addr, locs) :: r.1, r.2)
    | f => ([], some f)

/-- Pages written one after the other. -/
def rvPutPages (s : State) : List (Word × List Loc) → List Byte → State
  | [], _ => s
  | (a, locs) :: rest, bytes =>
    let c := s.curReeve
    rvPutPages (store (rvNoteTlb s c a 4096 false) (.reeve c) a locs (bytes.take 4096)) rest (bytes.drop 4096)

/-- Bytes of the running reeve written page by page, once they are paid for; a page fault leaves the pages before it written (R60). -/
def rvWritePages (addr : Word) (bytes : List Byte) (n : Nat) (s : State) : Except State State :=
  let w := rvPages s addr n
  let p := payFor s (.reeve s.curReeve) (w.1.flatMap Prod.snd)
  if s.rv.fenced .store then .error s
  else if !p.2 then .error p.1
  else
    let t := rvPutPages p.1 w.1 bytes
    match w.2 with
    | some (.fault code _ ad) => .error (rvTrap t code ad)
    | some (.hold ad) => .error (rvHold t .store ad)
    | _ => .ok t

/-- The image is complete once every write that the reeve has sent has performed: then `kframe` retires (R60). -/
def frameDone (s : State) (d : Reg) : State :=
  if s.rv.storesDone then kDone s d 0 else s.setReeve s.curReeve { s.rv with framing := true }

/-- Part of the hand's work is under way at another node or the host. -/
def Hand.underWay (x : Hand) : Bool := x.acc.isSome || x.rq.any fun e => e.awaiting.isSome

/-- `kframe` (R60). -/
def execKframe (d a b : Reg) (s : State) : Res :=
  .next <|
    let c := s.curReeve
    let addr := s.rv.rd a
    let k := fld (s.rv.rd b) 3 0
    let h := c * 16 + k
    if s.rv.mode = .u then rvTrap s 2 0
    else if addr.toNat % 4096 ≠ 0 then rvTrap s 6 addr
    else if s.rv.framing then frameDone s d
    else if seenState s c k ≠ .held ∧ seenState s c k ≠ .parked then kDone s d 1
    else if (s.hand h).underWay then s
    else
      let key := frameKey s h
      match rvWritePages addr (imageBytes s h key) 36 s with
      | .error t => t
      | .ok t => if t.rv.frozen then t else frameDone (keepFrame t h key) d

/-- Reads the image of `krest`: its page faults are those of `kframe` (R61). -/
def rvImage (s : State) (addr : Word) (done : State → List Byte → State) : State :=
  match rvLocate s s.curReeve addr imageSize .load false with
  | .fault code _ ad => rvTrap s (if code = 13 then 15 else code) ad
  | .hold ad => rvHold s .store ad
  | .ok _ => rvOperand s addr imageSize false done

/-- `krest` (R61). -/
def execKrest (d a b : Reg) (s : State) : Res :=
  .next <|
    let c := s.curReeve
    let addr := s.rv.rd a
    let k := fld (s.rv.rd b) 3 0
    let h := c * 16 + k
    if s.rv.mode = .u then rvTrap s 2 0
    else if addr.toNat % 4096 ≠ 0 then rvTrap s 6 addr
    else if ¬ reachable s c k then kDone s d 1
    else rvImage s addr fun t img =>
      match checkedFrame t img with
      | none => violate t t.rv.part 0x43 (.reeve c) addr
      | some r =>
        if imageOwner img ≠ (h, (t.hand h).farm % 2 ^ 32) then kDone t d 2
        else
          let u := restoreHand t h r.hand img
          let keeper := (u.hand h).heldBy.filter fun b => decide (b ≠ .reeve)
          let v := resumeHand u h
          let w := match keeper with
            | some b => v.setHand h { v.hand h with holdReq := some b }
            | none => v
          kAcquired (engines w h) d 0

/-! ## `klaunch` (R39, R62) -/

/-- The 128 bytes of a child packet as queued: child set, the parent's farm id and the child sequence number written (R39). -/
def childPacket (bytes : List Byte) (seq parent : Nat) : List Byte :=
  let w0 := (dwordAt bytes 0 &&& 0xFFFFFFFF00000000#64) ||| (1#64 <<< 45) ||| nat64 (seq % 2 ^ 32)
  leBytes 8 w0.toNat ++ (bytes.drop 8).take 80 ++ leBytes 8 parent ++ (bytes.drop 96).take 32

/-- The status of a child packet that is not queued, in the order 3, 1, 2 (R39). -/
def childStatus (p : Part) (bytes : List Byte) : Option Nat :=
  if p.pchild = 0 then some 3
  else if p.ccount ≥ 256 then some 1
  else if (packetReason bytes true).isSome ∨ (parsePacket bytes).rentry ≠ 0 then some 2
  else none

/-- The child packet, read at `src`, goes into its slot (R39), once its transfers have tokens (R224); a slot that a migrating page has held for its limit cannot be written (R217). -/
def queueChild (s : State) (d : Reg) (src : Word) (bytes : List Byte) : State :=
  let p := s.rv.part
  let x := s.part p
  let seq := x.chead + x.ccount
  let bs := childPacket bytes seq s.rv.hfarm
  match childStatus x bs with
  | some n => kDone s d (nat64 n)
  | none =>
    let addr := x.pchild + nat64 (128 * (seq % 256))
    match locateIn s p addr 128 .store with
    | .fault _ _ _ => kDone (s.report (.childSlot p)) d 4
    | .hold _ =>
      let now := s.coreTick s.curReeve
      let since := (s.rv.migHold.map MigHold.since).getD now
      if now - since ≥ Config.holdTicks then kDone (s.report (.childSlot p)) d 4
      else s.setReeve s.curReeve { s.rv with migHold := some { since := since, cause := 15, addr := addr } }
    | .ok locs =>
      let q := payFor s (.other p) locs
      if q.2 then
        let t := store q.1 (.other p) addr locs bs
        kDone (t.setPart p { t.part p with ccount := x.ccount + 1 }) d 0
      else q.1.setReeve s.curReeve { s.rv with dbuf := some (src, bytes) }

/-- `klaunch` (R62). -/
def execKlaunch (d a _b : Reg) (s : State) : Res :=
  .next <|
    let addr := s.rv.rd a
    if addr.toNat % 8 ≠ 0 then rvTrap s 4 addr
    else if s.rv.fenced .store then s
    else whenReleased s <| rvOperand s addr 128 false fun t bytes => queueChild t d addr bytes

/-! ## `kquiet`, `kevt` (R63, R65) -/

/-- A reeve's hold request at a hand that runs (R63). -/
def requestHold (s : State) (h : Nat) : State :=
  let x := s.hand h
  match x.st with
  | .held => s
  | .parked => s
  | .frozen => s
  | .off => s
  | _ =>
    let t := s.setHand h { x with holdReq := some (x.holdReq.getD .reeve) }
    if x.st.quiet && !x.draining then takeRequests t h else t

/-- A hand held for the reeve alone, which the reeve may release (R63). -/
def heldForReeve (s : State) (c k : Nat) : Bool :=
  decide (seenState s c k = .held) && decide ((s.hand (c * 16 + k)).heldBy = some .reeve) && !(s.hand (c * 16 + k)).placed

/-- A release at a hand: a pending hold of the reeve is withdrawn, and a hand that it alone holds returns to its resume state (R63). -/
def release (s : State) (h : Nat) : State :=
  let x := s.hand h
  if x.st = .held then (if x.heldBy = some .reeve then (if x.placed then s.setHand h { x with heldBy := none } else engines (resumeHand s h) h) else s)
  else if x.holdReq = some .reeve then
    let t := s.setHand h { x with holdReq := none }
    if x.placed then t else undrain t h
  else s

/-- `kquiet` (R63). -/
def execKquiet (d a b : Reg) (s : State) : Res :=
  .next <|
    let c := s.curReeve
    let ks := maskHands s c (s.rv.rd a)
    if (s.rv.rd b).getLsbD 0 then
      kDone (ks.foldl (fun t k => release t (c * 16 + k)) s) d (handMask (ks.filter (heldForReeve s c)))
    else
      let t := ks.foldl (fun t k => requestHold t (c * 16 + k)) s
      kDone t d (handMask (ks.filter fun k => decide (seenState t c k = .held)))

/-- `kevt` (R65). -/
def execKevt (d a b : Reg) (s : State) : Res :=
  .next <|
    let c := s.curReeve
    let v := s.rv.rd b
    let ks := (maskHands s c (s.rv.rd a)).filter fun k => decide (seenState s c k ≠ .frozen ∧ seenState s c k ≠ .off)
    whenReleased s <| kDone (updHands s c ks fun x => { x with evt := x.evt ||| v }) d (handMask ks)

/-! ## KWAIT_COMPLETE (R57) -/

/-- The operands of a `kwait` word: xd, xa, xb. -/
def kwaitOf (w : BitVec 32) : Option (Reg × Reg × Reg) :=
  if (getF w 0 7 : BitVec 7) = 0x0B ∧ (getF w 12 3 : BitVec 3) = 3 ∧ (getF w 25 7 : BitVec 7) = 0 then
    some (getF w 7 5, getF w 15 5, getF w 20 5)
  else none

/-- KWAIT_COMPLETE: a reeve that waits in `kwait` looks again (R57); while its farm is pre-empted the wait does not complete
(R40). -/
def execKwaitComplete (c : Nat) (s : State) : Res :=
  forUnit c Config.numCores <|
    let r := s.reeve c
    if !r.kwaiting || r.frozen || r.halted || r.debug || r.out.isSome || farmAway s c then .next s
    else match rvFetch { s with curReeve := c } with
      | .error t => .next t
      | .ok (t, w) =>
        match kwaitOf w with
        | some (d, a, b) => execKwait d a b t
        | none => .next s

end Sys2Proof.Machine
end

