-- ==== Sys2Proof/Machine/Steward.lean ====
section
/-!
DEFINITION. The steps by which the steward, and for the queue registers a producer, writes registers (R6, R24, R25, R27, R28, R351).
What a write does is in Registers.lean.
-/

namespace Sys2Proof.Machine

/-- The units that a register's name names, each with how many of its kind the device has. -/
def regUnits : RegName → List (Nat × Nat)
  | .pcoreLo p => [(p, 16)]
  | .pcoreHi p => [(p, 16)]
  | .pquant p => [(p, 16)]
  | .psave p => [(p, 16)]
  | .psaven p => [(p, 16)]
  | .pchild p => [(p, 16)]
  | .proot p => [(p, 16)]
  | .prto p => [(p, 16)]
  | .pmem p i => [(i, 36), (p, 16)]
  | .pdead p i => [(i, 36), (p, 16)]
  | .phwin p => [(p, 16)]
  | .pviol p => [(p, 16)]
  | .pmanb p => [(p, 16)]
  | .pmans p => [(p, 16)]
  | .qbase q => [(q, 64)]
  | .qhead q => [(q, 64)]
  | .bucket port p => [(port, Config.slices), (p, 16)]
  | .commons port => [(port, Config.slices)]
  | .window p i dw => [(p, 16), (i, 64), (dw, 2)]
  | .rckcfg c => [(c, Config.numCores)]
  | .foul c => [(c, Config.numCores)]
  | .gpwr g => [(g, Config.coreGroups)]
  | .ggain g => [(g, Config.coreGroups)]
  | .glim g => [(g, Config.coreGroups)]
  | .route n => [(n, Config.maxNode + 1)]
  | .actCap => []
  | .barSize fn => [(fn, 17)]
  | .mailbox i => [(i, 512)]

/-- A step that names several units: one that the device does not have has no step. -/
def forUnits : List (Nat × Nat) → Res → Res
  | [], r => r
  | u :: us, r => forUnit u.1 u.2 (forUnits us r)

/-- REGISTER_WRITE: the steward, or for the queue registers a producer, writes a register (R6, R24, R25).  Read-only fields and
write-1-to-clear fields follow the tables.  The steward's firmware runs once stage 1 of the boot has verified it (R356). -/
def execRegisterWrite (r : RegName) (v : Word) (s : State) : Res := forUnits (regUnits r) (onlyIf (s.booted 1) s (regSet s r v))

/-- QCTL_WRITE (Table 2.3). -/
def execQctlWrite (q : Nat) (v : Word) (s : State) : Res := forUnit q 64 (.next (queueWrite s true .host q 0x08 v))

/-- The number of the placer request that carries a read of function `fn` of the host through BAR2 is this plus fn. -/
def hostReader : Nat := 2 ^ 40

/-- Every earlier posted write and read of a function of the host has performed, so that its next request may (R285). -/
def postedDone (s : State) (fn : Nat) : Bool :=
  (decide (fn = 0) || unitWritesDone s (fn - 1)) && (tabFind s.hostTorn fn).isNone
    && !s.outs.any fun o => decide (o.who = .placer (hostReader + fn))

/-- QKICK_WRITE: a producer kicks a queue (R27, R28); the host's write performs after the earlier requests of its function (R285). -/
def execQkickWrite (p : Producer) (q : Nat) (v : Word) (s : State) : Res :=
  forUnit q 64 (.next (if decide (p = .host) && !postedDone s (q / 4 + 1) then s else queueWrite s false p q 0x10 v))

/-- QSTAT_CLEAR_STOPPED: the steward restarts a queue at `QHEAD` with nothing published (Table 2.4). -/
def execQstatClearStopped (q : Nat) (s : State) : Res := forUnit q 64 (.next (queueWrite s true .host q 0x20 2))

/-- GHEART_WRITE: any write is a heartbeat; the controller leaves fallback (R351). -/
def execGheartWrite (g : Nat) (v : Word) (s : State) : Res := forUnit g Config.coreGroups (.next (ctrlWrite s g 0x20 v))

end Sys2Proof.Machine
end

