-- ==== Sys2Proof/Machine/Placer.lean ====
section
/-!
DEFINITION. The placer, first part: reading the launch queues (R28 to R31), placement (R32 to R36) and what is free.
-/

namespace Sys2Proof.Machine

/-! ## What is free (R34, R43) -/

/-- The farm's hands hold their places. -/
def Farm.onDevice (f : Farm) : Bool := decide (f.phase = .placed ∨ f.phase = .preempting)

/-- The hands of a farm that have not ended. -/
def Farm.live (f : Farm) : List Placed := f.hands.filter fun p => !f.gone.contains p.hid

/-- Every busy hand with its share and window. -/
def busyHands (s : State) : List Placed := (s.farms.filter Farm.onDevice).flatMap Farm.live

/-- True where the run [a, a + n) meets none of the used runs. -/
def runFree (used : List (Nat × Nat)) (a n : Nat) : Bool :=
  used.all fun u => decide (n = 0) || decide (u.2 = 0) || decide (a + n ≤ u.1) || decide (u.1 + u.2 ≤ a)

/-- The start of the lowest-addressed free run of `n` of `total` units (R34). -/
def firstRun (total n : Nat) (used : List (Nat × Nat)) : Option Nat :=
  let starts := (0 :: used.map fun u => u.1 + u.2).filter fun a => decide (a + n ≤ total) && runFree used a n
  starts.foldl (fun best a => match best with
    | none => some a
    | some b => some (min a b)) none

/-- What core `c` offers: its lowest free hand with the lowest free runs, if it offers a hand (R34). -/
def coreOffer (busy : List Placed) (spn accn c : Nat) : Option Placed :=
  let mine := busy.filter fun p => coreOf p.hid == c
  match (List.range 16).find? fun k => !(mine.any fun p => p.hid == c * 16 + k) with
  | none => none
  | some k =>
    match firstRun Config.spadUnits spn (mine.map fun p => (p.spb, p.spn)),
        firstRun Config.accRows accn (mine.map fun p => (p.accb, p.accn)) with
    | some a, some b => some { hid := c * 16 + k, spb := a, spn := spn, accb := b, accn := accn }
    | _, _ => none

/-- Busy hands of a core. -/
def busyCount (busy : List Placed) (c : Nat) : Nat := busy.countP fun p => coreOf p.hid == c

/-- The offering core with the fewest busy hands, ties to the lowest (R34). -/
def bestOffer (busy : List Placed) (spn accn : Nat) (cand : List Nat) : Option Placed :=
  (cand.foldl (fun best c =>
    match coreOffer busy spn accn c with
    | none => best
    | some p =>
      let n := busyCount busy c
      match best with
      | none => some (n, p)
      | some (m, q) => if n < m then some (n, p) else some (m, q)) none).map Prod.snd

/-- Up to `n` picks (R34). -/
def choose (cand : List Nat) (spn accn : Nat) : Nat → List Placed → List Placed → List Placed
  | 0, _, chosen => chosen
  | n + 1, busy, chosen =>
    match bestOffer busy spn accn cand with
    | none => chosen
    | some p => choose cand spn accn n (p :: busy) (chosen ++ [p])

/-- The cores on which a farm may be placed: affinity and `PCORE`; with a reeve entry, those whose reeve serves no farm. -/
def candidates (s : State) (p : Nat) (k : Packet) : List Nat :=
  (List.range Config.numCores).filter fun c =>
    k.aff.getLsbD c && (s.part p).pcore.getLsbD c && (decide (k.rentry = 0) || !(s.reeve c).serving)

/-- The placement of a packet, if hands-min hands are found (R34). -/
def allocate (s : State) (p : Nat) (k : Packet) : Option (List Placed) :=
  let chosen := choose (candidates s p k) (k.spkib / 4) k.accrows (min k.hmax (max k.hmin k.strips)) (busyHands s) []
  if chosen.length < k.hmin then none else some chosen

/-- The partition with nothing on it: no farm, and every reeve free. -/
def idleDevice (s : State) : State := { s with farms := [], reeves := [] }

/-- A farm that could not be placed even on an otherwise idle partition (R33, log 29). -/
def unplaceable (s : State) (f : Farm) : Bool := (allocate (idleDevice s) f.part f.pkt).isNone

/-! ## Taking packets (R28 to R31, R39) -/

/-- A farm id that no farm has (R31, log 11). -/
def freshId (s : State) : Nat :=
  let next (n : Nat) : Nat := n % (2 ^ 32 - 1) + 1
  ((List.range (s.farms.length + 1)).map fun i => next (s.nextFarm - 1 + i)).find? (fun n => !(s.farms.any fun f => f.id == n))
    |>.getD (next (s.nextFarm - 1))

/-- A taken packet becomes a farm, which waits to be placed (R31). -/
def newFarm (s : State) (p q : Nat) (bytes : List Byte) : State :=
  let id := freshId s
  let f : Farm :=
    { id := id, part := p, queue := q, pkt := parsePacket bytes, phase := .waiting, hands := [], gone := [], ctr := 0
      reeves := [], killed := false, frozen := false, abandoned := false, remoteErr := false, since := s.tick, order := 0
      pimg := (s.part p).pimg, doneTag := none, reading := false, finished := false, heldAt := none, written := false, fetched := []
      fetching := none, record := .due }
  { s with farms := s.farms ++ [f], nextFarm := id + 1 }

/-- `QHEAD` goes past the packet; the published range loses it (R29). -/
def advanceHead (x : Queue) : Queue :=
  { x with head := x.head + 1, rereads := none, heldAt := none, pub := if x.pub = some x.head then none else x.pub }

/-- A bad packet is skipped with its reason (R30). -/
def skipBad (s : State) (q reason : Nat) : State :=
  let x := s.queue q
  let y := { advanceHead x with bad := true, badseq := x.head, reason := reason }
  raiseMsix (s.setQueue q y) q

/-- The packet at the head of a queue is taken or skipped (R29, R30). -/
def takePacket (s : State) (q : Nat) (bytes : List Byte) : State :=
  match packetReason bytes false with
  | some n => skipBad s q n
  | none => newFarm (s.setQueue q (advanceHead (s.queue q))) (q / 4) (q % 4) bytes

/-- The header of a slot names the sequence number at the head (R28). -/
def headerMatches (s : State) (q : Nat) (bytes : List Byte) : Bool := decide (fld (dwordAt bytes 0) 31 0 = (s.queue q).head.toNat)

/-- A header that does not match is read again, and the queue stops after the 64th re-read (R28). -/
def headerMissed (s : State) (q : Nat) : State :=
  let x := s.queue q
  match x.rereads with
    | none => s.setQueue q { x with rereads := some 0, readAt := s.tick, heldAt := none }
    | some n =>
      if n + 1 ≥ Config.maxRereads then kickWithoutPacket s q x.producer x.head
      else s.setQueue q { x with rereads := some (n + 1), readAt := x.readAt + Config.rereadTicks, heldAt := none }

/-- Outstanding requests of the placer by number: 0-63 the launch queues, 64 + p the child queue of p, 128 + f the completion word
of farm f. -/
def placerWaits (s : State) (n : Nat) : Bool := s.outs.any fun o => decide (o.who = .placer n)

/-- Where the slot at the head of a queue lies (R25, R26). -/
def slotPlace (s : State) (q : Nat) : Located :=
  let x := s.queue q
  let addr := (x.base &&& ~~~0x7F#64) + nat64 (128 * (x.head.toNat % 2 ^ x.lsize))
  if x.base.getLsbD 0 then .ok ((List.range 128).map fun i => .host (addr.toNat + i))
  else locateIn s (q / 4) addr 128 .load

/-- The bytes `locs` of the slot at the head are read, the header alone or the whole slot: a header that matches is followed by the body,
and with it the packet is taken (R28).  The error of a byte makes the packet bad with reason 9 (R30). -/
def slotFetch (s : State) (q : Nat) (locs : List Loc) (next : State → List Byte → State) : State :=
  match unitGather (.placer q) (q / 4) .read 0 s locs with
  | (t, .done bytes) => next t bytes
  | (t, .wait _) => t
  | (t, _) => skipBad t q 9

/-- The whole slot has been read. -/
def slotWhole (s : State) (q : Nat) (bytes : List Byte) : State := if headerMatches s q bytes then takePacket s q bytes else headerMissed s q

/-- Bytes of the slot at the head have come back: of another node the header, and after it the slot; of the host the slot (R28). -/
def slotRead (s : State) (q : Nat) (bytes : List Byte) : State :=
  if 128 ≤ bytes.length then slotWhole s q bytes
  else if !headerMatches s q bytes then headerMissed s q
  else match slotPlace s q with
    | .ok locs => whenUnitPaid s (q / 4) locs fun t => slotFetch t q locs (fun u bs => slotWhole u q bs)
    | _ => skipBad s q 9

/-- The slot lies on this device, where its header can be looked at as its body is read. -/
def slotHere (locs : List Loc) : Bool := locs.all isLocal

/-- The placer reads the slot at the head of a queue: its header, and its body where the header matches.  A fault, and a hold that has
lasted for its limit, makes the packet bad with reason 9 (R28, R30, R217).  Each granule that is read is one transfer (R223). -/
def readSlot (s : State) (q : Nat) : State :=
  match slotPlace s q with
  | .fault _ _ _ => skipBad s q 9
  | .hold _ =>
    let x := s.queue q
    if holdExpired s x.heldAt then skipBad s q 9 else s.setQueue q { x with heldAt := some (x.heldAt.getD s.tick) }
  | .ok locs =>
    let header := locs.take 8
    let whole := allHost locs || (slotHere locs && !(header.any (poisonedLoc s)) && headerMatches s q (header.map (readLoc s)))
    let part := if whole then locs else header
    whenUnitPaid s (q / 4) part fun t => slotFetch t q part (fun u bs => slotRead u q bs)

/-- The queue runs, its head is published, nothing of it waits to be placed and no read of it is outstanding (R28, R32). -/
def queueReady (s : State) (q : Nat) : Bool :=
  let x := s.queue q
  x.en && !x.stopped && x.pub.isSome && !placerWaits s q
    && !(s.farms.any fun f => decide (f.part = q / 4 ∧ f.queue = q % 4 ∧ f.phase = .waiting))

/-- SLOT_HEADER_READ (R28). -/
def execSlotHeaderRead (q : Nat) (s : State) : Res :=
  forUnit q 64 (onlyIf (queueReady s q && (s.queue q).rereads.isNone) s (readSlot s q))

/-- SLOT_HEADER_REREAD: 256 reference ticks after the last read (R28). -/
def execSlotHeaderReread (q : Nat) (s : State) : Res :=
  forUnit q 64
    (onlyIf (queueReady s q && (s.queue q).rereads.isSome && decide ((s.queue q).readAt + Config.rereadTicks ≤ s.tick)) s
      (readSlot s q))

/-- The bytes of the child slot at the head: the packet becomes a farm; one that no longer obeys R20 is dropped (log 28). -/
def childRead (s : State) (p : Nat) (bytes : List Byte) : State :=
  let x := s.part p
  let t := s.setPart p { x with chead := x.chead + 1, ccount := x.ccount - 1, cheld := none }
  match packetReason bytes true with
  | some _ => t
  | none => newFarm t p 4 bytes

/-- The placer takes the child packet at the head of the child queue, if no child farm waits and the slots written have performed (R31,
R39). -/
def takeChild (s : State) (p : Nat) : State :=
  let x := s.part p
  if x.ccount = 0 ∨ placerWaits s (64 + p) ∨ !unitWritesDone s p ∨ (s.farms.any fun f => decide (f.part = p ∧ f.queue = 4 ∧ f.phase = .waiting)) then s
  else
    let addr := x.pchild + nat64 (128 * (x.chead % 256))
    let drop := s.setPart p { x with chead := x.chead + 1, ccount := x.ccount - 1, cheld := none }
    match locateIn s p addr 128 .load with
    | .fault _ _ _ => drop
    | .hold _ => if holdExpired s x.cheld then drop else s.setPart p { x with cheld := some (x.cheld.getD s.tick) }
    | .ok locs =>
      whenUnitPaid s p locs fun u => match unitGather (.placer (64 + p)) p .read addr u locs with
        | (t, .done bytes) => childRead t p bytes
        | (t, .wait _) => t
        | _ => drop

/-! ## Starting hands and reeves (R19, R35, R36) -/

/-- The state of a placed hand at its start (Table 2.8). -/
def startHand (f : Farm) (p : Placed) : Hand :=
  let k := f.pkt
  let base : Hand := { Hand.empty with
    st := if k.rentry = 0 then .fetch else .idle
    pc := if k.rentry = 0 then k.hentry else 0
    det := k.det, rck := k.rck, farm := f.id, part := f.part
    accb := p.accb, accn := p.accn, spb := p.spb, spn := p.spn
    gAccb := p.accb, gAccn := p.accn, gSpb := p.spb, gSpn := p.spn }
  ((base.wr 2 (nat64 (Config.spadBase + 4096 * (p.spb + p.spn)))).wr 3 k.args).wr 4 (nat64 k.whistle)

/-- The share and the accumulator window of a hand are zero (Table 2.8); the core's hand instruction cache is invalidated (R71). -/
def clearShare (c : CoreSt) (p : Placed) : CoreSt :=
  let lo := 4096 * p.spb
  let hi := 4096 * (p.spb + p.spn)
  { c with
    spad := c.spad.filter fun q => !(decide (lo ≤ q.1) && decide (q.1 < hi))
    spoison := c.spoison.filter fun n => !(decide (lo ≤ 32 * n) && decide (32 * n < hi))
    acc := c.acc.filter fun q => !(decide (p.accb ≤ q.1) && decide (q.1 < p.accb + p.accn))
    apoison := c.apoison.filter fun n => !(decide (p.accb ≤ n) && decide (n < p.accb + p.accn))
    icache := [] }

/-- HAND_START (R35). -/
def placeHand (f : Farm) (s : State) (p : Placed) : State :=
  let c := coreOf p.hid
  let t := (s.dropResv p.hid).setHand p.hid (startHand f p)
  t.setCore c (clearShare (t.core c) p)

/-- The hands of a list on core `c` as a mask. -/
def coreMask (ps : List Placed) (c : Nat) : BitVec 16 :=
  (ps.filter fun p => coreOf p.hid == c).foldl (fun m p => m ||| (1#16 <<< (p.hid % 16))) 0

/-- REEVE_USER_ENTRY: the supervisor enters user mode at the reeve entry (R36). -/
def enterUser (f : Farm) (ps : List Placed) (s : State) (c : Nat) : State :=
  let m := coreMask ps c
  let r := s.reeve c
  let x := (((r.wr 10 f.pkt.args).wr 11 (m.setWidth 64)).wr 12 (nat64 f.id)).wr 13 (nat64 f.pkt.whistle)
  s.setReeve c { x with mode := .u, pc := f.pkt.rentry, serving := true, hfarm := f.id, hmask := m, kwaiting := false, wfi := false
                        halted := false, out := none, ibuf := none, dbuf := none, migHold := none }

/-- The cores of a list of hands, rising. -/
def coresOf (ps : List Placed) : List Nat := (List.range Config.numCores).filter fun c => ps.any fun p => coreOf p.hid == c

/-- A farm starts on the hands chosen for it (R34 to R36). -/
def startFarm (s : State) (f : Farm) (ps : List Placed) : State :=
  let cs := if f.pkt.rentry = 0 then [] else coresOf ps
  let t := s.updFarm f.id fun g => { g with phase := .placed, hands := ps, reeves := cs, order := s.nextOrder, pimg := (s.part f.part).pimg }
  let u := ps.foldl (placeHand f) { t with nextOrder := s.nextOrder + 1 }
  cs.foldl (enterUser f ps) u

end Sys2Proof.Machine
end

