-- ==== Sys2Proof/Machine/Farms.lean ====
section
/-!
DEFINITION. The placer, second part: manifest records (R343, R344), completion (R41 to R43), pre-emption and resumption (R37, R38, R40),
the choice of a farm (R31, R32) and the steward's kill.
-/

namespace Sys2Proof.Machine

/-! ## Manifest records (R343, R344) -/

/-- A manifest record (Table 20.2). -/
def manifestRecord (s : State) (f : Farm) (word : Word) : List Byte :=
  let n := (s.part f.part).next.toNat
  leBytes 8 (n * 2 ^ 32 + f.part * 2 ^ 24 + Config.node * 2 ^ 12 + 1) ++ leBytes 8 (f.id * 2 ^ 32 + f.pkt.seq)
    ++ leBytes 8 f.pkt.seed.toNat ++ leBytes 8 word.toNat ++ shake256 f.pkt.raw ++ leBytes 32 f.pimg.toNat
    ++ shake256 Config.identityBytes

/-- The manifest ring's base and the logarithm of its size (Table 20.1). -/
def manifestRing (p : Part) : Word × Nat := (p.manb &&& ~~~0x7F#64, fld p.manb 4 0)

/-- A migrating page holds a write for the farm (R217). -/
def holdFarm (s : State) (f : Farm) : State := s.updFarm f.id fun g => { g with heldAt := some (f.heldAt.getD s.tick) }

/-- A farm's manifest record cannot be written: it is dropped, `PMANS.lost` is set, and `next` stays (R343). -/
def recordLost (s : State) (f : Farm) : State :=
  (s.setPart f.part { s.part f.part with lost := true }).updFarm f.id fun g => { g with record := .over, heldAt := none }

/-- A farm's manifest record has been written: `next` steps, and a full ring has overwritten its oldest record (Table 20.1). -/
def recordWritten (s : State) (f : Farm) : State :=
  let p := s.part f.part
  let ovf := p.ovf || decide (2 ^ (manifestRing p).2 ≤ p.next.toNat)
  (s.setPart f.part { p with next := p.next + 1, ovf := ovf }).updFarm f.id fun g => { g with record := .over, heldAt := none }

/-- The number by which replies name the write of a farm's manifest record. -/
def recordWaiter (f : Nat) : Waiter := .placer (2 ^ 35 + f)

/-- The node that holds the first of some places. -/
def nodeOf (locs : List Loc) : Option Nat :=
  match locs.head? with
  | some (.remote node _ _) => some node
  | _ => none

/-- MANIFEST_RECORD_WRITE: a farm with det = 1 leaves its record, or the record is lost (R343).  A migrating page holds it (R217), and it
waits for tokens (R224); at another node it is written once that node has replied, and the records of one partition are written one
after the other. -/
def writeManifest (s : State) (f : Farm) (word : Word) : State :=
  let p := s.part f.part
  let (base, n) := manifestRing p
  if !f.pkt.det ∨ n = 0 ∨ n > 16 then s.updFarm f.id fun g => { g with record := .over }
  else if s.farms.any fun g => decide (g.part = f.part ∧ g.record = .sent) then s
  else
    let addr := base + nat64 (128 * (p.next.toNat % 2 ^ n))
    match locateIn s f.part addr 128 .store with
    | .fault _ _ _ => recordLost s f
    | .hold _ => if holdExpired s f.heldAt then recordLost s f else holdFarm s f
    | .ok locs =>
      match nodeOf locs with
      | some node =>
        if nodeDead s f.part node then recordLost s f
        else
          let r := sendRemote s (recordWaiter f.id) f.part node .write locs (manifestRecord s f word) [] addr
          r.1.updFarm f.id fun g => { g with record := .sent }
      | none => whenUnitPaid s f.part locs fun t => recordWritten (store t (.other f.part) addr locs (manifestRecord s f word)) f

/-- Another node has written a farm's manifest record, or has not (R343). -/
def recordAnswered (s : State) (id : Nat) (ok : Bool) : State :=
  match s.farm id with
  | some f => if f.record ≠ .sent then s else if ok then recordWritten s f else recordLost s f
  | none => s

/-- What follows a farm's manifest record, once that is written or lost (R41, R343). -/
def afterRecord (s : State) (f : Farm) (word : Word) (next : State → Farm → State) : State :=
  match f.record with
  | .over => next s f
  | .sent => s
  | .due =>
    let t := writeManifest s f word
    match t.farm f.id with
    | some g => if g.record = .over then next t g else t
    | none => t

/-! ## Completion (R41 to R43) -/

/-- The status of a farm: the first that applies (R42). -/
def Farm.status (f : Farm) : Nat :=
  if f.frozen then 3 else if f.killed then 2 else if f.abandoned then 1 else if f.remoteErr then 4 else 0

/-- The word that the placer ORs into the completion word (R41). -/
def Farm.doneBits (f : Farm) : Word := nat64 (1 + 2 * f.status)

/-- The farm is over: its id, its save records and its images are free. -/
def freeFarm (s : State) (f : Farm) : State :=
  let x := s.part f.part
  let t := s.setPart f.part { x with saved := x.saved.filter fun r => r.2.2 != f.id }
  { t with farms := t.farms.filter (fun g => g.id != f.id), saves := t.saves.filter fun r => r.1 / 2048 != f.id }

/-- Done is written.  A farm whose hands still run, since another farm's hands have added to its word, goes once they have ended
(R22, R43). -/
def closeFarm (s : State) (f : Farm) : State :=
  if f.live = [] then freeFarm s f else s.updFarm f.id fun g => { g with finished := true, doneTag := none, reading := false }

/-- DONE_WRITE_FAILED: the write of done is not retried; the farm is freed (R41). -/
def doneFailed (s : State) (f : Farm) : State :=
  closeFarm ((s.boxWrite 0x0F 0 f.part 0 f.id).report (.doneFailed f.id)) f

/-- The placer awaits a reply about the completion word: its read, or the write of done. -/
def awaitDone (r : State × Nat) (f : Farm) (reading : Bool) : State :=
  r.1.updFarm f.id fun g => { g with doneTag := some r.2, reading := reading }

/-- The atomic OR of done into the completion word (R41). -/
def orDone (s : State) (f : Farm) (locs : List Loc) : State :=
  match locs.head? with
  | some (.remote node _ _) =>
    if nodeDead s f.part node then doneFailed s f
    else awaitDone (sendRemote s (.placer (128 + f.id)) f.part node (.amo .or) locs (leBytes 8 f.doneBits.toNat) [] f.pkt.done 8) f false
  | some (.host _) =>
    awaitDone (sendHost s (.placer (128 + f.id)) f.part f.pkt.done fun g => .cas g f.part (locPas locs) .or f.doneBits 0 0) f false
  | _ =>
    if locs.any (poisonedLoc s) then doneFailed s f
    else closeFarm (amoLocal s (.other f.part) .or 8 locs f.doneBits.toNat 0).1 f

/-- The completion word as it stands, where it lies on this device. -/
def wordHere (s : State) (locs : List Loc) : Option Word :=
  if locs.all fun l => match l with
    | .remote _ _ _ => false
    | .host _ => false
    | _ => true
  then some (dwordAt (locs.map (readLoc s)) 0) else none

/-- The farm ends whatever its count is (R42). -/
def Farm.stops (f : Farm) : Bool := decide (f.status ∈ [1, 2, 3])

/-- The completion word has been read: once its count is P, or the farm ends with status 1, 2 or 3, the manifest record is written and
then done, a release that follows it and that takes a token (R41, R42, R224, R280, R343); otherwise the word is looked at again. -/
def doneWith (s : State) (f : Farm) (locs : List Loc) (word : Word) : State :=
  let t := s.updFarm f.id fun g => { g with doneTag := none, reading := false }
  if !f.stops && decide (fld word 63 32 ≠ f.hands.length) then t
  else afterRecord t f (word ||| f.doneBits) fun u g => whenUnitPaid u g.part locs fun v => orDone v g locs

/-- The place of the completion word cannot be written (R41): so the write of done fails, once no hand of the farm adds any more. -/
def doneAstray (s : State) (f : Farm) : State :=
  if f.live = [] then afterRecord s f f.doneBits doneFailed else s

/-- The placer reads the completion word and sets done (R41); for a farm with det = 1 the manifest record holds the word (R343). -/
def setDone (s : State) (f : Farm) : State :=
  match locateIn s f.part f.pkt.done 8 .store with
  | .fault _ _ _ => doneAstray s f
  | .hold _ => if holdExpired s f.heldAt then doneAstray s f else holdFarm s f
  | .ok locs =>
    match wordHere s locs with
    | some w => doneWith s f locs w
    | none =>
      match locs.head? with
      | some (.remote node _ _) =>
        if nodeDead s f.part node then doneAstray s f
        else awaitDone (sendRemote s (.placer (128 + f.id)) f.part node .read locs [] [] f.pkt.done) f true
      | _ => awaitDone (sendHost s (.placer (128 + f.id)) f.part f.pkt.done fun g => .read g f.part (locPas locs)) f true

/-- Every reeve has ended its part, and of a farm that ends with status 1, 2 or 3 every hand has been stopped (R41, R42).  The count of
any other is tested on its completion word, to which the hands of another farm can have added (R22). -/
def doneReady (f : Farm) : Bool :=
  decide (f.phase = .placed) && f.doneTag.isNone && !f.finished && decide (f.reeves = []) && (decide (f.live = []) || !f.stops)

/-- SET_DONE (R41); a farm whose done is written already goes with its last hand (R22). -/
def execSetDone (f : Nat) (s : State) : Res :=
  .next (match s.farm f with
    | some g => if doneReady g then setDone s g else if g.finished ∧ g.live = [] then freeFarm s g else s
    | none => s)

/-- The completion word of a farm has come back from another node or the host. -/
def doneRead (s : State) (f : Farm) (bytes : List Byte) : State :=
  match locateIn s f.part f.pkt.done 8 .store with
  | .ok locs => doneWith s f locs (dwordAt bytes 0)
  | _ => s.updFarm f.id fun g => { g with doneTag := none, reading := false }

/-! ## The steward's kill (R42) -/

/-- The reeve's part of a farm ends with the kill, which stops the reeve (R42, log 15). -/
def killReeve (f : Farm) (s : State) (c : Nat) : State :=
  let t := reevePartEnds s c f.id
  t.setReeve c { t.reeve c with halted := true, frozen := false, kwaiting := false, out := none }

/-- The steward kills a farm: its hands are Off, its reeves stop (R42, R49). -/
def killFarm (s : State) (f : Farm) : State :=
  let t := (s.boxWrite 0x0B 0 f.part 0 f.id).updFarm f.id fun g => { g with killed := true }
  let u := (if f.onDevice then f.live else []).foldl (fun v p => handOff (v.leaveWindow p.hid) p.hid) t
  let v := f.reeves.foldl (killReeve f) u
  v.updFarm f.id fun g => { g with phase := .placed, gone := g.hands.map Placed.hid, reeves := [] }

/-- FARM_KILL: status 2, or 3 where a violation has frozen the farm (R42). -/
def execFarmKill (f : Nat) (s : State) : Res :=
  .next (match s.farm f with
    | some g => killFarm s g
    | none => s)

/-! ## Pre-emption (R37, R38) -/

/-- Every reeve of a farm that has not ended its part is in `kwait`.  The rules do not say whether a farm with a reeve entry all of whose
reeves have exited already is one whose every reeve is in `kwait`: here it is (DESIGN CHOICE, log 37). -/
def allWaiting (s : State) (f : Farm) : Bool := f.reeves.all fun c => (s.reeve c).kwaiting && decide ((s.reeve c).hfarm = f.id)

/-- A farm on the device that is not ending.  The rules do not say whether a farm with a frozen hand or reeve counts as present when a
victim is chosen: here it does not (DESIGN CHOICE, log 37). -/
def Farm.runs (f : Farm) : Bool := decide (f.phase = .placed ∧ f.live ≠ []) && !f.frozen && !f.killed

/-- A farm that may be pre-empted: with no reeve or every reeve in `kwait` (R37). -/
def preemptible (s : State) (f : Farm) : Bool := f.runs && allWaiting s f

/-- Units of a save record (Table 2.1). -/
def recordUnits (p : Placed) : Nat := 36 + p.spn

/-- Runs of the save area for a farm's records, each in the next free run (R38). -/
def saveRuns (total : Nat) : List (Nat × Nat) → List Placed → Option (List (Nat × Nat))
  | _, [] => some []
  | used, p :: ps =>
    match firstRun total (recordUnits p) used with
    | none => none
    | some a => (saveRuns total ((a, recordUnits p) :: used) ps).map fun rs => (a, recordUnits p) :: rs

/-- The runs that a farm's records would take in its partition's save area.  The rules name an area with too few free units; of one whose
free units are enough, but lie in no run long enough for a record, they say nothing: here the farm is not pre-empted (DESIGN CHOICE, log
37). -/
def farmRuns (s : State) (f : Farm) : Option (List (Nat × Nat)) :=
  let x := s.part f.part
  saveRuns x.psaven (x.saved.map fun r => (r.1, r.2.1)) f.live

/-- The pre-emption of a farm begins: holds on its hands (R38). -/
def startPreempt (s : State) (f : Farm) : State :=
  let t := s.updFarm f.id fun g => { g with phase := .preempting }
  f.live.foldl (fun u p => placerHold u p.hid) t

/-- A pre-emption of the partition is under way (R37: one at a time). -/
def preempting (s : State) (p : Nat) : Bool := s.farms.any fun f => decide (f.part = p ∧ f.phase = .preempting)

/-- The farm placed last of a list. -/
def latest (fs : List Farm) : Option Farm :=
  fs.foldl (fun b f => match b with
    | none => some f
    | some g => if g.order < f.order then some f else some g) none

/-- The victim for a waiting farm: the farm placed last of the lowest priority present, if that is below the waiting farm's and the
farm is pre-emptible (R37); its records fit into the save area (R38). -/
def victim (s : State) (w : Farm) : Option Farm :=
  let fs := s.farms.filter fun f => decide (f.part = w.part) && f.runs
  let low := fs.foldl (fun m f => min m f.pkt.prio) 8
  (latest (fs.filter fun f => f.pkt.prio == low)).filter fun f =>
    decide (low < w.pkt.prio) && preemptible s f && (farmRuns s f).isSome

/-- The victim for a child farm: its parent, and then the farm placed last, whose every reeve is in `kwait` (R40). -/
def childVictim (s : State) (w : Farm) : Option Farm :=
  let fs := s.farms.filter fun f => decide (f.part = w.part ∧ f.pkt.rentry ≠ 0) && preemptible s f && (farmRuns s f).isSome
  match fs.find? fun f => f.id == w.pkt.parent.toNat with
  | some f => some f
  | none => latest fs

/-- A farm has waited one full quantum of its partition (R32). -/
def expired (s : State) (w : Farm) : Bool :=
  let q := (s.part w.part).pquant
  decide (w.phase = .waiting) && decide (0 < q) && decide (q ≤ s.tick - w.since)

/-- A farm has waited longer than its partition's quantum, and still cannot be placed (R37). -/
def overdue (s : State) (w : Farm) : Bool :=
  expired s w && decide ((s.part w.part).pquant < s.tick - w.since) && (allocate s w.part w.pkt).isNone

/-- Waiting farms of a partition in the order in which they are considered (R31): priority, then the child queue, then the queue
number. -/
def waitingFarms (s : State) (p : Nat) : List Farm :=
  let ws := s.farms.filter fun f => decide (f.part = p ∧ f.phase = .waiting)
  let key (f : Farm) : Nat := (7 - f.pkt.prio) * 8 + (if f.queue = 4 then 0 else f.queue + 1)
  (List.range 64).flatMap fun k => ws.filter fun f => key f == k

/-- QUANTUM_EXPIRY: a farm has waited longer than the quantum, and a victim is pre-empted (R37). -/
def execQuantumExpiry (p : Nat) (s : State) : Res :=
  forUnit p 16 <| .next <|
    if preempting s p then s
    else match ((waitingFarms s p).filter (overdue s)).findSome? (victim s) with
      | some f => startPreempt s f
      | none => s

/-- A hand whose image can be written: Held, or Parked while the placer's hold pends; its stores have left it (R38, R323). -/
def savable (s : State) (h : Nat) : Bool :=
  let x := s.hand h
  decide (x.st = .held ∨ x.st = .parked) && !x.underWay && x.storesDone

/-- Bytes of a save record: the context image and the share (R38). -/
def recordBytes (s : State) (p : Placed) : List Byte :=
  imageBytes s p.hid (frameKey s p.hid) ++ memBytes (s.core (coreOf p.hid)).spad (4096 * p.spb) (4096 * p.spn)

/-- Key of the saved hand of a farm. -/
def saveKey (f h : Nat) : Nat := f * 2048 + h

/-- Where a save record of a hand lies: a run of the save area (R38). -/
def recordPlace (s : State) (f : Farm) (p : Placed) (run : Nat) (t : AccType) : Located :=
  locateIn s f.part ((s.part f.part).psave + nat64 (4096 * run)) (4096 * recordUnits p) t

/-- A place that cannot be written or read: it faults, or it lies at a dead node (R308). -/
def Located.lost (s : State) (p : Nat) : Located → Bool
  | .fault _ _ _ => true
  | .hold _ => false
  | .ok locs => locs.any fun l => match l with
    | .remote node _ _ => nodeDead s p node
    | _ => false

/-- A place that a migrating page holds (R217). -/
def Located.held : Located → Bool
  | .hold _ => true
  | _ => false

/-- The places of an access that can be performed. -/
def Located.places : Located → List Loc
  | .ok locs => locs
  | _ => []

/-- One save record is written, and its hand is empty; its place is free once every record is complete (R38). -/
def saveHand (f : Farm) (s : State) (r : Placed × (Nat × Nat)) : State :=
  let h := r.1.hid
  match recordPlace s f r.1 r.2.1 .store with
  | .ok locs =>
    let x := s.part f.part
    let t := store s (.other f.part) (x.psave + nat64 (4096 * r.2.1)) locs (recordBytes s r.1)
    let u := keepFrame t h (frameKey s h)
    let v := { u with saves := u.saves ++ [(saveKey f.id h, u.hand h)] }
    let w := v.setPart f.part { v.part f.part with saved := (v.part f.part).saved ++ [(r.2.1, r.2.2, f.id)] }
    (w.setHand h Hand.empty).dropResv h
  | _ => s

/-- The placer's hold on a hand ends, and the hand goes on if nothing else holds it (R38). -/
def endHold (s : State) (h : Nat) : State :=
  let t := placerRelease s h
  if (s.hand h).st = .held ∧ (t.hand h).st ≠ .held then engines t h else t

/-- The placer's holds on a farm's hands end without a save, but for those of the hands whose reeve is frozen (R332). -/
def cancelPreempt (s : State) (f : Farm) : State :=
  (f.live.filter fun p => !(s.reeve (coreOf p.hid)).frozen).foldl (fun u p => endHold u p.hid) (s.updFarm f.id fun g => { g with phase := .placed, heldAt := none })

/-- PREEMPT_SAVE: once every hand is Held or Parked, and the transfers have tokens (R224), the save records are written; once they are
complete, the hands' places are free (R38). -/
def preemptSave (s : State) (f : Farm) : State :=
  if f.phase ≠ .preempting then s
  else if f.written then
    if unitWritesDone s f.part then s.updFarm f.id fun g => { g with phase := .saved, written := false } else s
  else if f.frozen ∨ f.killed ∨ f.live = [] then cancelPreempt s f
  else if !(f.live.all fun p => savable s p.hid) then s
  else match farmRuns s f with
    | none => cancelPreempt s f
    | some rs =>
      let places := (f.live.zip rs).map fun r => recordPlace s f r.1 r.2.1 .store
      if places.any (Located.lost s f.part) then cancelPreempt s f
      else if places.any Located.held then (if holdExpired s f.heldAt then cancelPreempt s f else holdFarm s f)
      else whenUnitPaid s f.part (places.flatMap Located.places) fun p =>
        let t := ((f.live.zip rs).foldl (saveHand f) p).updFarm f.id fun g => { g with written := true, heldAt := none }
        if unitWritesDone t f.part then t.updFarm f.id fun g => { g with phase := .saved, written := false } else t

/-- PREEMPT_SAVE (R38). -/
def execPreemptSave (f : Nat) (s : State) : Res :=
  .next (match s.farm f with
    | some g => preemptSave s g
    | none => s)

/-! ## Resumption (R38) -/

/-- The hands, runs and rows of a saved farm are all free (R38).  Of a core that has left its partition's `PCORE` meanwhile the rules say
nothing: here the farm is restored on it all the same (DESIGN CHOICE, log 37). -/
def placesFree (s : State) (f : Farm) : Bool :=
  let busy := busyHands s
  f.live.all fun p =>
    let mine := busy.filter fun q => coreOf q.hid == coreOf p.hid
    !(mine.any fun q => q.hid == p.hid) && runFree (mine.map fun q => (q.spb, q.spn)) p.spb p.spn
      && runFree (mine.map fun q => (q.accb, q.accn)) p.accb p.accn

/-- A waiting farm that goes before a saved one whose places are free: of higher priority or a child, and its cores meet those of the
saved farm.  The rules order a saved farm before the packets of its own priority only; that it gives way to these is the model's choice
(DESIGN CHOICE, log 37). -/
def goesBefore (f w : Farm) : Bool :=
  decide (w.part = f.part ∧ w.phase = .waiting) && (decide (f.pkt.prio < w.pkt.prio) || decide (w.queue = 4))
    && f.live.any fun p => w.pkt.aff.getLsbD (coreOf p.hid)

/-- A saved farm can be restored now; one whose reeve has been frozen stays as it is until the steward's kill (R332). -/
def resumable (s : State) (f : Farm) : Bool :=
  decide (f.phase = .saved ∧ f.fetching = none) && !f.frozen && placesFree s f && !(s.farms.any (goesBefore f))

/-- A saved hand is restored from its record: state, share and window (R38).  It is Parked again where it was, and Held where its reeve or
the steward holds it (R63, R323). -/
def restoreSaved (f : Farm) (s : State) (r : Placed × (Hand × List Byte)) : State :=
  let h := r.1.hid
  let c := coreOf h
  let k := clearShare (s.core c) r.1
  let t := s.setCore c { k with spad := memPut k.spad (4096 * r.1.spb) (r.2.2.drop imageSize) }
  let u := t.setHand h { r.2.1 with stopReq := none, placed := false }
  let v := restoreHand u h { r.2.1 with farm := f.id } r.2.2
  if r.2.1.st = .parked then v.notePark h
  else if r.2.1.heldBy.isSome then v
  else engines (resumeHand v h) h

/-- The records of a saved farm have all been read: it continues (R38). -/
def resumeWith (s : State) (f : Farm) (bytes : List (List Byte)) : State :=
  let recs := (f.live.zip bytes).filterMap fun r => (tabFind s.saves (saveKey f.id r.1.hid)).map fun x => (r.1, x, r.2)
  let t := s.updFarm f.id fun g => { g with phase := .placed, order := s.nextOrder, fetched := [], fetching := none, heldAt := none }
  let u := recs.foldl (restoreSaved f) { t with nextOrder := s.nextOrder + 1 }
  let v := u.setPart f.part { u.part f.part with saved := (s.part f.part).saved.filter fun r => r.2.2 != f.id }
  { v with saves := v.saves.filter fun r => r.1 / 2048 != f.id }

/-- The number by which replies name the read of a farm's save records. -/
def restoreWaiter (f : Nat) : Waiter := .placer (2 ^ 33 + f)

/-- A read of a save record has gone on: its bytes, the wait, or a failure, after which it is read anew. -/
def recordRead (f : Nat) (r : State × Gather) : State :=
  r.1.updFarm f fun g => match r.2 with
    | .done bytes => { g with fetched := g.fetched ++ [bytes], fetching := none }
    | .wait w => { g with fetching := some w }
    | _ => { g with fetching := none }

/-- The placer reads the save records that are left of a saved farm, one after the other as their transfers have tokens (R224), and the
farm continues (R38). -/
def readRecords : Nat → State → Nat → State
  | 0, s, _ => s
  | n + 1, s, id =>
    match s.farm id with
    | none => s
    | some f =>
      let runs := (s.part f.part).saved.filter fun r => r.2.2 == f.id
      match (f.live.zip runs)[f.fetched.length]? with
      | none => resumeWith s f f.fetched
      | some r =>
        match recordPlace s f r.1 r.2.1 .load with
        | .ok locs =>
          let q := payFor s (.other f.part) locs
          if !q.2 then q.1
          else match gather (restoreWaiter f.id) (.other f.part) .read readLoc 0 (locs.length + 1) q.1 locs [] with
          | (t, .done bytes) => readRecords n (recordRead f.id (t, .done bytes)) id
          | u => recordRead f.id u
        | _ => s

/-- The farm continues once its records have been read. -/
def resumeFarm (s : State) (f : Farm) : State := readRecords (f.live.length + 1) s f.id

/-- The reply to a read of a save record (R305, R212); one that failed is made anew. -/
def recordReply (s : State) (f : Farm) (ok : Bool) (bytes : List Byte) : State :=
  match f.fetching with
  | none => s
  | some w =>
    if ok then recordRead f.id (gatherOn (restoreWaiter f.id) (.other f.part) .read readLoc 0 s w bytes)
    else s.updFarm f.id fun g => { g with fetching := none }

/-- FARM_RESUME (R38). -/
def execFarmResume (f : Nat) (s : State) : Res :=
  .next (match s.farm f with
    | some g => if resumable s g then resumeFarm s g else s
    | none => s)

/-! ## PLACE_FARM (R31 to R36, R40) -/

/-- A farm that has waited a quantum blocks new farms of equal or lower priority (R32), but no child: the placement of a child is
guaranteed (R40; DESIGN CHOICE, log 37). -/
def blockedBy (s : State) (w f : Farm) : Bool :=
  decide (w.part = f.part ∧ w.id ≠ f.id ∧ f.queue ≠ 4) && expired s w
    && (decide (f.pkt.prio < w.pkt.prio) || (decide (f.pkt.prio = w.pkt.prio) && decide (w.id < f.id)))

/-- A saved farm goes before every new one of its priority, and one that can be restored before those of lower priority (R38); a child
does not wait for it (R40, log 37). -/
def resumeFirst (s : State) (f : Farm) : Bool :=
  decide (f.queue ≠ 4) && s.farms.any fun g => decide (g.part = f.part)
    && (decide (g.phase = .saved ∧ g.pkt.prio = f.pkt.prio) || (decide (f.pkt.prio ≤ g.pkt.prio) && resumable s g))

/-- What the placer does with one waiting farm: it ends it as unplaceable, places it, or pre-empts for a child; none where the
farm goes on waiting. -/
def tryPlace (s : State) (f : Farm) : Option State :=
  if f.killed then none
  else if unplaceable s f then
    let g : Farm := { f with killed := true, phase := .placed }
    some (setDone (s.updFarm f.id fun _ => g) g)
  else if s.farms.any (fun w => blockedBy s w f) ∨ resumeFirst s f then none
  else match allocate s f.part f.pkt with
    | some ps => some (startFarm s f ps)
    | none =>
      if f.queue = 4 ∧ !preempting s f.part then (childVictim s f).map (startPreempt s) else none

/-- A queue of the partition runs and its published head has not been read yet: the placer knows its priority only then (R28,
R31). -/
def headDue (s : State) (p : Nat) : Bool :=
  [4 * p, 4 * p + 1, 4 * p + 2, 4 * p + 3].any fun q =>
    queueReady s q && (s.queue q).rereads.isNone && (match slotPlace s q with | .hold _ => false | _ => true)

/-- PLACE_FARM: the farm considered first that something can be done with, once the heads of the partition's queues have been
read (R31): work of boot stage 4 and later, once the partitions have been loaded (R356). -/
def execPlaceFarm (p : Nat) (s : State) : Res :=
  forUnit p 16 <| if !s.booted 3 then .next s else
    let t := takeChild s p
    .next (if headDue s p then t else ((waitingFarms t p).findSome? (tryPlace t)).getD t)

end Sys2Proof.Machine
end

