-- ==== Sys2Proof/Machine/Whistle.lean ====
section
/-!
DEFINITION. Whistle reductions in the fabric block (R291 to R301): tree nodes, folds, deliveries and retention.
-/

namespace Sys2Proof.Machine

/-! ## Ports and folds (R291, R293, R294) -/

/-- A registered group by its key. -/
def State.groupOf (s : State) (key : Nat) : Option Group := s.groups.find? fun g => groupKey g.part g.id == key

/-- A tree entry; one that does not exist is a root of level 0. -/
def grpEntry (g : Group) (e : Nat) : TreeEntry := g.tree.getD e { parent := 0xFFFF, level := 0, children := 0, host := Config.node }

/-- Budget of a tree node (R291). -/
def grpBudget (g : Group) (e : Nat) : Nat := g.budgets.getD (grpEntry g e).level 0

/-- Retention window of a tree node (R291): a field of 0 means 8 (Table 1.12). -/
def grpWindow (g : Group) (e : Nat) : Nat := (if g.retention = 0 then 8 else g.retention) * grpBudget g e

/-- Member slots that contribute to a tree node. -/
def grpLeaves (g : Group) (e : Nat) : Nat := g.members.countP fun m => m.leaf == e

/-- The port of tree entry `e` at its parent (R291). -/
def grpPort (g : Group) (e : Nat) : Nat :=
  let p := (grpEntry g e).parent
  grpLeaves g p + ((g.tree.take e).countP fun t => t.parent == p)

/-- The group's operation on two elements (R294); its flags are set nowhere. -/
def grpCombine (g : Group) (x y : Word) : Word :=
  let w : FormatWord := { formatWord 0 with fa := whistleFormat g.type_, fb := whistleFormat g.type_, fd := whistleFormat g.type_ }
  let o : EwOp := match g.op with
    | 0 => .add
    | 1 => .max
    | _ => .min
  nat64 (ewElem o w x.toNat y.toNat).1

/-- The fold of two inputs (R293). -/
def grpFold2 (g : Group) (x y : WInput) : WInput :=
  { elems := List.zipWith (grpCombine g) x.elems y.elems, bitmap := x.bitmap ||| y.bitmap, det := x.det || y.det }

/-- The fold of the inputs held, in ascending port order (R293). -/
def grpFold (g : Group) (inputs : Table WInput) : WInput :=
  match inputs with
  | [] => { elems := [], bitmap := 0, det := false }
  | p :: ps => ps.foldl (fun acc q => grpFold2 g acc q.2) p.2

/-- The node whose inputs come to a port: its member's, or its tree entry's host (R291). -/
def portNode (g : Group) (e port : Nat) : Nat :=
  match (g.members.filter fun m => m.leaf == e)[port]? with
  | some m => m.node
  | none =>
    (((g.tree.filter fun t => t.parent == e)[port - grpLeaves g e]?).map TreeEntry.host).getD Config.node

/-- Another node that is dead sends nothing that counts (R300). -/
def silent (s : State) (g : Group) (node : Nat) : Bool := decide (node ≠ Config.node) && nodeDead s g.part node

/-- Every member slot of the group. -/
def grpFull (g : Group) : BitVec 4096 := (List.range g.members.length).foldl (fun m k => m ||| (1#4096 <<< k)) 0

/-! ## Instances at a tree node -/

/-- The instance of a tree node that no input has reached. -/
def TreeInst.fresh (s : State) (key e n : Nat) : TreeInst :=
  { group := key, entry := e, n := n, inputs := [], started := s.tick, fwd := none, last := 0, first := false, ended := false
    closed := false, late := false, malformed := false }

/-- Two instances are the same. -/
def TreeInst.is (t : TreeInst) (key e n : Nat) : Bool := t.group == key && t.entry == e && t.n == n

/-- An instance, if the block holds one. -/
def State.inst (s : State) (key e n : Nat) : Option TreeInst := s.insts.find? fun t => t.is key e n

/-- An instance stored. -/
def State.setInst (s : State) (t : TreeInst) : State :=
  if s.insts.any (fun u => u.is t.group t.entry t.n) then
    { s with insts := s.insts.map fun u => if u.is t.group t.entry t.n then t else u }
  else { s with insts := s.insts ++ [t] }

/-- In flight (R301): from its first input until the retention window has passed after its last forward. -/
def TreeInst.inFlight (t : TreeInst) : Bool := decide (t.inputs ≠ []) && !t.closed

/-- Room for an instance at a tree node (R301): it is there already, or fewer than 8 are in flight. -/
def instRoom (s : State) (key e n : Nat) : Bool :=
  (match s.inst key e n with
    | some t => t.inFlight || t.closed
    | none => false)
  || decide ((s.insts.countP fun t => t.group == key && t.entry == e && t.inFlight) < 8)

/-! ## Deliveries of the root (R296) -/

/-- A result goes to every member slot (R296); a drop notice marks the next delivery only. -/
def deliver (s : State) (g : Group) (t : TreeInst) (k : WKind) : State :=
  let f := grpFold g t.inputs
  let d : WDelivery := { kind := k, elems := f.elems, bitmap := f.bitmap, late := t.late, malformed := t.malformed }
  let u := { t with late := false, first := t.first || decide (k = .partialRes), ended := t.ended || decide (k ≠ .partialRes) }
  (List.range g.members.length).foldl (fun v slot =>
    match g.members[slot]? with
    | some m => sendFabric v m.node (.deliver t.group slot t.n d)
    | none => v) (s.setInst u)

/-- What the root does when it forwards, and on each substitute (R296, R299). -/
def rootForward (s : State) (g : Group) (t : TreeInst) (again : Bool) : State :=
  let f := grpFold g t.inputs
  if t.ended then s.setInst t
  else if f.bitmap = grpFull g then deliver s g t .final
  else if !again && !f.det then deliver s g t .partialRes
  else s.setInst t

/-- FOLD_FORWARD and SUBSTITUTE: the node sends its fold to its parent, or the root delivers (R293, R295). -/
def forwardFold (s : State) (g : Group) (t : TreeInst) : State :=
  let again := t.fwd.isSome
  let u := { t with fwd := some (t.fwd.getD s.tick), last := s.tick }
  if t.entry = 0 then rootForward s g u again
  else
    let p := (grpEntry g t.entry).parent
    sendFabric (s.setInst u) (grpEntry g p).host (.winput t.group p (grpPort g t.entry) t.n (grpFold g t.inputs))

/-- The root notes a dropped or discarded input (R292, R295). -/
def noteAtRoot (s : State) (key n : Nat) (malformed : Bool) : State :=
  let t := (s.inst key 0 n).getD (TreeInst.fresh s key 0 n)
  s.setInst (if malformed then { t with malformed := true } else { t with late := true })

/-- A notice to the root, wherever it is hosted. -/
def tellRoot (s : State) (g : Group) (key n : Nat) (malformed : Bool) : State :=
  if (grpEntry g 0).host = Config.node then noteAtRoot s key n malformed
  else sendFabric s (grpEntry g 0).host (if malformed then .malformed key n else .drop key n)

/-! ## Inputs (R292, R293, R295) -/

/-- The window after a forward has passed (R295). -/
def TreeInst.tooLate (t : TreeInst) (now window : Nat) : Bool := t.closed || match t.fwd with
  | some f => decide (f + window ≤ now)
  | none => false

/-- An input reaches a port of a tree node (R292, R293, R295). -/
def takeInput (s : State) (g : Group) (key e port n : Nat) (x : WInput) : State :=
  let t := (s.inst key e n).getD (TreeInst.fresh s key e n)
  let mismatch := match t.inputs with
    | p :: _ => decide (p.2.elems.length ≠ x.elems.length)
    | [] => false
  if t.tooLate s.tick (grpWindow g e) then tellRoot s g key n false
  else if mismatch then tellRoot s g key n true
  else
    let u := { t with inputs := tabSet t.inputs port x, started := if t.inputs = [] then s.tick else t.started }
    if u.fwd.isSome ∨ u.inputs.length = (grpEntry g e).children then forwardFold s g u else s.setInst u

/-- A message leaves the block's queue. -/
def dropMsg (s : State) (k : Nat) : State := { s with inq := s.inq.eraseIdx k }

/-- An earlier message comes to the same port, or to the same slot's buffer, for the same instance: what one block sends another about
these arrives in the order sent. -/
def overtakes (s : State) (k : Nat) (same : FabMsg → Bool) : Bool := (s.inq.take k).any same

/-- WHISTLE_INPUT: the k-th message is an input of a tree node of this block, and the node has room for its instance (R301); one from a
dead node is not taken (R300). -/
def execWhistleInput (k : Nat) (s : State) : Res :=
  .next (match s.inq[k]? with
    | some (.winput key e port n x) =>
      match s.groupOf key with
      | none => dropMsg s k
      | some g =>
        if silent s g (portNode g e port) then dropMsg s k
        else if instRoom s key e n && !overtakes s k (fun m => match m with
            | .winput a b c d _ => decide (a = key ∧ b = e ∧ c = port ∧ d = n)
            | _ => false) then takeInput (dropMsg s k) g key e port n x
        else s
    | _ => s)

/-- INSTANCE_ACCEPT: the oldest waiting input of a tree node for which there is room is accepted (R301). -/
def execInstanceAccept (g e : Nat) (s : State) : Res :=
  let waits (m : FabMsg) : Bool := match m with
    | .winput key f _ n _ => key == g && f == e && instRoom s key f n
    | _ => false
  match s.inq.findIdx? waits with
  | some k => execWhistleInput k s
  | none => .next s

/-- WHISTLE_BLOW: the budget has passed since the first input, and the node forwards what it holds (R293); an infinite budget
and an input with det never blow (R290, R299). -/
def execWhistleBlow (g e n : Nat) (s : State) : Res :=
  .next (match s.groupOf g, s.inst g e n with
    | some gr, some t =>
      if t.inFlight && t.fwd.isNone && !(grpFold gr t.inputs).det && decide (grpBudget gr e ≠ 0xFFFFFFFF)
          && decide (t.started + grpBudget gr e ≤ s.tick) then forwardFold s gr t else s
    | _, _ => s)

/-- RETENTION_EXPIRY: at the root, an instance whose partial has been delivered ends lost when the window has passed (R296); the
node keeps nothing of an instance once the window has passed after its last forward (R295, R301). -/
def execRetentionExpiry (g e n : Nat) (s : State) : Res :=
  .next (match s.groupOf g, s.inst g e n with
    | some gr, some t =>
      match t.fwd with
      | none => s
      | some f =>
        let s1 := if e = 0 ∧ t.first ∧ !t.ended ∧ f + grpWindow gr e ≤ s.tick then deliver s gr t .lost else s
        let t1 := (s1.inst g e n).getD t
        if t.last + grpWindow gr e ≤ s.tick then s1.setInst { t1 with closed := true, inputs := [] } else s1
    | _, _ => s)

/-- DROP_NOTICE: the k-th message tells the root of a late or a discarded input (R292, R295). -/
def execDropNotice (k : Nat) (s : State) : Res :=
  .next (match s.inq[k]? with
    | some (.drop key n) => noteAtRoot (dropMsg s k) key n false
    | some (.malformed key n) => noteAtRoot (dropMsg s k) key n true
    | _ => s)

/-! ## Deliveries at a member's block (R298) -/

/-- A delivery reaches a member's block: it is written into the buffer as far as it can be, or kept until the `wred` comes (R298). -/
def takeDelivery (s : State) (g : Group) (key slot n : Nat) (d : WDelivery) : State :=
  let ends := decide (d.kind ≠ .partialRes)
  let q := (s.slots.find? fun q => q.is key slot n).getD (SlotInst.fresh key slot n)
  let r : SlotInst := { q with ended := if ends then some s.tick else q.ended, kept := q.kept ++ [d] }
  deliverSlot g slot n 16 { s with slots := (s.slots.filter fun p => !p.is key slot n) ++ [r] }

/-- DELIVERY: the k-th message is a delivery (R298); none comes from a root whose host is dead (R300). -/
def execDelivery (k : Nat) (s : State) : Res :=
  .next (match s.inq[k]? with
    | some (.deliver key slot n d) =>
      match s.groupOf key with
      | some g =>
        if silent s g (grpEntry g 0).host then dropMsg s k
        else if overtakes s k (fun m => match m with
            | .deliver a b c _ => decide (a = key ∧ b = slot ∧ c = n)
            | _ => false) then s
        else takeDelivery (dropMsg s k) g key slot n d
      | none => dropMsg s k
    | _ => s)

/-- The deliveries that blocks keep for buffers named to them go on, as time passes (R298, R217, R224). -/
def pumpDeliveries (s : State) : State :=
  s.slots.foldl (fun t q =>
    if q.kept = [] ∨ q.buf.isNone then t
    else match t.groupOf q.group with
      | some g => deliverSlot g q.slot q.n 16 t
      | none => t) s

/-- DELIVERY_KEEP_EXPIRY: the root's retention window has passed after final or lost, and the block keeps nothing of the instance
(R298). -/
def execDeliveryKeepExpiry (g sl n : Nat) (s : State) : Res :=
  .next (match s.groupOf g, s.slots.find? (fun q => q.is g sl n) with
    | some gr, some q =>
      match q.ended with
      | some t =>
        if t + grpWindow gr 0 ≤ s.tick ∧ (q.kept = [] ∨ q.buf = none) then
          { s with slots := s.slots.map fun p => if p.is g sl n then { p with kept := [], buf := none } else p }
        else s
      | none => s
    | _, _ => s)

/-! ## The end of a group (R289, R296) -/

/-- A whistle message of a group. -/
def msgOf (key : Nat) : FabMsg → Bool
  | .winput g _ _ _ _ => g == key
  | .drop g _ => g == key
  | .malformed g _ => g == key
  | .deliver g _ _ _ => g == key
  | _ => false

/-- Every delivery of a group that has arrived is taken, and written as far as it can be. -/
def flushDeliveries (s : State) (g : Group) (key : Nat) : State :=
  let isIts (m : FabMsg) : Bool := match m with
    | .deliver k _ _ _ => k == key
    | _ => false
  (s.inq.filter isIts).foldl (fun t m => match m with
    | .deliver _ slot n d => takeDelivery t g key slot n d
    | _ => t) { s with inq := s.inq.filter fun m => !isIts m }

/-- Instances of a group that this block knows to be in flight: at a tree node, or by an accepted `wred`. -/
def liveInstances (s : State) (key : Nat) : List Nat :=
  let a := (s.insts.filter fun t => t.group == key && t.inFlight).map TreeInst.n
  let b := (s.slots.filter fun q => q.group == key && q.ended.isNone).map SlotInst.n
  (a ++ b).eraseDups

/-- No `wred` of the group is between its instance number and its contribution. -/
def wredsQuiet (s : State) (key : Nat) : Bool :=
  s.hands.all fun h => decide (h.2.st = .frozen ∨ h.2.st = .off) || h.2.rq.all fun e =>
    decide (e.kind ≠ .wred ∨ e.stages = 0 ∨ e.mode = 1 ∨ groupKey h.2.part (fld e.sb 15 0) ≠ key)

/-- The instances in flight end lost, delivered by a root hosted here (R296). -/
def loseAll (s : State) (g : Group) (key : Nat) (ns : List Nat) : State :=
  if (grpEntry g 0).host ≠ Config.node then s
  else ns.foldl (fun t n =>
    let r := (t.inst key 0 n).getD (TreeInst.fresh t key 0 n)
    if r.ended then t else deliver t g r .lost) s

/-- Every buffer of the group that a block knows has its last delivery, or none comes since the root's host is dead (R296, R300). -/
def slotsDone (s : State) (g : Group) (key : Nat) : Bool :=
  s.slots.all fun q => decide (q.group ≠ key) || q.buf.isNone || (decide (q.kept = []) && (q.ended.isSome || silent s g (grpEntry g 0).host))

/-- Nothing of a group stays at this block (R289). -/
def removeGroup (s : State) (key : Nat) : State :=
  { s with
    groups := s.groups.filter fun h => groupKey h.part h.id != key
    barred := s.barred.filter (· != key)
    insts := s.insts.filter fun u => u.group != key
    slots := s.slots.filter fun q => q.group != key
    inq := s.inq.filter fun m => !msgOf key m
    counters := s.counters.filter fun c => c.1 / 4096 != key }

/-- A group takes no more contributions here. -/
def barGroup (s : State) (key : Nat) : State := if s.barred.contains key then s else { s with barred := s.barred ++ [key] }

/-- A group's end at this block: the deliveries that have arrived are written, and then nothing of it stays; the second part says
whether it has come to that (R289, R296). -/
def dropGroup (s : State) (g : Group) : State × Bool :=
  let key := groupKey g.part g.id
  let t := flushDeliveries s g key
  if slotsDone t g key then (removeGroup t key, true) else (t, false)

end Sys2Proof.Machine
end

