-- ==== Sys2Proof/Machine/Xmss.lean ====
section
/-!
DEFINITION. The signature of an attestation (R345): XMSS-SHAKE256_20_256 of NIST SP 800-208, that is the XMSS of RFC 8391 with n = 32,
w = 16 and a tree of height 20, its functions made of SHAKE256.  The standard's construction is from outside the spec's files (log 17,
PRESUMED); the device's key is a free value.
-/

namespace Sys2Proof.Machine

/-! ## Hash functions and addresses -/

/-- The n bytes of a number, the most significant first. -/
def beBytes (n v : Nat) : List Byte := (leBytes n v).reverse

/-- 32 bytes of a free value. -/
def keyBytes (k : List Byte) : List Byte := (List.range 32).map fun i => k.getD i 0

/-- The keyed hash number `i` of the standard: F (0), H (1), H_msg (2) and PRF (3). -/
def xmssHash (i : Nat) (key m : List Byte) : List Byte := shake256 (beBytes 32 i ++ key ++ m)

/-- A hash function address of type `t` in the one layer of the tree: its last four words. -/
def xmssAddress (t a b c d : Nat) : List Byte := beBytes 4 0 ++ beBytes 8 0 ++ beBytes 4 t ++ beBytes 4 a ++ beBytes 4 b ++ beBytes 4 c ++ beBytes 4 d

/-- A pseudorandom value of the public seed at an address. -/
def seedAt (address : List Byte) : List Byte := xmssHash 3 (keyBytes Config.xmssSeed) address

/-- Two byte strings, added bit by bit. -/
def xorBytes (a b : List Byte) : List Byte := (a.zip b).map fun p => p.1 ^^^ p.2

/-- The randomized hash of two nodes; `address` gives the address for a key or mask number. -/
def nodeHash (address : Nat → List Byte) (l r : List Byte) : List Byte :=
  xmssHash 1 (seedAt (address 0)) (xorBytes l (seedAt (address 1)) ++ xorBytes r (seedAt (address 2)))

/-! ## One-time signatures -/

/-- `steps` steps of chain `c` of one-time key `i` from place `at_` on. -/
def xmssChain (i c : Nat) : Nat → Nat → List Byte → List Byte
  | 0, _, x => x
  | steps + 1, at_, x =>
    xmssChain i c steps (at_ + 1)
      (xmssHash 0 (seedAt (xmssAddress 0 i c at_ 0)) (xorBytes x (seedAt (xmssAddress 0 i c at_ 1))))

/-- The secret start of chain `c` of one-time key `i`. -/
def xmssStart (i c : Nat) : List Byte := keyBytes (Config.xmssSecret i c)

/-- The 64 digits in base 16 of a digest, the higher of each byte first, and the three of their checksum. -/
def xmssDigits (m : List Byte) : List Nat :=
  let ds := m.flatMap fun b => [b.toNat / 16, b.toNat % 16]
  let sum := (ds.map fun d => 15 - d).sum
  ds ++ [sum / 256 % 16, sum / 16 % 16, sum % 16]

/-- The one-time signature of a digest. -/
def oneTime (i : Nat) (m : List Byte) : List Byte := ((xmssDigits m).zipIdx.map fun d => xmssChain i d.2 d.1 0 (xmssStart i d.2)).flatten

/-! ## The tree -/

/-- Level `h` of the tree that compresses a one-time public key. -/
def keyTree (i : Nat) : Nat → Nat → List (List Byte) → List Byte
  | 0, _, ns => ns.headD []
  | fuel + 1, h, ns =>
    if ns.length ≤ 1 then ns.headD []
    else keyTree i fuel (h + 1) ((List.range ((ns.length + 1) / 2)).map fun j =>
      if 2 * j + 1 < ns.length then nodeHash (xmssAddress 1 i h j) (ns.getD (2 * j) []) (ns.getD (2 * j + 1) []) else ns.getD (2 * j) [])

/-- Node `i` of level `h` of the tree. -/
def xmssNode : Nat → Nat → List Byte
  | 0, i => keyTree i 7 0 ((List.range 67).map fun c => xmssChain i c 15 0 (xmssStart i c))
  | h + 1, i => nodeHash (xmssAddress 2 0 h i) (xmssNode h (2 * i)) (xmssNode h (2 * i + 1))

/-- The other node below the parent of node `i`. -/
def sibling (i : Nat) : Nat := if i % 2 = 0 then i + 1 else i - 1

/-- The signature of a message with one-time index `i`, 2,820 bytes: the index, the randomizer, the one-time signature and the path. -/
def xmssSign (i : Nat) (m : List Byte) : List Byte :=
  let r := xmssHash 3 (keyBytes Config.xmssPrf) (beBytes 32 i)
  let digest := xmssHash 2 (r ++ xmssNode 20 0 ++ beBytes 32 i) m
  beBytes 4 i ++ r ++ oneTime i digest ++ (List.range 20).flatMap fun j => xmssNode j (sibling (i / 2 ^ j))

end Sys2Proof.Machine
end

