-- ==== Sys2Proof/Machine/Calls.lean ====
section
/-!
DEFINITION. The calls that a partition supervisor makes to the steward by `ecall` from supervisor mode: domain invalidation (R221,
R222), whistle groups (R289, R290, R359) and attestation (R345, R346).  The steward's firmware is not modelled; the call is served
while the reeve stands at its machine-mode handler, and returns after the `ecall` (log 15).
-/

namespace Sys2Proof.Machine

/-! ## A call and its return -/

/-- The reeve of core `c` has trapped into machine mode by an `ecall` from supervisor mode with a7 = `n`. -/
def calls (s : State) (c n : Nat) : Bool :=
  let r := s.reeve c
  decide (r.mode = .m) && decide (r.csrOf 0x342 = 9) && decide (r.rd 17 = nat64 n) && decide (fld (r.csrOf 0x300) 12 11 = 1)
    && !r.frozen && !r.halted && !r.debug

/-- The call returns to supervisor mode, after the `ecall`, with a0 and, for an invalidation, a1. -/
def callReturn (s : State) (c : Nat) (a0 : Nat) (a1 : Option Nat) : State :=
  let r := (s.reeve c).setCsr 0x341 ((s.reeve c).csrOf 0x341 + 4)
  let x := r.wr 10 (nat64 a0)
  let y := match a1 with
    | some n => x.wr 11 (nat64 n)
    | none => x
  rvMret { s.setReeve c y with curReeve := c, calls := s.calls.filter (fun k => k.core != c), reads := tabDel s.reads c }

/-- Argument register a`i` of a call. -/
def callArg (s : State) (c i : Nat) : Word := (s.reeve c).rd (BitVec.ofNat 5 (10 + i))

/-- The call of core `c` that the steward is serving. -/
def callOf (s : State) (c : Nat) : Option Call := s.calls.find? fun k => k.core == c

/-- The members of a partition other than this device that are not dead. -/
def liveMembers (s : State) (p : Nat) : List Nat := (List.range (Config.maxNode + 1)).filter fun n => decide (n ≠ Config.node) && !nodeDead s p n

/-- A node is marked dead on this device (R221, R308): `PDEAD`, a report and a black-box entry. -/
def noteDead (p : Nat) (s : State) (node : Nat) : State :=
  let x := s.part p
  ((s.setPart p { x with pdead := x.pdead ||| (1#2304 <<< node) }).report (.memberDead p node)).boxWrite 0x06 0 p 0 node

/-- Marks a node dead on this device, and through the stewards on every other live member (R308). -/
def markDead (p : Nat) (s : State) (node : Nat) : State :=
  let t := noteDead p s node
  (liveMembers t p).foldl (fun u n => sendFabric u n (.memberDead p node)) t

/-- A new call, which asks the nodes `ns`. -/
def newCall (s : State) (c p : Nat) (k : CallKind) (ns : List Nat) : Call :=
  { core := c, part := p, tag := s.nextTag, kind := k, waiting := ns, sent := s.tick, dead := 0, code := 0, round := 0, insts := [] }

/-- A call begins: the nodes `ns` are asked `m`, made from the call's number. -/
def startCall (s : State) (k : Call) (ns : List Nat) (m : Nat → FabMsg) : State :=
  let t := ns.foldl (fun u n => sendFabric u n (m k.tag)) s
  { t with calls := t.calls ++ [k], nextTag := t.nextTag + 1 }

/-- The machine with a call changed. -/
def setCall (s : State) (k : Call) : State := { s with calls := s.calls.map fun q => if q.core == k.core then k else q }

/-! ## Domain invalidation (R221, R222) -/

/-- A translation that an invalidation removes; 0 pages means all. -/
def removed (first pages : Nat) (l : Nat × Leaf) : Bool := decide (pages = 0) || leafHit first pages l

/-- The translations of partition `p` that match leave every hand TLB and every reeve TLB of this device (R221). -/
def removeTranslations (s : State) (p first pages : Nat) : State :=
  { s with
    cores := s.cores.map fun c => (c.1, { c.2 with
      htlb := c.2.htlb.filter fun l => !(decide (l.1 / 2 ^ 36 = p) && removed first pages l) })
    reeves := s.reeves.map fun r =>
      if r.2.part = p then (r.1, { r.2 with tlb := r.2.tlb.filter fun l => !removed first pages l }) else r }

/-- No access of partition `p` that was translated before is still to perform (R222): no request of an agent or a unit of the partition
is outstanding, and no hand has a store, an element or a chunk under way.  The buffered stores of a frozen hand do not perform any
more. -/
def translationsQuiet (s : State) (p : Nat) : Bool :=
  (s.hands.all fun h => decide (h.2.part ≠ p ∨ h.2.st = .frozen)
    || (h.2.storesDone && !h.2.underWay && h.2.copies.all fun c => decide (c.2.flight = [])))
  && (s.reeves.all fun r => decide (r.2.part ≠ p) || (r.2.out.isNone && r.2.storesDone))
  && !s.outs.any fun o => o.part == p

/-- The call returns when every live member has acknowledged (R221) and every old access has performed (R222). -/
def finishInvalidate (s : State) (c : Nat) : State :=
  match callOf s c with
  | some k =>
    match k.kind with
    | .invalidate _ _ =>
      if k.waiting = [] ∧ translationsQuiet s k.part then callReturn s c (if k.dead = 0 then 0 else 2) (some k.dead) else s
    | _ => s
  | none => s

/-- The invalidation begins: this device's translations go, and the other members are asked (R221).  An a0 at or above 2^48, or pages that
run past it, are no bad argument: no translation stands there (log 15, DESIGN CHOICE). -/
def startInvalidate (s : State) (c : Nat) : State :=
  let p := (s.reeve c).part
  let a0 := callArg s c 0
  let a1 := callArg s c 1
  if a0.toNat % 4096 ≠ 0 ∨ callArg s c 2 ≠ 0 then callReturn s c 1 (some 0)
  else
    let first := a0.toNat / 4096
    let k := newCall s c p (.invalidate first a1.toNat) (liveMembers s p)
    startCall (removeTranslations s p first a1.toNat) k k.waiting fun n => .invalidate Config.node n p first a1.toNat

/-- DOMAIN_INVALIDATE (R221). -/
def execDomainInvalidate (c : Nat) (s : State) : Res :=
  forUnit c Config.numCores <| .next <|
    if !calls s c 0x100 then s
    else if (callOf s c).isSome then finishInvalidate s c
    else finishInvalidate (startInvalidate s c) c

/-- INVALIDATE_ACK_TIMEOUT: members that have not acknowledged within the remote timeout are marked dead and not waited for
(R221). -/
def execInvalidateAckTimeout (c : Nat) (s : State) : Res :=
  forUnit c Config.numCores <| .next <|
    match callOf s c with
    | some k =>
      let limit := if (s.part k.part).prto = 0 then Config.remoteTicks else (s.part k.part).prto
      match k.kind with
      | .invalidate _ _ =>
        if k.waiting = [] ∨ s.tick - k.sent < limit then s
        else
          let t := k.waiting.foldl (markDead k.part) s
          finishInvalidate (setCall t { k with waiting := [], dead := k.dead + k.waiting.length }) c
      | _ => s
    | none => s

/-! ## Group descriptors (R16, R289, R290) -/

/-- What the steward has read for the call of core `c`. -/
def areasOf (s : State) (c : Nat) : StewardRead := tabGet { got := [], want := none, heldAt := none } s.reads c

/-- The machine with what the steward has read for a call. -/
def setAreas (s : State) (c : Nat) (x : StewardRead) : State := { s with reads := tabSet s.reads c x }

/-- Bytes of partition `p` that the steward reads for the call of core `c`; an error is none where they cannot be read, and otherwise the
address and length of what another node or the host is to be asked for first, or of what a migrating page holds. -/
def readArea (s : State) (c p : Nat) (addr : Word) (n : Nat) : Except (Option (Word × Nat)) (List Byte) :=
  match locateIn s p addr n .load with
  | .fault _ _ _ => .error none
  | r =>
    match (areasOf s c).got.find? fun g => g.1 == addr && g.2.1 == n with
    | some (_, _, some bs) => .ok bs
    | some (_, _, none) => .error none
    | none => match r with
      | .ok locs =>
        if (wordHere s locs).isNone then .error (some (addr, n))
        else if locs.any (poisonedLoc s) then .error none else .ok (locs.map (readLoc s))
      | _ => .error (some (addr, n))

/-- The number by which replies name the steward's reads for the call of core `c`. -/
def areaWaiter (c : Nat) : Waiter := .placer (2 ^ 34 + c)

/-- The steward's read of `n` bytes has ended or waits. -/
def areaRead (c : Nat) (addr : Word) (n : Nat) (r : State × Gather) : State :=
  let x := areasOf r.1 c
  setAreas r.1 c (match r.2 with
    | .done bs => { got := x.got ++ [(addr, n, some bs)], want := none, heldAt := none }
    | .wait w => { x with want := some (addr, n, w) }
    | _ => { got := x.got ++ [(addr, n, none)], want := none, heldAt := none })

/-- The steward asks another node or the host for bytes; a page that migrates holds the read, for its limit (R217). -/
def fetchArea (s : State) (c p : Nat) (addr : Word) (n : Nat) : State :=
  let x := areasOf s c
  if x.want.isSome then s
  else match locateIn s p addr n .load with
    | .ok locs => areaRead c addr n (gather (areaWaiter c) (.other p) .read readLoc addr (n + 1) s locs [])
    | .hold _ =>
      if holdExpired s x.heldAt then setAreas s c { got := x.got ++ [(addr, n, none)], want := none, heldAt := none }
      else setAreas s c { x with heldAt := some (x.heldAt.getD s.tick) }
    | .fault _ _ _ => s

/-- The reply to a read of the steward (R305, R212); one that failed leaves bytes that cannot be read. -/
def areaReply (s : State) (c : Nat) (ok : Bool) (bytes : List Byte) : State :=
  match (areasOf s c).want with
  | none => s
  | some (addr, n, w) =>
    if ok then areaRead c addr n (gatherOn (areaWaiter c) (.other (s.reeve c).part) .read readLoc addr s w bytes)
    else areaRead c addr n (s, .poison)

/-- Doublewords of a partition's memory. -/
def readDwords (s : State) (c p : Nat) (addr : Word) (n : Nat) : Except (Option (Word × Nat)) (List Word) :=
  (readArea s c p addr (8 * n)).map fun bs => (List.range n).map (dwordAt bs)

/-- The tree table: entries 0 to n − 1, where n grows with the indices that the entries name (R290). -/
def readTree (s : State) (c p : Nat) (addr : Word) : Nat → Nat → Except (Option (Word × Nat)) (List Word)
  | 0, n => readDwords s c p addr (2 * n)
  | fuel + 1, n =>
    match readDwords s c p addr (2 * n) with
    | .error e => .error e
    | .ok ws =>
      let parents := (List.range n).map fun i => fld (ws.getD (2 * i) 0) 47 32
      let m := parents.foldl (fun a q => if q = 0xFFFF then a else max a (q + 1)) n
      if m = n then .ok ws else readTree s c p addr fuel m

/-- A group descriptor as read: header, member table and tree table (R289). -/
def readGroup (s : State) (c p : Nat) (va : Word) : Except (Option (Word × Nat)) (List Word × List Word × List Word) :=
  match readDwords s c p va 8 with
  | .error e => .error e
  | .ok hd =>
    match readDwords s c p (va + hd.getD 5 0) (fld (hd.getD 0 0) 31 16) with
    | .error e => .error e
    | .ok ms =>
      let n := ms.foldl (fun a m => max a (fld m 31 16 + 1)) 1
      (readTree s c p (va + hd.getD 6 0) 65536 n).map fun ts => (hd, ms, ts)

/-- The group of a descriptor. -/
def groupFrom (id p : Nat) (d : List Word × List Word × List Word) : Group :=
  let w0 := d.1.getD 0 0
  { id := id, part := p, op := fld w0 1 0, type_ := fld w0 6 4, retention := fld w0 63 32
    budgets := (List.range 8).map fun i => fld (d.1.getD (1 + i / 2) 0) (32 * (i % 2) + 31) (32 * (i % 2))
    members := d.2.1.map fun m => { leaf := fld m 31 16, node := fld m 11 0 }
    tree := (List.range (d.2.2.length / 2)).map fun i =>
      let e := d.2.2.getD (2 * i) 0
      { parent := fld e 47 32, level := fld e 31 24, children := fld e 23 16, host := fld e 11 0 } }

/-- The fields that must be zero (Tables 1.12, 15.2, 15.3). -/
def groupZeros (d : List Word × List Word × List Word) : Bool :=
  let w0 := d.1.getD 0 0
  decide (fld w0 15 12 = 0) && !w0.getLsbD 7 && decide (fld w0 3 2 = 0) && decide (d.1.getD 7 0 = 0)
    && (d.2.1.all fun m => decide (fld m 63 32 = 0) && decide (fld m 15 12 = 0))
    && (List.range (d.2.2.length / 2)).all fun i =>
      let e := d.2.2.getD (2 * i) 0
      decide (fld e 63 48 = 0) && decide (fld e 15 12 = 0) && decide (d.2.2.getD (2 * i + 1) 0 = 0)

/-- A node of the partition that is not dead. -/
def nodeAlive (s : State) (p n : Nat) : Bool := !nodeDead s p n

/-- A tree entry obeys R290. -/
def entryOk (s : State) (g : Group) (levels e : Nat) : Bool :=
  let t := grpEntry g e
  let kids := grpLeaves g e + g.tree.countP fun u => u.parent == e
  nodeAlive s g.part t.host && decide (t.level < levels) && decide (t.children = kids) && decide (1 ≤ kids)
    && (if e = 0 then decide (t.parent = 0xFFFF)
        else decide (t.parent < g.tree.length) && decide (t.level < (grpEntry g t.parent).level))

/-- The descriptor obeys R290. -/
def groupGood (s : State) (g : Group) (d : List Word × List Word × List Word) : Bool :=
  let levels := fld (d.1.getD 0 0) 11 8
  groupZeros d && decide (g.op ≤ 2) && decide (g.type_ ≤ 4) && decide (1 ≤ g.members.length ∧ g.members.length ≤ 4096)
    && decide (1 ≤ levels ∧ levels ≤ 8) && decide (g.tree.length ≤ 4096)
    && ((List.range 8).all fun i => decide (i < levels) == decide (g.budgets.getD i 0 ≠ 0))
    && (g.members.all fun m => nodeAlive s g.part m.node) && (List.range g.tree.length).all (entryOk s g levels)

/-- This device hosts a tree node of the group or holds one of its member slots. -/
def groupHere (g : Group) : Bool := g.tree.any (fun t => t.host == Config.node) || g.members.any fun m => m.node == Config.node

/-- The block of this device has room for a group (R359). -/
def groupRoom (s : State) (g : Group) : Bool :=
  let gs := (s.groups ++ [g]).filter groupHere
  decide (gs.length ≤ 256)
    && decide ((gs.map fun h => h.tree.countP fun t => t.host == Config.node).sum ≤ 2048)
    && decide ((gs.map fun h => h.members.countP fun m => m.node == Config.node).sum ≤ 16384)

/-- A group is registered at this block, for the time being without contributions: its instance counters are 0 (R289, R292). -/
def registerGroup (s : State) (g : Group) : State :=
  let key := groupKey g.part g.id
  { s with groups := s.groups ++ [g], barred := s.barred ++ [key], counters := s.counters.filter fun c => c.1 / 4096 != key }

/-- A registered group takes contributions from now on. -/
def openGroup (s : State) (key : Nat) : State := { s with barred := s.barred.filter (· != key) }

/-- The nodes `ns` are asked in the next round of a call. -/
def nextRound (s : State) (k : Call) (round : Nat) (ns : List Nat) (m : FabMsg) : State :=
  ns.foldl (fun u n => sendFabric u n m) (setCall s { k with round := round, waiting := ns })

/-- A create or destroy call goes on once every live member has answered (R289).  Create: every member holds the copy, then every one opens
it; where one has no room or the id, those that took it drop it (R359).  Destroy: the members name the instances in flight, the root ends
these lost, and every member writes what has been delivered and forgets the group (R296).  The second part says whether it went on. -/
def groupRound (s : State) (c : Nat) (k : Call) : State × Bool :=
  match k.kind with
  | .invalidate _ _ => (s, false)
  | .attest => (s, false)
  | .create g =>
    let key := groupKey g.part g.id
    let drop : FabMsg := .groupDrop Config.node k.tag g.part g.id
    match k.round with
    | 0 => if k.code = 0 then (nextRound s k 1 (liveMembers s k.part) (.groupOpen Config.node k.tag g.part g.id), true)
           else (nextRound (if k.insts.contains Config.node then removeGroup s key else s) k 2
             (k.insts.filter fun n => decide (n ≠ Config.node) && nodeAlive s k.part n) drop, true)
    | 1 => (callReturn (openGroup s key) c 0 none, false)
    | _ => (callReturn s c k.code none, false)
  | .destroy g =>
    let key := groupKey g.part g.id
    let root := (grpEntry g 0).host
    match k.round with
    | 0 =>
      let ns := (k.insts ++ liveInstances s key).eraseDups
      if !wredsQuiet s key then (s, false)
      else if root = Config.node then (setCall (loseAll s g key ns) { k with round := 1 }, true)
      else (nextRound s k 1 ((liveMembers s k.part).filter (· == root)) (.groupLose Config.node k.tag g.part g.id ns), true)
    | 1 => (nextRound s k 2 (liveMembers s k.part) (.groupDrop Config.node k.tag g.part g.id), true)
    | _ =>
      let r := dropGroup s g
      (if r.2 then callReturn r.1 c 0 none else r.1, false)

/-- The rounds of a group call, as far as it can go. -/
def finishGroup (c : Nat) : Nat → State → State
  | 0, s => s
  | fuel + 1, s =>
    match callOf s c with
    | none => s
    | some k =>
      if (k.waiting.filter (nodeAlive s k.part)) ≠ [] then s
      else
        let r := groupRound s c k
        if r.2 then finishGroup c fuel r.1 else r.1

/-- The bytes of this device that the steward's reads of `n` bytes at a VA of partition `p` move. -/
def areaPlaces (s : State) (p : Nat) (addr : Word) (n : Nat) : List Loc :=
  match locateIn s p addr n .load with
  | .ok locs => locs
  | _ => []

/-- The places of a descriptor: header, member table and tree table. -/
def groupPlaces (s : State) (p : Nat) (va : Word) (d : List Word × List Word × List Word) : List Loc :=
  areaPlaces s p va 64 ++ areaPlaces s p (va + d.1.getD 5 0) (8 * d.2.1.length) ++ areaPlaces s p (va + d.1.getD 6 0) (8 * d.2.2.length)

/-- The outcome of a create call, in the order 4, 1, 2, 3 (R289); first the descriptor is read, from other nodes and the host too, and its
transfers are paid for (R223).  An a0 that is not 8-byte aligned or an a1 above 65,535 gives 1: Table 15.1 states the ranges and no outcome
outside them (log 15, DESIGN CHOICE).  Where this device has no room, the other members are asked all the same, since 2 comes before 3; the
stewards of members that host nothing of the group keep a copy too, which takes no room, so that an id is in use, or unknown, for the whole
partition (log 55, DEDUCED). -/
def startCreate (s : State) (c : Nat) : State :=
  let p := (s.reeve c).part
  let va := callArg s c 0
  let id := callArg s c 1
  match readGroup s c p va with
  | .error none => callReturn s c 4 none
  | .error (some (addr, n)) => fetchArea s c p addr n
  | .ok d =>
    let g := groupFrom id.toNat p d
    whenUnitPaid s p (groupPlaces s p va d) fun s =>
    if va.toNat % 8 ≠ 0 ∨ id.toNat ≥ 65536 ∨ !groupGood s g d then callReturn s c 1 none
    else if (s.group p id.toNat).isSome then callReturn s c 2 none
    else
      let k := newCall s c p (.create g) (liveMembers s p)
      let room := groupRoom s g
      finishGroup c 4 (startCall (if room then registerGroup s g else s)
        { k with code := if room then 0 else 3, insts := if room then [Config.node] else [] } k.waiting fun n => .groupCopy Config.node n g)

/-- GROUP_CREATE (R289). -/
def execGroupCreate (c : Nat) (s : State) : Res :=
  forUnit c Config.numCores <| .next <|
    if !calls s c 0x101 then s else if (callOf s c).isSome then finishGroup c 4 s else startCreate s c

/-- The destruction of a group begins: it takes no more contributions (R289). -/
def startDestroy (s : State) (c : Nat) : State :=
  let p := (s.reeve c).part
  let id := (callArg s c 1).toNat
  match s.openGroup p id with
  | none => callReturn s c 2 none
  | some g =>
    let k := newCall s c p (.destroy g) (liveMembers s p)
    finishGroup c 4 (startCall (barGroup s (groupKey p id)) k k.waiting fun n => .groupEnd Config.node n p id)

/-- GROUP_DESTROY (R289). -/
def execGroupDestroy (c : Nat) (s : State) : Res :=
  forUnit c Config.numCores <| .next <|
    if !calls s c 0x102 then s else if (callOf s c).isSome then finishGroup c 4 s else startDestroy s c

/-! ## Attestation (R345, R346) -/

/-- The records `first` … of a partition's manifest ring (R345) are in the ring. -/
def recordsKept (s : State) (p first n : Nat) : Bool :=
  let x := s.part p
  let lsize := (manifestRing x).2
  decide (lsize ≠ 0 ∧ lsize ≤ 16 ∧ x.next.toNat ≤ first + 2 ^ lsize ∧ first + n ≤ x.next.toNat)

/-- Their bytes. -/
def manifestRecords (s : State) (c p first n : Nat) : Except (Option (Word × Nat)) (List Byte) :=
  let (base, lsize) := manifestRing (s.part p)
  (List.range n).foldl (fun acc i =>
    match acc, readArea s c p (base + nat64 (128 * ((first + i) % 2 ^ lsize))) 128 with
    | .ok bs, .ok r => .ok (bs ++ r)
    | .error e, _ => .error e
    | _, .error e => .error e) (.ok [])

/-- The places that an attestation reads: the nonce and the records. -/
def attestPlaces (s : State) (p : Nat) (nonce : Word) (first n : Nat) : List Loc :=
  let (base, lsize) := manifestRing (s.part p)
  areaPlaces s p nonce 32 ++ (List.range n).flatMap fun i => areaPlaces s p (base + nat64 (128 * ((first + i) % 2 ^ lsize))) 128

/-- An attestation call returns once every write of its signature has performed (R345): 1 where one could not (log 17). -/
def finishAttest (s : State) (c : Nat) : State :=
  match callOf s c with
  | some k => if s.outs.any fun o => k.insts.contains o.tag then s else callReturn s c k.code none
  | none => s

/-- The signature is written, which uses one one-time index (R345, R346). -/
def writeSignature (s : State) (c p : Nat) (out : Word) (locs : List Loc) (msg : List Byte) : State :=
  let sig := (List.range 2820).map fun i => (xmssSign s.xmss msg).getD i 0
  let t := store { s with xmss := s.xmss + 1 } (.other p) out locs sig
  let tags := (t.outs.filter fun o => decide (s.nextTag ≤ o.tag)).map Outstanding.tag
  finishAttest { t with calls := t.calls ++ [{ newCall t c p .attest [] with insts := tags }] } c

/-- The outcome of an attestation call (R345): bad argument, a record gone, key exhausted, or the signature written, its transfers paid for
(R223); a page that migrates holds the write for its limit (R217). -/
def attest (s : State) (c : Nat) : State :=
  let p := (s.reeve c).part
  let first := (callArg s c 1).toNat
  let n := (callArg s c 2).toNat
  let out := callArg s c 3
  match readArea s c p (callArg s c 0) 32 with
  | .error none => callReturn s c 1 none
  | .error (some (addr, k)) => fetchArea s c p addr k
  | .ok nonce =>
    let x := areasOf s c
    match locateIn s p out 2820 .store with
    | .ok locs =>
      let gone := locs.any fun l => match l with
        | .remote node _ _ => nodeDead s p node
        | _ => false
      if n < 1 ∨ 256 < n ∨ out.toNat % 8 ≠ 0 ∨ gone then callReturn s c 1 none
      else if !recordsKept s p first n then callReturn s c 2 none
      else match manifestRecords s c p first n with
        | .error none => callReturn s c 2 none
        | .error (some (addr, k)) => fetchArea s c p addr k
        | .ok recs =>
          if 2 ^ 20 ≤ s.xmss then callReturn s c 3 none
          else
            whenUnitPaid s p (attestPlaces s p (callArg s c 0) first n ++ locs) fun t =>
              writeSignature t c p out locs (nonce ++ leBytes 8 Config.node ++ recs)
    | .hold _ =>
      if holdExpired s x.heldAt then callReturn s c 1 none else setAreas s c { x with heldAt := some (x.heldAt.getD s.tick) }
    | .fault _ _ _ => callReturn s c 1 none

/-- ATTESTATION (R345). -/
def execAttestation (c : Nat) (s : State) : Res :=
  forUnit c Config.numCores <| .next <|
    if !calls s c 0x103 then s else if (callOf s c).isSome then finishAttest s c else attest s c

/-! ## What other stewards ask of this device -/

/-- The steward of node `n` is answered. -/
def answer (s : State) (n call code : Nat) (ns : List Nat) : State := sendFabric s n (.stewardAck Config.node call code ns)

/-- Of two outcomes of a call the lower that is not 0. -/
def worse (a b : Nat) : Nat := if a = 0 then b else if b = 0 then a else min a b

/-- A node's answer reaches the call that asked for it. -/
def takeAck (s : State) (n call code : Nat) (ns : List Nat) : State :=
  match s.calls.find? fun k => k.tag == call && k.waiting.contains n with
  | none => s
  | some k =>
    let kept := match k.kind with
      | .create _ => if code = 0 then [n] else []
      | _ => ns
    let l : Call := { k with waiting := k.waiting.filter (· != n), code := worse k.code code, insts := k.insts ++ kept }
    finishGroup k.core 4 (finishInvalidate (setCall s l) k.core)

/-- A request of another steward (R221, R289, R306, R308, R359); an invalidation is acknowledged once every old access has performed. -/
def stewardRequest (s : State) (k : Nat) (m : FabMsg) : State :=
  let t := dropMsg s k
  match m with
  | .invalidate n call p first pages =>
    let u := removeTranslations s p first pages
    if translationsQuiet u p then answer (dropMsg u k) n call 0 [] else u
  | .groupCopy n call g =>
    if (s.group g.part g.id).isSome then answer t n call 2 []
    else if groupRoom t g then answer (registerGroup t g) n call 0 [] else answer t n call 3 []
  | .groupOpen n call p id => answer (openGroup t (groupKey p id)) n call 0 []
  | .groupEnd n call p id =>
    let u := barGroup s (groupKey p id)
    if wredsQuiet u (groupKey p id) then answer (dropMsg u k) n call 0 (liveInstances u (groupKey p id)) else u
  | .groupLose n call p id ns =>
    match s.group p id with
    | some g => answer (loseAll t g (groupKey p id) ns) n call 0 []
    | none => answer t n call 0 []
  | .groupDrop n call p id =>
    match s.group p id with
    | some g =>
      let r := dropGroup t g
      if r.2 then answer r.1 n call 0 [] else { r.1 with inq := r.1.inq ++ [m] }
    | none => answer t n call 0 []
  | .stewardAck n call code ns => takeAck t n call code ns
  | .memberDead p n => if (s.part p).pdead.getLsbD n then t else noteDead p t n
  | .refusal n p => t.report (.remoteWindow p n)
  | _ => s

end Sys2Proof.Machine
end

