-- ==== Sys2Proof/Machine/Fabric.lean ====
section
/-!
DEFINITION. The L2 ports, the base dies, the fabric and the completions of the host port: token refill and grants (R223, R224), the
packet protocol of a base die (R225, R226), requests of other nodes under the remote windows (R304 to R306), and the replies,
completions and timeouts that end an access which left its core (R305, R308, R212).
-/

namespace Sys2Proof.Machine

/-! ## Token buckets (R223, R224, R352) -/

/-- The reduction of a port by its derate factor, and the tokens of one tick that its buckets cannot hold. -/
def Port.reduction (q : Port) : Nat × Nat :=
  (q.buckets.foldl (fun n b => n + b.2.rate) 0 * q.derate / 256,
    q.buckets.foldl (fun n b => n + (b.2.tokens + b.2.rate - b.2.depth * 256)) 0)

/-- One reference tick of a port (R223): a derate first withholds the commons inflow and then scales every rate (R352). -/
def Port.refill (q : Port) : Port :=
  let sum := q.buckets.foldl (fun n b => n + b.2.rate) 0
  let (cut, spill) := q.reduction
  let scaled (r : Nat) : Nat := if cut ≤ spill then r else r * (sum - (cut - spill)) / sum
  let fill (b : Bucket) : Bucket := { b with tokens := min (b.tokens + scaled b.rate) (b.depth * 256) }
  { q with scaled := decide (spill < cut), buckets := q.buckets.map (fun b => (b.1, fill b.2)), level := min (q.level + (spill - cut)) (q.depth * 256) }

/-- A port scales every partition's rate in its next tick: the commons inflow does not cover the reduction (R352). -/
def Port.scales (q : Port) : Bool := decide (q.reduction.2 < q.reduction.1)

/-- TOKEN_REFILL: one reference tick of every port (R223); a port that begins to scale its rates writes event 0x0D (R352, log 41). -/
def execTokenRefill (s : State) : Res :=
  let t := { s with ports := s.ports.map fun q => (q.1, q.2.refill) }
  .next (s.ports.foldl (fun u q => if q.2.scales && !q.2.scaled then u.boxWrite 0x0D q.1 15 0 q.2.derate else u) t)

/-- CONSUMED_RESET: every consumed count restarts at a multiple of 65,536 reference ticks (R224). -/
def execConsumedReset (s : State) : Res :=
  .next (if s.tick / 65536 ≤ s.consumedAt then s
    else { s with
      consumedAt := s.tick / 65536
      ports := s.ports.map fun q => (q.1, { q.2 with buckets := q.2.buckets.map fun b => (b.1, { b.2 with used := 0 }) }) })

/-- Partition `a` borrows before partition `b` (R224): the lower consumed ÷ rate, rate 0 last, ties to the lower number. -/
def Port.ranks (q : Port) (a b : Nat) : Bool :=
  let x := q.bucket a
  let y := q.bucket b
  if x.rate = 0 then decide (y.rate = 0 ∧ a < b)
  else decide (y.rate = 0 ∨ x.used * y.rate < y.used * x.rate ∨ (x.used * y.rate = y.used * x.rate ∧ a < b))

/-- The partition that borrows first among those that wait. -/
def Port.borrower (q : Port) : Option Nat :=
  (q.wait.filter fun p => (q.bucket p).borrow).foldl (fun best p => match best with
    | none => some p
    | some b => if q.ranks p b then some p else some b) none

/-- The next token that a port can grant to a partition whose transfers wait (R224): it holds the token until its transfers move, and
waits again if that is not enough. -/
def Port.grant (q : Port) : Port :=
  match q.wait.find? fun p => decide (256 ≤ (q.bucket p).tokens) with
  | some p => { q.takeOwn p with wait := q.wait.erase p }
  | none =>
    match q.borrower with
    | some p => if q.lends then { q.takeCommon p with wait := q.wait.erase p } else q
    | none => q

/-- TOKEN_GRANT at port p (R224). -/
def execTokenGrant (p : Nat) (s : State) : Res :=
  forUnit p Config.slices (.next (if (s.port p).wait = [] then s else { s with ports := tabSet s.ports p (s.port p).grant }))

/-- DERATE: port p gets the derate factor d ÷ 256, which it applies from its next tick on (R352). -/
def execDerate (p d : Nat) (s : State) : Res :=
  forUnit p Config.slices (.next { s with ports := tabSet s.ports p { s.port p with derate := d % 256, scaled := false } })

/-! ## Ends of accesses that left their core -/

/-- An access is no longer outstanding. -/
def takeOut (s : State) (t : Nat) : State := { s with outs := s.outs.filter fun o => o.tag != t }

/-- The access stream of a hand still waits for this access. -/
def accHas (s : State) (h t : Nat) : Bool := match (s.hand h).acc with
  | some o => o.tag == t
  | none => false

/-- The reeve still waits for this access. -/
def outHas (s : State) (c t : Nat) : Bool := match (s.reeve c).out with
  | some o => o.tag == t
  | none => false

/-- A write of a hand is acknowledged, or will never be. -/
def forgetWrite (s : State) (h t : Nat) : State :=
  let x := s.hand h
  s.setHand h { x with
    unacked := x.unacked.filter (· != t), dieWrites := x.dieWrites.filter (· != t)
    vunacked := x.vunacked.filter (· != t), vdieWrites := x.vdieWrites.filter (· != t) }

/-- A write of a reeve is acknowledged, or will never be. -/
def forgetReeveWrite (s : State) (c t : Nat) : State :=
  let r := s.reeve c
  s.setReeve c { r with unacked := r.unacked.filter (· != t), dieWrites := r.dieWrites.filter (· != t) }

/-- A request of the placer or of the steward has come back. -/
def placerReply (s : State) (n : Nat) (bytes : List Byte) : State :=
  if n < 64 then slotRead s n bytes
  else if n < 128 then childRead s (n - 64) bytes
  else if hostReader ≤ n then { s with hostRead := some (nat64 (leValue bytes)) }
  else if 2 ^ 35 ≤ n then recordAnswered s (n - 2 ^ 35) true
  else if 2 ^ 34 ≤ n then areaReply s (n - 2 ^ 34) true bytes
  else if 2 ^ 33 ≤ n then (match s.farm (n - 2 ^ 33) with
    | none => s
    | some f => recordReply s f true bytes)
  else match s.farm (n - 128) with
    | none => s
    | some f => if f.reading then doneRead s f bytes else closeFarm s f

/-- A request of the placer or of the steward has failed: a slot that cannot be read makes its packet bad (R30), a child packet is dropped
(log 28), a write of done is not retried (R41), a host read completes with Unsupported Request (R310). -/
def placerFail (s : State) (n : Nat) : State :=
  if n < 64 then skipBad s n 9
  else if n < 128 then s.setPart (n - 64) { s.part (n - 64) with chead := (s.part (n - 64)).chead + 1, ccount := (s.part (n - 64)).ccount - 1 }
  else if hostReader ≤ n then { s with hostRead := none, aer := s.aer + 1 }
  else if 2 ^ 35 ≤ n then recordAnswered s (n - 2 ^ 35) false
  else if 2 ^ 34 ≤ n then areaReply s (n - 2 ^ 34) false []
  else if 2 ^ 33 ≤ n then (match s.farm (n - 2 ^ 33) with
    | none => s
    | some f => recordReply s f false [])
  else match s.farm (n - 128) with
    | none => s
    | some f =>
      let t := s.updFarm f.id fun g => { g with doneTag := none, reading := false }
      if f.reading then doneAstray t f else doneFailed t f

/-- An access that left its core has come back with its bytes (R305, R212, R225). -/
def delivered (s : State) (o : Outstanding) (bytes : List Byte) : State :=
  let t := takeOut s o.tag
  match o.who with
  | .handAccess h => if accHas t h o.tag then engines (accessReply t h bytes) h else t
  | .handEnd h => if accHas t h o.tag then engines (accessReply t h bytes) h else t
  | .handNext h => nextReply t h o.tag bytes
  | .handEntry h => engines (entryReply t h o.tag bytes) h
  | .handCopy h => engines (copyReply t h o.tag bytes) h
  | .handStore h => leaveIfDone (engines (forgetWrite t h o.tag) h) h
  | .reeve c => if outHas t c o.tag then reeveReply t c bytes else t
  | .reeveStore c => forgetReeveWrite t c o.tag
  | .placer n => placerReply t n bytes
  | .unit _ => pumpDeliveries t

/-- A write of a signature could not be performed: the attestation gives 1 (log 17). -/
def signatureLost (s : State) (tag : Nat) : State :=
  { s with calls := s.calls.map fun k => if k.kind = .attest ∧ k.insts.contains tag then { k with code := 1 } else k }

/-- An access that left its core has failed with a sub-status of R308 (Table 15.12, R360). -/
def failed (s : State) (o : Outstanding) (sub : Nat) : State :=
  let t := takeOut s o.tag
  match o.who with
  | .handAccess h => if accHas t h o.tag then engines (accessFail t h sub) h else t
  | .handEnd h => if accHas t h o.tag then engines (accessFail t h sub) h else t
  | .handNext h => nextFail t h o.tag true
  | .handEntry h => engines (entryFail t h o.tag sub) h
  | .handCopy h => engines (copyFail t h o.tag sub) h
  | .handStore h => leaveIfDone (engines (storeLost (forgetWrite t h o.tag) (.hand h)) h) h
  | .reeve c => if outHas t c o.tag then reeveFail t c else t
  | .reeveStore c => storeLost (forgetReeveWrite t c o.tag) (.reeve c)
  | .placer n => placerFail t n
  | .unit _ => pumpDeliveries (signatureLost t o.tag)

/-- An access that left its core has come back with poisoned bytes that it uses, `bad` by their places (R226). -/
def poisoned (s : State) (o : Outstanding) (bytes : List Byte) (bad : Nat → Bool) : State :=
  let t := takeOut s o.tag
  match o.who with
  | .handAccess h => if accHas t h o.tag then engines (accessPoison t h) h else t
  | .handEnd h => if accHas t h o.tag then engines (accessPoison t h) h else t
  | .handNext h => nextFail t h o.tag false
  | .handEntry h => engines (entryPoison t h o.tag bytes bad) h
  | .handCopy h => engines (copyPoison t h o.tag) h
  | .reeve c => if outHas t c o.tag then reevePoison t c else t
  | .placer n => placerFail t n
  | _ => t

/-! ## Base dies (R225, R226) -/

/-- The tag that a request of requester `r` takes on a channel: the lowest of its eight that no reply still carries (R225). -/
def Channel.freeTag (q : Channel) (r : Nat) : Option Nat :=
  (List.range 8).find? fun t => !(q.replies.any fun y => y.requester == r && y.tag == t)

/-- Request `k` of a channel can be sent: it has a tag, and no earlier request of its requester to its granule waits. -/
def Channel.sends (q : Channel) (write : Bool) (k : Nat) : Bool :=
  match q.waiting[k]? with
  | none => false
  | some r => r.write == write && (q.freeTag r.requester).isSome
      && !((q.waiting.take k).any fun y => y.requester == r.requester && y.granule == r.granule)

/-- The bytes of a granule that a mask names. -/
def maskedPas (r : DieReq) : List Nat := (List.range 64).filter fun i => r.mask.getLsbD i

/-- Elements of `n` bytes of an access of this device's memory: their bytes' places and the values for them. -/
def elemsOf (n : Nat) (locs : List Loc) (val : List Byte) : List (List Loc × List Byte) :=
  (List.range (locs.length / n)).map fun j => ((locs.drop (j * n)).take n, (val.drop (j * n)).take n)

/-- The granules of 8 bytes that an access reserves, in order: an agent holds at most 64 (R244, R245). -/
def reserve (s : State) (agent : Nat) (locs : List Loc) : State :=
  let gs := (locs.map (granuleOf 8)).eraseDups.filter fun g => !s.resv.contains (agent, g)
  let room := 64 - s.resv.countP fun r => r.1 == agent
  { s with resv := s.resv ++ (gs.take room).map fun g => (agent, g) }

/-- Read-modify-writes at the home of their bytes, and the old values (R241, R305). -/
def homeAmo (s : State) (a : Agent) (o : AmoOp) (els : List (List Loc × List Byte)) (cmp : List Byte) : State × List Byte :=
  els.foldl (fun q e =>
    let r := amoLocal q.1 a o e.1.length e.1 (leValue e.2) (leValue cmp)
    (r.1, q.2 ++ leBytes e.1.length r.2)) (s, [])

/-- Conditional writes at the home of their bytes: an element is written where the agent's reservation stands, and one byte answers for
each of its bytes; the reservations used are dropped (R245, R246). -/
def homeCond (s : State) (a : Agent) (agent : Nat) (els : List (List Loc × List Byte)) : State × List Byte :=
  els.foldl (fun q e =>
    let key := (agent, granuleOf 8 (e.1.headD (.reg 0)))
    if q.1.resv.contains key then
      let t := store q.1 a 0 e.1 e.2
      ({ t with resv := t.resv.filter fun k => k != key }, q.2 ++ e.1.map fun _ => 1)
    else (q.1, q.2 ++ e.1.map fun _ => 0)) (s, [])

/-- The bytes of a misaligned request are events of their own (R276). -/
def DieReq.byBytes (r : DieReq) : Bool := decide (r.op = .readBytes ∨ r.op = .writeBytes)

/-- Some bytes of a misaligned request are read or written at its base die (R276); one whose half is in error ends it. -/
def diePart (s : State) (r : DieReq) : State × DieReq :=
  let now := freePart s (maskedPas r)
  let place (i : Nat) : Loc := .dram (64 * r.granule + i) true
  let rest := now.foldl (fun m i => m &&& ~~~(1#64 <<< i)) r.mask
  if r.op = .writeBytes then
    ((performWrite s (.other 0) (now.map place) (now.map fun i => r.data.getD i 0)).used, { r with mask := rest })
  else if now.any fun i => poisonedLoc s (place i) then (s, { r with mask := 0 })
  else (s.used, { r with mask := rest, data := now.foldl (fun l i => l.set i (readLoc s (place i))) r.data })

/-- A base die performs a request (R226): a read takes the granule's bytes and its poisoned halves; a write merges the masked bytes,
and a half written in part keeps its poison; a read-modify-write that finds an error leaves it, and those before it have performed (R241, log
49).  Of a misaligned access what is left is the reply.  The second part is its reply under a tag. -/
def performDie (s : State) (r : DieReq) (tag : Nat) : State × DieReply :=
  let locs := r.pas.map fun pa => Loc.dram pa true
  let els := elemsOf (if r.size = 0 then r.pas.length else r.size) locs r.val
  let halves := [2 * r.granule, 2 * r.granule + 1].filter s.poison.contains
  let y (bad : List Nat) (answer : Option (List Byte)) : DieReply :=
    { id := r.id, requester := r.requester, tag := tag, granule := r.granule, write := r.write, pas := r.pas, bad := bad, answer := answer
      data := if r.write then [] else if r.byBytes then r.data else memBytes s.mem (64 * r.granule) 64 }
  match r.op with
  | .read => (s, y halves none)
  | .readBytes => (s, y halves none)
  | .writeBytes => (s, y [] none)
  | .reserve => (reserve s r.agent locs, y halves none)
  | .write =>
    let is := maskedPas r
    (performWrite s (.other 0) (is.map fun i => .dram (64 * r.granule + i) true) (is.map fun i => r.data.getD i 0), y [] none)
  | .amo o =>
    let sound := els.takeWhile fun e => !e.1.any (poisonedLoc s)
    let q := homeAmo s (.other 0) o sound r.cmp
    (q.1, y (if sound.length = els.length then [] else halves) (some q.2))
  | .condWrite =>
    let q := homeCond s (.other 0) r.agent els
    (q.1, y [] (some q.2))

/-- The place of the request of a kind that a channel performs next: the first that it can receive, or, where that one goes byte by byte,
any that it can receive (R276). -/
def dieNext (s : State) (q : Channel) (write : Bool) : Option Nat :=
  match (List.range q.waiting.length).find? (q.sends write) with
  | none => none
  | some k =>
    let ks := (List.range q.waiting.length).filter (q.sends write)
    if (q.waiting[k]?).any DieReq.byBytes then some (ks.getD (s.freeAt 8 ks.length) k) else some k

/-- A request of a kind that a channel can receive is performed; of a misaligned one some bytes are, and it waits for the rest. -/
def dieReceive (s : State) (ch : Nat) (write : Bool) : State :=
  let q := s.chan ch
  match dieNext s q write with
  | none => s
  | some k =>
    match q.waiting[k]? with
    | none => s
    | some r =>
      let p := if r.byBytes then diePart s r else (s, r)
      if r.byBytes && decide (p.2.mask ≠ 0) then { p.1 with chans := tabSet p.1.chans ch { q with waiting := q.waiting.set k p.2 } }
      else
        let (t, y) := performDie p.1 p.2 ((q.freeTag r.requester).getD 0)
        { t with chans := tabSet t.chans ch { waiting := q.waiting.eraseIdx k, replies := q.replies ++ [y] } }

/-- READ_REQUEST at channel ch (R226); a channel in calibration receives nothing (R354). -/
def execReadRequest (ch : Nat) (s : State) : Res := forUnit ch 1024 (onlyIf (!s.calib.contains ch) s (dieReceive s ch false))

/-- WRITE_REQUEST at channel ch (R226). -/
def execWriteRequest (ch : Nat) (s : State) : Res := forUnit ch 1024 (onlyIf (!s.calib.contains ch) s (dieReceive s ch true))

/-- Reply `k` of a channel may return: replies to one requester about one granule keep their order (R226). -/
def Channel.returns (q : Channel) (k : Nat) : Option DieReply :=
  match q.replies[k]? with
  | none => none
  | some y => if (q.replies.take k).any fun z => z.requester == y.requester && z.granule == y.granule then none else some y

/-- A reply reaches its requester, and its tag is free (R225). -/
def takeReply (s : State) (ch k : Nat) (write : Bool) : State :=
  let q := s.chan ch
  match q.returns k with
  | none => s
  | some y =>
    if y.write ≠ write then s
    else
      let t := { s with chans := tabSet s.chans ch { q with replies := q.replies.eraseIdx k } }
      match t.outs.find? fun o => o.tag == y.id with
      | none => t
      | some o =>
        let bytes := y.answer.getD (y.pas.map fun pa => y.data.getD (pa % 64) 0)
        if y.pas.any fun pa => y.bad.contains (pa / 32) then
          poisoned t o bytes fun j => (y.pas[j]?).any fun pa => y.bad.contains (pa / 32)
        else delivered t o bytes

/-- READ_REPLY: reply k of channel ch (R225). -/
def execReadReply (ch k : Nat) (s : State) : Res := forUnit ch 1024 (.next (takeReply s ch k false))

/-- WRITE_REPLY: reply k of channel ch (R225). -/
def execWriteReply (ch k : Nat) (s : State) : Res := forUnit ch 1024 (.next (takeReply s ch k true))

/-! ## The fabric (R304) -/

/-- FLIT_RECEIVE at port p: a flit that fails its CRC is retransmitted; a good one brings its message (R304). -/
def execFlitReceive (p : Nat) (crc : Bool) (m : FabMsg) (s : State) : Res :=
  forUnit p 18 <|
    let n := tabGet 0 s.retries p
    .next (if crc then { s with inq := s.inq ++ [m], retries := if n = 0 then s.retries else tabSet s.retries p (n - 1) }
      else { s with retries := tabSet s.retries p (n + 1) })

/-! ## Requests of other nodes (R305, R306) -/

/-- A window entry covers every byte of a request. -/
def covers (w : Window) (r : Request) : Bool :=
  w.v && w.part == r.part && r.pas.all fun pa => decide (w.base * 4096 ≤ pa ∧ pa < (w.base + w.frames) * 4096)

/-- A window entry allows a request's operation (R306). -/
def allows (w : Window) (o : MemOp) : Bool :=
  match o with
  | .read => w.r
  | .readBytes => w.r
  | .write => w.w
  | .writeBytes => w.w
  | _ => w.r && w.w && w.a

/-- The window entries of the request's source partition that cover it. -/
def coveringKeys (s : State) (r : Request) : List Nat :=
  (s.windows.filter fun q => q.1 / 64 == r.part && covers q.2 r).map Prod.fst

/-- The reply to a request of another node. -/
def replyRemote (s : State) (r : Request) (ok poison : Bool) (data : List Byte) : State :=
  sendFabric s (r.src % 4096) (.reply r.tag ok poison data)

/-- No covering window with the permission (R306): violation 0x41, the covering windows freeze, both stewards are told, and the request is
refused. -/
def refuseRemote (s : State) (r : Request) : State :=
  let node := r.src % 4096
  let ks := coveringKeys s r
  let t := recordViolation s r.part 0x41 (.remotePort node r.part) (nat64 (r.pas.headD 0))
  let u := { t with windows := t.windows.map fun (q : Nat × Window) => if ks.contains q.1 then (q.1, { q.2 with frozen := true }) else q }
  replyRemote (sendFabric (u.report (.remoteWindow r.part node)) node (.refusal Config.node r.part)) r false false []

/-- The number under which an agent of another node holds reservations here. -/
def farAgent (r : Request) : Nat := 2 ^ 20 + r.src

/-- The bytes of a misaligned request of another node are events of their own (R276). -/
def bytewise (r : Request) : Bool := decide (r.op = .readBytes ∨ r.op = .writeBytes)

/-- Some bytes of a misaligned request of another node are read or written (R276).  Which have been stands in `cmp`, one flag a byte, and
what has been read in `val`; a request with bytes left arrives again. -/
def remotePart (s : State) (r : Request) (a : Agent) (locs : List Loc) : State :=
  let n := locs.length
  let now := freePart s ((List.range n).filter fun j => r.cmp.getD j 0 == 0)
  let cmp := (List.range n).map fun j => if now.contains j then 1 else r.cmp.getD j 0
  let again (t : State) (q : Request) (data : List Byte) : State :=
    if cmp.all (· == 1) then replyRemote t q true false data else { t with inq := .request q :: t.inq }
  if r.op = .writeBytes then
    again (store s a 0 (now.map (locAt locs)) (now.map fun j => r.val.getD j 0)).used { r with cmp := cmp } []
  else if now.any fun j => poisonedLoc s (locAt locs j) then replyRemote s r true true []
  else
    let val := (List.range n).map fun j => if now.contains j then readLoc s (locAt locs j) else r.val.getD j 0
    again s.used { r with cmp := cmp, val := val } val

/-- A request is performed at this device for its source agent, which pays for its transfers (R305, R224).  A poisoned byte ends what
performs: the reply carries what came before it (R226, R241). -/
def performRemote (s : State) (r : Request) : State :=
  let a : Agent := .remote (r.src % 4096) r.part
  let locs := r.pas.map fun pa => pageLoc Config.node pa r.nc
  let els := elemsOf (if r.size = 0 then locs.length else r.size) locs r.val
  let bad := locs.any (poisonedLoc s)
  let sound := (locs.takeWhile fun l => !poisonedLoc s l).map (readLoc s)
  match r.op with
  | .read => replyRemote s r true bad sound
  | .readBytes => remotePart s r a locs
  | .writeBytes => remotePart s r a locs
  | .write => replyRemote (store s a 0 locs r.val) r true false []
  | .amo o =>
    let q := homeAmo s a o (els.takeWhile fun e => !e.1.any (poisonedLoc s)) r.cmp
    replyRemote q.1 r true bad q.2
  | .reserve => replyRemote (reserve s (farAgent r) locs) r true bad sound
  | .condWrite =>
    let q := homeCond s a (farAgent r) els
    replyRemote q.1 r true false q.2

/-- A PA that requests of other nodes reach: DRAM, and the queue registers of their partition (R305, log 16). -/
def remotePa (p pa : Nat) : Bool :=
  decide (pa < Config.dramSize) ||
    (decide (Config.regBase + 0x100000 + 0x1000 * p ≤ pa) && decide (pa < Config.regBase + 0x100100 + 0x1000 * p))

/-- The remote windows that cover a request. -/
def coveringWindows (s : State) (r : Request) : List Window := (coveringKeys s r).map (tabGet Window.empty s.windows)

/-- A request of another node is checked against the remote windows and performed, or refused (R306). -/
def remoteRequest (s : State) (r : Request) : State :=
  match coveringWindows s r with
  | [] => refuseRemote s r
  | ws =>
    if ws.any Window.frozen then replyRemote s r false false []
    else if !(ws.any fun w => allows w r.op) then refuseRemote s r
    else if !(r.pas.all (remotePa r.part)) then replyRemote s r false false []
    else performRemote s r

/-- The granules of 64 bytes that a request touches. -/
def requestGranules (r : Request) : List Nat := r.pas.map (· / 64)

/-- No earlier request of the same source to a granule of this one has arrived (R304). -/
def inOrder (s : State) (k : Nat) (r : Request) : Bool :=
  !((s.inq.take k).any fun m => match m with
    | .request q => q.src == r.src && (requestGranules q).any (requestGranules r).contains
    | _ => false)

/-- A request that the windows let through pays for its transfers at this device's ports before it is performed (R224, R306). -/
def requestPaid (s : State) (r : Request) : State × Bool :=
  let ws := coveringWindows s r
  if !ws.any Window.frozen && ws.any (fun w => allows w r.op) && r.pas.all (remotePa r.part) then
    payFor s (.remote (r.src % 4096) r.part) (r.pas.map fun pa => pageLoc Config.node pa r.nc)
  else (s, true)

/-- REMOTE_REQUEST: message k, a request of another node (R306) or of its steward (R221, R289). -/
def execRemoteRequest (k : Nat) (s : State) : Res :=
  .next (match s.inq[k]? with
    | none => s
    | some (.request r) =>
      if !inOrder s k r then s
      else if bytewise r && decide (r.cmp ≠ []) then performRemote (dropMsg s k) r
      else
        let p := requestPaid s r
        if p.2 then remoteRequest (dropMsg p.1 k) r else p.1
    | some m => stewardRequest s k m)

/-- REMOTE_REPLY: message k, the reply to a request of this device, ends its access (R305); a reply that nothing awaits is dropped. -/
def execRemoteReply (k : Nat) (s : State) : Res :=
  .next (match s.inq[k]? with
    | some (.reply tag ok poison data) =>
      let t := dropMsg s k
      match t.outs.find? fun o => o.tag == tag && o.node != Config.node with
      | none => t
      | some o => if !ok then failed t o 4 else if poison then poisoned t o data (fun j => decide (data.length ≤ j)) else delivered t o data
    | _ => s)

/-- The remote timeout of a partition in reference ticks (Table 15.11). -/
def remoteLimit (s : State) (p : Nat) : Nat := if (s.part p).prto = 0 then Config.remoteTicks else (s.part p).prto

/-- REMOTE_TIMEOUT of request t (R308): the node is marked dead, and the access fails; `done` says whether the target had performed
it, which nothing here depends on. -/
def execRemoteTimeout (t : Nat) (_done : Bool) (s : State) : Res :=
  .next (match s.outs.find? fun o => o.tag == t && o.node != Config.node with
    | none => s
    | some o => if waiterTick s o.who - o.sent < remoteLimit s o.part then s else failed (markDead o.part s o.node) o 1)

/-! ## Completions of the host port (R212) -/

/-- The tag of a host request that awaits a completion. -/
def hostTag : HostReq → Option Nat
  | .read t _ _ => some t
  | .write _ _ _ => none
  | .cas t _ _ _ _ _ _ => some t

/-- The host request is no longer under way. -/
def dropHost (s : State) (t : Nat) : State := { s with hostq := s.hostq.filter fun q => decide (hostTag q ≠ some t) }

/-- HOST_CAS_COMPLETION of request t (R212): where the compare failed it is sent again, expecting what it found; where it succeeded
the read-modify-write is performed, and one that writes drops the reservations on its granules (R245); an unsuccessful completion is a refused remote request. -/
def execHostCasCompletion (t : Nat) (ok : Bool) (old : Word) (s : State) : Res :=
  .next (match s.hostq.find? fun q => decide (hostTag q = some t), s.outs.find? fun o => o.tag == t with
    | some (.cas _ _ addrs op _ cmp seen), some o =>
      if !ok then failed (dropHost s t) o 4
      else if old ≠ seen then
        { s with hostq := s.hostq.map fun q => match q with
            | .cas g n a p v c e => if g = t then .cas g n a p v c old else .cas g n a p v c e
            | q => q }
      else
        let bytes := ((leBytes 8 old.toNat).drop (addrs.headD 0 % 8)).take addrs.length
        let u := dropHost s t
        delivered (if amoWrites op addrs.length (leValue bytes) cmp.toNat then breakResv u (addrs.map Loc.host) else u) o bytes
    | _, _ => s)

/-- HOST_READ_COMPLETION of request t (R212): the read performs, or fails as a refused remote request (log 16). -/
def execHostReadCompletion (t : Nat) (ok : Bool) (data : List Byte) (s : State) : Res :=
  .next (match s.hostq.find? fun q => decide (hostTag q = some t), s.outs.find? fun o => o.tag == t with
    | some (.read _ _ addrs), some o =>
      if !ok then failed (dropHost s t) o 4
      else if data.length ≠ addrs.length then s
      else delivered (dropHost s t) o data
    | _, _ => s)

end Sys2Proof.Machine
end

