-- ==== Sys2Proof/Machine/Host.lean ====
section
/-!
DEFINITION. Accesses of the host: BAR0 and BAR2 of the physical function and of the sixteen virtual functions (R285, R309, R310).
Function 0 is the physical one, function p + 1 is the virtual function of partition p (log 14).
-/

namespace Sys2Proof.Machine

/-- Doubleword `i` of the pending MSI-X vectors of a function (Table 15.13): the vectors of its queues, and of the physical function
vector 64 for the mailbox. -/
def msixWord (s : State) (fn i : Nat) : Word :=
  let ns := if fn = 0 then s.msix else (s.msix.filter fun q => decide (q < 64 ∧ q / 4 = fn - 1)).map (· % 4)
  (ns.filter fun n => n / 64 == i).foldl (fun w n => w ||| (1#64 <<< (n % 64))) 0

/-- The launch queue whose register lies at a BAR0 offset (R25, Table 15.13). -/
def bar0Queue (fn off : Nat) : Option Nat :=
  let q := (off - 0x100000) / 0x40
  if off < 0x100000 then none
  else if fn = 0 then (if q < 64 then some q else none)
  else if q < 4 then some (4 * (fn - 1) + q) else none

/-- The identity page's word that reports the stage at which the boot halted: chosen by the model (R356, log 14). -/
def bootWord : Nat := 0xFF8

/-- A doubleword of BAR0 as read. -/
def bar0Read (s : State) (fn off : Nat) : Word :=
  match bar0Queue fn off with
  | some q => queueRead (s.queue q) ((off - 0x100000) % 0x40)
  | none =>
    if 0x200000 ≤ off ∧ off < 0x201000 then tabGet 0 s.msixTab (fn * 2 ^ 24 + off)
    else if 0x201000 ≤ off ∧ off < 0x201010 then msixWord s fn ((off - 0x201000) / 8)
    else if fn = 0 ∧ 0x1000 ≤ off ∧ off < 0x2000 then tabGet 0 s.mailbox ((off - 0x1000) / 8)
    else if fn = 0 ∧ 0x300000 ≤ off ∧ off < 0x340000 then boxRead s (off - 0x300000)
    else if fn = 0 ∧ 0x90000 ≤ off ∧ off < 0x90000 + 0x800 * Config.coreGroups then telemetryRead s (off - 0x90000)
    else if fn = 0 ∧ off = bootWord then nat64 (s.bootHalt.getD 0)
    else Config.freeRegister (2 ^ 32 + fn * 2 ^ 24 + off)

/-- A doubleword of BAR0 written: the queues, the MSI-X table, and for the physical function the mailbox; the rest is read-only. -/
def bar0Write (s : State) (fn off : Nat) (v : Word) : State :=
  match bar0Queue fn off with
  | some q => queueWrite s (decide (fn = 0)) .host q ((off - 0x100000) % 0x40) v
  | none =>
    if 0x200000 ≤ off ∧ off < 0x201000 then { s with msixTab := tabSet s.msixTab (fn * 2 ^ 24 + off) v }
    else if fn = 0 ∧ off < 0x100000 then s.report (.mailbox off v)
    else s

/-- HOST_REQUEST: a read or posted write of an aligned doubleword through BAR0, once the function's earlier requests have performed
(R285, R310). -/
def execHostRequest (fn : Nat) (wr : Bool) (off : Nat) (v : Word) (s : State) : Res :=
  forUnit fn 17 (.next (if off % 8 ≠ 0 ∨ !postedDone s fn then s
    else if wr then bar0Write s fn off v else { s with hostRead := some (bar0Read s fn off) }))

/-- An access through BAR2 that is not performed: a read completes with Unsupported Request, and both are logged (R310). -/
def bar2Fail (s : State) (wr : Bool) : State := { s with hostRead := if wr then s.hostRead else none, aer := s.aer + 1 }

/-- Bytes of BAR2 of a function: 64 GiB, or the size that Resizable BAR has set, from 1 GiB to 512 GiB (R310). -/
def barBytes (s : State) (fn : Nat) : Nat := 2 ^ (20 + barSizeCode s fn)

/-- Where an access through BAR2 lies: the device PA, or the partition's VA `PHWIN` + offset (R310). -/
def bar2Place (s : State) (fn : Nat) (wr : Bool) (off n : Nat) : Located :=
  if barBytes s fn < off + n then .fault 0 6 0
  else if fn = 0 then
    if off + n ≤ Config.dramSize then .ok ((List.range n).map fun i => .dram (off + i) false) else .fault 0 6 0
  else locateIn s (fn - 1) ((s.part (fn - 1)).phwin + nat64 off) n (if wr then .store else .load)

/-- A device register that a virtual function may not reach through BAR2.  An access to one completes as a failed one does, and no
violation is recorded: the rules name neither (DESIGN CHOICE, log 14). -/
def bar2Bad (p : Nat) (l : Loc) : Bool :=
  match l with
  | .reg o => !(decide (0x100000 + 0x1000 * p ≤ o) && decide (o < 0x100100 + 0x1000 * p))
  | _ => false

/-- Memory of this device that a host access reaches. -/
def hostMem : Loc → Bool
  | .dram _ _ => true
  | _ => false

/-- A free part of the bytes of function fn's misaligned access is written or read (R276). -/
def hostPart (s : State) (fn : Nat) : State :=
  match tabFind s.hostTorn fn with
  | none => s
  | some a =>
    let now := freePart s a.left
    let rest := a.left.filter fun j => !now.contains j
    let keep (t : State) (b : HostTorn) : State := { t with hostTorn := if rest = [] then tabDel t.hostTorn fn else tabSet t.hostTorn fn b }
    if a.wr then
      keep (performWrite s (.other (fn - 1)) (now.map (locAt a.locs)) (now.map fun j => a.bytes.getD j 0)).used { a with left := rest }
    else if now.any fun j => poisonedLoc s (locAt a.locs j) then bar2Fail { s with hostTorn := tabDel s.hostTorn fn } false
    else
      let got := now.foldl (fun b j => b.set j (readLoc s (locAt a.locs j))) a.bytes
      let t := keep s.used { a with left := rest, bytes := got }
      if rest = [] then { t with hostRead := some (nat64 (leValue got)) } else t

/-- The misaligned accesses of the host go on. -/
def pumpHost (s : State) : State := s.hostTorn.foldl (fun t q => hostPart t q.1) s

/-- The access of function fn is performed at its performing point (R310); a misaligned one byte by byte (R276). -/
def bar2Perform (s : State) (fn : Nat) (wr : Bool) (addr : Word) (locs : List Loc) (v : Word) : State :=
  let n := locs.length
  if !s.lockstep && decide (addr.toNat % n ≠ 0) && locs.all hostMem then
    let a : HostTorn := { wr := wr, locs := locs, bytes := leBytes n v.toNat, left := List.range n }
    hostPart { s with hostTorn := tabSet s.hostTorn fn a } fn
  else if wr then storeAt s (.other (fn - 1)) addr.toNat n locs (leBytes n v.toNat)
  else match gather (.placer (hostReader + fn)) (.other (fn - 1)) (readOp addr.toNat n) readLoc addr (n + 1) s locs [] with
    | (t, .done bytes) => { t with hostRead := some (nat64 (leValue bytes)) }
    | (t, .wait _) => t
    | (t, _) => bar2Fail t false

/-- BAR2_ACCESS of `n` bytes, once the function's earlier requests have performed (R285, R310); an access whose page migrates waits
(R217), and one whose transfers have no tokens (R224). -/
def execBar2Access (fn : Nat) (wr : Bool) (off n : Nat) (v : Word) (s : State) : Res :=
  forUnit fn 17 <| .next <|
    if n ∉ [1, 2, 4, 8] ∨ !postedDone s fn then s
    else match bar2Place s fn wr off n with
      | .fault _ _ _ => bar2Fail s wr
      | .hold _ => s
      | .ok locs =>
        if locs.any (bar2Bad (fn - 1)) then bar2Fail s wr
        else
          let p := if fn = 0 then (s, true) else payFor s (.other (fn - 1)) locs
          let addr := if fn = 0 then nat64 off else (s.part (fn - 1)).phwin + nat64 off
          if p.2 then bar2Perform p.1 fn wr addr locs v else p.1

end Sys2Proof.Machine
end

