-- ==== Sys2Proof/Machine/Operation.lean ====
section
/-!
DEFINITION. Operating the device: core migration (R328), violations (R330), the controllers and hard limits of clocks and voltages
(R348 to R351), upkeep of memory (R352 to R354), reset and boot (R347, R356, R357), and the eviction of data cache lines (R274).
-/

namespace Sys2Proof.Machine

/-! ## Core migration (R328) -/

/-- The steward's hold on a hand that is not Parked, Frozen, Held or Off; a hold of its reeve that pends already serves. -/
def stewardHold (s : State) (h : Nat) : State :=
  let x := s.hand h
  if x.st ∈ [.held, .parked, .frozen, .off] then s
  else
    let t := s.setHand h { x with holdReq := some (x.holdReq.getD .steward) }
    if x.st.quiet && !x.draining then takeRequests t h else t

/-- The steward's hold on a hand ends; the placer's stays (R328, R323). -/
def stewardRelease (s : State) (h : Nat) : State :=
  let x := s.hand h
  if x.st = .held ∧ x.heldBy = some .steward then
    (if x.placed then s.setHand h { x with heldBy := none } else engines (resumeHand s h) h)
  else s

/-- The core whose oscillator counts a requester's time (R5). -/
def waiterCore : Waiter → Option Nat
  | .handAccess h => some (coreOf h)
  | .handNext h => some (coreOf h)
  | .handEntry h => some (coreOf h)
  | .handCopy h => some (coreOf h)
  | .handStore h => some (coreOf h)
  | .handEnd h => some (coreOf h)
  | .reeve c => some c
  | .reeveStore c => some c
  | .placer _ => none
  | .unit _ => none

/-- Nothing of the core's hands and reeve is under way, so that their state can be saved; no hold of a migrating page and no request
counts on the oscillator that the core leaves (R5). -/
def coreAtRest (s : State) (c : Nat) : Bool :=
  ((handsOf c).all fun h => decide ((s.hand h).st ∈ [.held, .parked, .frozen, .off]) && !(s.hand h).underWay && (s.hand h).storesDone)
    && (s.reeve c).out.isNone && (s.reeve c).storesDone && (s.reeve c).migHold.isNone
    && !s.outs.any fun o => decide (waiterCore o.who = some c)

/-- The holds of a hand's access, elements and copy chunks are not carried: an access that a page still holds is held anew, on the new core's
oscillator (R5, R217, R328).  A chunk whose hold has run out has faulted, and keeps that. -/
def Hand.unheld (x : Hand) : Hand :=
  { x with
    migHold := none
    rq := x.rq.map fun e => if e.fault.isSome then e else { e with heldAt := [] }
    copies := x.copies.map fun p => if p.2.fault.isSome then p else (p.1, { p.2 with heldAt := [] }) }

/-- Logical core `c` moves to a spare: its state is carried but for TLBs, caches, fouls and holds of pages, and the steward's holds
end. -/
def moveCore (s : State) (c phys : Nat) : State :=
  let k := s.core c
  let t := s.setCore c { k with htlb := [], dcache := [], icache := [], dpoison := [], ipoison := [], win := [], busy := [], phys := phys
                                fouls := { count := [], bench := [], window := [] } }
  let u := t.setReeve c { t.reeve c with tlb := [] }
  let v := { u with spares := u.spares.filter (· != phys) }
  (handsOf c).foldl stewardRelease ((handsOf c).foldl (fun t h =>
    if (t.hand h).rq = [] ∧ (t.hand h).copies = [] ∧ (t.hand h).migHold.isNone then t else t.setHand h (t.hand h).unheld) v)

/-- CORE_MIGRATE: core c moves to the spare `phys`; while a hand runs, the steward's hold is placed and the migration waits
(R328). -/
def execCoreMigrate (c phys : Nat) (s : State) : Res :=
  forUnit c Config.numCores <| .next <|
    if !s.spares.contains phys then s
    else
      let t := (handsOf c).foldl stewardHold s
      if coreAtRest t c then moveCore t c phys else t

/-! ## Violations (R330, R331) -/

/-- The partition of a master, where the device has that master and it can be frozen. -/
def masterPart (s : State) : Master → Option Nat
  | .hand h => if h < Config.numHands ∧ (s.hand h).st ≠ .off then some (s.hand h).part else none
  | .engine h => if h < Config.numHands ∧ (s.hand h).st ≠ .off then some (s.hand h).part else none
  | .reeve c => if c < Config.numCores then some (s.reeve c).part else none
  | .remotePort n p => if n ≤ Config.maxNode ∧ p < 16 then some p else none
  | .hostFn q => if q < 64 then some (q / 4) else none

/-- VIOLATION of master m with a code of Table 17.5 (R330, R331). -/
def execViolation (m : Master) (code : Nat) (detail : Word) (s : State) : Res :=
  .next (match masterPart s m with
    | none => s
    | some p =>
      if code < 0x40 ∨ 0x44 < code then s
      else
        freezePort (violate s p code m detail) m detail.toNat)

/-! ## Clocks and limits (R348 to R351) -/

/-- A whole number kept between two bounds. -/
def clampInt (lo hi x : Int) : Int := if x < lo then lo else if hi < x then hi else x

/-- The step that a controller chooses (R349): up or down one or the same, within `GLIM`, at most 4 in fallback (R351); a hot group is
forced down one step (R350). -/
def nextStep (c : Ctrl) (e acc : Int) : Nat :=
  let u := (c.kp : Int) * e + (c.ki : Int) * acc
  let hi := if c.fallback then min c.top 4 else c.top
  let want := if 4096 ≤ u then c.step + 1 else if u ≤ -4096 then c.step - 1 else c.step
  if c.hot then c.step - 1 else min hi (max c.bottom want)

/-- CONTROLLER_UPDATE of core group g with the measured power in 1/16 W (R349). -/
def execControllerUpdate (g power : Nat) (s : State) : Res :=
  forUnit g Config.coreGroups <|
    let c := s.ctrl g
    let budget := if c.fallback then 480 else c.gpwr
    let e : Int := (budget : Int) - (power : Int)
    let acc := clampInt (-65536) 65536 (c.acc + e)
    .next (s.setCtrl g { c with acc := acc, power := power, step := nextStep c e acc })

/-- POWER_CLAMP with the measured package input power in W (R350): above 1,400 W the lane clocks are halved, event 0x08; while they
are, 1,300 W or more restarts the 1,000 ticks. -/
def execPowerClamp (watts : Nat) (s : State) : Res :=
  .next (match s.clamp with
    | none => if 1400 < watts then { s.boxWrite 0x08 0 15 0 watts with clamp := some s.tick } else s
    | some _ => if 1300 ≤ watts then { s with clamp := some s.tick } else s)

/-- POWER_CLAMP_RELEASE (R350). -/
def execPowerClampRelease (s : State) : Res :=
  .next (match s.clamp with
    | some t => if t + 1000 ≤ s.tick then { s with clamp := none } else s
    | none => s)

/-- THERMAL_THROTTLE of group g with the measured temperature in °C (R350): event 0x07 from 100 on, until below 95. -/
def execThermalThrottle (g temp : Nat) (s : State) : Res :=
  forUnit g Config.coreGroups <|
    let c := s.ctrl g
    .next (if 100 ≤ temp then
        let t := s.setCtrl g { c with hot := true, temp := temp }
        if c.hot then t else t.boxAt (s.groupTick g) 0x07 g 15 0 temp
      else if temp < 95 then s.setCtrl g { c with hot := false, temp := temp } else s.setCtrl g { c with temp := temp })

/-- THERMAL_SHUTDOWN with the measured temperature in °C: at 110 or above every core clock stops and the host is told (R350). -/
def execThermalShutdown (temp : Nat) (s : State) : Res :=
  .next (if 110 ≤ temp then { s.report .fatalThermal with shutdown := true } else s)

/-- FALLBACK_ENTRY of group g, whose last heartbeat is 100,000 ticks old (R351). -/
def execFallbackEntry (g : Nat) (s : State) : Res :=
  forUnit g Config.coreGroups <|
    let c := s.ctrl g
    .next (if c.fallback ∨ s.groupTick g < c.beat + Config.heartTicks then s
      else (s.setCtrl g { c with fallback := true, step := min c.step 4 }).boxAt (s.groupTick g) 0x09 g 15 0 g)

/-! ## Upkeep of memory (R352 to R354) -/

/-- DRAM_REFRESH of stack `st` at a temperature in °C: the factor of the refresh rate (R352). -/
def execDramRefresh (st temp : Nat) (s : State) : Res :=
  forUnit st 16 (.next { s with refresh := tabSet s.refresh st (if temp ≤ 85 then 1 else if temp ≤ 95 then 2 else 4) })

/-- The bytes of a unit of 32. -/
def unitBytes (k : Nat) : List Nat := (List.range 32).map (32 * k + ·)

/-- A list with those of some numbers that it has not got. -/
def withNew (l new : List Nat) : List Nat := l ++ new.filter fun n => !l.contains n

/-- An uncorrectable unit is poisoned (R353, R325). -/
def poisonUnit (s : State) : ScrubUnit → State
  | .dram k => { s with poison := withNew s.poison [k] }
  | .spad c k => s.setCore c { s.core c with spoison := withNew (s.core c).spoison [k] }
  | .acc c r => s.setCore c { s.core c with apoison := withNew (s.core c).apoison [r] }
  | .vreg h k => s.setHand h { s.hand h with vpoison := withNew (s.hand h).vpoison (unitBytes k) }
  | .latch h k => s.setHand h { s.hand h with lpoison := withNew (s.hand h).lpoison (unitBytes k) }
  | .dline c l => s.setCore c { s.core c with dpoison := withNew (s.core c).dpoison [2 * l, 2 * l + 1] }
  | .iblock c k => s.setCore c { s.core c with ipoison := withNew (s.core c).ipoison [2 * k, 2 * k + 1] }

/-- What bounds a unit's numbers. -/
def scrubBounds : ScrubUnit → List (Nat × Nat)
  | .dram k => [(k, Config.dramSize / 32)]
  | .spad c k => [(c, Config.numCores), (k, Config.spadSize / 32)]
  | .acc c r => [(c, Config.numCores), (r, Config.accRows)]
  | .vreg h k => [(h, Config.numHands), (k, 1024)]
  | .latch h k => [(h, Config.numHands), (k, 384)]
  | .dline c _ => [(c, Config.numCores)]
  | .iblock c _ => [(c, Config.numCores)]

/-- The unit holds data: a line of a cache may be absent. -/
def unitThere (s : State) : ScrubUnit → Bool
  | .dline c l => (tabFind (s.core c).dcache l).isSome
  | .iblock c k => (tabFind (s.core c).icache k).isSome
  | _ => true

/-- Event 0x0C of a unit, at the tick of the block that holds it: its source is the stack, the core or the hand, its detail where it
begins. -/
def scrubEvent (s : State) : ScrubUnit → State
  | .dram k => s.boxWrite 0x0C (32 * k / 256 % 16) 15 0 (32 * k)
  | .spad c k => s.boxCore c 0x0C c 15 0 (32 * k)
  | .acc c r => s.boxCore c 0x0C c 15 0 (256 * r)
  | .vreg h k => s.boxCore (coreOf h) 0x0C h 15 0 (32 * k)
  | .latch h k => s.boxCore (coreOf h) 0x0C h 15 0 (32 * k)
  | .dline c l => s.boxCore c 0x0C c 15 0 (64 * l)
  | .iblock c k => s.boxCore c 0x0C c 15 0 (64 * k)

/-- SCRUB of one ECC unit: a correctable error is rewritten with the same value, an uncorrectable one poisons the unit, event 0x0C
(R353). -/
def execScrub (u : ScrubUnit) (unc : Bool) (s : State) : Res :=
  forUnits (scrubBounds u) (.next (if unc && unitThere s u then scrubEvent (poisonUnit s u) u else s))

/-- CALIBRATION of channel ch begins, or ends (R354). -/
def execCalibration (ch : Nat) (s : State) : Res :=
  forUnit ch 1024 (.next { s with calib := if s.calib.contains ch then s.calib.filter (· != ch) else s.calib ++ [ch] })

/-! ## Reset and boot (R346, R347, R356, R357) -/

/-- DEVICE_RESET: everything but the black box, the flash, the one-time index and the model's own bookkeeping returns to reset, and the
boot begins at stage 1 (R356, R347, R346). -/
def execDeviceReset (s : State) : Res :=
  .next { State.reset with box := s.box, flash := s.flash, unclean := s.unclean || s.shutdown, xmss := s.xmss, agenda := s.agenda
                           lockstep := s.lockstep, choice := s.choice, nextTag := s.nextTag, hostRead := s.hostRead }

/-- The black box goes to package flash and is cleared after an unclean shutdown (R347). -/
def saveBox (s : State) : State := if s.unclean then { s with flash := s.flash ++ s.box, box := [], unclean := false } else s

/-- BOOT_STAGE: the next stage completes, or fails and halts the boot; event 0x0A with its number (R356). -/
def execBootStage (ok : Bool) (s : State) : Res :=
  .next (if s.bootHalt.isSome ∨ 4 < s.boot then s
    else
      let t := (if s.boot = 1 then saveBox s else s).boxWrite 0x0A 0 15 s.boot 0
      if ok then { t with boot := s.boot + 1 } else { t with bootHalt := some s.boot })

/-- PARTITION_LOAD: the image of partition p lies in the n bytes of DRAM at pa, and its SHAKE256 digest goes to `PIMG` (R357): work of boot stage 3 and
later (R356). -/
def execPartitionLoad (p pa n : Nat) (s : State) : Res :=
  forUnit p 16 (onlyIf (s.booted 2) s (s.setPart p { s.part p with pimg := BitVec.ofNat 256 (leValue (shake256 (memBytes s.mem pa n))) }))

/-! ## The hand data cache (R274) -/

/-- HAND_DATA_CACHE_EVICTION: a line of core c's data cache goes (R274). -/
def execHandDataCacheEviction (c line : Nat) (s : State) : Res :=
  forUnit c Config.numCores (.next (s.setCore c { s.core c with dcache := tabDel (s.core c).dcache line }))

end Sys2Proof.Machine
end

