-- ==== Sys2Proof/Machine/Window.lean ====
section
/-!
DEFINITION. The steps of the execute stream: rename, the window, issue, rows and retirement (R152 to R158), the return queue, element
accesses, copies, waits, parking (R314, R315), replay and recheck (R324 to R329).
-/

namespace Sys2Proof.Machine

/-! ## Rename and the window (R152, R154) -/

/-- Window entries of a hand. -/
def windowOf (w : List MicroOp) (h : Nat) : Nat := w.countP fun m => m.hand == h

/-- The shared entries that the hands of the core of hand h use: those past the two reserved for each (R154). -/
def sharedUsed (w : List MicroOp) (h : Nat) : Nat := (List.range 16).foldl (fun n k => n + (windowOf w (h / 16 * 16 + k) - 2)) 0

/-- The hand's next instruction with micro-ops to enter: its place. -/
def nextToEnter (x : Hand) : Option (Nat × Entry) :=
  match x.rq.findIdx? fun e => e.taken && decide (e.renamed < opsOf e) with
  | none => none
  | some i => (x.rq[i]?).map fun e => (i, e)

/-- The stamp by which a hand's next micro-op comes first to the shared entries (R154); none where nothing can enter: a hand with fewer
than two entries uses one of its own. -/
def enterStamp (s : State) (w : List MicroOp) (h : Nat) : Option Nat :=
  match nextToEnter (s.hand h) with
  | none => none
  | some (_, e) => if windowOf w h < 2 then some 0 else if sharedUsed w h < 64 then some (e.came + 1) else none

/-- The hand whose micro-op enters next: into a reserved entry, or into a shared one first come, first served (R154). -/
def firstComer (s : State) (c : Nat) : Option Nat :=
  let w := (s.core c).win
  (handsOf c).foldl (fun best h => match enterStamp s w h, best with
    | none, b => b
    | some _, none => some h
    | some t, some b => if t < (enterStamp s w b).getD 0 then some h else some b) none

/-- One more micro-op of hand `h` enters the window, in program order (R154). -/
def enterOne (s : State) (h : Nat) : State :=
  let c := s.core (coreOf h)
  match nextToEnter (s.hand h) with
  | none => s
  | some (i, e) =>
    let m : MicroOp := { hand := h, age := e.age, row := e.renamed, ready := none, unit := none, done := 0 }
    (s.setEntry h i { e with renamed := e.renamed + 1 }).setCore (coreOf h) { c with win := c.win ++ [m] }

/-- Micro-ops of the core's hands enter the window while there is room. -/
def fillWindow (c : Nat) : Nat → State → State
  | 0, s => s
  | n + 1, s =>
    match firstComer s c with
    | some h => fillWindow c n (enterOne s h)
    | none => s

/-- The place of the hand's oldest instruction that has not been renamed, if it can be (R152). -/
def canRename (x : Hand) : Option Nat :=
  if !x.executing then none
  else match x.rq.findIdx? fun e => !e.taken with
    | none => none
    | some i => match x.rq[i]? with
      | none => none
      | some e =>
        let used := (x.rq.take i).foldl (fun n f => n + freshRegs f) 0
        if used + freshRegs e ≤ 8 then some i else none

/-- RENAME: the core takes the oldest VIQ entry of the next hand in turn that can be renamed (R152). -/
def renameStep (s : State) (c : Nat) : State :=
  let k := s.core c
  let order := (List.range 16).map fun j => c * 16 + (k.rr + j) % 16
  match order.find? fun h => (canRename (s.hand h)).isSome with
  | none => s
  | some h =>
    match canRename (s.hand h) with
    | none => s
    | some i => match (s.hand h).rq[i]? with
      | none => s
      | some e =>
        let t := (s.setEntry h i { e with taken := true, came := k.came }).setCore c { k with rr := (h % 16 + 1) % 16, came := k.came + 1 }
        fillWindow c 96 t

/-- RENAME (R152). -/
def execRename (c : Nat) (s : State) : Res := forUnit c Config.numCores (.next (renameStep s c))

/-! ## Ready and issue (R155, R156) -/

/-- A load's data row has been written: its elements have performed. -/
def loadedRow (f : Entry) (id : Nat) : Bool :=
  let r := id - 8 * f.d.toNat
  f.performed || (f.loads && decide (r < f.rc.toNat) && decide (r * f.vl.toNat + (if r + 1 = f.rc.toNat then f.vt.toNat else f.vl.toNat) ≤ f.first))

/-- Row `id` of an older instruction is written: every micro-op that writes it has entered the window and left it (R156). -/
def rowDone (w : List MicroOp) (f : Entry) (id : Nat) : Bool :=
  if memoryType f then decide (f.kind ≠ .copy) && loadedRow f id
  else f.taken && (worksOf f).zipIdx.all fun k =>
    !(opWrites f k.1).contains id || (decide (k.2 < f.renamed) && !w.any fun m => m.age == f.age && m.row == k.2)

/-- The youngest of some older instructions that writes row `id` has written it. -/
def rowReady (w : List MicroOp) (older : List Entry) (id : Nat) : Bool :=
  match older.reverse.find? fun f => (writesOf f).contains (id / 8) with
  | some f => rowDone w f id
  | none => true

/-- An older instruction is over: its elements have performed, or its micro-ops have all completed. -/
def opsDone (f : Entry) : Bool := if memoryType f then f.performed else f.taken && decide (opsOf f ≤ f.written)

/-- The micro-ops of the stage before that reach the rows of a stage's micro-op have completed (R187). -/
def stageReady (w : List MicroOp) (e : Entry) : Work → Bool
  | .stage j rows => (worksOf e).zipIdx.all fun k => match k.1 with
    | .stage i rs => decide (i + 1 ≠ j) || !(rs.any rows.contains)
        || (decide (k.2 < e.renamed) && !w.any fun m => m.age == e.age && m.row == k.2)
    | _ => true
  | _ => true

/-- A micro-op is ready: every row that it reads has been written (R155, R156); accumulator rows and the latch have no other instruction
under way (log 53); and an instruction with more than eight destination registers is the oldest of its hand, for it writes the rest in
place (R152). -/
def microReady (s : State) (m : MicroOp) : Bool :=
  let x := s.hand m.hand
  let w := (s.core (coreOf m.hand)).win
  match x.rq.findIdx? fun e => e.age == m.age with
  | none => true
  | some i =>
    match x.rq[i]? with
    | none => true
    | some e =>
      let older := x.rq.take i
      ((opReads e (e.work m.row)).all (rowReady w older)) && stageReady w e (e.work m.row)
        && (older.all fun f => !rowsMeet f e || opsDone f) && (decide ((writesOf e).length ≤ 8) || decide (i = 0))

/-- The machine as the i-th dispatched instruction of a hand will find it: every older one has had its effect. -/
def foundBy (s : State) (h i : Nat) : State := ((s.hand h).rq.take i).foldl (fun t f => retireEffect t h f) s

/-- The tags of a pass before the stage at place j: present slots (R182). -/
def tagsBefore (s : State) (h i : Nat) (e : Entry) (j : Nat) : List Bool :=
  let r := (List.range (e.bpc.toNat + j - e.stages)).foldl (fun p _ => passStage p.1 p.2) ((foundBy s h i).hand h, e)
  (passCells r.1 r.2).map Cell.t

/-- The rows of a pass's micro-op hold only absent tags at its stage (R187). -/
def onlyAbsent (s : State) (m : MicroOp) : Bool :=
  match (s.hand m.hand).rq.findIdx? fun e => e.age == m.age with
  | none => false
  | some i =>
    match (s.hand m.hand).rq[i]? with
    | none => false
    | some e =>
      match e.work m.row with
      | .stage j rows =>
        let v := (tileOf e).vlrow
        decide (e.kind = .pass ∧ e.stages ≤ e.bpc.toNat + j)
          && let tags := tagsBefore s m.hand i e j
             rows.all fun r => !((tags.drop (r * v)).take v).any id
      | _ => false

/-- One more micro-op of an instruction has written its row. -/
def countWritten (s : State) (m : MicroOp) : State :=
  match (s.hand m.hand).rq.findIdx? fun e => e.age == m.age with
  | none => s
  | some i => match (s.hand m.hand).rq[i]? with
    | none => s
    | some e => s.setEntry m.hand i { e with written := e.written + 1 }

/-- A micro-op that has become ready: marked, or, where its rows hold only absent tags, not issued at all (R155, R187). -/
def readyOne (c : Nat) (s : State) (m : MicroOp) : State :=
  if m.ready.isSome || !microReady s m then s
  else
    let k := s.core c
    if onlyAbsent s m then countWritten (s.setCore c { k with win := k.win.filter (· != m) }) m
    else s.setCore c { k with win := k.win.map fun q => if q = m then { q with ready := some k.lane } else q }

/-- Marks the micro-ops of a core that have become ready. -/
def markReady (s : State) (c : Nat) : State := (s.core c).win.foldl (readyOne c) s

/-- The entry of a micro-op. -/
def entryOfOp (s : State) (m : MicroOp) : Option Entry := (s.hand m.hand).rq.find? fun e => e.age == m.age

/-- Ready for 256 lane cycles without issuing (R155). -/
def starved (lane : Nat) (m : MicroOp) : Bool := match m.ready, m.unit with
  | some t, none => decide (t + 256 ≤ lane)
  | _, _ => false

/-- Before another in the order of issue: starved ones first, then the older. -/
def issueBefore (lane : Nat) (a b : MicroOp) : Bool :=
  (starved lane a && !starved lane b) || ((starved lane a == starved lane b) && decide (a.age < b.age ∨ (a.age = b.age ∧ a.row < b.row)))

/-- The best of a list of candidates. -/
def pickOp (lane : Nat) : List MicroOp → Option MicroOp
  | [] => none
  | m :: ms => match pickOp lane ms with
    | none => some m
    | some n => if issueBefore lane n m then some n else some m

/-- Occupancy and latency of a micro-op (R157, R187, R204, R268). -/
def microCost (s : State) (m : MicroOp) : Nat × Nat :=
  match (s.hand m.hand).rq.findIdx? fun e => e.age == m.age with
  | none => (1, 2)
  | some i => match (s.hand m.hand).rq[i]? with
    | none => (1, 2)
    | some e =>
      let acts := match e.work m.row, e.kind with
        | .whole, .red _ => ((tileOf e).indices.filter (activeAt ((foundBy s m.hand i).hand m.hand) e)).length
        | .whole, .scan _ => ((tileOf e).indices.filter (activeAt ((foundBy s m.hand i).hand m.hand) e)).length
        | _, _ => 0
      opCost e acts (e.work m.row)

/-- A unit issues the micro-op that it can accept, if it is free and in service (R155, R327); the matrix unit serves one at a time
(R268). -/
def issueTo (s : State) (c u : Nat) (onlyStarved : Bool) : State :=
  let k := s.core c
  let taken (v : Nat) : Bool := decide (k.lane < tabGet 0 k.busy v)
  if k.fouls.bench.contains u || (if u < 4 then taken u else [4, 5, 6, 7].any taken) then s
  else
    let fits (m : MicroOp) : Bool := match entryOfOp s m with
      | some e => e.matrixOp == decide (4 ≤ u)
      | none => false
    let cands := k.win.filter fun m => m.ready.isSome && m.unit.isNone && fits m && (!onlyStarved || starved k.lane m)
    match pickOp k.lane cands with
    | none => s
    | some m =>
      let cost := microCost s m
      let upd (q : MicroOp) : MicroOp := if q = m then { q with unit := some u, done := k.lane + cost.2 } else q
      s.setCore c { k with win := k.win.map upd, busy := tabSet k.busy u (k.lane + cost.1) }

/-- MICRO_OP_ISSUE: one lane cycle of a core, in which each of its units issues (R155). -/
def execMicroOpIssue (c : Nat) (s : State) : Res :=
  forUnit c Config.numCores <|
    let k := s.core c
    let t := markReady (s.setCore c { k with lane := k.lane + 1 }) c
    .next ((List.range 8).foldl (fun t u => issueTo t c u false) t)

/-- MICRO_OP_STARVED: the oldest starved micro-op issues before all others (R155). -/
def execMicroOpStarved (c : Nat) (s : State) : Res :=
  forUnit c Config.numCores (.next ((List.range 8).foldl (fun t u => issueTo t c u true) (markReady s c)))

/-! ## Rows and retirement (R156, R158) -/

/-- The micro-ops of a pass's next stage have all completed. -/
def stageOver (w : List MicroOp) (e : Entry) : Bool :=
  decide (e.bpc.toNat ≤ e.stages) && (worksOf e).zipIdx.all fun k => match k.1 with
    | .stage j _ => decide (e.bpc.toNat + j ≠ e.stages)
        || (decide (k.2 < e.renamed) && !w.any fun m => m.age == e.age && m.row == k.2)
    | _ => true

/-- A pass that is the oldest instruction goes through the stages whose micro-ops have all written their rows (R184, R187). -/
def passProgress (s : State) (h : Nat) : State :=
  if (s.hand h).executing then passRun h (fun e => e.taken && stageOver (s.core (coreOf h)).win e) 16 s else s

/-- ROW_WRITTEN: the k-th micro-op of a core's window, issued and past its latency, has written its row (R156, R157): by the lane cycle
that is its latency after its issue, in which a consumer may issue. -/
def execRowWritten (c k : Nat) (s : State) : Res :=
  forUnit c Config.numCores <|
    match (s.core c).win[k]? with
    | none => .next s
    | some m =>
      if m.unit.isNone ∨ (s.core c).lane + 1 < m.done then .next s
      else
        let t := s.setCore c { s.core c with win := (s.core c).win.eraseIdx k }
        .next (passProgress (fillWindow c 96 (countWritten t m)) m.hand)

/-- The oldest instruction is complete (R158). -/
def canRetire (x : Hand) : Bool :=
  match x.rq with
  | [] => false
  | e :: _ => x.executing && e.taken && e.fault.isNone && decide (opsOf e ≤ e.written) && headReady x e

/-- RETIRE: the hand's oldest dispatched instruction retires (R158), or takes note of an error that it consumes; a drain may end with it
(R64). -/
def execRetire (h : Nat) (s : State) : Res :=
  forUnit h Config.numHands
    (if canRetire (s.hand h) then
      let t := passRun h (fun _ => true) 16 s
      let u := if canRetire (t.hand h) then endHead t h else t
      .next (passProgress (afterProgress u h) h)
     else .next s)

/-- RETURN_QUEUE_WRITE: the oldest value of the return queue is written (R103). -/
def execReturnQueueWrite (h : Nat) (s : State) : Res :=
  forUnit h Config.numHands
    (match (s.hand h).retq with
      | [] => .next s
      | r :: rs => .next (s.setHand h { (s.hand h).takeRet r with retq := rs }))

/-! ## Elements, copies and waits -/

/-- ELEMENT_PERFORM: the VMU performs one element of a memory instruction of the hand (R230). -/
def execElementPerform (h : Nat) (s : State) : Res :=
  forUnit h Config.numHands
    (if !(s.hand h).executing then .next s
     else match memTarget (s.hand h) with
      | some i => .next (engines (memStep s h i).1 h)
      | none => .next (engines s h))

/-- SCALAR_STORE_PERFORM: the oldest store of the hand's buffer performs (R106). -/
def execScalarStorePerform (h : Nat) (s : State) : Res :=
  forUnit h Config.numHands (onlyIf (decide ((s.hand h).st ≠ .frozen)) s (leaveIfDone (performOldest s h) h))

/-- COPY_CHUNK_COMPLETE: chunk c of copy slot k (R248, R249). -/
def execCopyChunkComplete (h k c : Nat) (s : State) : Res :=
  forUnit h Config.numHands (.next (engines (copyFault (chunkStep s h k c) h) h))

/-- The memory instruction under way is of a kind. -/
def atKind (x : Hand) (p : VKind → Bool) : Bool :=
  x.executing && match x.rq with
    | e :: _ => p e.kind
    | [] => false

/-- A wait of the VMU reads again. -/
def reread (s : State) (h : Nat) : State :=
  match (s.hand h).rq with
  | e :: _ => engines (memRun h 0 (3 * e.count + 4) s) h
  | [] => s

/-- VWAIT_REREAD (R250). -/
def execVwaitReread (h : Nat) (s : State) : Res :=
  forUnit h Config.numHands (onlyIf (atKind (s.hand h) fun k => decide (k = .vwait)) s (reread s h))

/-- The oldest instruction's timeout has passed. -/
def headOver (s : State) (h : Nat) (T : Entry → Word) : Bool :=
  match (s.hand h).rq with
  | e :: _ => waitOver s h e (T e)
  | [] => false

/-- VWAIT_TIMEOUT: S[sa] scalar cycles have passed since the first read (R250). -/
def execVwaitTimeout (h : Nat) (s : State) : Res :=
  forUnit h Config.numHands
    (onlyIf (atKind (s.hand h) (fun k => decide (k = .vwait)) && headOver s h Entry.sa) s (reread s h))

/-- WFIN_REREAD (R303). -/
def execWfinReread (h : Nat) (s : State) : Res :=
  forUnit h Config.numHands (onlyIf (atKind (s.hand h) fun k => decide (k = .wfin)) s (reread s h))

/-- WFIN_TIMEOUT (R303). -/
def execWfinTimeout (h : Nat) (s : State) : Res :=
  forUnit h Config.numHands
    (onlyIf (atKind (s.hand h) (fun k => decide (k = .wfin)) && headOver s h Entry.sb) s (reread s h))

/-- MIGRATION_REWALK: a held vector access or copy re-walks; a held scalar access re-walks when its hand moves next (R217). -/
def execMigrationRewalk (h : Nat) (s : State) : Res :=
  forUnit h Config.numHands <|
    let s1 := match memTarget (s.hand h) with
      | some i => if (s.hand h).executing then (memStep s h i).1 else s
      | none => s
    .next (engines (copiesStep s1 h) h)

/-- The page of a held scalar access still migrates, as a walk finds it (R217). -/
def stillHeld (s : State) (h : Nat) (m : MigHold) : Bool :=
  match handXlat s h m.addr.toNat (if m.cause = 0x06 then .load else .store) with
  | .hold => true
  | _ => false

/-- MIGRATION_HOLD_TIMEOUT: an access held for 200,000 reference ticks whose page a walk still finds migrating faults with sub-status 5
(R217); one whose page does not goes on when its hand moves. -/
def execMigrationHoldTimeout (h : Nat) (s : State) : Res :=
  forUnit h Config.numHands <|
    let x := s.hand h
    match x.migHold with
    | some m =>
      if s.coreTick (coreOf h) - m.since < Config.holdTicks then .next s
      else if m.cause = 0x08 then .next (blockArrives s h)
      else onlyIf (stillHeld s h m) s (preciseFault (s.setHand h { x with migHold := none }) h m.cause 5 m.addr x.pc)
    | none => execMigrationRewalk h s

/-! ## Parking (R314, R315) -/

/-- PRECISE_FAULT_PARK: a precise fault is taken once every older instruction has retired and the store buffer has drained
(R314). -/
def execPreciseFaultPark (h : Nat) (s : State) : Res :=
  forUnit h Config.numHands
    (match (s.hand h).pfault with
      | some f =>
        let x := s.hand h
        onlyIf (decide (x.rq = [] ∧ f.cls = 0) && x.scalarStoresDone) s (park s h 0 f.cause f.sub f.apc x.pc f.addr 0)
      | none => .next s)

/-- IMPRECISE_FAULT_PARK: the oldest instruction, a copy or a remote scalar access takes its fault (R315, R249, R308); the store
buffer drains first. -/
def execImpreciseFaultPark (h : Nat) (s : State) : Res :=
  forUnit h Config.numHands <|
    let x := s.hand h
    if !x.scalarStoresDone || x.accessOut then .next s
    else match x.rq with
      | e :: _ => if e.fault.isSome ∧ x.executing then .next (takeFault s h) else .next (copyFault s h)
      | [] =>
        match x.pfault with
        | some f => onlyIf (decide (f.cls = 1)) s (park s h 1 f.cause f.sub f.apc x.pc f.addr 0)
        | none => .next (copyFault s h)

/-! ## Replay and recheck (R324 to R329) -/

/-- Dispatched instructions go back to the replay queue; what their elements left stays (R316, R324). -/
def squash (s : State) (h : Nat) : State :=
  let x := s.hand h
  (s.setHand h { x with rq := x.rq.map Entry.unissued }).leaveWindow h

/-- REPLAY: the hand consumed an uncorrectable soft error of an execute unit (R324); an instruction that replays three times in a row has a
fault to take. -/
def execReplay (h : Nat) (s : State) : Res :=
  forUnit h Config.numHands <|
    let x := s.hand h
    if x.rq = [] ∨ !x.executing then .next s
    else
      let c := s.core (coreOf h)
      let s1 := (s.setCore (coreOf h) { c with replays := c.replays + 1 }).boxCore (coreOf h) 0x01 h x.part 0 0
      let s2 := squash s1 h
      let s3 := s2.setHand h { s2.hand h with replays := x.replays + 1 }
      if x.replays + 1 < 3 then .next s3
      else match (s3.hand h).rq with
        | [] => .next s3
        | e :: _ =>
          let f := if e.fault.isSome then e else { e with fault := some (0x0B, 3, 0, e.replayAt (s3.hand h)) }
          .next (faultDue (s3.setEntry h 0 f) h)

/-- One foul for a unit, and its bench (R326, R327). -/
def addFoul (s : State) (c u : Nat) : State :=
  let k := s.core c
  let n := min 15 (tabGet 0 k.fouls.count u + 1)
  let th := fld k.rckcfg 7 0
  let s1 := s.boxCore c 0x03 c (s.reeve c).part u 0
  let w := if tabGet 0 k.fouls.count u = 0 then tabSet k.fouls.window u 0 else k.fouls.window
  let benched := decide (1 ≤ th ∧ th ≤ 15 ∧ th ≤ n) && !k.fouls.bench.contains u
  let f : Fouls := { count := tabSet k.fouls.count u n, bench := if benched then k.fouls.bench ++ [u] else k.fouls.bench, window := w }
  let s2 := s1.setCore c { k with fouls := f }
  if benched then s2.boxCore c 0x04 c (s.reeve c).part u 0 else s2

/-- Units of a core's kind that are in service. -/
def inService (s : State) (c u : Nat) : Bool := !(s.core c).fouls.bench.contains u

/-- RECHECK_MISMATCH: the two executions of the oldest instruction, on two units in service of the kind that executes it, differ (R326,
R327). -/
def execRecheckMismatch (h u1 u2 : Nat) (s : State) : Res :=
  forUnit h Config.numHands <| forUnit u1 8 <| forUnit u2 8 <|
    match (s.hand h).rq with
    | e :: _ =>
      let kind (u : Nat) : Bool := e.matrixOp == decide (4 ≤ u)
      onlyIf (e.rechecked && !e.settled && e.dispute.isNone && e.fault.isNone && decide (u1 ≠ u2) && kind u1 && kind u2
          && inService s (coreOf h) u1 && inService s (coreOf h) u2 && (s.hand h).executing) s
        (s.setEntry h 0 { e with dispute := some (u1, u2) })
    | [] => .next s

/-- RECHECK_RESOLVE: the third execution agrees with the first (some true), with the second, or with neither (R326, R329).  A
core with two benched units of the kind cannot run it, and the instruction has a fault to take (R327). -/
def execRecheckResolve (h : Nat) (agree : Option Bool) (s : State) : Res :=
  forUnit h Config.numHands <|
    match (s.hand h).rq with
    | [] => .next s
    | e :: _ =>
      match e.dispute with
      | none => .next s
      | some (u1, u2) =>
        let benched := (s.core (coreOf h)).fouls.bench.countP fun u => u / 4 == u1 / 4
        match (if 2 ≤ benched then none else agree) with
        | some first =>
          let s1 := s.setEntry h 0 { e with dispute := none, settled := true }
          .next (engines (addFoul s1 (coreOf h) (if first then u2 else u1)) h)
        | none => .next (faultDue (s.setEntry h 0 { e with dispute := none, fault := some (0x12, 0, 0, 0) }) h)

/-- FOUL_WINDOW_RESET: 2^wlog rechecked instructions have retired since the count's first increment (R327). -/
def execFoulWindowReset (c u : Nat) (s : State) : Res :=
  forUnit c Config.numCores <| forUnit u 8 <|
    let k := s.core c
    onlyIf (decide (2 ^ fld k.rckcfg 20 16 ≤ tabGet 0 k.fouls.window u)) s
      (s.setCore c { k with fouls := { k.fouls with count := tabDel k.fouls.count u, window := tabDel k.fouls.window u } })

/-- FOUL_BENCH_CLEAR: a write of `FOUL`; each bench bit written as 1 returns its unit to service with its count at 0 (Table
17.4b). -/
def execFoulBenchClear (c : Nat) (v : Word) (s : State) : Res := forUnit c Config.numCores (.next (clearBench s c v))

end Sys2Proof.Machine
end

