-- ==== Sys2Proof/Machine/Dispatch.lean ====
section
/-!
DEFINITION. One arm for each constructor of Instr: the instruction's meaning.
-/

namespace Sys2Proof.Machine

/-- The meaning of every instruction and step. -/
def exec (i : Instr) (s : State) : Host.Outcome State Fault Refusal :=
  match i with
  | .registerWrite r v => Sys2Proof.Machine.execRegisterWrite r v s
  | .qctlWrite q v => Sys2Proof.Machine.execQctlWrite q v s
  | .qkickWrite p q v => Sys2Proof.Machine.execQkickWrite p q v s
  | .qstatClearStopped q => Sys2Proof.Machine.execQstatClearStopped q s
  | .slotHeaderRead q => Sys2Proof.Machine.execSlotHeaderRead q s
  | .slotHeaderReread q => Sys2Proof.Machine.execSlotHeaderReread q s
  | .placeFarm p => Sys2Proof.Machine.execPlaceFarm p s
  | .quantumExpiry p => Sys2Proof.Machine.execQuantumExpiry p s
  | .preemptSave f => Sys2Proof.Machine.execPreemptSave f s
  | .farmResume f => Sys2Proof.Machine.execFarmResume f s
  | .setDone f => Sys2Proof.Machine.execSetDone f s
  | .farmKill f => Sys2Proof.Machine.execFarmKill f s
  | .rexitWrite c v => Sys2Proof.Machine.execRexitWrite c v s
  | .holdSafePoint h => Sys2Proof.Machine.execHoldSafePoint h s
  | .heldEntry h => Sys2Proof.Machine.execHeldEntry h s
  | .stopTakesEffect h => Sys2Proof.Machine.execStopTakesEffect h s
  | .abandonOff h => Sys2Proof.Machine.execAbandonOff h s
  | .waitConditionMet h => Sys2Proof.Machine.execWaitConditionMet h s
  | .yieldExpiry h => Sys2Proof.Machine.execYieldExpiry h s
  | .blockFetchArrival h => Sys2Proof.Machine.execBlockFetchArrival h s
  | .nextBufferFill h => Sys2Proof.Machine.execNextBufferFill h s
  | .kwaitComplete c => Sys2Proof.Machine.execKwaitComplete c s
  | .rename c => Sys2Proof.Machine.execRename c s
  | .microOpIssue c => Sys2Proof.Machine.execMicroOpIssue c s
  | .microOpStarved c => Sys2Proof.Machine.execMicroOpStarved c s
  | .rowWritten c k => Sys2Proof.Machine.execRowWritten c k s
  | .retire h => Sys2Proof.Machine.execRetire h s
  | .returnQueueWrite h => Sys2Proof.Machine.execReturnQueueWrite h s
  | .branchQueueOutcome h => Sys2Proof.Machine.execBranchQueueOutcome h s
  | .scalarStorePerform h => Sys2Proof.Machine.execScalarStorePerform h s
  | .elementPerform h => Sys2Proof.Machine.execElementPerform h s
  | .migrationRewalk h => Sys2Proof.Machine.execMigrationRewalk h s
  | .migrationHoldTimeout h => Sys2Proof.Machine.execMigrationHoldTimeout h s
  | .domainInvalidate c => Sys2Proof.Machine.execDomainInvalidate c s
  | .invalidateAckTimeout c => Sys2Proof.Machine.execInvalidateAckTimeout c s
  | .tokenRefill => Sys2Proof.Machine.execTokenRefill s
  | .consumedReset => Sys2Proof.Machine.execConsumedReset s
  | .tokenGrant p => Sys2Proof.Machine.execTokenGrant p s
  | .readRequest ch => Sys2Proof.Machine.execReadRequest ch s
  | .writeRequest ch => Sys2Proof.Machine.execWriteRequest ch s
  | .readReply ch k => Sys2Proof.Machine.execReadReply ch k s
  | .writeReply ch k => Sys2Proof.Machine.execWriteReply ch k s
  | .hostCasCompletion t ok old => Sys2Proof.Machine.execHostCasCompletion t ok old s
  | .copyChunkComplete h k c => Sys2Proof.Machine.execCopyChunkComplete h k c s
  | .vwaitReread h => Sys2Proof.Machine.execVwaitReread h s
  | .vwaitTimeout h => Sys2Proof.Machine.execVwaitTimeout h s
  | .wfinReread h => Sys2Proof.Machine.execWfinReread h s
  | .wfinTimeout h => Sys2Proof.Machine.execWfinTimeout h s
  | .groupCreate c => Sys2Proof.Machine.execGroupCreate c s
  | .groupDestroy c => Sys2Proof.Machine.execGroupDestroy c s
  | .whistleInput k => Sys2Proof.Machine.execWhistleInput k s
  | .whistleBlow g e n => Sys2Proof.Machine.execWhistleBlow g e n s
  | .retentionExpiry g e n => Sys2Proof.Machine.execRetentionExpiry g e n s
  | .dropNotice k => Sys2Proof.Machine.execDropNotice k s
  | .delivery k => Sys2Proof.Machine.execDelivery k s
  | .deliveryKeepExpiry g sl n => Sys2Proof.Machine.execDeliveryKeepExpiry g sl n s
  | .instanceAccept g e => Sys2Proof.Machine.execInstanceAccept g e s
  | .flitReceive p crc m => Sys2Proof.Machine.execFlitReceive p crc m s
  | .remoteRequest k => Sys2Proof.Machine.execRemoteRequest k s
  | .remoteReply k => Sys2Proof.Machine.execRemoteReply k s
  | .remoteTimeout t done => Sys2Proof.Machine.execRemoteTimeout t done s
  | .hostRequest fn wr off v => Sys2Proof.Machine.execHostRequest fn wr off v s
  | .bar2Access fn wr off n v => Sys2Proof.Machine.execBar2Access fn wr off n v s
  | .preciseFaultPark h => Sys2Proof.Machine.execPreciseFaultPark h s
  | .impreciseFaultPark h => Sys2Proof.Machine.execImpreciseFaultPark h s
  | .replay h => Sys2Proof.Machine.execReplay h s
  | .recheckMismatch h u1 u2 => Sys2Proof.Machine.execRecheckMismatch h u1 u2 s
  | .recheckResolve h agree => Sys2Proof.Machine.execRecheckResolve h agree s
  | .foulWindowReset c u => Sys2Proof.Machine.execFoulWindowReset c u s
  | .foulBenchClear c v => Sys2Proof.Machine.execFoulBenchClear c v s
  | .coreMigrate c phys => Sys2Proof.Machine.execCoreMigrate c phys s
  | .violation m code detail => Sys2Proof.Machine.execViolation m code detail s
  | .attestation c => Sys2Proof.Machine.execAttestation c s
  | .controllerUpdate g power => Sys2Proof.Machine.execControllerUpdate g power s
  | .powerClamp watts => Sys2Proof.Machine.execPowerClamp watts s
  | .thermalThrottle g temp => Sys2Proof.Machine.execThermalThrottle g temp s
  | .thermalShutdown temp => Sys2Proof.Machine.execThermalShutdown temp s
  | .gheartWrite g v => Sys2Proof.Machine.execGheartWrite g v s
  | .fallbackEntry g => Sys2Proof.Machine.execFallbackEntry g s
  | .dramRefresh st temp => Sys2Proof.Machine.execDramRefresh st temp s
  | .derate p d => Sys2Proof.Machine.execDerate p d s
  | .scrub u unc => Sys2Proof.Machine.execScrub u unc s
  | .calibration ch => Sys2Proof.Machine.execCalibration ch s
  | .deviceReset => Sys2Proof.Machine.execDeviceReset s
  | .bootStage ok => Sys2Proof.Machine.execBootStage ok s
  | .partitionLoad p pa n => Sys2Proof.Machine.execPartitionLoad p pa n s
  | .endCompletionAdd h => Sys2Proof.Machine.execEndCompletionAdd h s
  | .kbc d a b => Sys2Proof.Machine.execKbc d a b s
  | .kgo d a b => Sys2Proof.Machine.execKgo d a b s
  | .kstop d a b => Sys2Proof.Machine.execKstop d a b s
  | .kwait d a b => Sys2Proof.Machine.execKwait d a b s
  | .kstat d a b => Sys2Proof.Machine.execKstat d a b s
  | .kread d a b => Sys2Proof.Machine.execKread d a b s
  | .kwrite d a b => Sys2Proof.Machine.execKwrite d a b s
  | .kframe d a b => Sys2Proof.Machine.execKframe d a b s
  | .krest d a b => Sys2Proof.Machine.execKrest d a b s
  | .klaunch d a b => Sys2Proof.Machine.execKlaunch d a b s
  | .kquiet d a b => Sys2Proof.Machine.execKquiet d a b s
  | .kevt d a b => Sys2Proof.Machine.execKevt d a b s
  | .add d a b => Sys2Proof.Machine.execAdd d a b s
  | .sub d a b => Sys2Proof.Machine.execSub d a b s
  | .and d a b => Sys2Proof.Machine.execAnd d a b s
  | .or d a b => Sys2Proof.Machine.execOr d a b s
  | .xor d a b => Sys2Proof.Machine.execXor d a b s
  | .sll d a b => Sys2Proof.Machine.execSll d a b s
  | .srl d a b => Sys2Proof.Machine.execSrl d a b s
  | .sra d a b => Sys2Proof.Machine.execSra d a b s
  | .slt d a b => Sys2Proof.Machine.execSlt d a b s
  | .sltn d a b => Sys2Proof.Machine.execSltn d a b s
  | .mul d a b => Sys2Proof.Machine.execMul d a b s
  | .mulh d a b => Sys2Proof.Machine.execMulh d a b s
  | .mulhn d a b => Sys2Proof.Machine.execMulhn d a b s
  | .div d a b => Sys2Proof.Machine.execDiv d a b s
  | .divn d a b => Sys2Proof.Machine.execDivn d a b s
  | .rem d a b => Sys2Proof.Machine.execRem d a b s
  | .remn d a b => Sys2Proof.Machine.execRemn d a b s
  | .min d a b => Sys2Proof.Machine.execMin d a b s
  | .max d a b => Sys2Proof.Machine.execMax d a b s
  | .minn d a b => Sys2Proof.Machine.execMinn d a b s
  | .maxn d a b => Sys2Proof.Machine.execMaxn d a b s
  | .clz d a => Sys2Proof.Machine.execClz d a s
  | .ctz d a => Sys2Proof.Machine.execCtz d a s
  | .popc d a => Sys2Proof.Machine.execPopc d a s
  | .addi d a im => Sys2Proof.Machine.execAddi d a im s
  | .andi d a im => Sys2Proof.Machine.execAndi d a im s
  | .ori d a im => Sys2Proof.Machine.execOri d a im s
  | .xori d a im => Sys2Proof.Machine.execXori d a im s
  | .slti d a im => Sys2Proof.Machine.execSlti d a im s
  | .slli d a im => Sys2Proof.Machine.execSlli d a im s
  | .srli d a im => Sys2Proof.Machine.execSrli d a im s
  | .srai d a im => Sys2Proof.Machine.execSrai d a im s
  | .lim d im => Sys2Proof.Machine.execLim d im s
  | .lsh d im => Sys2Proof.Machine.execLsh d im s
  | .ldB d a im => Sys2Proof.Machine.execLdB d a im s
  | .ldH d a im => Sys2Proof.Machine.execLdH d a im s
  | .ldW d a im => Sys2Proof.Machine.execLdW d a im s
  | .ldD d a im => Sys2Proof.Machine.execLdD d a im s
  | .ldBn d a im => Sys2Proof.Machine.execLdBn d a im s
  | .ldHn d a im => Sys2Proof.Machine.execLdHn d a im s
  | .ldWn d a im => Sys2Proof.Machine.execLdWn d a im s
  | .stB b a im => Sys2Proof.Machine.execStB b a im s
  | .stH b a im => Sys2Proof.Machine.execStH b a im s
  | .stW b a im => Sys2Proof.Machine.execStW b a im s
  | .stD b a im => Sys2Proof.Machine.execStD b a im s
  | .amoSwap d a b q w => Sys2Proof.Machine.execAmoSwap d a b q w s
  | .amoAdd d a b q w => Sys2Proof.Machine.execAmoAdd d a b q w s
  | .amoAnd d a b q w => Sys2Proof.Machine.execAmoAnd d a b q w s
  | .amoOr d a b q w => Sys2Proof.Machine.execAmoOr d a b q w s
  | .amoXor d a b q w => Sys2Proof.Machine.execAmoXor d a b q w s
  | .amoMax d a b q w => Sys2Proof.Machine.execAmoMax d a b q w s
  | .amoMin d a b q w => Sys2Proof.Machine.execAmoMin d a b q w s
  | .amoMaxn d a b q w => Sys2Proof.Machine.execAmoMaxn d a b q w s
  | .amoMinn d a b q w => Sys2Proof.Machine.execAmoMinn d a b q w s
  | .amoCas d a b q w => Sys2Proof.Machine.execAmoCas d a b q w s
  | .ldAcq d a q w => Sys2Proof.Machine.execLdAcq d a q w s
  | .stRel a b q w => Sys2Proof.Machine.execStRel a b q w s
  | .beq a b o => Sys2Proof.Machine.execBeq a b o s
  | .bne a b o => Sys2Proof.Machine.execBne a b o s
  | .blt a b o => Sys2Proof.Machine.execBlt a b o s
  | .bge a b o => Sys2Proof.Machine.execBge a b o s
  | .bltn a b o => Sys2Proof.Machine.execBltn a b o s
  | .bgen a b o => Sys2Proof.Machine.execBgen a b o s
  | .bbs a b o => Sys2Proof.Machine.execBbs a b o s
  | .bbc a b o => Sys2Proof.Machine.execBbc a b o s
  | .jal d o => Sys2Proof.Machine.execJal d o s
  | .jalr d a im => Sys2Proof.Machine.execJalr d a im s
  | .csrr d c => Sys2Proof.Machine.execCsrr d c s
  | .csrw d a c => Sys2Proof.Machine.execCsrw d a c s
  | .csrs d a c => Sys2Proof.Machine.execCsrs d a c s
  | .csrc d a c => Sys2Proof.Machine.execCsrc d a c s
  | .vtype d a => Sys2Proof.Machine.execVtype d a s
  | .setvl d a => Sys2Proof.Machine.execSetvl d a s
  | .setrc d a => Sys2Proof.Machine.execSetrc d a s
  | .setvt d a => Sys2Proof.Machine.execSetvt d a s
  | .setvn d a => Sys2Proof.Machine.execSetvn d a s
  | .fenceSv => Sys2Proof.Machine.execFenceSv s
  | .fenceVs => Sys2Proof.Machine.execFenceVs s
  | .fenceAcq q => Sys2Proof.Machine.execFenceAcq q s
  | .fenceRel q => Sys2Proof.Machine.execFenceRel q s
  | .fenceAr q => Sys2Proof.Machine.execFenceAr q s
  | .lnkPut a q => Sys2Proof.Machine.execLnkPut a q s
  | .lnkGet d q => Sys2Proof.Machine.execLnkGet d q s
  | .sig a => Sys2Proof.Machine.execSig a s
  | .bar => Sys2Proof.Machine.execBar s
  | .fbar => Sys2Proof.Machine.execFbar s
  | .claim d => Sys2Proof.Machine.execClaim d s
  | .wfe d => Sys2Proof.Machine.execWfe d s
  | .endHand => Sys2Proof.Machine.execEndHand s
  | .stop => Sys2Proof.Machine.execStop s
  | .go a => Sys2Proof.Machine.execGo a s
  | .bfetch a => Sys2Proof.Machine.execBfetch a s
  | .ecall => Sys2Proof.Machine.execEcall s
  | .ebreak => Sys2Proof.Machine.execEbreak s
  | .yield => Sys2Proof.Machine.execYield s
  | .hint im => Sys2Proof.Machine.execHint im s
  | .vaddVv d a b m f => Sys2Proof.Machine.execVaddVv d a b m f s
  | .vaddVs d a b m f => Sys2Proof.Machine.execVaddVs d a b m f s
  | .vaddVi d a im m f => Sys2Proof.Machine.execVaddVi d a im m f s
  | .vsubVv d a b m f => Sys2Proof.Machine.execVsubVv d a b m f s
  | .vsubVs d a b m f => Sys2Proof.Machine.execVsubVs d a b m f s
  | .vrsubVs d a b m f => Sys2Proof.Machine.execVrsubVs d a b m f s
  | .vrsubVi d a im m f => Sys2Proof.Machine.execVrsubVi d a im m f s
  | .vneg d a m f => Sys2Proof.Machine.execVneg d a m f s
  | .vmulVv d a b m f => Sys2Proof.Machine.execVmulVv d a b m f s
  | .vmulVs d a b m f => Sys2Proof.Machine.execVmulVs d a b m f s
  | .vmulhVv d a b m f => Sys2Proof.Machine.execVmulhVv d a b m f s
  | .vmulhVs d a b m f => Sys2Proof.Machine.execVmulhVs d a b m f s
  | .vmulhnVv d a b m f => Sys2Proof.Machine.execVmulhnVv d a b m f s
  | .vmulhnVs d a b m f => Sys2Proof.Machine.execVmulhnVs d a b m f s
  | .vdivVv d a b m f => Sys2Proof.Machine.execVdivVv d a b m f s
  | .vdivVs d a b m f => Sys2Proof.Machine.execVdivVs d a b m f s
  | .vremVv d a b m f => Sys2Proof.Machine.execVremVv d a b m f s
  | .vremVs d a b m f => Sys2Proof.Machine.execVremVs d a b m f s
  | .vminVv d a b m f => Sys2Proof.Machine.execVminVv d a b m f s
  | .vminVs d a b m f => Sys2Proof.Machine.execVminVs d a b m f s
  | .vmaxVv d a b m f => Sys2Proof.Machine.execVmaxVv d a b m f s
  | .vmaxVs d a b m f => Sys2Proof.Machine.execVmaxVs d a b m f s
  | .vabs d a m f => Sys2Proof.Machine.execVabs d a m f s
  | .vsaddVv d a b m f => Sys2Proof.Machine.execVsaddVv d a b m f s
  | .vandVv d a b m f => Sys2Proof.Machine.execVandVv d a b m f s
  | .vandVs d a b m f => Sys2Proof.Machine.execVandVs d a b m f s
  | .vorVv d a b m f => Sys2Proof.Machine.execVorVv d a b m f s
  | .vorVs d a b m f => Sys2Proof.Machine.execVorVs d a b m f s
  | .vxorVv d a b m f => Sys2Proof.Machine.execVxorVv d a b m f s
  | .vxorVs d a b m f => Sys2Proof.Machine.execVxorVs d a b m f s
  | .vnot d a m f => Sys2Proof.Machine.execVnot d a m f s
  | .vssubVv d a b m f => Sys2Proof.Machine.execVssubVv d a b m f s
  | .vsllVv d a b m f => Sys2Proof.Machine.execVsllVv d a b m f s
  | .vsllVs d a b m f => Sys2Proof.Machine.execVsllVs d a b m f s
  | .vsllVi d a im m f => Sys2Proof.Machine.execVsllVi d a im m f s
  | .vsrlVv d a b m f => Sys2Proof.Machine.execVsrlVv d a b m f s
  | .vsrlVs d a b m f => Sys2Proof.Machine.execVsrlVs d a b m f s
  | .vsrlVi d a im m f => Sys2Proof.Machine.execVsrlVi d a im m f s
  | .vsraVv d a b m f => Sys2Proof.Machine.execVsraVv d a b m f s
  | .vsraVi d a im m f => Sys2Proof.Machine.execVsraVi d a im m f s
  | .vfmaVv d a b m f => Sys2Proof.Machine.execVfmaVv d a b m f s
  | .vfmaVs d a b m f => Sys2Proof.Machine.execVfmaVs d a b m f s
  | .vfmsVv d a b m f => Sys2Proof.Machine.execVfmsVv d a b m f s
  | .vfmsVs d a b m f => Sys2Proof.Machine.execVfmsVs d a b m f s
  | .vfnmaVv d a b m f => Sys2Proof.Machine.execVfnmaVv d a b m f s
  | .vfnmaVs d a b m f => Sys2Proof.Machine.execVfnmaVs d a b m f s
  | .vfnmsVv d a b m f => Sys2Proof.Machine.execVfnmsVv d a b m f s
  | .vfnmsVs d a b m f => Sys2Proof.Machine.execVfnmsVs d a b m f s
  | .vceqVv d a b m f => Sys2Proof.Machine.execVceqVv d a b m f s
  | .vceqVs d a b m f => Sys2Proof.Machine.execVceqVs d a b m f s
  | .vcneVv d a b m f => Sys2Proof.Machine.execVcneVv d a b m f s
  | .vcltVv d a b m f => Sys2Proof.Machine.execVcltVv d a b m f s
  | .vcltVs d a b m f => Sys2Proof.Machine.execVcltVs d a b m f s
  | .vcleVv d a b m f => Sys2Proof.Machine.execVcleVv d a b m f s
  | .vcleVs d a b m f => Sys2Proof.Machine.execVcleVs d a b m f s
  | .vcgtVs d a b m f => Sys2Proof.Machine.execVcgtVs d a b m f s
  | .vsel d a b m => Sys2Proof.Machine.execVsel d a b m s
  | .vmand d a b => Sys2Proof.Machine.execVmand d a b s
  | .vmor d a b => Sys2Proof.Machine.execVmor d a b s
  | .vmxor d a b => Sys2Proof.Machine.execVmxor d a b s
  | .vmandn d a b => Sys2Proof.Machine.execVmandn d a b s
  | .vmnot d a => Sys2Proof.Machine.execVmnot d a s
  | .vmpopc d a m => Sys2Proof.Machine.execVmpopc d a m s
  | .vmfirst d a m => Sys2Proof.Machine.execVmfirst d a m s
  | .vmvVv d a m => Sys2Proof.Machine.execVmvVv d a m s
  | .vbcVs d b m => Sys2Proof.Machine.execVbcVs d b m s
  | .vbcVi d im m => Sys2Proof.Machine.execVbcVi d im m s
  | .vmvSv d a b => Sys2Proof.Machine.execVmvSv d a b s
  | .vmvVs d b => Sys2Proof.Machine.execVmvVs d b s
  | .vclass d a m f => Sys2Proof.Machine.execVclass d a m f s
  | .viota d a m => Sys2Proof.Machine.execViota d a m s
  | .vidx d m => Sys2Proof.Machine.execVidx d m s
  | .vcvt d a m f => Sys2Proof.Machine.execVcvt d a m f s
  | .vsqrt d a m f => Sys2Proof.Machine.execVsqrt d a m f s
  | .vrcp d a m f => Sys2Proof.Machine.execVrcp d a m f s
  | .vrsqrt d a m f => Sys2Proof.Machine.execVrsqrt d a m f s
  | .vexp2 d a m f => Sys2Proof.Machine.execVexp2 d a m f s
  | .vlog2 d a m f => Sys2Proof.Machine.execVlog2 d a m f s
  | .vtanh d a m f => Sys2Proof.Machine.execVtanh d a m f s
  | .vround d a m f => Sys2Proof.Machine.execVround d a m f s
  | .vredsumO d a b m f => Sys2Proof.Machine.execVredsumO d a b m f s
  | .vredsumT d a b m f => Sys2Proof.Machine.execVredsumT d a b m f s
  | .vredsumU d a b m f => Sys2Proof.Machine.execVredsumU d a b m f s
  | .vredmaxT d a b m f => Sys2Proof.Machine.execVredmaxT d a b m f s
  | .vredminT d a b m f => Sys2Proof.Machine.execVredminT d a b m f s
  | .vredandT d a b m f => Sys2Proof.Machine.execVredandT d a b m f s
  | .vredorT d a b m f => Sys2Proof.Machine.execVredorT d a b m f s
  | .vredxorT d a b m f => Sys2Proof.Machine.execVredxorT d a b m f s
  | .vscanAdd d a b m f => Sys2Proof.Machine.execVscanAdd d a b m f s
  | .vscanAddx d a b m f => Sys2Proof.Machine.execVscanAddx d a b m f s
  | .vscanMax d a b m f => Sys2Proof.Machine.execVscanMax d a b m f s
  | .vscanMin d a b m f => Sys2Proof.Machine.execVscanMin d a b m f s
  | .vscanAddU d a b m f => Sys2Proof.Machine.execVscanAddU d a b m f s
  | .vrowred d a m f => Sys2Proof.Machine.execVrowred d a m f s
  | .vscaleVs d a b m f => Sys2Proof.Machine.execVscaleVs d a b m f s
  | .vcomp d a m => Sys2Proof.Machine.execVcomp d a m s
  | .vexpand d a m => Sys2Proof.Machine.execVexpand d a m s
  | .vperm d a b m => Sys2Proof.Machine.execVperm d a b m s
  | .vrev d a m => Sys2Proof.Machine.execVrev d a m s
  | .vrotVs d a b m => Sys2Proof.Machine.execVrotVs d a b m s
  | .vbcaste d a b m => Sys2Proof.Machine.execVbcaste d a b m s
  | .vzip d a b m => Sys2Proof.Machine.execVzip d a b m s
  | .vunzip d a m => Sys2Proof.Machine.execVunzip d a m s
  | .vsort d a m f => Sys2Proof.Machine.execVsort d a m f s
  | .vsortd d a m f => Sys2Proof.Machine.execVsortd d a m f s
  | .vsortkv d a b m f => Sys2Proof.Machine.execVsortkv d a b m f s
  | .vtopk d a b m f => Sys2Proof.Machine.execVtopk d a b m f s
  | .vmerge d a b m f => Sys2Proof.Machine.execVmerge d a b m f s
  | .vmergeu d a b m f => Sys2Proof.Machine.execVmergeu d a b m f s
  | .vrank d a m f => Sys2Proof.Machine.execVrank d a m f s
  | .bfPass d a k m l q => Sys2Proof.Machine.execBfPass d a k m l q s
  | .bfLoad a b q => Sys2Proof.Machine.execBfLoad a b q s
  | .bfClr q => Sys2Proof.Machine.execBfClr q s
  | .bfStat d => Sys2Proof.Machine.execBfStat d s
  | .vld d a m e => Sys2Proof.Machine.execVld d a m e s
  | .vlds d a b m e => Sys2Proof.Machine.execVlds d a b m e s
  | .vldx d a b m e => Sys2Proof.Machine.execVldx d a b m e s
  | .vldq d b m e => Sys2Proof.Machine.execVldq d b m e s
  | .vldr d a b m e => Sys2Proof.Machine.execVldr d a b m e s
  | .vpf a m e => Sys2Proof.Machine.execVpf a m e s
  | .vgl d a b m e => Sys2Proof.Machine.execVgl d a b m e s
  | .vst d a m e => Sys2Proof.Machine.execVst d a m e s
  | .vsts d a b m e => Sys2Proof.Machine.execVsts d a b m e s
  | .vstx d a b m e => Sys2Proof.Machine.execVstx d a b m e s
  | .vstxUn d a b m e => Sys2Proof.Machine.execVstxUn d a b m e s
  | .vstq d b m e => Sys2Proof.Machine.execVstq d b m e s
  | .vstr d a b m e => Sys2Proof.Machine.execVstr d a b m e s
  | .vsc d a b m e => Sys2Proof.Machine.execVsc d a b m e s
  | .vamoAdd d a b m e => Sys2Proof.Machine.execVamoAdd d a b m e s
  | .vamoMin d a b m e => Sys2Proof.Machine.execVamoMin d a b m e s
  | .vamoMax d a b m e => Sys2Proof.Machine.execVamoMax d a b m e s
  | .vamoAnd d a b m e => Sys2Proof.Machine.execVamoAnd d a b m e s
  | .vamoOr d a b m e => Sys2Proof.Machine.execVamoOr d a b m e s
  | .vamoXor d a b m e => Sys2Proof.Machine.execVamoXor d a b m e s
  | .vamoSwap d a b m e => Sys2Proof.Machine.execVamoSwap d a b m e s
  | .vamoAddUn d a b m e => Sys2Proof.Machine.execVamoAddUn d a b m e s
  | .vcopy d a b m e => Sys2Proof.Machine.execVcopy d a b m e s
  | .vwait d a b m e => Sys2Proof.Machine.execVwait d a b m e s
  | .vamofAdd d a b m e => Sys2Proof.Machine.execVamofAdd d a b m e s
  | .vamofSwap d a b m e => Sys2Proof.Machine.execVamofSwap d a b m e s
  | .vqset a b => Sys2Proof.Machine.execVqset a b s
  | .vqget a b => Sys2Proof.Machine.execVqget a b s
  | .wred d a b e => Sys2Proof.Machine.execWred d a b e s
  | .wfin d a b => Sys2Proof.Machine.execWfin d a b s
  | .wpoll d a => Sys2Proof.Machine.execWpoll d a s
  | .mma sa im rep f mode a m => Sys2Proof.Machine.execMma sa im rep f mode a m s
  | .mlatch b f => Sys2Proof.Machine.execMlatch b f s
  | .mzero sa im rep => Sys2Proof.Machine.execMzero sa im rep s
  | .mrd d sa im rep f => Sys2Proof.Machine.execMrd d sa im rep f s
  | .mwr sa im rep a f => Sys2Proof.Machine.execMwr sa im rep a f s
  | .mld sa im rep b => Sys2Proof.Machine.execMld sa im rep b s
  | .mst sa im rep b => Sys2Proof.Machine.execMst sa im rep b s
  | .cAdd b => Sys2Proof.Machine.execCAdd b s
  | .cSub b => Sys2Proof.Machine.execCSub b s
  | .cAnd b => Sys2Proof.Machine.execCAnd b s
  | .cOr b => Sys2Proof.Machine.execCOr b s
  | .cXor b => Sys2Proof.Machine.execCXor b s
  | .cAddi b im => Sys2Proof.Machine.execCAddi b im s
  | .cSlli im => Sys2Proof.Machine.execCSlli im s
  | .cLd b im => Sys2Proof.Machine.execCLd b im s
  | .cSt b im => Sys2Proof.Machine.execCSt b im s
  | .cMv b => Sys2Proof.Machine.execCMv b s
  | .cBeqz b im => Sys2Proof.Machine.execCBeqz b im s
  | .cBnez b im => Sys2Proof.Machine.execCBnez b im s
  | .cVadd b => Sys2Proof.Machine.execCVadd b s
  | .cVmul b => Sys2Proof.Machine.execCVmul b s
  | .cVfma b c => Sys2Proof.Machine.execCVfma b c s
  | .reeveInstruction r short => Sys2Proof.Machine.execReeveInstruction r short s
  | .handDataCacheEviction c line => Sys2Proof.Machine.execHandDataCacheEviction c line s
  | .hostReadCompletion t ok data => Sys2Proof.Machine.execHostReadCompletion t ok data s
  | .powerClampRelease => Sys2Proof.Machine.execPowerClampRelease s
  | .jtagDebugRequest c q => Sys2Proof.Machine.execJtagDebugRequest c q s

end Sys2Proof.Machine
end

