-- ==== Sys2Proof/Machine/Sched.lean ====
section
/-!
DEFINITION. Which agent moves next and what its move comes to (log 1): the agenda, a free pick where the agenda is empty, the time that
passes in a step (R5, log 6), and the place where the next instruction is fetched.
-/

namespace Sys2Proof.Machine

/-- A step without an encoding, other than a reeve's instruction: it happens as an event of the agenda. -/
def isEvent (i : Instr) : Bool :=
  match i with
  | .reeveInstruction _ _ => false
  | i => decide (encode i = .none)

/-- The device's own events, by number: an event whose condition does not hold changes nothing (log 7).  What comes from outside the
device or its silicon (a register write, a host access, a flit, a measured power or temperature, an error, a decision of the
steward) happens only as an event of the agenda. -/
noncomputable def internalEvent (n : Nat) : Instr :=
  let a := n / 64
  let h := a % Config.numHands
  let c := a % Config.numCores
  let ch := a % 1024
  let k := a / 2048
  match n % 64 with
  | 0 => .slotHeaderRead (a % 64)
  | 1 => .slotHeaderReread (a % 64)
  | 2 => .placeFarm (a % 16)
  | 3 => .quantumExpiry (a % 16)
  | 4 => .preemptSave a
  | 5 => .farmResume a
  | 6 => .setDone a
  | 7 => .holdSafePoint h
  | 8 => .heldEntry h
  | 9 => .stopTakesEffect h
  | 10 => .abandonOff h
  | 11 => .waitConditionMet h
  | 12 => .yieldExpiry h
  | 13 => .blockFetchArrival h
  | 14 => .nextBufferFill h
  | 15 => .kwaitComplete c
  | 16 => .rename c
  | 17 => .microOpIssue c
  | 18 => .microOpStarved c
  | 19 => .rowWritten c (k % 96)
  | 20 => .retire h
  | 21 => .returnQueueWrite h
  | 22 => .branchQueueOutcome h
  | 23 => .scalarStorePerform h
  | 24 => .elementPerform h
  | 25 => .migrationRewalk h
  | 26 => .migrationHoldTimeout h
  | 27 => .domainInvalidate c
  | 28 => .invalidateAckTimeout c
  | 29 => .tokenRefill
  | 30 => .consumedReset
  | 31 => .tokenGrant (a % Config.slices)
  | 32 => .readRequest ch
  | 33 => .writeRequest ch
  | 34 => .readReply ch (k % 128)
  | 35 => .writeReply ch (k % 128)
  | 36 => .copyChunkComplete h (k % 4) (k / 4 % 65536)
  | 37 => .vwaitReread h
  | 38 => .vwaitTimeout h
  | 39 => .wfinReread h
  | 40 => .wfinTimeout h
  | 41 => .groupCreate c
  | 42 => .groupDestroy c
  | 43 => .whistleInput a
  | 44 => .whistleBlow (a % 2 ^ 20) (a / 2 ^ 20 % 4096) (a / 2 ^ 32)
  | 45 => .retentionExpiry (a % 2 ^ 20) (a / 2 ^ 20 % 4096) (a / 2 ^ 32)
  | 46 => .dropNotice a
  | 47 => .delivery a
  | 48 => .deliveryKeepExpiry (a % 2 ^ 20) (a / 2 ^ 20 % 4096) (a / 2 ^ 32)
  | 49 => .instanceAccept (a % 2 ^ 20) (a / 2 ^ 20)
  | 50 => .remoteRequest a
  | 51 => .remoteReply a
  | 52 => .remoteTimeout a false
  | 53 => .preciseFaultPark h
  | 54 => .impreciseFaultPark h
  | 55 => .foulWindowReset c (k % 8)
  | 56 => .attestation c
  | 57 => .powerClampRelease
  | 58 => .fallbackEntry (a % Config.coreGroups)
  | 59 => .endCompletionAdd h
  | 60 => .handDataCacheEviction c (a / Config.numCores)
  | 61 => .calibration ch
  | _ => .consumedReset

/-- The turn that a free value picks: a hand, a reeve or a steward core, or an event of the device. -/
noncomputable def freeTurn (n : Nat) : Turn :=
  match n % 3 with
  | 0 => .hand (n / 3 % Config.numHands)
  | 1 => .reeve (n / 3 % (Config.numCores + Config.numStewards))
  | _ => .event (internalEvent (n / 3))

/-- The turn that comes next: the first of the agenda, or a pick (log 1). -/
noncomputable def nextTurn (s : State) : Turn :=
  match s.agenda with
  | t :: _ => t
  | [] => freeTurn (Config.freeNat s.choice)

/-- A free number of the step for one place. -/
def freeIndex (s : State) (place : Nat) : Nat := 2 ^ 64 * (s.choice + 1) + place

/-- Time passes, on each clock by a free amount of its own (R5), and free values are drawn for a step (log 2, 6, 21); the turn leaves the
agenda. -/
def clocks (s : State) : State :=
  { s with
    agenda := s.agenda.drop 1
    tick := s.tick + Config.freeTicks s.choice
    gtick := (List.range Config.coreGroups).map fun g => (g, s.groupTick g + Config.freeTicks (freeIndex s g))
    lockstep := decide (Config.freeNat (s.choice + 1) % 2 = 0)
    choice := s.choice + 2
    cores := s.cores.map fun c => (c.1, { c.2 with
      cyc := c.2.cyc + BitVec.ofNat 64 (Config.freeCycles (s.choice * 256 + c.1))
      vmu := c.2.vmu + Config.freeCycles (freeIndex s c.1) }) }

/-- Time passes, and the blocks' deliveries (R298) and the host's misaligned accesses go on (R276). -/
def passTime (s : State) : State := pumpHost (pumpDeliveries (clocks s))

/-- A scalar cycle of a core, in which one of its hands moves. -/
def tickCore (s : State) (c : Nat) : State := s.setCore c { s.core c with cyc := (s.core c).cyc + 1 }

/-- The reeve of a core, or a steward core, runs (R356): the mask ROM's steward core from stage 1 on, the other stewards once stage 2 has
started them, a core's reeve once the steward has loaded the partitions in stage 3; none after the boot has halted. -/
def State.reeveStarted (s : State) (c : Nat) : Bool :=
  if c = Config.numCores then s.booted 0 else if Config.numCores < c then s.booted 2 else s.booted 3

/-- What a turn comes to. -/
noncomputable def prepare (s : State) (t : Turn) : Prepared :=
  match t with
  | .hand h => if h < Config.numHands then handTurn (tickCore s (coreOf h)) h else .done s
  | .reeve c => if c < Config.numCores + Config.numStewards ∧ s.reeveStarted c then reeveTurn s c else .done s
  | .event i => if isEvent i then .run i s else .done s

/-- After a thermal shutdown only a reset has an effect (Table 20.4). -/
noncomputable def stillStep (s : State) : Prepared :=
  match s.agenda with
  | .event .deviceReset :: _ => .run .deviceReset { s with agenda := s.agenda.drop 1 }
  | _ => .done { s with agenda := s.agenda.drop 1 }

/-- What the next step comes to. -/
noncomputable def prepared (s : State) : Prepared := if s.shutdown then stillStep s else prepare (passTime s) (nextTurn s)

/-! ## Placing an instruction where the next step fetches it (log 24) -/

/-- A hand that runs in Fetch with one block in its current buffer, at the block's first byte. -/
def Hand.atBlock (x : Hand) (bytes : List Byte) : Hand :=
  { x with st := .fetch, pc := 0, cur := some { base := 0, bytes := bytes, failed := none } }

/-- The words of an instruction at hand 0's program counter; the hand moves next. -/
def placeHandWord (s : State) (w : Nat) : State :=
  { s.setHand 0 ((s.hand 0).atBlock (leBytes 64 w)) with agenda := [.hand 0] }

/-- A word at reeve 0's program counter; the boot is over and the reeve moves next. -/
def placeReeveWord (s : State) (w : Nat) : State :=
  { s with mem := memPut s.mem ((s.reeve 0).pc.toNat) (leBytes 4 w), boot := 5, agenda := [.reeve 0] }

end Sys2Proof.Machine
end

