-- ==== Sys2Proof/Machine/Step.lean ====
section
/-!
DEFINITION. One step of the machine: the turn that comes next, and the meaning of its instruction.
-/

namespace Sys2Proof.Machine

/-- One step. -/
noncomputable def step (s : State) : Host.Outcome State Fault Refusal :=
  match prepared s with
  | .done t => .next t
  | .run i t => exec i t

/-- The machine with an instruction stored where the next step fetches it (log 24): a word of custom-0 for reeve 0, any other for
hand 0. -/
noncomputable def State.withFetchWord (s : State) (nbits w : Nat) : State :=
  let x := w % 2 ^ nbits
  if isXkryWord x then placeReeveWord s x else placeHandWord s x

end Sys2Proof.Machine
end

