-- ==== Sys2Proof/Safety.lean ====
section
/-!
DEFINITION. What counts as a well-formed machine (the invariant that every step keeps), and as a safe outcome of a step.
-/

namespace Sys2Proof.Machine

/-- Memory in its canonical form: DRAM and every scratchpad. -/
def State.memoriesWf (s : State) : Bool := s.mem.wf && s.cores.all fun c => c.2.spad.wf

/-- A step that goes on: no fault and no refusal. -/
def goesOn (r : Res) : Prop := ∃ t, r = .next t

end Sys2Proof.Machine
end

