-- ==== Sys2Proof/Certificates/Slice0/Obligations.lean ====
section
/-!
DEFINITION. The statements for the provers, with the tables of the manual that they are stated in (namespace Spec).
-/

namespace Sys2Proof.Spec

open Sys2Proof.Machine

/-! ## Words of the statements -/

/-- No stop and no hold pends at the running hand. -/
def Quiet (s : State) : Prop := s.me.stopReq = none ∧ s.me.holdReq = none ∧ s.me.placed = false

/-- None of the registers waits for a result of the execute stream (R103). -/
def Ready (s : State) (rs : List Reg) : Prop := ∀ r ∈ rs, s.me.pending r = false

/-- A hand after an instruction of `len` bytes: the program counter has moved on, and a Block hand at the end of its block is
Idle (R49, R54). -/
def stepped (x : Hand) (len : Nat) : Hand :=
  let pc := x.pc + BitVec.ofNat 64 len
  { x with pc := pc, st := if x.st = .block ∧ pc.toNat = x.blk + 64 then .idle else x.st }

/-- S[d] ← v with sld ← d; s0 stays 0 (Table 0.2, R93). -/
def setReg (x : Hand) (d : Reg) (v : Word) : Hand :=
  let y := if d = 0 then x else { x with s := x.s.set d.toNat v d.isLt }
  { y with lastd := (y.lastd &&& 0x1F00#64) ||| d.setWidth 64 }

/-- What a scalar instruction that computes does: destination, value, registers it names, length. -/
structure Scalar where
  d    : Reg
  v    : Word
  regs : List Reg
  len  : Nat
  deriving DecidableEq, Repr

/-- A truth value as a doubleword. -/
def bit (b : Bool) : Word := if b then 1 else 0

/-- Table 5.4, `lim`, `lsh` (R114) and the compressed forms of them (R97), on the registers of hand x. -/
def scalarOp (x : Hand) : Instr → Option Scalar
  | .add d a b => some ⟨d, x.rd a + x.rd b, [d, a, b], 4⟩
  | .sub d a b => some ⟨d, x.rd a - x.rd b, [d, a, b], 4⟩
  | .and d a b => some ⟨d, x.rd a &&& x.rd b, [d, a, b], 4⟩
  | .or d a b => some ⟨d, x.rd a ||| x.rd b, [d, a, b], 4⟩
  | .xor d a b => some ⟨d, x.rd a ^^^ x.rd b, [d, a, b], 4⟩
  | .sll d a b => some ⟨d, x.rd a <<< ((x.rd b).toNat % 64), [d, a, b], 4⟩
  | .srl d a b => some ⟨d, x.rd a >>> ((x.rd b).toNat % 64), [d, a, b], 4⟩
  | .sra d a b => some ⟨d, (x.rd a).sshiftRight ((x.rd b).toNat % 64), [d, a, b], 4⟩
  | .slt d a b => some ⟨d, bit (decide ((x.rd a).toInt < (x.rd b).toInt)), [d, a, b], 4⟩
  | .sltn d a b => some ⟨d, bit (decide ((x.rd a).toNat < (x.rd b).toNat)), [d, a, b], 4⟩
  | .mul d a b => some ⟨d, x.rd a * x.rd b, [d, a, b], 4⟩
  | .mulh d a b => some ⟨d, BitVec.ofInt 64 ((x.rd a).toInt * (x.rd b).toInt / 2 ^ 64), [d, a, b], 4⟩
  | .mulhn d a b => some ⟨d, BitVec.ofNat 64 ((x.rd a).toNat * (x.rd b).toNat / 2 ^ 64), [d, a, b], 4⟩
  | .min d a b => some ⟨d, if (x.rd a).toInt < (x.rd b).toInt then x.rd a else x.rd b, [d, a, b], 4⟩
  | .max d a b => some ⟨d, if (x.rd a).toInt < (x.rd b).toInt then x.rd b else x.rd a, [d, a, b], 4⟩
  | .minn d a b => some ⟨d, if (x.rd a).toNat < (x.rd b).toNat then x.rd a else x.rd b, [d, a, b], 4⟩
  | .maxn d a b => some ⟨d, if (x.rd a).toNat < (x.rd b).toNat then x.rd b else x.rd a, [d, a, b], 4⟩
  | .addi d a im => some ⟨d, x.rd a + im.signExtend 64, [d, a], 4⟩
  | .andi d a im => some ⟨d, x.rd a &&& im.signExtend 64, [d, a], 4⟩
  | .ori d a im => some ⟨d, x.rd a ||| im.signExtend 64, [d, a], 4⟩
  | .xori d a im => some ⟨d, x.rd a ^^^ im.signExtend 64, [d, a], 4⟩
  | .slti d a im => some ⟨d, bit (decide ((x.rd a).toInt < (im.signExtend 64).toInt)), [d, a], 4⟩
  | .slli d a im => some ⟨d, x.rd a <<< im.toNat, [d, a], 4⟩
  | .srli d a im => some ⟨d, x.rd a >>> im.toNat, [d, a], 4⟩
  | .srai d a im => some ⟨d, (x.rd a).sshiftRight im.toNat, [d, a], 4⟩
  | .lim d im => some ⟨d, im.signExtend 64, [d], 4⟩
  | .lsh d im => some ⟨d, (x.rd d <<< 19) ||| im.setWidth 64, [d], 4⟩
  | .cAdd b => some ⟨x.sld, x.rd x.sld + x.rd b, [x.sld, b], 2⟩
  | .cSub b => some ⟨x.sld, x.rd x.sld - x.rd b, [x.sld, b], 2⟩
  | .cAnd b => some ⟨x.sld, x.rd x.sld &&& x.rd b, [x.sld, b], 2⟩
  | .cOr b => some ⟨x.sld, x.rd x.sld ||| x.rd b, [x.sld, b], 2⟩
  | .cXor b => some ⟨x.sld, x.rd x.sld ^^^ x.rd b, [x.sld, b], 2⟩
  | .cAddi b im => some ⟨x.sld, x.rd x.sld + (b ++ im).signExtend 64, [x.sld], 2⟩
  | .cSlli im => some ⟨x.sld, x.rd x.sld <<< im.toNat, [x.sld], 2⟩
  | .cMv b => some ⟨x.sld, x.rd b, [x.sld, b], 2⟩
  | _ => none

/-- Taken, target, registers named and length of a branch (R117, R97). -/
structure Jump where
  taken  : Bool
  target : Word
  regs   : List Reg
  len    : Nat
  deriving DecidableEq, Repr

/-- The branches of R117 and their compressed forms (R97). -/
def branchOp (x : Hand) : Instr → Option Jump
  | .beq a b o => some ⟨decide (x.rd a = x.rd b), x.pc + (o.signExtend 64 <<< 1), [a, b], 4⟩
  | .bne a b o => some ⟨decide (x.rd a ≠ x.rd b), x.pc + (o.signExtend 64 <<< 1), [a, b], 4⟩
  | .blt a b o => some ⟨decide ((x.rd a).toInt < (x.rd b).toInt), x.pc + (o.signExtend 64 <<< 1), [a, b], 4⟩
  | .bge a b o => some ⟨decide ((x.rd b).toInt ≤ (x.rd a).toInt), x.pc + (o.signExtend 64 <<< 1), [a, b], 4⟩
  | .bltn a b o => some ⟨decide ((x.rd a).toNat < (x.rd b).toNat), x.pc + (o.signExtend 64 <<< 1), [a, b], 4⟩
  | .bgen a b o => some ⟨decide ((x.rd b).toNat ≤ (x.rd a).toNat), x.pc + (o.signExtend 64 <<< 1), [a, b], 4⟩
  | .bbs a b o => some ⟨(x.rd a).getLsbD ((x.rd b).toNat % 64), x.pc + (o.signExtend 64 <<< 1), [a, b], 4⟩
  | .bbc a b o => some ⟨!(x.rd a).getLsbD ((x.rd b).toNat % 64), x.pc + (o.signExtend 64 <<< 1), [a, b], 4⟩
  | .cBeqz b im => some ⟨decide (x.rd x.sld = 0), x.pc + ((b ++ im).signExtend 64 <<< 1), [x.sld], 2⟩
  | .cBnez b im => some ⟨decide (x.rd x.sld ≠ 0), x.pc + ((b ++ im).signExtend 64 <<< 1), [x.sld], 2⟩
  | _ => none

/-- A hand whose control goes to t: a Block hand whose target lies outside its block enters Fetch, with an empty next buffer
(R54, R68). -/
def jumped (x : Hand) (t : Word) : Hand :=
  if x.st = .block ∧ (t.toNat < x.blk ∨ x.blk + 64 ≤ t.toNat) then { x with pc := t, st := .fetch, nxt := none }
  else { x with pc := t }

/-- A division: destination, operand registers, value and flag (R113). -/
structure Division where
  d    : Reg
  a    : Reg
  b    : Reg
  v    : Word
  flag : Word
  deriving DecidableEq, Repr

/-- The edge cases of R113: the flag that a division raises. -/
def divisionFlag (signed : Bool) (x y : Word) : Word :=
  if y = 0 then 0x08#64 else if signed ∧ x = 0x8000000000000000#64 ∧ y = allOnes then 0x20#64 else 0

/-- R113 on the registers of hand x: quotients truncate toward zero, remainders have the sign of the dividend. -/
def divisionOp (x : Hand) : Instr → Option Division
  | .div d a b =>
    let p := x.rd a
    let q := x.rd b
    some ⟨d, a, b, if q = 0 then allOnes else BitVec.ofInt 64 (p.toInt.tdiv q.toInt), divisionFlag true p q⟩
  | .divn d a b =>
    let p := x.rd a
    let q := x.rd b
    some ⟨d, a, b, if q = 0 then allOnes else BitVec.ofNat 64 (p.toNat / q.toNat), divisionFlag false p q⟩
  | .rem d a b =>
    let p := x.rd a
    let q := x.rd b
    some ⟨d, a, b, if q = 0 then p else BitVec.ofInt 64 (p.toInt.tmod q.toInt), divisionFlag true p q⟩
  | .remn d a b =>
    let p := x.rd a
    let q := x.rd b
    some ⟨d, a, b, if q = 0 then p else BitVec.ofNat 64 (p.toNat % q.toNat), divisionFlag false p q⟩
  | _ => none

/-- v counts the zero bits of x above its highest 1 bit (Table 5.4). -/
def CountsLeading (x v : Word) : Prop :=
  (x = 0 ∧ v = 64) ∨ (v.toNat < 64 ∧ x.getLsbD (63 - v.toNat) = true ∧ ∀ k, 63 - v.toNat < k → x.getLsbD k = false)

/-- v counts the zero bits of x below its lowest 1 bit (Table 5.4). -/
def CountsTrailing (x v : Word) : Prop :=
  (x = 0 ∧ v = 64) ∨ (v.toNat < 64 ∧ x.getLsbD v.toNat = true ∧ ∀ k, k < v.toNat → x.getLsbD k = false)

/-- The instruction writes a register s(d) with a value that P describes, and nothing else but sld and the program counter. -/
def Writes (s : State) (i : Instr) (d : Reg) (P : Word → Prop) : Prop :=
  ∃ v, P v ∧ exec i s = .next (s.setMe (stepped (setReg s.me d v) 4))

/-- A hand's program counter and state after an instruction that waits (R48, R49). -/
def waits (x : Hand) (w : WaitOn) (arrived : Option Bool) : Hand :=
  { x with st := .wait, resume := x.resumeNow, waiting := some w, arrived := arrived }

/-- A hand with no older work, which takes a precise fault at once: nothing dispatched, and every scalar store performed and
acknowledged (R314, R305). -/
def Clear (s : State) : Prop :=
  s.me.rq = [] ∧ s.me.sb = [] ∧ s.me.unacked = [] ∧ s.me.dieWrites = [] ∧ s.me.retq = [] ∧ s.me.fencing = false

/-- t is s after the running hand has parked with a precise fault (R314, R315, R318, R322): only the hand, its reservations, its
micro-ops in the window, its bit of `hpend` and the cached leaves of the page that faulted change (R218). -/
def ParkedWith (s t : State) (cause sub : Nat) (addr apc : Word) : Prop :=
  t.me.st = .parked ∧ t.me.resume = s.me.resumeNow ∧ t.me.pc = apc
    ∧ t.me.frame = { replay := 0, resume := s.me.resumeNow, cls := 0, sub := sub, cause := cause, apc := apc, fpc := s.me.pc
                     addr := addr, elem := 0, cyc := (s.core (coreOf s.curHand)).cyc }
    ∧ t.me.s = s.me.s ∧ t.me.v = s.me.v ∧ t.me.lastd = s.me.lastd ∧ t.me.fflags = s.me.fflags
    ∧ (∀ k, t.me.rd k = s.me.rd k) ∧ t.mem = s.mem ∧ t.queues = s.queues ∧ t.parts = s.parts
    ∧ t.farms = s.farms ∧ t.outs = s.outs ∧ t.hostq = s.hostq
    ∧ (∀ h, h ≠ s.curHand → t.hand h = s.hand h)
    ∧ (∀ c, (t.core c).spad = (s.core c).spad ∧ (t.core c).acc = (s.core c).acc ∧ (t.core c).dcache = (s.core c).dcache)
    ∧ (∀ g, (s.curHand, g) ∉ t.resv)
    ∧ (t.reeve (coreOf s.curHand)).hpend = (s.reeve (coreOf s.curHand)).hpend ||| (1#64 <<< (s.curHand % 16))

end Sys2Proof.Spec

section Scalar

open Sys2Proof Sys2Proof.Machine Sys2Proof.Spec

/-- R112, R114, R97: every ALU and ALUI instruction but the divisions and bit counts, `lim`, `lsh` and their compressed forms
write S[d] ← f(x, y), set sld, go on, and change nothing else. -/
def Sys2Proof.Spec.ScalarResults : Prop :=
  ∀ (s : State) (i : Instr) (r : Scalar), scalarOp s.me i = some r → Quiet s → Ready s r.regs →
    exec i s = .next (s.setMe (stepped (setReg s.me r.d r.v) r.len))

/-- R113: the four divisions, with their edge cases and sticky flags; nothing else changes. -/
def Sys2Proof.Spec.Divisions : Prop :=
  ∀ (s : State) (i : Instr) (r : Division), divisionOp s.me i = some r → Quiet s → Ready s [r.d, r.a, r.b] →
    exec i s = .next (s.setMe (stepped (setReg { s.me with fflags := s.me.fflags ||| r.flag } r.d r.v) 4))

/-- Table 5.4: `clz`, `ctz` and `popc` count the bits of S[a] that their names say; nothing else changes. -/
def Sys2Proof.Spec.BitCounts : Prop :=
  ∀ (s : State) (d a : Reg), Quiet s → Ready s [d, a] →
    Writes s (.clz d a) d (CountsLeading (s.me.rd a)) ∧ Writes s (.ctz d a) d (CountsTrailing (s.me.rd a))
      ∧ Writes s (.popc d a) d fun v => v.toNat = (List.range 64).countP fun k => (s.me.rd a).getLsbD k

/-- R112, R113, R114, R97: the scalar instructions that compute, the divisions with their corners, and the bit counts: each
completes with its result in S[d] and the program counter moved on. -/
def Obligations.ScalarArithmetic : Prop := Spec.ScalarResults ∧ Spec.Divisions ∧ Spec.BitCounts

/-- R117, R68, R97: a branch whose condition holds goes to its target, else to the next instruction; nothing else changes. -/
def Sys2Proof.Spec.Branches : Prop :=
  ∀ (s : State) (i : Instr) (j : Jump), branchOp s.me i = some j → Quiet s → Ready s j.regs →
    exec i s = .next (s.setMe (if j.taken then jumped s.me j.target else stepped s.me j.len))

/-- R117, R68: `jal`, `jalr` with an even target, and `go` with an even target. -/
def Sys2Proof.Spec.Jumps : Prop :=
  ∀ (s : State) (d a : Reg) (o : BitVec 19) (im : BitVec 11), Ready s [d, a] →
    exec (.jal d o) s = .next (s.setMe (jumped (setReg s.me d (s.me.pc + 4)) (s.me.pc + (o.signExtend 64 <<< 1))))
    ∧ ((s.me.rd a + im.signExtend 64).getLsbD 0 = false →
        exec (.jalr d a im) s
          = .next (s.setMe (jumped (setReg s.me d (s.me.pc + 4)) (s.me.rd a + im.signExtend 64))))
    ∧ ((s.me.rd a).getLsbD 0 = false →
        exec (.go a) s = .next (s.setMe { s.me with pc := s.me.rd a, st := .fetch, nxt := none }))

/-- R70, R96: `stop` makes the hand Idle, `yield` puts it in Wait, HINT only moves the program counter. -/
def Sys2Proof.Spec.StopYieldHint : Prop :=
  ∀ (s : State) (im : BitVec 24), Quiet s →
    exec .stop s = .next (s.setMe { s.me with st := .idle, pc := s.me.pc + 4 })
    ∧ exec .yield s = .next (s.setMe (waits s.me (.yield (s.core (coreOf s.curHand)).cyc) none))
    ∧ exec (.hint im) s = .next (s.setMe (stepped s.me 4))

/-- R119, R314, R315: `ecall` and `ebreak` park the hand with their causes, and their frames record PC + 4. -/
def Sys2Proof.Spec.Calls : Prop :=
  ∀ (s : State), Clear s → s.me.stopReq = none →
    (∃ t, exec .ecall s = .next t ∧ ParkedWith s t 0x0E 0 0 (s.me.pc + 4))
      ∧ ∃ t, exec .ebreak s = .next t ∧ ParkedWith s t 0x0F 0 0 (s.me.pc + 4)

/-- R70, R96, R119, R314, R315: `stop`, `yield` and hints complete, and `ecall` and `ebreak` park the hand. -/
def Obligations.CallsAndStops : Prop := Spec.StopYieldHint ∧ Spec.Calls

/-- R117, R68: `jalr` and `go` to an odd target raise the misaligned fault, precise, and write nothing. -/
def Sys2Proof.Spec.OddTargets : Prop :=
  ∀ (s : State) (d a : Reg) (im : BitVec 11), Clear s → s.me.stopReq = none → Ready s [d, a] →
    ((s.me.rd a + im.signExtend 64).getLsbD 0 = true →
      ∃ t, exec (.jalr d a im) s = .next t ∧ ParkedWith s t 0x05 0 (s.me.rd a + im.signExtend 64) s.me.pc)
    ∧ ((s.me.rd a).getLsbD 0 = true → ∃ t, exec (.go a) s = .next t ∧ ParkedWith s t 0x05 0 (s.me.rd a) s.me.pc)

/-- R117, R68, R97: branches and jumps go to their target or on, and an odd target faults. -/
def Obligations.ControlTransfers : Prop := Spec.Branches ∧ Spec.Jumps ∧ Spec.OddTargets

end Scalar


/-! # Scalar memory -/

namespace Sys2Proof.Spec

open Sys2Proof.Machine

/-- The bytes of an access, the lowest first, as a doubleword: sign- or zero-extended (R115). -/
def extended (n : Nat) (signed : Bool) (bytes : List Byte) : Word :=
  if signed then (BitVec.ofNat (8 * n) (leValue bytes)).signExtend 64 else BitVec.ofNat 64 (leValue bytes)

/-- A load: destination, address, address registers, bytes, extension and length of the instruction. -/
structure Load where
  d      : Reg
  a      : Reg
  off    : Word
  n      : Nat
  signed : Bool
  len    : Nat
  deriving DecidableEq, Repr

/-- The plain loads (R115, R97). -/
def loadOp (x : Hand) : Instr → Option Load
  | .ldB d a im => some ⟨d, a, im.signExtend 64, 1, true, 4⟩
  | .ldH d a im => some ⟨d, a, im.signExtend 64, 2, true, 4⟩
  | .ldW d a im => some ⟨d, a, im.signExtend 64, 4, true, 4⟩
  | .ldD d a im => some ⟨d, a, im.signExtend 64, 8, true, 4⟩
  | .ldBn d a im => some ⟨d, a, im.signExtend 64, 1, false, 4⟩
  | .ldHn d a im => some ⟨d, a, im.signExtend 64, 2, false, 4⟩
  | .ldWn d a im => some ⟨d, a, im.signExtend 64, 4, false, 4⟩
  | .cLd b im => some ⟨x.sld, b, im.setWidth 64 <<< 3, 8, true, 2⟩
  | _ => none

/-- The address of a load (R111). -/
def Load.addr (l : Load) (x : Hand) : Word := x.rd l.a + l.off

/-- A store: source, base, offset, bytes and length of the instruction. -/
structure Store where
  b   : Reg
  a   : Reg
  off : Word
  n   : Nat
  len : Nat
  deriving DecidableEq, Repr

/-- The plain stores (R115, R97). -/
def storeOp (x : Hand) : Instr → Option Store
  | .stB b a im => some ⟨b, a, im.signExtend 64, 1, 4⟩
  | .stH b a im => some ⟨b, a, im.signExtend 64, 2, 4⟩
  | .stW b a im => some ⟨b, a, im.signExtend 64, 4, 4⟩
  | .stD b a im => some ⟨b, a, im.signExtend 64, 8, 4⟩
  | .cSt b im => some ⟨x.sld, b, im.setWidth 64 <<< 3, 8, 2⟩
  | _ => none

/-- The address of a store (R111). -/
def Store.addr (t : Store) (x : Hand) : Word := x.rd t.a + t.off

/-- Nothing older holds up a scalar access of n bytes at va (R107, R251, R305). -/
def Unblocked (s : State) (va : Word) (n : Nat) (isLoad : Bool) : Prop :=
  s.me.fenced = false ∧ s.me.acc = none ∧ s.me.mustWait va.toNat n isLoad = false

/-- The n bytes at va lie in the running hand's share of the scratchpad window, which lies inside the window (R206). -/
def InShare (s : State) (va : Word) (n : Nat) : Prop :=
  0 < n ∧ Config.spadBase + s.me.spb * 4096 ≤ va.toNat ∧ va.toNat + n ≤ Config.spadBase + (s.me.spb + s.me.spn) * 4096
    ∧ s.me.spb + s.me.spn ≤ Config.spadUnits

/-- The offset of an address in the scratchpad. -/
def spadOff (va : Word) : Nat := va.toNat - Config.spadBase

/-- The scratchpad of the running hand's core. -/
def mySpad (s : State) : Memory := (s.core (coreOf s.curHand)).spad

/-- The access is no misaligned one whose bytes are events of their own: the engines work in lockstep (log 2), or it is aligned (R276). -/
def Whole (s : State) (va : Word) (n : Nat) : Prop := s.lockstep = true ∨ va.toNat % n = 0

/-- The ports have the tokens for the transfers of an agent's access (R224). -/
def Paid (s : State) (a : Agent) (locs : List Loc) : Prop := (payFor s a locs).2 = true

/-- The running hand's older stores have performed, and no `fence.rel` marks its later ones (R106, R282). -/
def Drained (s : State) : Prop := s.me.sb = [] ∧ s.me.dieWrites = [] ∧ s.me.marks = []

/-- A hand after an access of n bytes at va has performed: it need not walk for its pages again (R217, R218). -/
def walkedOf (x : Hand) (va : Word) (n : Nat) (t : AccType) : Hand :=
  { x with walks := x.walks.filter fun w => !(pagesOf va n).any fun a => (a / 4096, t.cause) == w }

/-- The running hand after an access of n bytes at va has performed. -/
def walked (s : State) (va : Word) (n : Nat) (t : AccType) : Hand := walkedOf s.me va n t

/-- A misaligned load that has begun: it holds its bytes as it has read them, and waits (R276). -/
def tornLoad (x : Hand) (l : Load) (locs : List Loc) (bytes : List Byte) : Hand :=
  { x with acc := some { tag := 0, kind := .torn l.d l.n l.signed, addr := l.addr x, len := l.len, locs := locs, got := bytes } }

/-- The scratchpad bytes of the running hand's core from offset o on. -/
def spadLocs (s : State) (o n : Nat) : List Loc := (List.range n).map fun i => .spad (coreOf s.curHand) (o + i)

/-- None of the n bytes of the scratchpad from offset o on is poisoned (R325). -/
def SpadClean (s : State) (o n : Nat) : Prop := ∀ i, i < n → (o + i) / 32 ∉ (s.core (coreOf s.curHand)).spoison

/-- None of the bytes of DRAM is poisoned (R226). -/
def DramClean (s : State) (pas : List Nat) : Prop := ∀ pa ∈ pas, pa / 32 ∉ s.poison

/-- Cacheable DRAM bytes. -/
def dramLocs (pas : List Nat) : List Loc := pas.map fun pa => .dram pa false

/-- A hand after a load: S[d] ← v, sld ← d. -/
def loaded (x : Hand) (d : Reg) (v : Word) (len : Nat) : Hand := stepped (setReg { x with migHold := none } d v) len

/-- Memory with bytes written at addresses one by one. -/
def putAll (m : Memory) (pas : List Nat) (bs : List Byte) : Memory := (pas.zip bs).foldl (fun m p => memSet m p.1 p.2) m

/-- An AMO form with its operation (R116). -/
def amoForms : Instr → Option (AmoOp × Reg × Reg × Reg × BitVec 3 × BitVec 1)
  | .amoSwap d a b q w => some (.swap, d, a, b, q, w)
  | .amoAdd d a b q w => some (.add, d, a, b, q, w)
  | .amoAnd d a b q w => some (.and, d, a, b, q, w)
  | .amoOr d a b q w => some (.or, d, a, b, q, w)
  | .amoXor d a b q w => some (.xor, d, a, b, q, w)
  | .amoMax d a b q w => some (.max, d, a, b, q, w)
  | .amoMin d a b q w => some (.min, d, a, b, q, w)
  | .amoMaxn d a b q w => some (.maxn, d, a, b, q, w)
  | .amoMinn d a b q w => some (.minn, d, a, b, q, w)
  | .amoCas d a b q w => some (.cas, d, a, b, q, w)
  | _ => none

/-- The value that an AMO writes, on words of w bits: old, S[b], and S[d] as the expected value (R116). -/
def amoNew {w : Nat} (o : AmoOp) (old y e : BitVec w) : BitVec w :=
  match o with
  | .swap => y
  | .add => old + y
  | .and => old &&& y
  | .or => old ||| y
  | .xor => old ^^^ y
  | .max => if old.toInt < y.toInt then y else old
  | .min => if y.toInt < old.toInt then y else old
  | .maxn => if old.toNat < y.toNat then y else old
  | .minn => if y.toNat < old.toNat then y else old
  | .cas => if old = e then y else old
  | .complete => old

/-- Bytes of an AMO word (R116). -/
def amoBytes (w : BitVec 1) : Nat := if w = 1 then 4 else 8

/-- The hand data cache of the running hand's core holds no line. -/
def NoLines (s : State) : Prop := (s.core (coreOf s.curHand)).dcache = []

/-- What a scalar access to memory leaves of everything but the running hand, its core and the memory: every other hand, the
reeves, the queues, the farms, the partitions and what has been sent (the token buckets of the ports apart). -/
def Elsewhere (s t : State) : Prop :=
  t.curHand = s.curHand ∧ (∀ h, h ≠ s.curHand → t.hand h = s.hand h) ∧ (∀ c, c ≠ coreOf s.curHand → t.core c = s.core c)
    ∧ t.reeves = s.reeves ∧ t.queues = s.queues ∧ t.farms = s.farms ∧ t.parts = s.parts ∧ t.outs = s.outs ∧ t.hostq = s.hostq

end Sys2Proof.Spec

section ScalarMemory

open Sys2Proof Sys2Proof.Machine Sys2Proof.Spec

/-- R115, R111, R206, R276: a load inside the hand's share reads the scratchpad's bytes, writes S[d] and changes nothing else; a
misaligned one whose bytes are events of their own begins, with the bytes as they stand. -/
def Sys2Proof.Spec.ScratchpadLoads : Prop :=
  ∀ (s : State) (i : Instr) (l : Load), loadOp s.me i = some l → Quiet s → Ready s [l.d, l.a] → s.me.sb = [] →
    Unblocked s (l.addr s.me) l.n true → InShare s (l.addr s.me) l.n → SpadClean s (spadOff (l.addr s.me)) l.n →
    let bytes := memBytes (mySpad s) (spadOff (l.addr s.me)) l.n
    (Whole s (l.addr s.me) l.n → exec i s = .next (s.setMe (loaded s.me l.d (extended l.n l.signed bytes) l.len)))
    ∧ (¬ Whole s (l.addr s.me) l.n →
      exec i s = .next (s.setMe (tornLoad s.me l (spadLocs s (spadOff (l.addr s.me)) l.n) bytes)))

/-- R115, R111, R209, R224, R276: a load from cacheable DRAM of this device reads memory's bytes where no cache line or buffered store
stands before them and its transfers are paid for; memory is unchanged.  A misaligned one whose bytes are events of their own begins,
with the bytes as they stand; one that is not paid for waits. -/
def Sys2Proof.Spec.DramLoads : Prop :=
  ∀ (s : State) (i : Instr) (l : Load) (pas : List Nat), loadOp s.me i = some l → Quiet s → Ready s [l.d, l.a] → s.me.sb = [] →
    Unblocked s (l.addr s.me) l.n true → locate s s.curHand (l.addr s.me) l.n .load true = .ok (dramLocs pas) →
    DramClean s pas → NoLines s →
    let bytes := pas.map (memGet s.mem)
    ∃ t, exec i s = .next t ∧ t.mem = s.mem ∧ mySpad t = mySpad s ∧ Elsewhere s t
      ∧ (Paid s (.hand s.curHand) (dramLocs pas) → Whole s (l.addr s.me) l.n →
          t.me = loaded (walked s (l.addr s.me) l.n .load) l.d (extended l.n l.signed bytes) l.len)
      ∧ (Paid s (.hand s.curHand) (dramLocs pas) → ¬ Whole s (l.addr s.me) l.n →
          t.me = tornLoad (walked s (l.addr s.me) l.n .load) l (dramLocs pas) bytes)
      ∧ (¬ Paid s (.hand s.curHand) (dramLocs pas) → t.me = s.me)

/-- R115, R111, R206, R209: scalar loads from the hand's share of the scratchpad and from DRAM. -/
def Obligations.Loads : Prop := Spec.ScratchpadLoads ∧ Spec.DramLoads

/-- R115, R111, R206: a store inside the hand's share writes the low bytes of S[b] to the scratchpad, and no other byte
anywhere. -/
def Sys2Proof.Spec.ScratchpadStores : Prop :=
  ∀ (s : State) (i : Instr) (l : Store), storeOp s.me i = some l → Quiet s → Ready s [l.b, l.a] →
    Unblocked s (l.addr s.me) l.n false → InShare s (l.addr s.me) l.n → s.me.st ≠ .frozen → s.me.marks = [] →
    ∃ t, exec i s = .next t ∧ t.me = stepped { s.me with migHold := none } l.len
      ∧ mySpad t = memPut (mySpad s) (spadOff (l.addr s.me)) (leBytes l.n (s.me.rd l.b).toNat)
      ∧ (∀ o, (o < spadOff (l.addr s.me) ∨ spadOff (l.addr s.me) + l.n ≤ o) → memGet (mySpad t) o = memGet (mySpad s) o)
      ∧ t.mem = s.mem ∧ Elsewhere s t

/-- R115, R106, R224: a store to cacheable DRAM of this device performs at once where the engines work in lockstep (the model's choice,
log 2), no older store waits and it is paid for: it writes the low bytes of S[b] where its address translates to, and no other byte. -/
def Sys2Proof.Spec.DramStores : Prop :=
  ∀ (s : State) (i : Instr) (l : Store) (pas : List Nat), storeOp s.me i = some l → Quiet s → Ready s [l.b, l.a] →
    Unblocked s (l.addr s.me) l.n false → locate s s.curHand (l.addr s.me) l.n .store true = .ok (dramLocs pas) →
    s.me.st ≠ .frozen → s.lockstep = true → Drained s → Paid s (.hand s.curHand) (dramLocs pas) →
    ∃ t, exec i s = .next t ∧ t.me = stepped { walked s (l.addr s.me) l.n .store with migHold := none } l.len
      ∧ t.mem = putAll s.mem pas (leBytes l.n (s.me.rd l.b).toNat)
      ∧ (∀ a, a ∉ pas → memGet t.mem a = memGet s.mem a) ∧ mySpad t = mySpad s ∧ Elsewhere s t

/-- R115, R106, R224, R282: where the engines do not work in lockstep (log 2), an older store waits, a `fence.rel` marks it or it is not
paid for, a store to DRAM goes to the hand's store buffer, behind every older one, and writes nothing yet. -/
def Sys2Proof.Spec.BufferedStores : Prop :=
  ∀ (s : State) (i : Instr) (l : Store) (pas : List Nat), storeOp s.me i = some l → Quiet s → Ready s [l.b, l.a] →
    Unblocked s (l.addr s.me) l.n false → locate s s.curHand (l.addr s.me) l.n .store true = .ok (dramLocs pas) → pas ≠ [] →
    s.me.st ≠ .frozen →
    let y := walked (clearMarks s s.curHand) (l.addr s.me) l.n .store
    (s.lockstep = false ∨ y.sb ≠ [] ∨ y.dieWrites ≠ [] ∨ y.marks ≠ [] ∨ ¬ Paid s (.hand s.curHand) (dramLocs pas)) →
    ∃ t, exec i s = .next t
      ∧ t.me = stepped { y with
          migHold := none
          sb := y.sb ++ [{ age := (s.core (coreOf s.curHand)).age, locs := dramLocs pas, bytes := leBytes l.n (s.me.rd l.b).toNat }] } l.len
      ∧ t.mem = s.mem ∧ mySpad t = mySpad s ∧ Elsewhere s t

/-- R115, R111, R206, R106: scalar stores into the share, into DRAM, and their place in the store buffer. -/
def Obligations.Stores : Prop := Spec.ScratchpadStores ∧ Spec.DramStores ∧ Spec.BufferedStores

/-- R116, R224: an AMO on cacheable DRAM of this device, its older stores performed and its transfers paid for: one indivisible step that writes the new value and gives S[d] the old one,
sign-extended but for `maxn` and `minn`. -/
def Sys2Proof.Spec.Amos : Prop :=
  ∀ (s : State) (i : Instr) (o : AmoOp) (d a b : Reg) (q : BitVec 3) (w : BitVec 1) (pas : List Nat),
    amoForms i = some (o, d, a, b, q, w) → Quiet s → Ready s [d, a, b] → Unblocked s (s.me.rd a) (amoBytes w) false →
    (s.me.rd a).toNat % amoBytes w = 0 → Drained s → performedAt s s.curHand q.toNat = true →
    locate s s.curHand (s.me.rd a) (amoBytes w) .both true = .ok (dramLocs pas) → DramClean s pas →
    Paid s (.vmu s.curHand) (dramLocs pas) →
    let n := amoBytes w
    let old := BitVec.ofNat (8 * n) (leValue (pas.map (memGet s.mem)))
    let new := amoNew o old ((s.me.rd b).setWidth (8 * n)) ((s.me.rd d).setWidth (8 * n))
    ∃ t, exec i s = .next t
      ∧ t.me = loaded (walked s (s.me.rd a) n .both) d (if o = .maxn ∨ o = .minn then old.setWidth 64 else old.signExtend 64) 4
      ∧ (t.mem = if o = .cas ∧ old ≠ (s.me.rd d).setWidth (8 * n) then s.mem else putAll s.mem pas (leBytes n new.toNat))
      ∧ (∀ a, a ∉ pas → memGet t.mem a = memGet s.mem a) ∧ mySpad t = mySpad s ∧ Elsewhere s t
      ∧ (2 ≤ q.toNat → NoLines t)

/-- R116, R210: `ld.acq` of an aligned word of cacheable DRAM at device scope or wider reads memory past the data cache, whose lines
go. -/
def Sys2Proof.Spec.AcquireLoads : Prop :=
  ∀ (s : State) (d a : Reg) (q : BitVec 3) (w : BitVec 1) (pas : List Nat), Quiet s → Ready s [d, a] → s.me.sb = [] →
    Unblocked s (s.me.rd a) (amoBytes w) true → (s.me.rd a).toNat % amoBytes w = 0 →
    locate s s.curHand (s.me.rd a) (amoBytes w) .load true = .ok (dramLocs pas) → DramClean s pas →
    (2 ≤ q.toNat ∨ NoLines s) → Paid s (.hand s.curHand) (dramLocs pas) →
    ∃ t, exec (.ldAcq d a q w) s = .next t
      ∧ t.me = loaded (walked s (s.me.rd a) (amoBytes w) .load) d (extended (amoBytes w) true (pas.map (memGet s.mem))) 4
      ∧ t.mem = s.mem ∧ mySpad t = mySpad s ∧ Elsewhere s t ∧ (2 ≤ q.toNat → NoLines t)

/-- R116, R278: `st.rel` waits until every earlier access has performed at its scope; it then writes the low bytes of S[b], and no
other byte. -/
def Sys2Proof.Spec.ReleaseStores : Prop :=
  ∀ (s : State) (a b : Reg) (q : BitVec 3) (w : BitVec 1) (pas : List Nat), Quiet s → Ready s [a, b] →
    Unblocked s (s.me.rd a) (amoBytes w) false → (s.me.rd a).toNat % amoBytes w = 0 →
    locate s s.curHand (s.me.rd a) (amoBytes w) .store true = .ok (dramLocs pas) → s.me.st ≠ .frozen → s.me.marks = [] →
    ((s.me.storesLeft = false ∨ performedAt s s.curHand q.toNat = false) → exec (.stRel a b q w) s = .next s)
    ∧ (s.me.storesLeft = true → performedAt s s.curHand q.toNat = true → Paid s (.hand s.curHand) (dramLocs pas) →
      ∃ t, exec (.stRel a b q w) s = .next t ∧ t.me = stepped { walked s (s.me.rd a) (amoBytes w) .store with migHold := none } 4
        ∧ t.mem = putAll s.mem pas (leBytes (amoBytes w) (s.me.rd b).toNat)
        ∧ (∀ p, p ∉ pas → memGet t.mem p = memGet s.mem p) ∧ mySpad t = mySpad s ∧ Elsewhere s t)

/-- R116, R210, R278: atomic operations, `ld.acq` and `st.rel` on DRAM. -/
def Obligations.Atomics : Prop := Spec.Amos ∧ Spec.AcquireLoads ∧ Spec.ReleaseStores

/-- R111, R205, R206: the address checks of a scalar access.  A load or store with an upper address bit set is a page fault with
sub-status 7, one that leaves the share inside the window is a scratchpad bounds fault; AMO, `ld.acq` and `st.rel` at a
misaligned address raise the misaligned fault before them.  Each is precise and writes nothing. -/
def Obligations.AddressFaults : Prop :=
  ∀ (s : State), Clear s → s.me.stopReq = none → s.me.fenced = false → s.me.acc = none →
    (∀ i l, loadOp s.me i = some l → Ready s [l.d, l.a] →
      (2 ^ 48 ≤ (l.addr s.me).toNat → ∃ t, exec i s = .next t ∧ ParkedWith s t 0x06 7 (l.addr s.me) s.me.pc)
      ∧ (inWindow (l.addr s.me).toNat = true → inShare s.me (l.addr s.me).toNat = false →
          ∃ t, exec i s = .next t ∧ ParkedWith s t 0x09 0 (l.addr s.me) s.me.pc))
    ∧ (∀ i l, storeOp s.me i = some l → Ready s [l.b, l.a] →
      (2 ^ 48 ≤ (l.addr s.me).toNat → ∃ t, exec i s = .next t ∧ ParkedWith s t 0x07 7 (l.addr s.me) s.me.pc)
      ∧ (inWindow (l.addr s.me).toNat = true → inShare s.me (l.addr s.me).toNat = false →
          ∃ t, exec i s = .next t ∧ ParkedWith s t 0x09 0 (l.addr s.me) s.me.pc))
    ∧ (∀ i o d a b q w, amoForms i = some (o, d, a, b, q, w) → Ready s [d, a, b] → (s.me.rd a).toNat % amoBytes w ≠ 0 →
      ∃ t, exec i s = .next t ∧ ParkedWith s t 0x05 0 (s.me.rd a) s.me.pc)
    ∧ (∀ d a b q w, Ready s [d, a, b] → (s.me.rd a).toNat % amoBytes w ≠ 0 →
      (∃ t, exec (.ldAcq d a q w) s = .next t ∧ ParkedWith s t 0x05 0 (s.me.rd a) s.me.pc)
        ∧ ∃ t, exec (.stRel a b q w) s = .next t ∧ ParkedWith s t 0x05 0 (s.me.rd a) s.me.pc)

end ScalarMemory


/-! # CSRs, tile configuration, fences, synchronisation -/

namespace Sys2Proof.Spec

open Sys2Proof.Machine

/-- The CSRs of Table 4.17 as read. -/
def csrValue (s : State) (n : Nat) : Word :=
  let x := s.me
  let b (p : Bool) : Nat := if p then 1 else 0
  match n with
  | 0x000 => x.vtype
  | 0x001 => x.vl
  | 0x002 => x.rc
  | 0x003 => x.vt
  | 0x004 => x.vstart
  | 0x005 => x.bpc
  | 0x006 => x.lastd
  | 0x007 => x.fflags
  | 0x008 => BitVec.ofNat 64 (b x.det + 2 * b x.rck + 4 * b x.fcv)
  | 0x009 => BitVec.ofNat 64 s.curHand
  | 0x00A => BitVec.ofNat 64 x.farm
  | 0x00B => x.strip
  | 0x00C => (s.core (s.curHand / 16)).cyc
  | 0x00D => BitVec.ofNat 64 x.accb
  | 0x00E => BitVec.ofNat 64 x.accn
  | 0x00F => BitVec.ofNat 64 x.spb
  | 0x010 => BitVec.ofNat 64 x.spn
  | 0x011 => BitVec.ofNat 64 Config.node
  | 0x012 => BitVec.ofNat 64 x.part
  | 0x013 => BitVec.ofNat 64 (1024 / (8 * 2 ^ (x.vtype.toNat % 4)))
  | 0x014 => BitVec.ofNat 64 (if x.rc = 0 then 0 else (x.rc.toNat - 1) * x.vl.toNat + x.vt.toNat)
  | 0x015 => x.evt
  | 0x016 => x.rerr
  | _ => 0

/-- Slots of a row and rows of the full group under a `vtype` (Table 4.17, R148). -/
def rowSlots (vtype : Word) : Nat := 1024 / (8 * 2 ^ (vtype.toNat % 4))
/-- Rows of the full group. -/
def rowsMost (vtype : Word) : Nat := 8 * 2 ^ (vtype.toNat / 4 % 4)

/-- The tile is legal (R89). -/
def LegalTile (x : Hand) : Prop :=
  x.vtype.toNat < 64 ∧ 1 ≤ x.vl.toNat ∧ x.vl.toNat ≤ rowSlots x.vtype ∧ x.rc.toNat ≤ rowsMost x.vtype ∧ 1 ≤ x.vt.toNat
    ∧ x.vt.toNat ≤ x.vl.toNat

/-- The accumulator window and the scratchpad share lie inside the granted ones (R90). -/
def InsideGrant (x : Hand) : Prop :=
  x.gAccb ≤ x.accb ∧ x.accb + x.accn ≤ x.gAccb + x.gAccn ∧ x.gSpb ≤ x.spb ∧ x.spb + x.spn ≤ x.gSpb + x.gSpn

/-- The hand with a CSR written, as it would be, and the condition under which the write is performed (R88, R89, R90, R92); none
for a number that cannot be written. -/
def csrSet (x : Hand) (n : Nat) (v : Word) : Option (Hand × Prop) :=
  match n with
  | 0x000 => let y := { x with vtype := v }; some (y, LegalTile y)
  | 0x001 => let y := { x with vl := v }; some (y, LegalTile y)
  | 0x002 => let y := { x with rc := v }; some (y, LegalTile y)
  | 0x003 => let y := { x with vt := v }; some (y, LegalTile y)
  | 0x004 => some ({ x with vstart := v }, True)
  | 0x005 => some ({ x with bpc := v }, True)
  | 0x006 => some ({ x with lastd := v &&& 0x1F1F#64 }, True)
  | 0x007 => some ({ x with fflags := v &&& 0x1FF#64 }, True)
  | 0x00B => some ({ x with strip := v }, True)
  | 0x00D => let y := { x with accb := v.toNat }; some (y, InsideGrant y)
  | 0x00E => let y := { x with accn := v.toNat }; some (y, InsideGrant y)
  | 0x00F => let y := { x with spb := v.toNat }; some (y, InsideGrant y)
  | 0x010 => let y := { x with spn := v.toNat }; some (y, InsideGrant y)
  | 0x015 => some ({ x with evt := v }, True)
  | 0x016 => some ({ x with rerr := v }, True)
  | _ => none

/-- A CSR instruction that writes: S[d] ← old, new from old and S[a] (R118). -/
def csrOp : Instr → Option (Reg × Reg × BitVec 12 × (Word → Word → Word))
  | .csrw d a c => some (d, a, c, fun _ x => x)
  | .csrs d a c => some (d, a, c, fun o x => o ||| x)
  | .csrc d a c => some (d, a, c, fun o x => o &&& ~~~x)
  | _ => none

/-- A CSR instruction that names n does not wait (R105, R199). -/
def CsrFree (x : Hand) (n : Nat) : Prop :=
  ((n = 0x004 ∨ n = 0x005 ∨ n = 0x007 ∨ n = 0x016) → x.rq = [])
    ∧ ((n = 0x000 ∨ n = 0x001 ∨ n = 0x002 ∨ n = 0x003 ∨ n = 0x014) → x.tilePending = false)

/-- sld ← d. -/
def withSld (x : Hand) (d : Reg) : Hand := { x with lastd := (x.lastd &&& 0x1F00#64) ||| d.setWidth 64 }

/-- S[d] ← v alone. -/
def putReg (x : Hand) (d : Reg) (v : Word) : Hand := if d = 0 then x else { x with s := x.s.set d.toNat v d.isLt }

/-- The tile that a VCFG form sets: destination, source, `vtype`, `vl`, `rc`, `vt` (R151); none for a `vtype` that is refused. -/
def vcfgOp (x : Hand) : Instr → Option (Reg × Reg × Word × Nat × Nat × Nat)
  | .vtype d a =>
    let n := x.rd a
    let vl := min x.vl.toNat (rowSlots n)
    if 64 ≤ n.toNat then none else some (d, a, n, vl, min x.rc.toNat (rowsMost n), min x.vt.toNat vl)
  | .setvl d a =>
    let vl := max 1 (min (x.rd a).toNat (rowSlots x.vtype))
    some (d, a, x.vtype, vl, x.rc.toNat, vl)
  | .setrc d a => some (d, a, x.vtype, x.vl.toNat, min (x.rd a).toNat (rowsMost x.vtype), x.vt.toNat)
  | .setvt d a => some (d, a, x.vtype, x.vl.toNat, x.rc.toNat, max 1 (min (x.rd a).toNat x.vl.toNat))
  | .setvn d a =>
    let n := (x.rd a).toNat
    let vl := min n (rowSlots x.vtype)
    let rc := min ((n + vl - 1) / vl) (rowsMost x.vtype)
    if n = 0 then some (d, a, x.vtype, 1, 0, 1) else some (d, a, x.vtype, vl, rc, min vl (n - (rc - 1) * vl))
  | _ => none

/-- Present elements (R148). -/
def present (vl rc vt : Nat) : Nat := if rc = 0 then 0 else (rc - 1) * vl + vt

/-- The hand east or west of h in its core's ring (R72). -/
def ring (h : Nat) (east : Bool) : Nat := h / 16 * 16 + (h % 16 + if east then 1 else 15) % 16

/-- A put's queue: from-west of the east neighbour, from-east of the west one (R72). -/
def inbound (x : Hand) (east : Bool) : List Word := if east then x.linkW else x.linkE

/-- A hand with a value appended to an inbound queue. -/
def withInbound (x : Hand) (east : Bool) (v : Word) : Hand :=
  if east then { x with linkW := x.linkW ++ [v] } else { x with linkE := x.linkE ++ [v] }

/-- A hand that leaves Wait after its 4-byte instruction for its resume state; one that comes to the end of its block is Idle
(R49, R54). -/
def passed (x : Hand) : Hand :=
  { x with
    st := (match x.resume with
      | .idle => .idle
      | .block => if (x.pc + 4).toNat = x.blk + 64 then .idle else .block
      | .fetch => .fetch)
    waiting := none, arrived := none, pc := x.pc + 4 }

/-- The hands that a barrier of the running hand is among, once it has arrived: those of its farm on its core, or of the device. -/
def among (s : State) (device : Bool) : List Nat :=
  participants (s.setMe (waits s.me (if device then .fbar else .bar) (some device))) s.me.farm
    (if device then none else some (coreOf s.curHand))

/-- Every earlier scalar access of the running hand has performed, and its stores are acknowledged (R108, R305). -/
def ScalarDone (s : State) : Prop := s.me.sb = [] ∧ s.me.unacked = [] ∧ s.me.dieWrites = [] ∧ s.me.acc = none

/-- Every earlier dispatched memory instruction and copy of the running hand has performed and is acknowledged (R109). -/
def VectorDone (s : State) : Prop :=
  (∀ e ∈ s.me.rq, memoryType e = true → e.kind ≠ .copy ∧ e.performed = true) ∧ s.me.copies = [] ∧ s.me.vunacked = []
    ∧ s.me.vdieWrites = []

/-- Every earlier load of the running hand has performed (R282). -/
def LoadsDone (s : State) : Prop :=
  (∀ e ∈ s.me.rq, loadType e = true → e.kind = .pf ∨ (e.kind ≠ .copy ∧ e.performed = true))
    ∧ (∀ c ∈ s.me.copies, c.2.read = true) ∧ s.me.acc = none

/-- The instruction that arrives at a barrier. -/
def barrierInstr (device : Bool) : Instr := if device then .fbar else .bar

end Sys2Proof.Spec

section Control

open Sys2Proof Sys2Proof.Machine Sys2Proof.Spec

/-- R118, R88: `csrr` reads the CSRs of Table 4.17 and writes none. -/
def Sys2Proof.Spec.CsrReads : Prop :=
  ∀ (s : State) (d : Reg) (c : BitVec 12), Quiet s → Ready s [d] → CsrFree s.me c.toNat →
    exec (.csrr d c) s = .next (s.setMe (stepped (setReg s.me d (csrValue s c.toNat)) 4))

/-- R118, R88 to R92: a CSR write that is allowed is performed after the change of sld, and S[d] gets the old value; one that is
not, and one to a number that cannot be written, is an illegal instruction that changes nothing. -/
def Sys2Proof.Spec.CsrWrites : Prop :=
  ∀ (s : State) (i : Instr) (d a : Reg) (c : BitVec 12) (f : Word → Word → Word), csrOp i = some (d, a, c, f) → Quiet s →
    Ready s [d, a] → CsrFree s.me c.toNat →
    (∀ y p, csrSet (withSld s.me d) c.toNat (f (csrValue s c.toNat) (s.me.rd a)) = some (y, p) →
      (p → exec i s = .next (s.setMe (stepped (putReg y d (csrValue s c.toNat)) 4)))
      ∧ (¬p → Clear s → ∃ t, exec i s = .next t ∧ ParkedWith s t 0x01 0 0 s.me.pc))
    ∧ (csrSet (withSld s.me d) c.toNat (f (csrValue s c.toNat) (s.me.rd a)) = none → Clear s →
      ∃ t, exec i s = .next t ∧ ParkedWith s t 0x01 0 0 s.me.pc)

/-- R105, R199: a CSR instruction on `fflags`, `vstart`, `bpc` or `rerr` waits for the hand's dispatched instructions, one on the
tile for a pending tile; a waiting one changes nothing. -/
def Sys2Proof.Spec.CsrWaits : Prop :=
  ∀ (s : State) (i : Instr) (d : Reg) (c : BitVec 12), (i = .csrr d c ∨ ∃ a f, csrOp i = some (d, a, c, f)) →
    ¬ CsrFree s.me c.toNat → exec i s = .next s

/-- R118, R88 to R92, R105, R199: reads and writes of the hand CSRs, and their wait for older work. -/
def Obligations.HandCsrs : Prop := Spec.CsrReads ∧ Spec.CsrWrites ∧ Spec.CsrWaits

/-- R151: the VCFG forms set the tile and give S[d] the number of its elements; nothing else changes.  `vtype` with a bit of
[63:6] set is an illegal instruction. -/
def Sys2Proof.Spec.TileSettings : Prop :=
  (∀ (s : State) (d a : Reg), 64 ≤ (s.me.rd a).toNat → Clear s → s.me.stopReq = none →
    ∃ t, exec (.vtype d a) s = .next t ∧ ParkedWith s t 0x01 0 0 s.me.pc)
  ∧ ∀ (s : State) (i : Instr) (d a : Reg) (vtype : Word) (vl rc vt : Nat), vcfgOp s.me i = some (d, a, vtype, vl, rc, vt) → Quiet s →
    s.me.tilePending = false → Ready s [d, a] →
    exec i s = .next (s.setMe (stepped (setReg
      { s.me with vtype := vtype, vl := BitVec.ofNat 64 vl, rc := BitVec.ofNat 64 rc, vt := BitVec.ofNat 64 vt } d
      (BitVec.ofNat 64 (present vl rc vt))) 4))

/-- R151, R89: a VCFG form on a legal tile leaves a legal tile; `setvn` of n gives min(n, RMAX·VLROW) elements. -/
def Sys2Proof.Spec.TileStaysLegal : Prop :=
  ∀ (s t : State) (d a : Reg), LegalTile s.me → Quiet s → s.me.tilePending = false → Ready s [d, a] →
    (∀ i ∈ [Instr.vtype d a, .setvl d a, .setrc d a, .setvt d a, .setvn d a], exec i s = .next t → LegalTile t.me)
    ∧ (exec (.setvn d a) s = .next t →
        present t.me.vl.toNat t.me.rc.toNat t.me.vt.toNat
          = min (s.me.rd a).toNat (rowsMost s.me.vtype * rowSlots s.me.vtype))

/-- R151, R89: the tile settings, and that a legal tile stays legal. -/
def Obligations.Tiles : Prop := Spec.TileSettings ∧ Spec.TileStaysLegal

/-- R108, R109: `fence.sv` and `fence.vs` go on exactly when what they wait for has performed and is acknowledged, change nothing else but
that `fence.vs` takes the lines of the data cache away (R286), and wait otherwise. -/
def Sys2Proof.Spec.StreamFences : Prop :=
  ∀ (s : State), Quiet s →
    (ScalarDone s → exec .fenceSv s = .next (s.setMe (stepped s.me 4)))
    ∧ (¬ ScalarDone s → exec .fenceSv s = .next s)
    ∧ (VectorDone s → exec .fenceVs s
        = .next ((s.setCore (coreOf s.curHand) { s.core (coreOf s.curHand) with dcache := [] }).setMe (stepped s.me 4)))
    ∧ (¬ VectorDone s → exec .fenceVs s = .next s)

/-- R282, R283: `fence.rel` goes on at once and marks the later stores, with its scope; `fence.acq` goes on once every earlier load has
performed, `fence.ar` once every earlier access has performed at its scope; the acquiring ones of device scope and wider take the data
cache's lines away.  One that does not go on waits. -/
def Sys2Proof.Spec.ScopeFences : Prop :=
  ∀ (s : State) (q : BitVec 3), Quiet s →
    let c := s.core (coreOf s.curHand)
    exec (.fenceRel q) s = .next ((s.setCore (coreOf s.curHand) { c with age := c.age + 1 }).setMe
      (stepped { s.me with marks := s.me.marks ++ [{ scope := q.toNat, age := c.age }] } 4))
    ∧ (¬ LoadsDone s → exec (.fenceAcq q) s = .next (s.setMe { s.me with fencing := true }))
    ∧ (¬ (performedAt s s.curHand q.toNat = true ∧ s.me.acc = none) →
        exec (.fenceAr q) s = .next (s.setMe { s.me with fencing := true }))
    ∧ (∀ i, ((i = .fenceAcq q ∧ LoadsDone s) ∨ (i = .fenceAr q ∧ performedAt s s.curHand q.toNat = true ∧ s.me.acc = none)) →
        ∃ t, exec i s = .next t ∧ t.me = stepped { s.me with fencing := false } 4 ∧ t.mem = s.mem ∧ mySpad t = mySpad s
          ∧ Elsewhere s t ∧ (2 ≤ q.toNat → NoLines t) ∧ (q.toNat < 2 → t = s.setMe (stepped { s.me with fencing := false } 4)))

/-- R108, R109, R282: fences between the streams and fences of a scope. -/
def Obligations.Fences : Prop := Spec.StreamFences ∧ Spec.ScopeFences

/-- R72: `lnk.put` to a neighbour placed in the farm whose queue has room appends S[a] to it; a full queue makes the hand wait, a
neighbour that is Off discards the value.  A neighbour that the farm has no hand on is an illegal instruction. -/
def Sys2Proof.Spec.LinkPuts : Prop :=
  ∀ (s : State) (a : Reg) (q : BitVec 3), q = 0 ∨ q = 1 → Quiet s → Ready s [a] →
    let east := decide (q = 0)
    let n := ring s.curHand east
    (placedWith s s.curHand n = false → Clear s → ∃ t, exec (.lnkPut a q) s = .next t ∧ ParkedWith s t 0x01 0 0 s.me.pc)
    ∧ (placedWith s s.curHand n = true → (s.hand n).farm = s.me.farm → (s.hand n).st ≠ .off → (inbound (s.hand n) east).length < 4 →
      exec (.lnkPut a q) s
        = .next ((s.setHand n (withInbound (s.hand n) east (s.me.rd a))).setMe (stepped s.me 4)))
    ∧ (placedWith s s.curHand n = true → (s.hand n).farm = s.me.farm → (s.hand n).st ≠ .off → 4 ≤ (inbound (s.hand n) east).length →
      exec (.lnkPut a q) s = .next (s.setMe (waits s.me (.lnkPut east (s.me.rd a)) none)))
    ∧ (placedWith s s.curHand n = true → ((s.hand n).st = .off ∨ (s.hand n).farm ≠ s.me.farm) → exec (.lnkPut a q) s = .next (s.setMe (stepped s.me 4)))

/-- R72: `lnk.get` takes the oldest entry of the hand's own queue into S[d]; on an empty queue the hand waits. -/
def Sys2Proof.Spec.LinkGets : Prop :=
  ∀ (s : State) (d : Reg), Quiet s → Ready s [d] →
    (∀ v rest, s.me.linkW = v :: rest →
      exec (.lnkGet d 2) s = .next (s.setMe (stepped (setReg { s.me with linkW := rest } d v) 4)))
    ∧ (∀ v rest, s.me.linkE = v :: rest →
      exec (.lnkGet d 3) s = .next (s.setMe (stepped (setReg { s.me with linkE := rest } d v) 4)))
    ∧ (s.me.linkW = [] → exec (.lnkGet d 2) s = .next (s.setMe (waits (withSld s.me d) (.lnkGet d true) none)))
    ∧ (s.me.linkE = [] → exec (.lnkGet d 3) s = .next (s.setMe (waits (withSld s.me d) (.lnkGet d false) none)))

/-- R73, R74, R77: `sig` sets a bit of the reeve's `hsig`, `wfe` takes the event bits in one step, `claim` takes the next strip of
the farm or all ones. -/
def Sys2Proof.Spec.SignalsAndClaims : Prop :=
  ∀ (s : State) (a d : Reg), Quiet s → Ready s [a] → Ready s [d] →
    (performedAt s s.curHand 1 = false → exec (.sig a) s = .next s)
    ∧ (performedAt s s.curHand 1 = true →
      exec (.sig a) s = .next ((s.setReeve (coreOf s.curHand) { s.reeve (coreOf s.curHand) with
        hsig := (s.reeve (coreOf s.curHand)).hsig ||| (1#64 <<< ((s.me.rd a).toNat % 64)) }).setMe (stepped s.me 4)))
    ∧ (s.me.evt ≠ 0 → exec (.wfe d) s = .next (s.setMe (stepped (setReg { s.me with evt := 0 } d s.me.evt) 4)))
    ∧ (s.me.evt = 0 → exec (.wfe d) s = .next (s.setMe (waits (withSld s.me d) (.wfe d) none)))
    ∧ (∀ f, s.farm s.me.farm = some f →
      (f.ctr < f.pkt.strips →
        exec (.claim d) s = .next ((s.updFarm s.me.farm fun g => { g with ctr := if g.ctr < g.pkt.strips then g.ctr + 1 else g.ctr }).setMe
          (stepped (setReg { s.me with strip := BitVec.ofNat 64 f.ctr } d (BitVec.ofNat 64 f.ctr)) 4)))
      ∧ (f.pkt.strips ≤ f.ctr →
        ∃ t, exec (.claim d) s = .next t ∧ t.me = stepped (setReg { s.me with strip := allOnes } d allOnes) 4 ∧ t.mem = s.mem
          ∧ ∀ h, h ≠ s.curHand → t.hand h = s.hand h))

/-- R75, R76, R49: the last participant to arrive at a barrier completes it: every participant goes on after the barrier in one step, but
one that is Frozen stays so.  Before that the hand waits, and nobody moves. -/
def Sys2Proof.Spec.Barriers : Prop :=
  ∀ (s : State) (device : Bool), Quiet s → performedAt s s.curHand (if device then 2 else 1) = true →
    s.curHand ∈ among s device → (among s device).Nodup →
    ((∀ h ∈ among s device, h ≠ s.curHand → (s.hand h).arrived = some device) →
      ∃ t, exec (barrierInstr device) s = .next t ∧ t.mem = s.mem
        ∧ t.me = passed (waits s.me (if device then .fbar else .bar) (some device))
        ∧ (∀ h ∈ among s device, h ≠ s.curHand → t.hand h = if (s.hand h).st = .frozen then s.hand h else passed (s.hand h))
        ∧ ∀ h, h ∉ among s device → t.hand h = s.hand h)
    ∧ ((∃ h ∈ among s device, h ≠ s.curHand ∧ (s.hand h).arrived ≠ some device) →
      exec (barrierInstr device) s = .next (s.setMe (waits s.me (if device then .fbar else .bar) (some device))))

/-- R72 to R77: puts into and gets from the links, signals, claims, waits for an event, and barriers. -/
def Obligations.HandsMeet : Prop := Spec.LinkPuts ∧ Spec.LinkGets ∧ Spec.SignalsAndClaims ∧ Spec.Barriers

/-- R339, R340: `end` with no earlier work left, at once or when its wait ends (END_COMPLETION_ADD), adds to the completion word in one
step, here a doubleword of cacheable DRAM: the sticky flags are ORed into [24:16], 1 is added to [63:32], [15:0] is not written; the
hand is then Off.  With earlier work left it waits, with nothing added; a stop or hold request that reaches a hand waiting at `end` takes
effect instead of the add. -/
def Obligations.Ends : Prop :=
  ∀ (s : State) (h : Nat) (i : Instr), (s.hand h).acc = none →
    let x := s.hand h
    let ready : Prop := x.rq = [] ∧ x.sb = [] ∧ x.unacked = [] ∧ x.dieWrites = [] ∧ x.vunacked = [] ∧ x.vdieWrites = [] ∧ x.copies = []
    let asked : Prop := x.stopReq ≠ none ∨ x.holdReq ≠ none ∨ x.placed = true
    ((i = .endHand ∧ h = s.curHand) ∨ (i = .endCompletionAdd h ∧ h < 2048 ∧ x.ending = true ∧ (x.st = .block ∨ x.st = .fetch))) →
    (∀ (f : Farm) (pas : List Nat), ready → (i = .endHand ∨ ¬ asked) → s.farm x.farm = some f → x.fflags.toNat < 512 →
      locate s h f.pkt.done 8 .store false = .ok (dramLocs pas) → DramClean s pas → Paid s (.vmu h) (dramLocs pas) →
      let w := BitVec.ofNat 64 (leValue (pas.map (memGet s.mem)))
      ∃ t, exec i s = .next t
        ∧ t.mem = putAll s.mem pas (leBytes 8 ((w ||| (x.fflags <<< 16)) + 0x100000000#64).toNat)
        ∧ (t.hand h).st = .off ∧ (t.hand h).s = x.s ∧ (t.hand h).v = x.v ∧ (t.hand h).fflags = x.fflags
        ∧ (t.hand h).lastd = x.lastd)
    ∧ (¬ ready → i = .endHand → Quiet s → exec i s = .next (s.setMe { s.me with ending := true }))
    ∧ (¬ ready → i = .endCompletionAdd h → exec i s = .next s)
    ∧ (ready → asked → i = .endCompletionAdd h → x.migHold = none → ∃ t, exec i s = .next t ∧ t.mem = s.mem
        ∧ (x.stopReq = none → (t.hand h).st = .held)
        ∧ (x.stopReq = some false → x.holdReq = none → x.placed = false → x.leaving = false → (t.hand h).st = .idle))

/-- R69: `bfetch` never stalls and never faults.  In Block it has no effect; in Fetch it names the block that the next buffer is to hold,
discards what it held, and goes on, whatever becomes of the fill.  (The fill is an event of its own where the engines do not work in
lockstep, log 2; in lockstep it is made at once.) -/
def Sys2Proof.Spec.BlockPrefetch : Prop :=
  ∀ (s : State) (a : Reg), Quiet s → Ready s [a] →
    let named : Hand := { s.me with nacc := none, nxt := some { base := (s.me.rd a).toNat / 64 * 64, bytes := [], failed := none } }
    (s.me.st ≠ .fetch → exec (.bfetch a) s = .next (s.setMe (stepped s.me 4)))
    ∧ (s.me.st = .fetch → s.lockstep = false → exec (.bfetch a) s = .next (s.setMe (stepped named 4)))
    ∧ (s.me.st = .fetch → s.lockstep = true → s.curHand < 2048 →
      ∃ u, exec (.nextBufferFill s.curHand) (s.setMe named) = .next u ∧ exec (.bfetch a) s = .next (u.setMe (stepped u.me 4))
        ∧ u.me.pc = s.me.pc ∧ u.me.s = s.me.s ∧ u.me.v = s.me.v ∧ u.mem = s.mem)

end Control


/-! # Dispatched instructions -/

namespace Sys2Proof.Spec

open Sys2Proof.Machine

/-- What an instruction of the execute stream does when it is dispatched (R99 to R103): the registers whose values it captures
or marks pending, its checks with the cause, sub-status and address of each, its captured operands, its destinations for
`sld` and `vld`, its length, and what it changes of the hand at dispatch. -/
structure Form where
  regs   : List Reg
  checks : List (Bool × Nat × Nat × Word)
  entry  : Entry
  sld    : Option Reg
  vld    : Option Reg
  len    : Nat
  also   : Hand → Hand := id

/-- The format-word register of an fs code (R86). -/
def fwr (f : BitVec 3) : Reg := 24 + f.setWidth 5

/-- SEW and the registers of a group (R146). -/
def sew (x : Hand) : Nat := 8 * 2 ^ (x.vtype.toNat % 4)
/-- Registers of a group. -/
def grp (x : Hand) : Nat := 2 ^ (x.vtype.toNat / 4 % 4)

/-- The bases of groups of n registers are multiples of n (R147): cause 0x01. -/
def bases (n : Nat) (rs : List Reg) : Bool × Nat × Nat × Word := (rs.all fun r => decide (r.toNat % n = 0), 0x01, 0, 0)
/-- A format word is legal: cause 0x02 (R132). -/
def format (ok : Bool) : Bool × Nat × Nat × Word := (ok, 0x02, 0, 0)
/-- An operand is legal: cause 0x01. -/
def legal (ok : Bool) : Bool × Nat × Nat × Word := (ok, 0x01, 0, 0)
/-- A form whose result depends on an order is refused under `hstat.det` (R195, R196, R242): cause 0x0D. -/
def orderless (x : Hand) : Bool × Nat × Nat × Word := (!x.det, 0x0D, 0, 0)

/-- The entry of a V form. -/
def ventry (x : Hand) (k : VKind) (d a : Reg) (m : BitVec 3) : Entry := { mkEntry x k with d := d, a := a, m := m }

/-- An element-wise form that reads a format word. -/
def elementwise (x : Hand) (k : VKind) (groups : List Reg) (d a : Reg) (m f : BitVec 3) (src : Src) (sb : Word) (regs : List Reg)
    (len : Nat) : Form :=
  { regs := fwr f :: regs, checks := [bases (grp x) groups, format (fwElem k (formatWord (x.rd (fwr f))) (sew x))]
    entry := { ventry x k d a m with src := src, sb := sb, fw := x.rd (fwr f) }, sld := none, vld := some d, len := len }

/-- A form of two vectors. -/
def vv (x : Hand) (k : VKind) (d a b : Reg) (m f : BitVec 3) : Option Form :=
  some (elementwise x k [d, a, b] d a m f (.reg b) 0 [] 4)
/-- A form of a vector and a captured scalar. -/
def vs (x : Hand) (k : VKind) (d a b : Reg) (m f : BitVec 3) : Option Form :=
  some (elementwise x k [d, a] d a m f (.val (x.rd b)) (x.rd b) [b] 4)
/-- A form of a vector and an immediate. -/
def vi (x : Hand) (k : VKind) (d a : Reg) (v : Word) (m f : BitVec 3) : Option Form :=
  some (elementwise x k [d, a] d a m f (.val v) 0 [] 4)
/-- A form of one vector. -/
def v1 (x : Hand) (k : VKind) (d a : Reg) (m f : BitVec 3) : Option Form :=
  some (elementwise x k [d, a] d a m f (.val 0) 0 [] 4)
/-- A comparison of two vectors. -/
def cvv (x : Hand) (o : CmpOp) (d a b : Reg) (m f : BitVec 3) : Option Form :=
  some (elementwise x (.cmp o) [a, b] d a m f (.reg b) 0 [] 4)
/-- A comparison of a vector and a captured scalar. -/
def cvs (x : Hand) (o : CmpOp) (d a b : Reg) (m f : BitVec 3) : Option Form :=
  some (elementwise x (.cmp o) [a] d a m f (.val (x.rd b)) 0 [b] 4)

/-- A form without a format word that writes a vector register. -/
def moving (x : Hand) (regs groups : List Reg) (e : Entry) : Option Form :=
  some { regs := regs, checks := [bases (grp x) groups], entry := e, sld := none, vld := some e.d, len := 4 }
/-- A form that returns a scalar through the return queue (R103). -/
def returning (regs : List Reg) (checks : List (Bool × Nat × Nat × Word)) (e : Entry) (d : Reg) : Option Form :=
  some { regs := d :: regs, checks := checks, entry := { e with ret := some d }, sld := some d, vld := none, len := 4 }

/-- A form across lanes with a format word (R190). -/
def crossing (x : Hand) (k : VKind) (pairs groups : List Reg) (d a b : Reg) (m f : BitVec 3) (det : Bool) (sb : Word)
    (regs : List Reg) : Option Form :=
  some {
    regs := fwr f :: regs
    checks := [bases (2 * grp x) pairs, bases (grp x) groups, format (fwCross k (formatWord (x.rd (fwr f))) (sew x))]
      ++ (if det then [orderless x] else [])
    entry := { ventry x k d a m with b := b, sb := sb, fw := x.rd (fwr f) }, sld := none, vld := some d, len := 4 }

/-- A memory form: S[sa] and the width code captured. -/
def mentry (x : Hand) (k : VKind) (d a : Reg) (m w : BitVec 3) : Entry :=
  { mkEntry x k with d := d, m := m, sa := x.rd a, ew := w.toNat }
/-- The width code equals `vtype.sew` (R227). -/
def width (x : Hand) (w : BitVec 3) : Bool × Nat × Nat × Word := legal (decide (w.toNat = x.vtype.toNat % 4))
/-- The index group of a form (R228). -/
def idx (x : Hand) (b : Reg) : Bool × Nat × Nat × Word :=
  let g := grp x * 64 / sew x
  legal (decide (b.toNat % g = 0) && decide (b.toNat + g ≤ 32))
/-- A destination apart from the index group (R228). -/
def apart (x : Hand) (d b : Reg) : Bool × Nat × Nat × Word :=
  legal (decide (d.toNat + grp x ≤ b.toNat) || decide (b.toNat + grp x * 64 / sew x ≤ d.toNat))
/-- A unit-stride form (Table 10.1). -/
def unit (x : Hand) (k : VKind) (vld : Option Reg) (d a : Reg) (m w : BitVec 3) : Option Form :=
  some { regs := [a], checks := [width x w, bases (grp x) [d]], entry := mentry x k d a m w, sld := none, vld := vld, len := 4 }
/-- A form with a stride or a pitch. -/
def stride (x : Hand) (k : VKind) (vld : Option Reg) (d a b : Reg) (m w : BitVec 3) : Option Form :=
  some { regs := [a, b], checks := [width x w, bases (grp x) [d]], entry := { mentry x k d a m w with sb := x.rd b }, sld := none
         vld := vld, len := 4 }
/-- An indexed form with its further checks. -/
def indexed (x : Hand) (k : VKind) (vld : Option Reg) (d a b : Reg) (m w : BitVec 3) (more : List (Bool × Nat × Nat × Word)) :
    Option Form :=
  some { regs := [a], checks := [width x w, bases (grp x) [d], idx x b] ++ more, entry := { mentry x k d a m w with b := b }
         sld := none, vld := vld, len := 4 }

/-- Field [hi:lo] of doubleword j of a stream descriptor (Table 10.4). -/
def sfield (q : BitVec 256) (j hi lo : Nat) : Nat := fld (qword q j) hi lo
/-- The descriptor of stream n. -/
def descriptor (x : Hand) (n : Reg) : BitVec 256 := x.q.toList.getD n.toNat 0
/-- Present elements of the tile in force. -/
def elements (x : Hand) : Nat := present x.vl.toNat x.rc.toNat x.vt.toNat

/-- A descriptor whose position has moved on by k elements. -/
def moved (q : BitVec 256) (k : Nat) : BitVec 256 :=
  (q &&& ~~~(0xFFFFFFFF#256 <<< 192)) ||| ((BitVec.ofNat 32 (sfield q 3 31 0 + k)).setWidth 256 <<< 192)

/-- A stream form (R238): the stream is valid, of this width, and has elements left; its position moves on by the elements. -/
def streaming (x : Hand) (k : VKind) (vld : Option Reg) (d n : Reg) (m w : BitVec 3) : Option Form :=
  let q := descriptor x n
  some {
    regs := []
    checks := [width x w, bases (grp x) [d], (decide (sfield q 2 33 32 ≠ 0), 0x11, 1, 0),
      (decide (sfield q 2 35 34 = w.toNat), 0x11, 2, 0),
      (decide (sfield q 3 31 0 + elements x ≤ sfield q 2 31 0), 0x11, 3, 0)]
    entry := { mkEntry x k with d := d, b := n, m := m, ew := w.toNat, oper := (qword q 0, qword q 1), mode := sfield q 2 33 32
                                imm := sfield q 3 31 0 }
    sld := none, vld := vld, len := 4
    also := fun y => { y with q := y.q.setIfInBounds n.toNat (moved q (elements x)) } }

/-- A TILE form over rows (R253). -/
def rows (x : Hand) (k : VKind) (r : Reg) (im : BitVec 10) (rep : BitVec 4) : Entry :=
  { mkEntry x k with sa := x.rd r, imm := im.toNat, ew := rep.toNat }
/-- Rows S[sa] + imm10 + j, j ≤ rep, lie below `accn` (R253): cause 0x0A. -/
def inRows (x : Hand) (r : Reg) (im : BitVec 10) (rep : BitVec 4) : Bool × Nat × Nat × Word :=
  (decide ((x.rd r).toNat + im.toNat + rep.toNat < x.accn), 0x0A, 0, 0)
/-- A TILE form that writes no vector register. -/
def tileForm (regs : List Reg) (checks : List (Bool × Nat × Nat × Word)) (e : Entry) (vld : Option Reg) : Option Form :=
  some { regs := regs, checks := checks, entry := e, sld := none, vld := vld, len := 8 }

/-- A 64-byte alignment (R247, R302): cause 0x05 with the address. -/
def aligned64 (v : Word) : Bool × Nat × Nat × Word := (decide (v.toNat % 64 = 0), 0x05, 0, v)

/-- VADD to VFUN (chapter 7): what each form names, captures and checks. -/
def elementForm (x : Hand) : Instr → Option Form
  | .vaddVv d a b m f => vv x (.ew .add) d a b m f
  | .vaddVs d a b m f => vs x (.ew .add) d a b m f
  | .vaddVi d a im m f => vi x (.ew .add) d a (immElem (x.rd (fwr f)) im) m f
  | .vsubVv d a b m f => vv x (.ew .sub) d a b m f
  | .vsubVs d a b m f => vs x (.ew .sub) d a b m f
  | .vrsubVs d a b m f => vs x (.ew .rsub) d a b m f
  | .vrsubVi d a im m f => vi x (.ew .rsub) d a (immElem (x.rd (fwr f)) im) m f
  | .vneg d a m f => v1 x (.un .neg) d a m f
  | .vmulVv d a b m f => vv x (.ew .mul) d a b m f
  | .vmulVs d a b m f => vs x (.ew .mul) d a b m f
  | .vmulhVv d a b m f => vv x (.ew .mulh) d a b m f
  | .vmulhVs d a b m f => vs x (.ew .mulh) d a b m f
  | .vmulhnVv d a b m f => vv x (.ew .mulhn) d a b m f
  | .vmulhnVs d a b m f => vs x (.ew .mulhn) d a b m f
  | .vdivVv d a b m f => vv x (.ew .div) d a b m f
  | .vdivVs d a b m f => vs x (.ew .div) d a b m f
  | .vremVv d a b m f => vv x (.ew .rem) d a b m f
  | .vremVs d a b m f => vs x (.ew .rem) d a b m f
  | .vminVv d a b m f => vv x (.ew .min) d a b m f
  | .vminVs d a b m f => vs x (.ew .min) d a b m f
  | .vmaxVv d a b m f => vv x (.ew .max) d a b m f
  | .vmaxVs d a b m f => vs x (.ew .max) d a b m f
  | .vabs d a m f => v1 x (.un .abs) d a m f
  | .vsaddVv d a b m f => vv x (.ew .sadd) d a b m f
  | .vandVv d a b m f => vv x (.ew .and) d a b m f
  | .vandVs d a b m f => vs x (.ew .and) d a b m f
  | .vorVv d a b m f => vv x (.ew .or) d a b m f
  | .vorVs d a b m f => vs x (.ew .or) d a b m f
  | .vxorVv d a b m f => vv x (.ew .xor) d a b m f
  | .vxorVs d a b m f => vs x (.ew .xor) d a b m f
  | .vnot d a m f => v1 x (.un .not) d a m f
  | .vssubVv d a b m f => vv x (.ew .ssub) d a b m f
  | .vsllVv d a b m f => vv x (.ew .sll) d a b m f
  | .vsllVs d a b m f => vs x (.ew .sll) d a b m f
  | .vsllVi d a im m f => vi x (.ew .sll) d a (im.setWidth 64) m f
  | .vsrlVv d a b m f => vv x (.ew .srl) d a b m f
  | .vsrlVs d a b m f => vs x (.ew .srl) d a b m f
  | .vsrlVi d a im m f => vi x (.ew .srl) d a (im.setWidth 64) m f
  | .vsraVv d a b m f => vv x (.ew .sra) d a b m f
  | .vsraVi d a im m f => vi x (.ew .sra) d a (im.setWidth 64) m f
  | .vfmaVv d a b m f => vv x (.fma .ma) d a b m f
  | .vfmaVs d a b m f => vs x (.fma .ma) d a b m f
  | .vfmsVv d a b m f => vv x (.fma .ms) d a b m f
  | .vfmsVs d a b m f => vs x (.fma .ms) d a b m f
  | .vfnmaVv d a b m f => vv x (.fma .nma) d a b m f
  | .vfnmaVs d a b m f => vs x (.fma .nma) d a b m f
  | .vfnmsVv d a b m f => vv x (.fma .nms) d a b m f
  | .vfnmsVs d a b m f => vs x (.fma .nms) d a b m f
  | .vceqVv d a b m f => cvv x .eq d a b m f
  | .vceqVs d a b m f => cvs x .eq d a b m f
  | .vcneVv d a b m f => cvv x .ne d a b m f
  | .vcltVv d a b m f => cvv x .lt d a b m f
  | .vcltVs d a b m f => cvs x .lt d a b m f
  | .vcleVv d a b m f => cvv x .le d a b m f
  | .vcleVs d a b m f => cvs x .le d a b m f
  | .vcgtVs d a b m f => cvs x .gt d a b m f
  | .vclass d a m f => v1 x .cls d a m f
  | .vsqrt d a m f => v1 x (.un .sqrt) d a m f
  | .vrcp d a m f => v1 x (.un .rcp) d a m f
  | .vrsqrt d a m f => v1 x (.un .rsqrt) d a m f
  | .vexp2 d a m f => v1 x (.un .exp2) d a m f
  | .vlog2 d a m f => v1 x (.un .log2) d a m f
  | .vtanh d a m f => v1 x (.un .tanh) d a m f
  | .vround d a m f => v1 x (.un .round) d a m f
  | .vscaleVs d a b m f => vs x .scale d a b m f
  | .vcvt d a m f =>
    let w := formatWord (x.rd (fwr f))
    let g (code : Nat) : Nat := if code = 14 then 2 * grp x else grp x
    some { regs := [fwr f]
           checks := [legal (decide (d.toNat % g w.fd = 0) && decide (a.toNat % g w.fa = 0)), format (fwElem (.un .cvt) w (sew x))]
           entry := { ventry x (.un .cvt) d a m with fw := x.rd (fwr f) }, sld := none, vld := some d, len := 4 }
  | .cVadd b => some { elementwise x (.ew .add) [x.vld, x.vld, b] x.vld x.vld 0 0 (.reg b) 0 [] 2 with sld := none }
  | .cVmul b => some { elementwise x (.ew .mul) [x.vld, x.vld, b] x.vld x.vld 0 0 (.reg b) 0 [] 2 with sld := none }
  | .cVfma b c => some { elementwise x (.fma .ma) [x.vld, b, c] x.vld b 0 0 (.reg c) 0 [] 2 with sld := none }
  | _ => none

/-- VMSK and VMOV (R166 to R170). -/
def moveForm (x : Hand) : Instr → Option Form
  | .vsel d a b m => moving x [] [d, a, b] { ventry x .sel d a m with src := .reg b }
  | .vmand d a b => moving x [] [] { ventry x (.mask .and) d a 0 with b := b }
  | .vmor d a b => moving x [] [] { ventry x (.mask .or) d a 0 with b := b }
  | .vmxor d a b => moving x [] [] { ventry x (.mask .xor) d a 0 with b := b }
  | .vmandn d a b => moving x [] [] { ventry x (.mask .andn) d a 0 with b := b }
  | .vmnot d a => moving x [] [] { ventry x (.mask .not) d a 0 with b := 0 }
  | .vmvVv d a m => moving x [] [d, a] (ventry x .mv d a m)
  | .vbcVs d b m => moving x [b] [d] { ventry x .bc d 0 m with src := .val (x.rd b) }
  | .vbcVi d im m => moving x [] [d] { ventry x .bc d 0 m with src := .val (im.signExtend 64) }
  | .vmvVs d b => moving x [b] [d] { ventry x .mvVs d 0 0 with sb := x.rd b }
  | .viota d a m => moving x [] [d] (ventry x .iota d a m)
  | .vidx d m => moving x [] [d] (ventry x .idx d 0 m)
  | .vmpopc d a m => returning [] [] (ventry x .mpopc 0 a m) d
  | .vmfirst d a m => returning [] [] (ventry x .mfirst 0 a m) d
  | .vmvSv d a b => returning [b] [bases (grp x) [a]] { ventry x .mvSv 0 a 0 with sb := x.rd b } d
  | _ => none

/-- VRED, VSCAN, VPERM and VSORT (chapter 8). -/
def crossForm (x : Hand) : Instr → Option Form
  | .vredsumO d a b m f => crossing x (.red .sumO) [] [d, a] d a b m f false 0 []
  | .vredsumT d a b m f => crossing x (.red .sumT) [] [d, a] d a b m f false 0 []
  | .vredsumU d a b m f => crossing x (.red .sumU) [] [d, a] d a b m f true 0 []
  | .vredmaxT d a b m f => crossing x (.red .max) [] [d, a] d a b m f false 0 []
  | .vredminT d a b m f => crossing x (.red .min) [] [d, a] d a b m f false 0 []
  | .vredandT d a b m f => crossing x (.red .and) [] [d, a] d a b m f false 0 []
  | .vredorT d a b m f => crossing x (.red .or) [] [d, a] d a b m f false 0 []
  | .vredxorT d a b m f => crossing x (.red .xor) [] [d, a] d a b m f false 0 []
  | .vscanAdd d a b m f => crossing x (.scan .add) [] [d, a] d a b m f false 0 []
  | .vscanAddx d a b m f => crossing x (.scan .addx) [] [d, a] d a b m f false 0 []
  | .vscanMax d a b m f => crossing x (.scan .max) [] [d, a] d a b m f false 0 []
  | .vscanMin d a b m f => crossing x (.scan .min) [] [d, a] d a b m f false 0 []
  | .vscanAddU d a b m f => crossing x (.scan .addU) [] [d, a] d a b m f true 0 []
  | .vrowred d a m f => crossing x .rowred [] [d, a] d a 0 m f false 0 []
  | .vsort d a m f => crossing x (.sort false) [] [d, a] d a 0 m f false 0 []
  | .vsortd d a m f => crossing x (.sort true) [] [d, a] d a 0 m f false 0 []
  | .vrank d a m f => crossing x .rank [] [d, a] d a 0 m f false 0 []
  | .vsortkv d a b m f => crossing x .sortkv [d] [a, b] d a b m f false 0 []
  | .vtopk d a b m f => crossing x .topk [d] [a] d a 0 m f false (x.rd b) [b]
  | .vmerge d a b m f => crossing x (.merge false) [d, a, b] [] d a b m f false 0 []
  | .vmergeu d a b m f => crossing x (.merge true) [d, a, b] [] d a b m f false 0 []
  | .vcomp d a m => moving x [] [d, a] (ventry x (.permute .comp) d a m)
  | .vexpand d a m => moving x [] [d, a] (ventry x (.permute .expand) d a m)
  | .vrev d a m => moving x [] [d, a] (ventry x (.permute .rev) d a m)
  | .vunzip d a m => moving x [] [d, a] (ventry x (.permute .unzip) d a m)
  | .vperm d a b m => moving x [] [d, a, b] { ventry x (.permute .perm) d a m with b := b }
  | .vzip d a b m => moving x [] [d, a, b] { ventry x (.permute .zip) d a m with b := b }
  | .vrotVs d a b m => moving x [b] [d, a] { ventry x (.permute .rot) d a m with sb := x.rd b }
  | .vbcaste d a b m => moving x [b] [d, a] { ventry x (.permute .bcaste) d a m with sb := x.rd b }
  | _ => none

/-- Passes and BFCTL (R183, R188, R189). -/
def butterflyForm (x : Hand) : Instr → Option Form
  | .bfPass d a k m l q =>
    let prog := x.rd (fwr q)
    let o := slotOperator x l.toNat
    let n := stageCount prog
    let g := grp x
    some {
      regs := [fwr q]
      checks := [bases g [d, a],
        legal (decide (k = 0) || (decide (k.toNat % g = 0) && decide (k.toNat + n * g ≤ 32)
          && (decide (d.toNat + g ≤ k.toNat) || decide (k.toNat + n * g ≤ d.toNat)))),
        ((match o with
          | none => false
          | some p => decide (sew x = (if (operatorOf p).kv then 2 else 1) * codeWidth (operatorOf p).code 2)), 0x03, 0, 0),
        (stagesLegal prog x.bpc (8 * g * (1024 / sew x)), 0x04, 0, 0)]
      entry := { ventry x .pass d a m with b := k, fw := prog, oper := o.getD (0, 0) }, sld := none, vld := some d, len := 4 }
  | .bfLoad a b q =>
    some { regs := [a, b], checks := [(descriptorLegal (x.rd a, x.rd b), 0x03, 0, 0)], entry := mkEntry x .bfLoad, sld := none
           vld := none, len := 4
           also := fun y => { y with slots := y.slots.setIfInBounds (q.toNat - 4) (some (x.rd a, x.rd b)) } }
  | .bfClr q =>
    some { regs := [], checks := [], entry := mkEntry x .bfClr, sld := none, vld := none, len := 4
           also := fun y => if q = 0 then { y with slots := Vector.replicate 4 none }
             else { y with slots := y.slots.setIfInBounds (q.toNat - 4) none } }
  | .bfStat d => returning [] [] { mkEntry x .bfStat with sa := statWord x } d
  | _ => none

/-- Vector memory, copies, waits, whistles and streams (chapters 10 and 15). -/
def memoryForm (x : Hand) : Instr → Option Form
  | .vld d a m w => unit x (.load .unit) (some d) d a m w
  | .vlds d a b m w => stride x (.load .strided) (some d) d a b m w
  | .vldx d a b m w => indexed x (.load .indexed) (some d) d a b m w [apart x d b]
  | .vldq d n m w => streaming x (.load .stream) (some d) d n m w
  | .vldr d a b m w => stride x (.load .row) (some d) d a b m w
  | .vpf a m w => unit x .pf none 0 a m w
  | .vgl d a b m w => indexed x .gl (some d) d a b m w [apart x d b]
  | .vst d a m w => unit x (.store .unit false) none d a m w
  | .vsts d a b m w => stride x (.store .strided false) none d a b m w
  | .vstx d a b m w => indexed x (.store .indexed false) none d a b m w []
  | .vstxUn d a b m w => indexed x (.store .indexed true) none d a b m w []
  | .vstq d n m w => streaming x (.store .stream false) none d n m w
  | .vstr d a b m w => stride x (.store .row false) none d a b m w
  | .vsc d a b m w => indexed x .sc (some (m.setWidth 5)) d a b m w []
  | .vamoAdd d a b m w => indexed x (.amo .add false false) none d a b m w []
  | .vamoMin d a b m w => indexed x (.amo .min false false) none d a b m w []
  | .vamoMax d a b m w => indexed x (.amo .max false false) none d a b m w []
  | .vamoAnd d a b m w => indexed x (.amo .and false false) none d a b m w []
  | .vamoOr d a b m w => indexed x (.amo .or false false) none d a b m w []
  | .vamoXor d a b m w => indexed x (.amo .xor false false) none d a b m w []
  | .vamoSwap d a b m w => indexed x (.amo .swap false false) none d a b m w []
  | .vamoAddUn d a b m w => indexed x (.amo .add false true) none d a b m w [orderless x]
  | .vamofAdd d a b m w => indexed x (.amo .add true false) (some d) d a b m w [apart x d b]
  | .vamofSwap d a b m w => indexed x (.amo .swap true false) (some d) d a b m w [apart x d b]
  | .vcopy d a b m w =>
    some { regs := [a, b], checks := [aligned64 (x.rd a), aligned64 (x.rd b)], entry := { mentry x .copy d a m w with sb := x.rd b }
           sld := none, vld := some d, len := 4 }
  | .vwait d a b m w =>
    some { regs := [a], checks := [legal (decide (sew x = 64)), bases (grp x) [d], idx x b, apart x d b]
           entry := { mentry x .vwait d a m w with b := b }, sld := none, vld := some d, len := 4 }
  | .vqset a n => some { regs := [a], checks := [], entry := { mkEntry x .qset with b := n, sa := x.rd a }, sld := none, vld := none, len := 4 }
  | .vqget a n =>
    let q := descriptor x n
    some { regs := [a], checks := []
           entry := { mkEntry x .qget with b := n, sa := x.rd a, oper := (qword q 0, qword q 1), fw := qword q 2, sb := qword q 3 }
           sld := none, vld := none, len := 4 }
  | .wred d a b w =>
    let n := elements x * (sew x / 8)
    some { regs := [a, b]
           checks := [legal (decide (codeWidth (whistleFormat w.toNat) 2 = sew x)), bases (grp x) [d], aligned64 (x.rd a),
             (decide (0 < n ∧ n ≤ 4096), 0x10, 1, 0)]
           entry := { mentry x .wred d a 0 w with sb := x.rd b }, sld := none, vld := none, len := 4 }
  | .wfin d a b => returning [a, b] [] { mkEntry x .wfin with sa := x.rd a, sb := x.rd b } d
  | .wpoll d a => returning [a] [] { mkEntry x .wpoll with sa := x.rd a } d
  | _ => none

/-- TILE (R253 to R264). -/
def matrixForm (x : Hand) : Instr → Option Form
  | .mma sa im rep f mode a m =>
    let w := formatWord (x.rd (fwr f))
    tileForm [sa, fwr f]
      [legal (spanOk a (rep.toNat + 1) (decide (w.fa = 14))), format (fwMma w), inRows x sa im rep]
      { rows x .mma sa im rep with a := a, m := m, mode := mode.toNat, fw := x.rd (fwr f) } none
  | .mlatch b f =>
    let w := formatWord (x.rd (fwr f))
    tileForm [fwr f] [legal (latchOk b (decide (w.fb = 14))), format (fwMlatch w)]
      { mkEntry x .mlatch with b := b, fw := x.rd (fwr f) } none
  | .mzero sa im rep => tileForm [sa] [inRows x sa im rep] (rows x .mzero sa im rep) none
  | .mrd d sa im rep f =>
    let e := { rows x .mrd sa im rep with d := d, fw := x.rd (fwr f) }
    tileForm [sa, fwr f]
      [legal (rowsFit d (tileOf e) (rep.toNat + 1)), format (fwMrd (formatWord (x.rd (fwr f))) (sew x)), inRows x sa im rep] e (some d)
  | .mwr sa im rep a f =>
    let e := { rows x .mwr sa im rep with a := a, fw := x.rd (fwr f) }
    tileForm [sa, fwr f]
      [legal (rowsFit a (tileOf e) (rep.toNat + 1)), format (fwMwr (formatWord (x.rd (fwr f))) (sew x)), inRows x sa im rep] e none
  | .mld sa im rep b =>
    tileForm [sa, b] [inRows x sa im rep, (decide ((x.rd b).toNat % 4 = 0), 0x05, 0, x.rd b)]
      { rows x .mld sa im rep with sb := x.rd b } none
  | .mst sa im rep b =>
    tileForm [sa, b] [inRows x sa im rep, (decide ((x.rd b).toNat % 4 = 0), 0x05, 0, x.rd b)]
      { rows x .mst sa im rep with sb := x.rd b } none
  | _ => none

/-- Every dispatched instruction (R99). -/
def formOf (x : Hand) (i : Instr) : Option Form :=
  (elementForm x i).orElse fun _ => (moveForm x i).orElse fun _ => (crossForm x i).orElse fun _ =>
    (butterflyForm x i).orElse fun _ => (memoryForm x i).orElse fun _ => matrixForm x i

/-- The stream that a stream form or `vqget` names. -/
def streamOf : Instr → Option Reg
  | .vldq _ n _ _ => some n
  | .vstq _ n _ _ => some n
  | .vqget _ n => some n
  | _ => none

/-- No `vqset` of the stream that the instruction names is under way (R237). -/
def StreamSettled (x : Hand) (i : Instr) : Prop := ∀ n, streamOf i = some n → ∀ e ∈ x.rq, ¬(e.kind = .qset ∧ e.b = n)

/-- Entries that will return a scalar or a tile count. -/
def returns (e : Entry) : Bool := e.ret.isSome || decide (e.kind = .topk ∨ e.kind = .permute .comp)

/-- The VIQ, the replay queue and the return queue have room (R100), and no older instruction has a fault to take (R315). -/
def Room (x : Hand) (e : Entry) : Prop :=
  (∀ f ∈ x.rq, f.fault = none) ∧ x.rq.length < 64 ∧ x.rq.countP (fun f => !f.taken) < 32
    ∧ (returns e = true → x.rq.countP returns + x.retq.length < 8)

/-- The hand after a dispatch (R93, R101, R102); an instruction that runs in full whatever `vstart` holds begins at its beginning (R237,
R246, R250, R303). -/
def queued (x : Hand) (f : Form) (age : Nat) : Hand :=
  let y := { f.also x with rq := x.rq ++ [{ f.entry.restart with age := age }], vstart := 0, bpc := 0 }
  let z := match f.sld with
    | some d => { y with lastd := (y.lastd &&& 0x1F00#64) ||| d.setWidth 64 }
    | none => y
  let u := match f.vld with
    | some d => { z with lastd := (z.lastd &&& 0x1F#64) ||| (d.setWidth 64 <<< 8) }
    | none => z
  stepped u f.len

/-- The machine after a dispatch: the core's age counter and the hand; `vgl` drops the hand's reservations (R244, R245). -/
def dispatched (s : State) (f : Form) : State :=
  let c := s.core (coreOf s.curHand)
  let t := s.setCore (coreOf s.curHand) { c with age := c.age + 1 }
  let u := if f.entry.kind = .gl then { t with resv := t.resv.filter fun r => r.1 != s.curHand } else t
  u.setMe (queued s.me f c.age)

/-- Every check holds. -/
def Passes (f : Form) : Prop := ∀ c ∈ f.checks, c.1 = true

end Sys2Proof.Spec

section Dispatched

open Sys2Proof Sys2Proof.Machine Sys2Proof.Spec

/-- R99 to R103, R93, R86, R159, R183, R190, R227, R228, R237, R238, R253: an instruction of the execute stream whose checks hold
is dispatched: its captured operands join the queue, `vstart` and `bpc` become 0, the last destinations change, and nothing else
does.  Where the engines work in lockstep (log 2) they go on from that state. -/
def Obligations.DispatchCaptures : Prop :=
  ∀ (s : State) (i : Instr) (f : Form), formOf s.me i = some f → Quiet s → s.me.tilePending = false → Ready s f.regs →
    StreamSettled s.me i → Passes f → Room s.me f.entry →
    exec i s = .next (if s.lockstep then settle (dispatched s f) s.curHand else dispatched s f)

/-- R100, R199, R237, R103, R315: while a tile count is pending, a named register is pending, a stream is being set, a queue is
full or an older instruction has a fault to take, the access stream stalls at the instruction: nothing changes. -/
def Sys2Proof.Spec.DispatchStalls : Prop :=
  ∀ (s : State) (i : Instr) (f : Form), formOf s.me i = some f →
    (s.me.tilePending = true ∨ ¬ Ready s f.regs ∨ ¬ StreamSettled s.me i ∨ (Passes f ∧ ¬ Room s.me f.entry)) →
    exec i s = .next s

/-- R100, R86, R147, R132, R183, R227, R228, R238, R247, R253, R302: a failed check at dispatch is a precise fault with its cause,
before any resource is taken; of several the first in the order of the form's list (the model's order, log 18). -/
def Sys2Proof.Spec.DispatchFaults : Prop :=
  ∀ (s : State) (i : Instr) (f : Form) (c : Bool × Nat × Nat × Word), formOf s.me i = some f → Clear s → s.me.stopReq = none →
    f.checks.find? (fun c => !c.1) = some c →
    ∃ t, exec i s = .next t ∧ ParkedWith s t c.2.1 c.2.2.1 (if c.2.1 = 0x05 then c.2.2.2 else 0) s.me.pc

/-- R100, R86, R132, R147, R183, R199, R227, R228, R237, R238, R247, R253, R302: a vector, memory, engine or tile instruction that waits before dispatch, and one that faults at
dispatch. -/
def Obligations.DispatchRefusals : Prop := Spec.DispatchStalls ∧ Spec.DispatchFaults

end Dispatched

/-! # Reeves -/

namespace Sys2Proof.Spec

open Sys2Proof.Machine

/-- A reeve after an instruction that goes on at `pc`: `minstret` counts it. -/
def rvAfter (r : Reeve) (pc : Word) : Reeve :=
  { r with csr := tabSet r.csr 0xB02 (tabGet 0 r.csr 0xB02 + 1), pc := pc, kwaiting := false, migHold := none, dbuf := none
           ibuf := none, out := none, framing := false }

/-- X[d] ← v; x0 stays 0. -/
def rvPut (r : Reeve) (d : Reg) (v : Word) : Reeve := if d = 0 then r else { r with x := r.x.set d.toNat v d.isLt }

/-- The low 32 bits of a doubleword. -/
def lo32 (x : Word) : BitVec 32 := x.setWidth 32
/-- A word sign-extended. -/
def sx (x : BitVec 32) : Word := x.signExtend 64

/-- The quotient of the RISC-V division: −1 by zero. -/
def quotient {w : Nat} (signed : Bool) (x y : BitVec w) : BitVec w :=
  if y = 0 then BitVec.allOnes w
  else if signed then BitVec.ofInt w (x.toInt.tdiv y.toInt) else BitVec.ofNat w (x.toNat / y.toNat)
/-- The remainder of the RISC-V division: the dividend by zero. -/
def remainder {w : Nat} (signed : Bool) (x y : BitVec w) : BitVec w :=
  if y = 0 then x
  else if signed then BitVec.ofInt w (x.toInt.tmod y.toInt) else BitVec.ofNat w (x.toNat % y.toNat)

/-- RV64IM, Zba and Zbb operations of two operands. -/
def rvAlu (o : RvAlu) (x y : Word) : Word :=
  match o with
  | .add => x + y
  | .sub => x - y
  | .sll => x <<< (y.toNat % 64)
  | .slt => bit (decide (x.toInt < y.toInt))
  | .sltu => bit (decide (x.toNat < y.toNat))
  | .xor => x ^^^ y
  | .srl => x >>> (y.toNat % 64)
  | .sra => x.sshiftRight (y.toNat % 64)
  | .or => x ||| y
  | .and => x &&& y
  | .addw => sx (lo32 x + lo32 y)
  | .subw => sx (lo32 x - lo32 y)
  | .sllw => sx (lo32 x <<< (y.toNat % 32))
  | .srlw => sx (lo32 x >>> (y.toNat % 32))
  | .sraw => sx ((lo32 x).sshiftRight (y.toNat % 32))
  | .mul => x * y
  | .mulh => BitVec.ofInt 64 (x.toInt * y.toInt / 2 ^ 64)
  | .mulhsu => BitVec.ofInt 64 (x.toInt * y.toNat / 2 ^ 64)
  | .mulhu => BitVec.ofNat 64 (x.toNat * y.toNat / 2 ^ 64)
  | .div => quotient true x y
  | .divu => quotient false x y
  | .rem => remainder true x y
  | .remu => remainder false x y
  | .mulw => sx (lo32 x * lo32 y)
  | .divw => sx (quotient true (lo32 x) (lo32 y))
  | .divuw => sx (quotient false (lo32 x) (lo32 y))
  | .remw => sx (remainder true (lo32 x) (lo32 y))
  | .remuw => sx (remainder false (lo32 x) (lo32 y))
  | .addUw => (lo32 x).setWidth 64 + y
  | .sh1add => (x <<< 1) + y
  | .sh2add => (x <<< 2) + y
  | .sh3add => (x <<< 3) + y
  | .sh1addUw => ((lo32 x).setWidth 64 <<< 1) + y
  | .sh2addUw => ((lo32 x).setWidth 64 <<< 2) + y
  | .sh3addUw => ((lo32 x).setWidth 64 <<< 3) + y
  | .slliUw => (lo32 x).setWidth 64 <<< (y.toNat % 64)
  | .andn => x &&& ~~~y
  | .orn => x ||| ~~~y
  | .xnor => ~~~(x ^^^ y)
  | .max => if x.toInt < y.toInt then y else x
  | .maxu => if x.toNat < y.toNat then y else x
  | .min => if y.toInt < x.toInt then y else x
  | .minu => if y.toNat < x.toNat then y else x
  | .rol => x.rotateLeft (y.toNat % 64)
  | .ror => x.rotateRight (y.toNat % 64)
  | .rolw => sx ((lo32 x).rotateLeft (y.toNat % 32))
  | .rorw => sx ((lo32 x).rotateRight (y.toNat % 32))

/-- The lowest k below w with bit f(k) set, or w. -/
def firstSet (w : Nat) (f : Nat → Bool) : Word := BitVec.ofNat 64 (((List.range w).find? f).getD w)

/-- Zbb operations of one operand. -/
def rvUnary (o : RvUnary) (x : Word) : Word :=
  match o with
  | .clz => firstSet 64 fun k => x.getLsbD (63 - k)
  | .ctz => firstSet 64 fun k => x.getLsbD k
  | .cpop => BitVec.ofNat 64 ((List.range 64).countP fun k => x.getLsbD k)
  | .clzw => firstSet 32 fun k => x.getLsbD (31 - k)
  | .ctzw => firstSet 32 fun k => x.getLsbD k
  | .cpopw => BitVec.ofNat 64 ((List.range 32).countP fun k => x.getLsbD k)
  | .sextB => (x.setWidth 8).signExtend 64
  | .sextH => (x.setWidth 16).signExtend 64
  | .zextH => (x.setWidth 16).setWidth 64
  | .orcB => BitVec.ofNat 64 (leValue ((leBytes 8 x.toNat).map fun b => if b = 0 then 0 else 0xFF))
  | .rev8 => BitVec.ofNat 64 (leValue (leBytes 8 x.toNat).reverse)

/-- The condition of a branch. -/
def rvTaken (k : RvCond) (x y : Word) : Bool :=
  match k with
  | .beq => decide (x = y)
  | .bne => decide (x ≠ y)
  | .blt => decide (x.toInt < y.toInt)
  | .bge => decide (y.toInt ≤ x.toInt)
  | .bltu => decide (x.toNat < y.toNat)
  | .bgeu => decide (y.toNat ≤ x.toNat)

/-- Destination, value and next program counter of the RISC-V instructions that compute or jump; len is the length. -/
def rvCompute (r : Reeve) (len : Word) : RvInstr → Option (Reg × Word × Word)
  | .lui d v => some (d, v, r.pc + len)
  | .auipc d v => some (d, r.pc + v, r.pc + len)
  | .jal d off => some (d, r.pc + len, r.pc + off)
  | .jalr d a v => some (d, r.pc + len, (r.rd a + v) &&& ~~~1#64)
  | .branch k a b off => some (0, 0, if rvTaken k (r.rd a) (r.rd b) then r.pc + off else r.pc + len)
  | .op o d a b => some (d, rvAlu o (r.rd a) (r.rd b), r.pc + len)
  | .opImm o d a v => some (d, rvAlu o (r.rd a) v, r.pc + len)
  | .unary o d a => some (d, rvUnary o (r.rd a), r.pc + len)
  | .fenceI => some (0, 0, r.pc + len)
  | _ => none

/-- The bit of dcsr by which an `ebreak` goes to the debug module (log 25). -/
def debugBit (y : Mode) : Nat :=
  match y with
  | .m => 15
  | .s => 13
  | .u => 12

/-- The RISC-V instructions that are an exception: code and trap value. -/
def rvException (r : Reeve) : RvInstr → Option (Nat × Word)
  | .ecall => some ((match r.mode with
      | .u => 8
      | .s => 9
      | .m => 11), 0)
  | .ebreak => if (r.csrOf 0x7B0).getLsbD (debugBit r.mode) then none else some (3, r.pc)
  | .illegal => some (2, 0)
  | .mret => if r.mode = .m then none else some (2, 0)
  | .sret => if r.mode = .u then some (2, 0) else none
  | .sfenceVma _ _ => if r.mode = .u then some (2, 0) else none
  | _ => none

/-- t is s after reeve c has trapped: to supervisor mode where the exception is delegated, else to machine mode; the other
registers and agents stand. -/
def Trapped (s t : State) (c code : Nat) (tval : Word) : Prop :=
  let r := s.reeve c
  let u := t.reeve c
  let down := decide (r.mode ≠ .m) && (r.csrOf 0x302).getLsbD code
  (down = true → u.mode = .s ∧ u.pc = r.csrOf 0x105 &&& ~~~3#64 ∧ u.csrOf 0x141 = r.pc ∧ u.csrOf 0x142 = BitVec.ofNat 64 code
      ∧ u.csrOf 0x143 = tval ∧ (u.csrOf 0x300).getLsbD 8 = decide (r.mode = .s)
      ∧ (u.csrOf 0x300).getLsbD 5 = (r.csrOf 0x300).getLsbD 1 ∧ (u.csrOf 0x300).getLsbD 1 = false)
    ∧ (down = false → u.mode = .m ∧ u.pc = r.csrOf 0x305 &&& ~~~3#64 ∧ u.csrOf 0x341 = r.pc
      ∧ u.csrOf 0x342 = BitVec.ofNat 64 code ∧ u.csrOf 0x343 = tval
      ∧ fld (u.csrOf 0x300) 12 11 = (match r.mode with
        | .u => 0
        | .s => 1
        | .m => 3)
      ∧ (u.csrOf 0x300).getLsbD 7 = (r.csrOf 0x300).getLsbD 3 ∧ (u.csrOf 0x300).getLsbD 3 = false)
    ∧ u.x = r.x ∧ u.hpend = r.hpend ∧ u.hsig = r.hsig ∧ u.hfarm = r.hfarm ∧ u.hmask = r.hmask ∧ u.serving = r.serving
    ∧ t.mem = s.mem ∧ t.hands = s.hands ∧ t.cores = s.cores ∧ t.farms = s.farms ∧ ∀ k, k ≠ c → t.reeve k = s.reeve k

/-- Bytes of a RISC-V load, and whether it sign-extends. -/
def rvWidth : RvLoad → Nat × Bool
  | .lb => (1, true)
  | .lh => (2, true)
  | .lw => (4, true)
  | .ld => (8, true)
  | .lbu => (1, false)
  | .lhu => (2, false)
  | .lwu => (4, false)

/-- The reeve's custom CSRs as read (Tables 3.1 to 3.4). -/
def customCsr (r : Reeve) (n : Nat) : Word :=
  if n = 0x5C0 then r.hpend else if n = 0x5C1 then r.hsig
  else if n = 0x5C3 then BitVec.ofNat 64 (r.hfarm % 2 ^ 32 * 65536 + r.hmask.toNat) else 0

/-- A reeve with a value written to a custom CSR that is not `rexit` (Tables 3.1, 3.2: a 1 clears). -/
def customSet (r : Reeve) (n : Nat) (v : Word) : Reeve :=
  if n = 0x5C0 then { r with hpend := r.hpend &&& ~~~v } else if n = 0x5C1 then { r with hsig := r.hsig &&& ~~~v } else r

/-- A Zicsr operation's new value. -/
def csrNew (k : RvCsrOp) (old v : Word) : Word :=
  match k with
  | .rw => v
  | .rs => old ||| v
  | .rc => old &&& ~~~v

end Sys2Proof.Spec

section Reeves

open Sys2Proof Sys2Proof.Machine Sys2Proof.Spec

/-- R45 (RV64IM, Zba, Zbb, the RISC-V Unprivileged Specification, log 5): the reeve's instructions that compute or jump write their
register and the program counter; nothing else changes. -/
def Obligations.ReeveComputes : Prop :=
  ∀ (s : State) (i : RvInstr) (short : Bool) (d : Reg) (v pc : Word),
    rvCompute s.rv (if short then 2 else 4) i = some (d, v, pc) → s.rv.frozen = false →
    exec (.reeveInstruction i short) s = .next (s.setReeve s.curReeve (rvAfter (rvPut s.rv d v) pc))

/-- R45 (the RISC-V Privileged Specification, log 5): `ecall`, `ebreak`, an illegal word and a return or fence without its
privilege take their exception; `mret` and `sret` return to the mode and program counter saved. -/
def Sys2Proof.Spec.ReeveTraps : Prop :=
  ∀ (s : State) (i : RvInstr) (short : Bool),
    (∀ code tval, rvException s.rv i = some (code, tval) →
      ∃ t, exec (.reeveInstruction i short) s = .next t ∧ Trapped s t s.curReeve code tval)
    ∧ (s.rv.mode = .m → s.rv.frozen = false →
      ∃ t, exec (.reeveInstruction .mret short) s = .next t ∧ t.rv.pc = s.rv.csrOf 0x341
        ∧ t.rv.mode = Mode.ofCode (fld (s.rv.csrOf 0x300) 12 11) ∧ t.rv.x = s.rv.x
        ∧ (t.rv.csrOf 0x300).getLsbD 3 = (s.rv.csrOf 0x300).getLsbD 7 ∧ (t.rv.csrOf 0x300).getLsbD 7 = true
        ∧ fld (t.rv.csrOf 0x300) 12 11 = 0 ∧ t.mem = s.mem ∧ t.hands = s.hands)
    ∧ (s.rv.mode = .s → (s.rv.csrOf 0x300).getLsbD 22 = false → s.rv.frozen = false →
      ∃ t, exec (.reeveInstruction .sret short) s = .next t ∧ t.rv.pc = s.rv.csrOf 0x141
        ∧ t.rv.mode = (if (s.rv.csrOf 0x300).getLsbD 8 then Mode.s else Mode.u) ∧ t.rv.x = s.rv.x
        ∧ (t.rv.csrOf 0x300).getLsbD 1 = (s.rv.csrOf 0x300).getLsbD 5 ∧ (t.rv.csrOf 0x300).getLsbD 5 = true
        ∧ (t.rv.csrOf 0x300).getLsbD 8 = false ∧ t.mem = s.mem ∧ t.hands = s.hands)

/-- R45, R276, R224, R284 (log 5): the reeve's loads and stores on cacheable DRAM of this device read and write the bytes that their
addresses translate to, and no other byte; a misaligned one whose bytes are accesses of their own begins and waits.  One that a fence
before it holds changes nothing. -/
def Obligations.ReeveMemory : Prop :=
  ∀ (s : State) (a b d : Reg) (off : Word) (short : Bool) (pas : List Nat), s.rv.frozen = false →
    let c := s.curReeve
    let len : Word := if short then 2 else 4
    let addr := s.rv.rd a + off
    Paid s (.reeve c) (dramLocs pas) →
    (∀ k, s.rv.fenced .load = true → rvLocate s c addr (rvWidth k).1 .load false = .ok (dramLocs pas) →
      exec (.reeveInstruction (.load k d a off) short) s = .next s)
    ∧ (∀ n ∈ [1, 2, 4, 8], s.rv.fenced .store = true → rvLocate s c addr n .store false = .ok (dramLocs pas) →
      exec (.reeveInstruction (.store n b a off) short) s = .next s)
    ∧ (s.rv.fenced .load = false → s.rv.fenced .store = false →
    (∀ k, rvLocate s c addr (rvWidth k).1 .load false = .ok (dramLocs pas) → DramClean s pas → Whole s addr (rvWidth k).1 →
      ∃ t, exec (.reeveInstruction (.load k d a off) short) s = .next t ∧ t.mem = s.mem ∧ t.hands = s.hands
        ∧ t.rv.x = (rvPut s.rv d (extended (rvWidth k).1 (rvWidth k).2 (pas.map (memGet s.mem)))).x ∧ t.rv.pc = s.rv.pc + len)
    ∧ (∀ n ∈ [1, 2, 4, 8], rvLocate s c addr n .store false = .ok (dramLocs pas) → Whole s addr n →
      ∃ t, exec (.reeveInstruction (.store n b a off) short) s = .next t
        ∧ t.mem = putAll s.mem pas (leBytes n (s.rv.rd b).toNat) ∧ t.hands = s.hands
        ∧ (∀ p, p ∉ pas → memGet t.mem p = memGet s.mem p) ∧ t.rv.x = s.rv.x ∧ t.rv.pc = s.rv.pc + len)
    ∧ (∀ k, rvLocate s c addr (rvWidth k).1 .load false = .ok (dramLocs pas) → DramClean s pas → ¬ Whole s addr (rvWidth k).1 →
      ∃ t, exec (.reeveInstruction (.load k d a off) short) s = .next t ∧ t.mem = s.mem ∧ t.hands = s.hands ∧ t.rv.x = s.rv.x
        ∧ t.rv.pc = s.rv.pc ∧ (t.rv.out.map fun o => (o.locs, o.got)) = some (dramLocs pas, pas.map (memGet s.mem)))
    ∧ (∀ n ∈ [1, 2, 4, 8], rvLocate s c addr n .store false = .ok (dramLocs pas) → ¬ Whole s addr n →
      ∃ t, exec (.reeveInstruction (.store n b a off) short) s = .next t ∧ t.mem = s.mem ∧ t.hands = s.hands ∧ t.rv.x = s.rv.x
        ∧ t.rv.pc = s.rv.pc ∧ (t.rv.out.map fun o => (o.kind, o.locs)) = some (.tear (leBytes n (s.rv.rd b).toNat), dramLocs pas)))

/-- R47, R36: the custom CSRs `hpend`, `hsig` and `hfarm` read as Tables 3.1 to 3.4 say, a 1 written clears a bit of `hpend` and
`hsig`, `hfarm` keeps its value; `rexit` reads 0 and, given the farm id, ends the reeve's part of the farm; from user mode each
access is an illegal instruction. -/
def Sys2Proof.Spec.ReeveCsrs : Prop :=
  ∀ (s : State) (k : RvCsrOp) (d a : Reg) (imm short : Bool) (n : BitVec 12), n.toNat ∈ [0x5C0, 0x5C1, 0x5C2, 0x5C3] →
    s.rv.frozen = false →
    let v := csrNew k (customCsr s.rv n.toNat) (if imm then a.setWidth 64 else s.rv.rd a)
    let writes := decide (k = .rw) || decide (a ≠ 0)
    let len : Word := if short then 2 else 4
    (s.rv.mode = .u → ∃ t, exec (.reeveInstruction (.csr k d a imm n) short) s = .next t ∧ Trapped s t s.curReeve 2 0)
    ∧ (s.rv.mode ≠ .u → n.toNat ≠ 0x5C2 ∨ writes = false →
      exec (.reeveInstruction (.csr k d a imm n) short) s
        = .next (s.setReeve s.curReeve (rvAfter (rvPut (if writes then customSet s.rv n.toNat v else s.rv) d (customCsr s.rv n.toNat))
          (s.rv.pc + len))))
    ∧ (s.rv.mode ≠ .u → n.toNat = 0x5C2 → writes = true →
      ∃ t, exec (.reeveInstruction (.csr k d a imm n) short) s = .next t ∧ t.rv.pc = s.rv.pc + len ∧ t.mem = s.mem
        ∧ t.hands = s.hands ∧ t.rv.x = (rvPut s.rv d 0).x
        ∧ (v.toNat ≠ s.rv.hfarm → t.farms = s.farms ∧ t.rv.serving = s.rv.serving)
        ∧ (v.toNat = s.rv.hfarm → v.toNat < 2 ^ 32 → s.rv.hfarm ≠ 0 → s.rv.serving = true →
          t.rv.serving = false ∧ t.rv.hfarm = 0 ∧ t.rv.hmask = 0
            ∧ t.farms = s.farms.map fun g => if g.id = s.rv.hfarm then { g with reeves := g.reeves.filter (· != s.curReeve) } else g))

/-- R36, Table 3.3: REXIT_WRITE of the farm that the reeve of core c serves ends its part; any other value has no effect. -/
def Sys2Proof.Spec.ReeveExits : Prop :=
  ∀ (s : State) (c : Nat) (v : Word), c < 128 →
    (v.toNat ≠ (s.reeve c).hfarm ∨ (s.reeve c).serving = false ∨ v = 0 ∨ 2 ^ 32 ≤ v.toNat → exec (.rexitWrite c v) s = .next s)
    ∧ (v.toNat = (s.reeve c).hfarm → (s.reeve c).serving = true → v ≠ 0 → v.toNat < 2 ^ 32 →
      exec (.rexitWrite c v) s = .next ((s.setReeve c { s.reeve c with serving := false, hfarm := 0, hmask := 0, kwaiting := false }).updFarm
        v.toNat fun g => { g with reeves := g.reeves.filter (· != c) }))

/-- R45, R46, R47, R36: traps and returns of a reeve, its CSR accesses, and `rexit`. -/
def Obligations.ReeveSystem : Prop := Spec.ReeveTraps ∧ Spec.ReeveCsrs ∧ Spec.ReeveExits

end Reeves

/-! # Xkry -/

namespace Sys2Proof.Spec

open Sys2Proof.Machine

/-- Hand k of the running reeve's core is in its current farm (R48, R53). -/
def mine (s : State) (k : Nat) : Bool :=
  s.rv.hmask.getLsbD k && decide ((s.hand (s.curReeve * 16 + k)).farm = s.rv.hfarm)

/-- The hands of a mask operand that a condition picks (R53). -/
def picked (s : State) (m : Word) (p : Hand → Bool) : List Nat :=
  (List.range 16).filter fun k => m.getLsbD k && mine s k && p (s.hand (s.curReeve * 16 + k))

/-- A mask of hands. -/
def maskOf (ks : List Nat) : Word := ks.foldl (fun v k => v ||| (1#64 <<< k)) 0

/-- An Idle hand without a pending request (R54). -/
def open_ (x : Hand) : Bool := decide (x.st = .idle) && x.stopReq.isNone && x.holdReq.isNone && !x.placed && !x.draining && !x.leaving

/-- t's hands are those of s, but for hands ks of the running reeve's core, which are changed by f. -/
def HandsBy (s t : State) (ks : List Nat) (f : Hand → Hand) : Prop :=
  ∀ h, t.hand h = if h / 16 = s.curReeve ∧ h % 16 ∈ ks then f (s.hand h) else s.hand h

/-- A hand given a broadcast block (R54). -/
def given (base : Word) (bytes : List Byte) (x : Hand) : Hand :=
  { x with cur := some { base := base.toNat, bytes := bytes, failed := none }, nxt := none, pc := base, blk := base.toNat, st := .block }

/-- The codes of the sixteen hands' states as `kstat` reads them, hand k in [4k+3:4k] (R58). -/
def states (s : State) : Word :=
  BitVec.ofNat 64 ((List.range 16).foldl (fun v k =>
    v + (if mine s k then (s.hand (s.curReeve * 16 + k)).st.code else 7) * 16 ^ k) 0)

/-- Quiescent as `kwait` asks (R57). -/
def Quiescent (s : State) (k : Nat) : Prop :=
  mine s k = false ∨ (let x := s.hand (s.curReeve * 16 + k)
    (x.st = .idle ∧ x.rq = [] ∧ x.sb = [] ∧ x.unacked = [] ∧ x.dieWrites = [] ∧ x.vunacked = [] ∧ x.vdieWrites = []) ∨ x.st = .parked ∨ x.st = .frozen ∨ x.st = .off)

/-- The bytes of an Xkry operand that lies in cacheable DRAM of this device, whose transfers are paid for, and which no fence holds. -/
def Operand (s : State) (addr : Word) (n : Nat) (rx : Bool) (pas : List Nat) : Prop :=
  s.rv.dbuf = none ∧ s.rv.fenced .load = false ∧ rvLocate s s.curReeve addr n .load rx = .ok (dramLocs pas) ∧ DramClean s pas
    ∧ Paid s (.reeve s.curReeve) (dramLocs pas)

/-- Base dies have replied to the reeve's earlier writes past the caches (R273, R278). -/
def Released (s : State) : Prop := s.rv.dieWrites = []

/-- The running reeve reaches memory untranslated: machine mode without MPRV (R46, log 5). -/
def Bare (s : State) : Prop := s.rv.mode = .m ∧ (s.rv.csrOf 0x300).getLsbD 17 = false

/-- The reeve after an Xkry instruction that gives X[d]. -/
def kAfter (s : State) (d : Reg) (v : Word) : Reeve := rvAfter (rvPut s.rv d v) (s.rv.pc + 4)

/-- What an Xkry instruction whose operand lies in memory leaves of the reeve. -/
def KDone (s t : State) (d : Reg) (v : Word) : Prop :=
  t.rv.x = (rvPut s.rv d v).x ∧ t.rv.pc = s.rv.pc + 4 ∧ t.rv.mode = s.rv.mode ∧ t.rv.hmask = s.rv.hmask ∧ t.rv.hfarm = s.rv.hfarm
    ∧ t.rv.kwaiting = false

/-- Selector fields (Table 3.9): hand, CSR or not, number; none where it is illegal. -/
def selector (w : Word) : Option (Nat × Bool × Nat) :=
  let v := w.toNat
  let n := v % 4096
  if v / 2 ^ 20 ≠ 0 ∨ v / 2 ^ 14 % 4 ≠ 0 then none
  else if v / 4096 % 4 = 0 then (if n < 32 then some (v / 2 ^ 16 % 16, false, n) else none)
  else if v / 4096 % 4 = 1 then (if n ≤ 0x16 then some (v / 2 ^ 16 % 16, true, n) else none)
  else none

/-- A hand that `kread`, `kwrite` and `krest` reach (R59, R61). -/
def Reachable (s : State) (k : Nat) : Prop :=
  mine s k = true ∧ (let x := s.hand (s.curReeve * 16 + k); x.st = .idle ∨ x.st = .held ∨ x.st = .parked)

/-- No hand of the reeve's core changed but hands ks (R53). -/
def OthersStand (s t : State) (ks : List Nat) : Prop :=
  ∀ h, ¬ (h / 16 = s.curReeve ∧ h % 16 ∈ ks) → t.hand h = s.hand h

/-- The hand's stop request is recorded, for its next safe point; a hold that the reeve asked for before is superseded (R56, R63). -/
def asked (ab : Bool) (x : Hand) : Hand :=
  { x with
    stopReq := some (ab || decide (x.stopReq = some true))
    holdReq := if x.holdReq = some .reeve then none else x.holdReq
    draining := x.draining && (decide (x.holdReq ≠ some .reeve) || x.placed) }

/-- A hand that a stop has reached (R56): Idle; one that was Held or Parked discards its queues. -/
def stoppedHand (x : Hand) : Hand :=
  let y := { x with
    st := .idle, waiting := none, arrived := none, ending := false, stopReq := none, draining := false, pfault := none, acc := none
    heldBy := none, migHold := none, fencing := false }
  if x.st = .held ∨ x.st = .parked then { y with rq := [], vstart := 0, bpc := 0, copies := [] } else y

/-- The same of a hand that a reeve has stopped or abandoned, whose earlier hold the stop supersedes (R56, R63). -/
def stopped (ab : Bool) (x : Hand) : Hand := { stoppedHand x with holdReq := none, leaving := ab }

/-- A hand in Block or Fetch that does not wait. -/
def running (x : Hand) : Bool := decide (x.st = .block ∨ x.st = .fetch)

/-- A hand that only the reeve may hold, none of whose stops pends (R63). -/
def Plain (x : Hand) : Prop :=
  x.stopReq = none ∧ x.placed = false ∧ x.leaving = false ∧ (x.holdReq = none ∨ x.holdReq = some .reeve)
    ∧ (x.heldBy = none ∨ x.heldBy = some .reeve) ∧ (x.st = .held → x.holdReq = none)

/-- What a hold request of the reeve makes of a hand x (R63, R64). -/
def HoldOf (x y : Hand) : Prop :=
  (x.st ∈ [HState.held, .parked, .frozen, .off] → y = x)
    ∧ (running x = true ∨ x.draining = true → x.st ∉ [HState.held, .parked, .frozen, .off] → y = { x with holdReq := some .reeve })
    ∧ (x.st = .idle ∨ x.st = .wait → x.draining = false →
      (x.drained = false → y = { x with holdReq := some .reeve, draining := true, arrived := none })
      ∧ (x.drained = true → y.st = .held ∧ y.heldBy = some .reeve ∧ y.holdReq = none ∧ y.waiting = none ∧ y.arrived = none
        ∧ y.pc = x.pc ∧ y.rq.length = x.rq.length ∧ y.frame.cls = 2 ∧ y.frame.apc = x.pc ∧ y.frame.replay = x.rq.length
        ∧ y.resume = (if x.st = .idle then Resume.idle else x.resume)))

/-- Bytes of a context image (R320). -/
def imageBytesCount : Nat := 36 * 4096

end Sys2Proof.Spec

section Xkry

open Sys2Proof Sys2Proof.Machine Sys2Proof.Spec

/-- R53, R54, R55, R278: `kbc` gives the block at X[a] to the Idle hands of the mask, `kgo` starts them in Fetch at X[a]; X[d] is the mask
of those hands.  The buffers that a started hand held before are empty, which R55 does not say (log 36).  A `kbc` address that is not a
multiple of 64 traps with 4, one whose page has no leaf, or a leaf without R or without X, is a load page fault, and a bad `kgo` target
traps with 2; no hand is touched.  While base dies have not replied to the reeve's writes past the caches, the releasing instruction waits. -/
def Obligations.Broadcasts : Prop :=
  ∀ (s : State) (d a b : Reg) (pas : List Nat), s.rv.frozen = false →
    let addr := s.rv.rd a
    let ks := picked s (s.rv.rd b) open_
    (¬ Released s → (addr.toNat % 64 = 0 → exec (.kbc d a b) s = .next s)
      ∧ (addr.getLsbD 0 = false → addr.toNat < 2 ^ 48 → exec (.kgo d a b) s = .next s))
    ∧ (addr.toNat % 64 = 0 → Released s → Operand s addr 64 true pas →
      ∃ t, exec (.kbc d a b) s = .next t ∧ KDone s t d (maskOf ks) ∧ t.mem = s.mem
        ∧ HandsBy s t ks (given addr (pas.map (memGet s.mem))))
    ∧ (addr.toNat % 64 ≠ 0 → ∃ t, exec (.kbc d a b) s = .next t ∧ Trapped s t s.curReeve 4 addr)
    ∧ (addr.toNat % 64 = 0 → Released s → s.rv.dbuf = none → s.rv.translates false = true →
      ((∃ n, rvLeaf s s.curReeve addr.toNat = .error n)
        ∨ ∃ l, rvLeaf s s.curReeve addr.toNat = .ok l ∧ (l.pte.getLsbD 1 = false ∨ l.pte.getLsbD 3 = false)) →
      ∃ t, exec (.kbc d a b) s = .next t ∧ Trapped s t s.curReeve 13 addr)
    ∧ (addr.getLsbD 0 = false → addr.toNat < 2 ^ 48 → Released s →
      ∃ t, exec (.kgo d a b) s = .next t ∧ t.rv = kAfter s d (maskOf ks) ∧ t.mem = s.mem
        ∧ HandsBy s t ks fun x => { x with st := .fetch, pc := addr, cur := none, nxt := none })
    ∧ (addr.getLsbD 0 = true ∨ 2 ^ 48 ≤ addr.toNat → ∃ t, exec (.kgo d a b) s = .next t ∧ Trapped s t s.curReeve 2 0)

/-- R56, R63, R50, R64: `kstop` asks the hands of its mask that are neither Frozen nor Off, and X[d] is their mask.  A hand in Block or
Fetch keeps the request for its next safe point; one that is Idle, Wait, Held or Parked stops at once: it is Idle, a Held or Parked one
without its replay queue, and an abandoned one whose work is done is Off.  A hold of `kquiet` is met at once by an Idle or Wait hand
whose queue is drained, begins the drain of one that is not, and waits for the safe point of a hand that runs; X[d] is the mask of the
hands Held.  Its release returns the hands that the reeve alone holds to their resume state, withdraws pending holds, and X[d] is the mask
of the hands released. -/
def Obligations.StopsAndHolds : Prop :=
  ∀ (s : State) (d a b : Reg), s.rv.frozen = false →
    let named := picked s (s.rv.rd a) fun _ => true
    let ks := picked s (s.rv.rd a) fun x => decide (x.st ≠ .frozen ∧ x.st ≠ .off)
    let ab := (s.rv.rd b).getLsbD 0
    let hd := fun k => s.hand (s.curReeve * 16 + k)
    ((∀ k ∈ ks, running (hd k) = true ∨ (ab = false ∧ Plain (hd k))) →
      ∃ t, exec (.kstop d a b) s = .next t ∧ t.rv = kAfter s d (maskOf ks) ∧ t.mem = s.mem
        ∧ HandsBy s t ks fun x => if running x then asked ab x else stopped ab x)
    ∧ (∀ k, ks = [k] → ab = true → Plain (hd k) → (hd k).st ∈ [HState.idle, .wait, .held, .parked] →
      ∃ t, exec (.kstop d a b) s = .next t ∧ t.rv.x = (rvPut s.rv d (maskOf ks)).x ∧ t.rv.pc = s.rv.pc + 4
        ∧ (let x := stopped true (hd k)
          if x.rq = [] ∧ x.storesDone then
            (t.hand (s.curReeve * 16 + k)).st = .off ∧ ∀ f ∈ t.farms, f.id = x.farm → f.abandoned = true
          else t.hand (s.curReeve * 16 + k) = x ∧ t.farms = s.farms))
    ∧ (ab = false → (∀ k ∈ named, Plain (hd k)) →
      ∃ t, exec (.kquiet d a b) s = .next t ∧ t.mem = s.mem ∧ OthersStand s t named
        ∧ t.rv = kAfter s d (maskOf (named.filter fun k => decide ((hd k).st = .held)
          || (decide ((hd k).st = .idle ∨ (hd k).st = .wait) && !(hd k).draining && (hd k).drained)))
        ∧ ∀ k ∈ named, HoldOf (hd k) (t.hand (s.curReeve * 16 + k)))
    ∧ (ab = true → s.lockstep = false → (∀ k ∈ named, Plain (hd k) ∧ ((hd k).holdReq = some .reeve → (hd k).draining = false)) →
      ∃ t, exec (.kquiet d a b) s = .next t ∧ t.mem = s.mem ∧ OthersStand s t named
        ∧ t.rv = kAfter s d (maskOf (named.filter fun k => decide ((hd k).st = .held ∧ (hd k).heldBy = some .reeve)))
        ∧ ∀ k ∈ named, let x := hd k
          let y := t.hand (s.curReeve * 16 + k)
          (x.st = .held → x.heldBy = some .reeve → y.heldBy = none ∧ y.pc = x.pc ∧ (x.rq ≠ [] → y.vstart = 0 ∧ y.bpc = 0)
            ∧ y.st = (if x.resume = .block ∧ x.pc.toNat = x.blk + 64 then .idle else x.resume.toState))
          ∧ (x.st = .held → x.heldBy = none → y = x)
          ∧ (x.st ≠ .held → y = if x.holdReq = some .reeve then { x with holdReq := none } else x))

/-- R58, R59, R65, R278: `kstat` reads the sixteen states, `kevt` ORs X[b] into the events of the hands that are not Frozen or Off once
base dies have replied to the reeve's writes past the caches, `kread`
and `kwrite` reach the registers of an Idle, Held or Parked hand whose return queue has been delivered, and an illegal selector, another hand or a refused CSR write
traps with 2. -/
def Obligations.HandRegisters : Prop :=
  ∀ (s : State) (d a b : Reg), s.rv.frozen = false →
    exec (.kstat d a b) s = .next (s.setReeve s.curReeve (kAfter s d (states s)))
    ∧ (¬ Released s → exec (.kevt d a b) s = .next s)
    ∧ (Released s →
      let ks := picked s (s.rv.rd a) fun x => decide (x.st ≠ .frozen ∧ x.st ≠ .off)
      ∃ t, exec (.kevt d a b) s = .next t ∧ t.rv = kAfter s d (maskOf ks) ∧ t.mem = s.mem
        ∧ HandsBy s t ks fun x => { x with evt := x.evt ||| s.rv.rd b })
    ∧ (∀ k csr n, selector (s.rv.rd a) = some (k, csr, n) → Reachable s k → (s.hand (s.curReeve * 16 + k)).retq = [] →
      let h := s.curReeve * 16 + k
      let old := if csr then csrRead s h n else (s.hand h).rd (BitVec.ofNat 5 n)
      exec (.kread d a b) s = .next (s.setReeve s.curReeve (kAfter s d old))
      ∧ (csr = false →
        exec (.kwrite d a b) s
          = .next ((s.setHand h (putReg (s.hand h) (BitVec.ofNat 5 n) (s.rv.rd b))).setReeve s.curReeve (kAfter s d old)))
      ∧ (csr = true → ∀ y p, csrSet (s.hand h) n (s.rv.rd b) = some (y, p) → p →
        exec (.kwrite d a b) s = .next ((s.setHand h y).setReeve s.curReeve (kAfter s d old)))
      ∧ (csr = true → (∀ y p, csrSet (s.hand h) n (s.rv.rd b) = some (y, p) → ¬ p) →
        ∃ t, exec (.kwrite d a b) s = .next t ∧ Trapped s t s.curReeve 2 0))
    ∧ ((selector (s.rv.rd a) = none ∨ ∃ k csr n, selector (s.rv.rd a) = some (k, csr, n) ∧ ¬ Reachable s k) →
      (∃ t, exec (.kread d a b) s = .next t ∧ Trapped s t s.curReeve 2 0)
        ∧ ∃ t, exec (.kwrite d a b) s = .next t ∧ Trapped s t s.curReeve 2 0)

/-- R57, R40: `kwait` completes with the doubleword at its address where bit 0 of that is 1, and with the states once every hand of its
mask is quiescent; otherwise the reeve waits, as it does while its farm is pre-empted.  KWAIT_COMPLETE looks again, as the `kwait` at
the reeve's program counter does. -/
def Obligations.KwaitCompletes : Prop :=
  (∀ (s : State) (d a b : Reg), (s.rv.rd a).toNat % 8 = 0 → farmAway s s.curReeve = true →
    exec (.kwait d a b) s = .next (s.setReeve s.curReeve { s.rv with kwaiting := true, dbuf := none }))
  ∧ (∀ (s : State) (d a b : Reg) (pas : List Nat), s.rv.frozen = false → s.rv.rd a ≠ 0 → (s.rv.rd a).toNat % 8 = 0 →
    farmAway s s.curReeve = false → Operand s (s.rv.rd a) 8 false pas →
    let ks := (List.range 16).filter fun k => (s.rv.rd b).getLsbD k && s.rv.hmask.getLsbD k
    let w := BitVec.ofNat 64 (leValue (pas.map (memGet s.mem)))
    ∃ t, exec (.kwait d a b) s = .next t ∧ t.mem = s.mem ∧ t.hands = s.hands
      ∧ (w.getLsbD 0 = true → KDone s t d w)
      ∧ (w.getLsbD 0 = false → ks ≠ [] → (∀ k ∈ ks, Quiescent s k) → KDone s t d (states s))
      ∧ (w.getLsbD 0 = false → (ks = [] ∨ ∃ k ∈ ks, ¬ Quiescent s k) →
        t.rv.kwaiting = true ∧ t.rv.x = s.rv.x ∧ t.rv.pc = s.rv.pc))
  ∧ ∀ (s : State) (d a b : Reg), s.rv.frozen = false → s.rv.rd a = 0 → farmAway s s.curReeve = false →
    let ks := (List.range 16).filter fun k => (s.rv.rd b).getLsbD k && s.rv.hmask.getLsbD k
    (ks = [] → exec (.kwait d a b) s = .next (s.setReeve s.curReeve (kAfter s d 0)))
    ∧ (ks ≠ [] → (∀ k ∈ ks, Quiescent s k) → exec (.kwait d a b) s = .next (s.setReeve s.curReeve (kAfter s d (states s))))
    ∧ ((∃ k ∈ ks, ¬ Quiescent s k) →
      exec (.kwait d a b) s = .next (s.setReeve s.curReeve { s.rv with kwaiting := true, dbuf := none }))
    ∧ (∀ t w, s.curReeve < 128 → s.rv.kwaiting = true → s.rv.halted = false → s.rv.debug = false → s.rv.out = none →
      rvFetch s = .ok (t, w) → kwaitOf w = some (d, a, b) → t.rv = s.rv → t.curReeve = s.curReeve → t.hands = s.hands →
      t.farms = s.farms → ks ≠ [] → (∀ k ∈ ks, Quiescent s k) →
      exec (.kwaitComplete s.curReeve) s = .next (t.setReeve s.curReeve (kAfter s d (states s))))

/-- R60, R320: `kframe` of a Held or Parked hand, here with untranslated addresses in DRAM, writes the 147,456 bytes of its image at
X[a] and gives 0, once every write that the reeve has sent has performed; of any other hand it gives 1 and writes nothing; from user mode it
traps with 2, at an address that is no multiple of 4,096 with 6.  The record under a key with its check word, which make up the frame, is
log 10's (DESIGN CHOICE); what `kframe` waits for is log 45's (DEDUCED). -/
def Sys2Proof.Spec.SavesImages : Prop :=
  ∀ (s : State) (d a b : Reg), s.rv.frozen = false →
    let k := (s.rv.rd b).toNat % 16
    let h := s.curReeve * 16 + k
    let addr := s.rv.rd a
    (s.rv.mode = .u → ∃ t, exec (.kframe d a b) s = .next t ∧ Trapped s t s.curReeve 2 0)
    ∧ (s.rv.mode ≠ .u → addr.toNat % 4096 ≠ 0 → ∃ t, exec (.kframe d a b) s = .next t ∧ Trapped s t s.curReeve 6 addr)
    ∧ (s.rv.mode ≠ .u → addr.toNat % 4096 = 0 → s.rv.framing = true →
      exec (.kframe d a b) s = .next (s.setReeve s.curReeve
        (if s.rv.unacked = [] ∧ s.rv.dieWrites = [] then kAfter s d 0 else { s.rv with framing := true })))
    ∧ (s.rv.mode ≠ .u → addr.toNat % 4096 = 0 → s.rv.framing = false → ¬(mine s k = true ∧ ((s.hand h).st = .held ∨ (s.hand h).st = .parked)) →
      exec (.kframe d a b) s = .next (s.setReeve s.curReeve (kAfter s d 1)))
    ∧ (Bare s → addr.toNat % 4096 = 0 → addr.toNat + imageBytesCount ≤ Config.dramSize → mine s k = true →
      (s.hand h).st = .held ∨ (s.hand h).st = .parked → (s.hand h).acc = none → (∀ e ∈ (s.hand h).rq, e.awaiting = none) →
      s.rv.framing = false → s.rv.unacked = [] → s.rv.dieWrites = [] →
      ∃ t key, exec (.kframe d a b) s = .next t ∧ KDone s t d 0 ∧ t.hands = s.hands
        ∧ t.mem = memPut s.mem addr.toNat (imageBytes s h key)
        ∧ tabFind t.frames key = some { hand := s.hand h, check := Config.checkWord (frameBody h (s.hand h) key) })

/-- R61, R319, R330: `krest`, here from untranslated DRAM, gives 1 for a hand that it cannot reach, records violation 0x43 and freezes
the reeve for an image whose frame the device did not write, gives 2 for an image of another hand or farm, and otherwise gives the
hand the saved scalar registers, program counter and resume state.  That the device knows its own frame by a record under a key, so that any
other is forged, is log 10's (DESIGN CHOICE). -/
def Sys2Proof.Spec.RestoresImages : Prop :=
  ∀ (s : State) (d a b : Reg), s.rv.frozen = false → Bare s → (s.rv.rd a).toNat % 4096 = 0 →
    let k := (s.rv.rd b).toNat % 16
    let h := s.curReeve * 16 + k
    let addr := (s.rv.rd a).toNat
    let img := memBytes s.mem addr imageBytesCount
    (¬ Reachable s k → exec (.krest d a b) s = .next (s.setReeve s.curReeve (kAfter s d 1)))
    ∧ (Reachable s k → s.rv.dbuf = none → s.rv.fenced .load = false → addr + imageBytesCount ≤ Config.dramSize →
        DramClean s ((List.range imageBytesCount).map (addr + ·)) →
      (checkedFrame s img = none → (s.part s.rv.part).viol = none →
        ∃ t, exec (.krest d a b) s = .next t ∧ t.rv.frozen = true ∧ t.mem = s.mem
          ∧ (t.part s.rv.part).viol
            = some { node := Config.node, id := s.curReeve, kind := 2, code := 0x43, detail := s.rv.rd a })
      ∧ (∀ r, checkedFrame s img = some r →
        (imageOwner img ≠ (h, (s.hand h).farm % 2 ^ 32) →
          ∃ t, exec (.krest d a b) s = .next t ∧ KDone s t d 2 ∧ t.mem = s.mem ∧ t.hands = s.hands)
        ∧ (imageOwner img = (h, (s.hand h).farm % 2 ^ 32) → s.lockstep = false →
          ∃ t, exec (.krest d a b) s = .next t ∧ KDone s t d 0 ∧ t.mem = s.mem ∧ (t.hand h).s = r.hand.s
            ∧ (t.hand h).pc = r.hand.pc ∧ (t.hand h).st = (if r.hand.resume = .block ∧ r.hand.pc.toNat = r.hand.blk + 64 then .idle else r.hand.resume.toState)
            ∧ (∀ n, n < 32 → ((t.hand h).vrd (BitVec.ofNat 5 n)).toNat = leValue ((img.drop (1024 * n)).take 1024))
            ∧ ∀ g, g ≠ h → t.hand g = s.hand g)))

/-- R60, R61, R319, R320, R330: `kframe` writes a context image and `krest` restores one. -/
def Obligations.ContextImages : Prop := Spec.SavesImages ∧ Spec.RestoresImages

/-- R62, R39, R278, R224, R284: `klaunch`, once base dies have replied to the reeve's writes past the caches and no fence holds its
write, gives 3 without a child queue, 1 for a full one, 2 for a bad packet and, the steward informed, 4 where the slot cannot be
written; otherwise the packet, with child set, the sequence number and the parent's id written, goes into the next slot, once its
transfers have tokens, and it gives 0. -/
def Obligations.LaunchesChildren : Prop :=
  (∀ (s : State) (d a b : Reg),
    ((s.rv.rd a).toNat % 8 ≠ 0 → ∃ t, exec (.klaunch d a b) s = .next t ∧ Trapped s t s.curReeve 4 (s.rv.rd a))
    ∧ ((s.rv.rd a).toNat % 8 = 0 → ¬ Released s ∨ s.rv.fenced .store = true → exec (.klaunch d a b) s = .next s))
  ∧ ∀ (s : State) (d a b : Reg) (pas qs : List Nat), s.rv.frozen = false → (s.rv.rd a).toNat % 8 = 0 → Released s →
    s.rv.fenced .store = false → Operand s (s.rv.rd a) 128 false pas →
    let p := s.part s.rv.part
    let seq := p.chead + p.ccount
    let bs := childPacket (pas.map (memGet s.mem)) seq s.rv.hfarm
    let bad := (packetReason bs true).isSome || decide ((parsePacket bs).rentry ≠ 0)
    let slot := p.pchild + BitVec.ofNat 64 (128 * (seq % 256))
    let read := (payFor s (.reeve s.curReeve) (dramLocs pas)).1
    (p.pchild = 0 → ∃ t, exec (.klaunch d a b) s = .next t ∧ KDone s t d 3 ∧ t.mem = s.mem ∧ t.parts = s.parts)
    ∧ (p.pchild ≠ 0 → 256 ≤ p.ccount → ∃ t, exec (.klaunch d a b) s = .next t ∧ KDone s t d 1 ∧ t.mem = s.mem ∧ t.parts = s.parts)
    ∧ (p.pchild ≠ 0 → p.ccount < 256 → bad = true →
      ∃ t, exec (.klaunch d a b) s = .next t ∧ KDone s t d 2 ∧ t.mem = s.mem ∧ t.parts = s.parts)
    ∧ (p.pchild ≠ 0 → p.ccount < 256 → bad = false →
      (locateIn s s.rv.part slot 128 .store = .ok (dramLocs qs) → Paid read (.other s.rv.part) (dramLocs qs) →
        ∃ t, exec (.klaunch d a b) s = .next t ∧ KDone s t d 0 ∧ t.mem = putAll s.mem qs bs
          ∧ t.part s.rv.part = { p with ccount := p.ccount + 1 } ∧ t.hands = s.hands)
      ∧ (locateIn s s.rv.part slot 128 .store = .ok (dramLocs qs) → ¬ Paid read (.other s.rv.part) (dramLocs qs) →
        ∃ t, exec (.klaunch d a b) s = .next t ∧ t.mem = s.mem ∧ t.parts = s.parts ∧ t.rv.x = s.rv.x ∧ t.rv.pc = s.rv.pc)
      ∧ (∀ cause sub ad, locateIn s s.rv.part slot 128 .store = .fault cause sub ad →
        ∃ t, exec (.klaunch d a b) s = .next t ∧ KDone s t d 4 ∧ t.mem = s.mem ∧ t.parts = s.parts
          ∧ t.reports = s.reports ++ [.childSlot s.rv.part]))

end Xkry


/-! # Registers and launch queues -/

namespace Sys2Proof.Spec

open Sys2Proof.Machine

/-- The partition whose register it is, and the partition after a write of v (Tables 2.1, 9.3, 15.11, 17.6, 20.1; R310). -/
def partAfter (s : State) (v : Word) : RegName → Option (Nat × Part)
  | .pquant p => some (p, { s.part p with pquant := v.toNat % 2 ^ 32 })
  | .psave p => some (p, { s.part p with psave := v >>> 12 <<< 12 })
  | .psaven p => some (p, { s.part p with psaven := v.toNat % 2 ^ 32 })
  | .pchild p => some (p, { s.part p with pchild := v >>> 7 <<< 7 })
  | .proot p => some (p, { s.part p with proot := v <<< 20 >>> 20 })
  | .prto p => some (p, { s.part p with prto := v.toNat % 2 ^ 32 })
  | .phwin p => some (p, { s.part p with phwin := v &&& 0xFFFFFFFFF000#64 })
  | .pviol p => some (p, { s.part p with viol := if v.getLsbD 63 then none else (s.part p).viol })
  | .pmanb p => some (p, { s.part p with manb := v &&& 0xFFFFFFFFFF9F#64 })
  | .pmans p => some (p, { s.part p with ovf := (s.part p).ovf && !v.getLsbD 63, lost := (s.part p).lost && !v.getLsbD 62 })
  | _ => none

/-- The machine after a write of v to a register of a slice port, a window, a core, a core group or the device (Tables 9.7, 9.8, 15.10,
17.4a, 20.4a, 15.13; R303, R268, R310). -/
def deviceAfter (s : State) (v : Word) : RegName → Option State
  | .bucket port p =>
    let q := tabGet Port.empty s.ports port
    let b := tabGet Bucket.empty q.buckets p
    let y : Bucket := { b with borrow := v.getLsbD 56, rate := v.toNat / 2 ^ 40 % 2 ^ 16, depth := v.toNat / 2 ^ 16 % 2 ^ 24
                               tokens := min b.tokens (v.toNat / 2 ^ 16 % 2 ^ 24 * 256) }
    if port < Config.slices ∧ p < 16 then some { s with ports := tabSet s.ports port { q with buckets := tabSet q.buckets p y } } else none
  | .commons port =>
    let q := tabGet Port.empty s.ports port
    let y : Port := { q with reserve := v.toNat / 2 ^ 24 % 2 ^ 24, depth := v.toNat % 2 ^ 24
                             level := min q.level (v.toNat % 2 ^ 24 * 256) }
    if port < Config.slices then some { s with ports := tabSet s.ports port y } else none
  | .window p i dw =>
    let x := tabGet Window.empty s.windows (p * 64 + i)
    let y : Window := if dw = 0 then { x with
        base := v.toNat / 2 ^ 12 % 2 ^ 32, part := v.toNat / 2 ^ 8 % 16, v := v.getLsbD 0, r := v.getLsbD 1, w := v.getLsbD 2
        a := v.getLsbD 3, frozen := x.frozen && !v.getLsbD 4 }
      else { x with frames := v.toNat % 2 ^ 32 }
    if p < 16 ∧ i < 64 ∧ dw < 2 then some { s with windows := tabSet s.windows (p * 64 + i) y } else none
  | .rckcfg c => if c < 128 then some (s.setCore c { s.core c with
      rckcfg := v &&& 0x1F00FF#64, fouls := (s.core c).fouls.expire (v.toNat / 2 ^ 16 % 32) }) else none
  | .gpwr g => if g < 17 then some (s.setCtrl g { s.ctrl g with gpwr := v.toNat % 2 ^ 16 }) else none
  | .ggain g => if g < 17 then some (s.setCtrl g { s.ctrl g with kp := v.toNat / 2 ^ 16 % 2 ^ 16, ki := v.toNat % 2 ^ 16 }) else none
  | .glim g =>
    let top := v.toNat / 2 ^ 8 % 32
    let bottom := v.toNat % 32
    if 17 ≤ g then none
    else if bottom ≤ top ∧ top ≤ 16 then some (s.setCtrl g { s.ctrl g with top := top, bottom := bottom }) else some s
  | .route n => if n ≤ 2303 then some { s with routes := tabSet s.routes n v } else none
  | .actCap => some { s with actCap := v.toNat }
  | .barSize fn =>
    if 17 ≤ fn then none
    else if 10 ≤ v.toNat % 32 ∧ v.toNat % 32 ≤ 19 then some { s with barSizes := tabSet s.barSizes fn (v.toNat % 32) } else some s
  | .mailbox i => if i < 512 then some (raiseMsix { s with mailbox := tabSet s.mailbox i v } 64) else none
  | _ => none

/-- Node, id and kind of a producer of queue q in `PVIOL` (Table 17.6). -/
def producerId (q : Nat) : Producer → Nat × Nat × Nat
  | .hand h => (Config.node, h, 0)
  | .engine h => (Config.node, h, 1)
  | .reeve c => (Config.node, c, 2)
  | .remote n p => (n, p, 3)
  | .host => (Config.node, q, 4)

/-- Windows of a partition that hold a PA, which freeze (R306, R330, log 42). -/
def windowsFrozen (t : Table Window) (p pa : Nat) : Table Window :=
  t.map fun w => if w.1 / 64 = p ∧ w.2.part = p ∧ w.2.v ∧ w.2.base * 4096 ≤ pa ∧ pa < (w.2.base + w.2.frames) * 4096 then
    (w.1, { w.2 with frozen := true }) else w

/-- The windows after queue q's producer has kicked without packet: of a producer of another node those that hold `QKICK` are frozen. -/
def windowsAfterKick (s : State) (q : Nat) : Producer → Table Window
  | .remote _ m => windowsFrozen s.windows m (Config.regBase + 0x100000 + 0x1000 * (q / 4) + 0x40 * (q % 4) + 0x10)
  | _ => s.windows

/-- A violation by a kick without packet (R28, R330): the queue has stopped with nothing published and its vector pends; a first violation
is recorded in `PVIOL` with code 0x44, the producer and the sequence number; a producer of another node freezes for the windows that hold
the register. -/
def KickViolation (s t : State) (q : Nat) (p : Producer) (seq : BitVec 32) : Prop :=
  (t.queue q).stopped = true ∧ (t.queue q).pub = none ∧ (t.queue q).rereads = none ∧ (t.queue q).head = (s.queue q).head
    ∧ q ∈ t.msix ∧ t.windows = windowsAfterKick s q p ∧ t.mem = s.mem ∧ t.farms.map Farm.id = s.farms.map Farm.id ∧ (∀ k, k ≠ q → t.queue k = s.queue k)
    ∧ ((s.part (q / 4)).viol = none → (t.part (q / 4)).viol = some
        { node := (producerId q p).1, id := (producerId q p).2.1, kind := (producerId q p).2.2, code := 0x44, detail := seq.setWidth 64 })

/-- The address of the slot at the head of a queue (R25, R26). -/
def headAddr (x : Queue) : Word := (x.base >>> 7 <<< 7) + BitVec.ofNat 64 (128 * (x.head.toNat % 2 ^ x.lsize))

/-- A queue whose slot can be read: it runs, its head is published, no read of it is under way and nothing of it waits (R28, R32). -/
def Readable (s : State) (q : Nat) : Prop :=
  (s.queue q).en = true ∧ (s.queue q).stopped = false ∧ (s.queue q).pub.isSome = true ∧ (∀ o ∈ s.outs, o.who ≠ .placer q)
    ∧ ∀ f ∈ s.farms, ¬(f.part = q / 4 ∧ f.queue = q % 4 ∧ f.phase = .waiting)

/-- A queue past its head slot (R29). -/
def pastHead (x : Queue) : Queue :=
  { x with head := x.head + 1, rereads := none, heldAt := none, pub := if x.pub = some x.head then none else x.pub }

end Sys2Proof.Spec

section Registers

open Sys2Proof Sys2Proof.Machine Sys2Proof.Spec

/-- R6, R23, R310, Tables 2.1, 9.3, 9.7, 9.8, 15.10, 15.11, 15.13, 17.4a, 17.4b, 17.6, 20.1, 20.4a: a write of each register of a partition, a slice port, a remote
window, a core or a core group sets its writable fields and nothing else; `PCORE` also moves its cores from the
partitions that had them, moves their reeves and empties their hand TLBs; `PDEAD` clears by ones; `FOUL` returns benched units to
service; GHEART ends fallback.  The steward writes none before stage 1 of the boot has verified its firmware (R356, log 24).  The 512 words of
the mailbox, that a steward's write there raises MSI-X vector 64, and the size codes of the resizable BAR2 are log 14's (DESIGN CHOICE). -/
def Obligations.RegisterWrites : Prop :=
  ∀ (s : State) (v : Word),
    (∀ r, (∀ u ∈ regUnits r, u.1 < u.2) → ∃ t, exec (.registerWrite r v) s = .next t ∧ t.mem = s.mem ∧ t.hands = s.hands ∧ t.farms = s.farms)
    ∧ (s.booted 1 = false → ∀ r, (∀ u ∈ regUnits r, u.1 < u.2) → exec (.registerWrite r v) s = .next s)
    ∧ (∀ g, g < 17 → exec (.gheartWrite g v) s = .next (s.setCtrl g { s.ctrl g with beat := s.groupTick g, fallback := false }))
    ∧ (s.booted 1 = true →
    (∀ r p y, partAfter s v r = some (p, y) → p < 16 → exec (.registerWrite r v) s = .next (s.setPart p y))
    ∧ (∀ r t, deviceAfter s v r = some t → exec (.registerWrite r v) s = .next t)
    ∧ (∀ p i, p < 16 → i < 36 →
      (∃ m, exec (.registerWrite (.pmem p i) v) s = .next (s.setPart p { s.part p with pmem := m })
        ∧ ∀ k, k < 2304 → m.getLsbD k = if k / 64 = i then v.getLsbD (k % 64) else (s.part p).pmem.getLsbD k)
      ∧ ∃ m, exec (.registerWrite (.pdead p i) v) s = .next (s.setPart p { s.part p with pdead := m })
        ∧ ∀ k, k < 2304 → m.getLsbD k = ((s.part p).pdead.getLsbD k && !(decide (k / 64 = i) && v.getLsbD (k % 64))))
    ∧ (∀ p, p < 16 → ∀ high : Bool,
      ∃ t m, exec (.registerWrite (if high then .pcoreHi p else .pcoreLo p) v) s = .next t
        ∧ t.part p = { s.part p with pcore := m } ∧ t.mem = s.mem ∧ t.hands = s.hands
        ∧ (∀ k, k < 128 → m.getLsbD k = if k / 64 = high.toNat then v.getLsbD (k % 64) else (s.part p).pcore.getLsbD k)
        ∧ ∀ c, c < 128 → t.reeve c = { s.reeve c with part := if m.getLsbD c then p else (s.reeve c).part }
          ∧ t.core c = { s.core c with htlb := if m.getLsbD c ∧ (s.reeve c).part ≠ p then [] else (s.core c).htlb })
    ∧ (∀ p, p < 16 → ∀ high : Bool, ∀ t, exec (.registerWrite (if high then .pcoreHi p else .pcoreLo p) v) s = .next t →
      ∀ q, q < 16 → q ≠ p → t.part q = { s.part q with pcore := (s.part q).pcore &&& ~~~(t.part p).pcore })
    ∧ ∀ c, c < 128 →
      ∃ t, exec (.registerWrite (.foul c) v) s = .next t ∧ t.hands = s.hands ∧ t.mem = s.mem ∧ (∀ k, k ≠ c → t.core k = s.core k)
        ∧ ∀ u, u < 8 →
          let back := v.getLsbD (56 + u) && (s.core c).fouls.bench.contains u
          (t.core c).fouls.bench.contains u = ((s.core c).fouls.bench.contains u && !back)
            ∧ tabGet 0 (t.core c).fouls.count u = if back then 0 else tabGet 0 (s.core c).fouls.count u)

/-- Tables 2.2 to 2.4, R25: `QBASE`, `QHEAD` (written only while en is 0), `QCTL` (en stays 0 while lsize is outside 1 to 12), and
clearing `QSTAT.stopped`, which restarts the queue with nothing published. -/
def Sys2Proof.Spec.QueueRegisters : Prop :=
  ∀ (s : State) (q : Nat) (v : Word), q < 64 →
    let x := s.queue q
    (s.booted 1 = true → exec (.registerWrite (.qbase q) v) s = .next (s.setQueue q { x with base := v &&& ~~~0x7E#64 })
      ∧ exec (.registerWrite (.qhead q) v) s = .next (if x.en then s else s.setQueue q { x with head := v.setWidth 32 }))
    ∧ (v.getLsbD 8 = true → 1 ≤ v.toNat % 32 → v.toNat % 32 ≤ 12 →
        exec (.qctlWrite q v) s = .next (s.setQueue q { x with lsize := v.toNat % 32, en := true }))
    ∧ (v.getLsbD 8 = false ∨ v.toNat % 32 = 0 ∨ 12 < v.toNat % 32 →
        exec (.qctlWrite q v) s = .next (s.setQueue q { x with lsize := v.toNat % 32, en := false, pub := none, rereads := none }))
    ∧ (x.stopped = true → ∃ m, exec (.qstatClearStopped q) s
          = .next { s.setQueue q { x with stopped := false, pub := none, rereads := none } with msix := m }
        ∧ ∀ k, k ∈ m ↔ k ∈ s.msix ∧ (k ≠ q ∨ x.bad = true))

/-- R27, R28: a kick of k to a running queue, with d = (k - head) mod 2^32: below 2^lsize it publishes up to k if that goes further
than what is published; from 2^lsize to below 2^31 it is a kick without packet, which stops the queue and records violation 0x44;
above, and on a queue that does not run, it has no effect.  A kick that extends the range makes its master the queue's producer, which
R28 does not say of several (log 47).  The host's kick waits until its function's earlier requests have performed (R285). -/
def Sys2Proof.Spec.Kicks : Prop :=
  ∀ (s : State) (p : Producer) (q : Nat) (v : Word), q < 64 →
    let x := s.queue q
    let k : BitVec 32 := v.setWidth 32
    let d := (k - x.head).toNat
    (p = .host → postedDone s (q / 4 + 1) = false → exec (.qkickWrite p q v) s = .next s)
    ∧ ((p = .host → postedDone s (q / 4 + 1) = true) →
    (x.en = true → x.stopped = false → d < 2 ^ x.lsize → (∀ e, x.pub = some e → (e - x.head).toNat < d) →
      exec (.qkickWrite p q v) s = .next (s.setQueue q { x with pub := some k, producer := p }))
    ∧ (x.en = true → x.stopped = false → d < 2 ^ x.lsize → (∃ e, x.pub = some e ∧ d ≤ (e - x.head).toNat) →
      exec (.qkickWrite p q v) s = .next s)
    ∧ (x.en = true → x.stopped = false → 2 ^ x.lsize ≤ d → d < 2 ^ 31 →
      ∃ t, exec (.qkickWrite p q v) s = .next t ∧ KickViolation s t q p k)
    ∧ (x.en = false ∨ x.stopped = true ∨ (2 ^ x.lsize ≤ d ∧ 2 ^ 31 ≤ d) → exec (.qkickWrite p q v) s = .next s))

/-- R25, R27, R28, Tables 2.2 to 2.4: the registers of a launch queue and its kicks. -/
def Obligations.QueuesAndKicks : Prop := Spec.QueueRegisters ∧ Spec.Kicks

/-- R28, R29, R30, R31, R217, R224: the placer reads the slot at the head of a queue, here in DRAM of this device, once its transfers have
tokens: the header, and the rest where the header has the head's sequence number.  Then a good packet becomes a farm that waits, a bad
one is skipped with its lowest reason.  A mismatch, whatever the rest of the slot holds, is read again
every 256 reference ticks, and after the 64th re-read the queue stops with violation 0x44.  A slot that faults is bad with
reason 9, and so is one that a migrating page has held for 200,000 ticks (R217), or one of which a byte in error is read. -/
def Obligations.SlotReads : Prop :=
  ∀ (s : State) (q : Nat) (i : Instr), q < 64 → Readable s q →
    let x := s.queue q
    ((i = .slotHeaderRead q ∧ x.rereads = none)
      ∨ (i = .slotHeaderReread q ∧ x.rereads.isSome = true ∧ x.readAt + 256 ≤ s.tick)) → x.base.getLsbD 0 = false →
    (∀ pas, locateIn s (q / 4) (headAddr x) 128 .load = .ok (dramLocs pas) → DramClean s (pas.take 8) →
      let bytes := pas.map (memGet s.mem)
      let seen := leValue (bytes.take 4)
      let all := Paid s (.other (q / 4)) (dramLocs pas)
      let some8 := Paid s (.other (q / 4)) (dramLocs (pas.take 8))
      (seen = x.head.toNat → all → DramClean s pas → packetReason bytes false = none →
        ∃ t f, exec i s = .next t ∧ t.farms = s.farms ++ [f] ∧ t.queues = tabSet s.queues q (pastHead x) ∧ t.mem = s.mem
          ∧ t.hands = s.hands ∧ f.pkt = parsePacket bytes ∧ f.part = q / 4 ∧ f.queue = q % 4 ∧ f.phase = .waiting ∧ f.hands = []
          ∧ f.since = s.tick)
      ∧ (seen = x.head.toNat → all → DramClean s pas → ∀ n, packetReason bytes false = some n →
        ∃ t, exec i s = .next t ∧ t.farms = s.farms ∧ t.mem = s.mem ∧ q ∈ t.msix
          ∧ t.queues = tabSet s.queues q { pastHead x with bad := true, badseq := x.head, reason := n })
      ∧ (seen = x.head.toNat → all → ¬ DramClean s pas →
        ∃ t, exec i s = .next t ∧ t.farms = s.farms ∧ t.mem = s.mem ∧ q ∈ t.msix
          ∧ t.queues = tabSet s.queues q { pastHead x with bad := true, badseq := x.head, reason := 9 })
      ∧ ((if seen = x.head.toNat then ¬ all else ¬ some8) →
        ∃ t, exec i s = .next t ∧ t.farms = s.farms ∧ t.mem = s.mem ∧ t.queues = s.queues)
      ∧ (seen ≠ x.head.toNat → some8 → x.rereads = none →
        ∃ t, exec i s = .next t ∧ t.farms = s.farms ∧ t.mem = s.mem
          ∧ t.queues = tabSet s.queues q { x with rereads := some 0, readAt := s.tick, heldAt := none })
      ∧ (seen ≠ x.head.toNat → some8 → ∀ n, x.rereads = some n → n < 63 →
        ∃ t, exec i s = .next t ∧ t.farms = s.farms ∧ t.mem = s.mem
          ∧ t.queues = tabSet s.queues q { x with rereads := some (n + 1), readAt := x.readAt + 256, heldAt := none })
      ∧ (seen ≠ x.head.toNat → some8 → ∀ n, x.rereads = some n → 63 ≤ n →
        ∃ t, exec i s = .next t ∧ KickViolation s t q x.producer x.head))
    ∧ ((∃ c b a, locateIn s (q / 4) (headAddr x) 128 .load = .fault c b a)
        ∨ (∃ a, locateIn s (q / 4) (headAddr x) 128 .load = .hold a) ∧ Config.holdTicks ≤ s.tick - x.heldAt.getD s.tick →
        ∃ t, exec i s = .next t ∧ t.farms = s.farms ∧ q ∈ t.msix
          ∧ t.queues = tabSet s.queues q { pastHead x with bad := true, badseq := x.head, reason := 9 })
    ∧ (∀ a, locateIn s (q / 4) (headAddr x) 128 .load = .hold a → s.tick - x.heldAt.getD s.tick < Config.holdTicks →
        exec i s = .next (s.setQueue q { x with heldAt := some (x.heldAt.getD s.tick) }))

end Registers


/-! # The placer -/

namespace Sys2Proof.Spec

open Sys2Proof.Machine

/-- A placed hand at its start (Table 2.8, R19, R35): s2 is the end of its share, s3 the argument block, s4 the whistle group. -/
def started (f : Farm) (p : Placed) : Hand :=
  { Hand.empty with
    st := if f.pkt.rentry = 0 then .fetch else .idle
    pc := if f.pkt.rentry = 0 then f.pkt.hentry else 0
    s := (((Vector.replicate 32 0).set 2 (BitVec.ofNat 64 (Config.spadBase + 4096 * (p.spb + p.spn)))).set 3 f.pkt.args).set 4
      (BitVec.ofNat 64 f.pkt.whistle)
    det := f.pkt.det, rck := f.pkt.rck, farm := f.id, part := f.part, accb := p.accb, accn := p.accn, spb := p.spb, spn := p.spn
    gAccb := p.accb, gAccn := p.accn, gSpb := p.spb, gSpn := p.spn }

/-- Offset o of core c's scratchpad lies in the share of one of the hands. -/
def inShares (ps : List Placed) (c o : Nat) : Bool :=
  ps.any fun p => decide (p.hid / 16 = c ∧ 4096 * p.spb ≤ o ∧ o < 4096 * (p.spb + p.spn))

/-- Row r of core c lies in the accumulator window of one of the hands. -/
def inWindows (ps : List Placed) (c r : Nat) : Bool :=
  ps.any fun p => decide (p.hid / 16 = c ∧ p.accb ≤ r ∧ r < p.accb + p.accn)

/-- The hands and shares of farm f are started on ps (R35, R36): every hand, share, window and reeve of ps, and nothing else. -/
def Started (s t : State) (f : Farm) (ps : List Placed) : Prop :=
  (∀ p ∈ ps, t.hand p.hid = started f p) ∧ (∀ h, (∀ p ∈ ps, p.hid ≠ h) → t.hand h = s.hand h)
    ∧ (∀ c o, memGet (t.core c).spad o = if inShares ps c o then 0 else memGet (s.core c).spad o)
    ∧ (∀ c r, tabGet 0 (t.core c).acc r = if inWindows ps c r then 0 else tabGet 0 (s.core c).acc r)
    ∧ (∀ c, c < 128 → f.pkt.rentry ≠ 0 → (∃ p ∈ ps, p.hid / 16 = c) →
        (t.reeve c).mode = .u ∧ (t.reeve c).pc = f.pkt.rentry ∧ (t.reeve c).serving = true ∧ (t.reeve c).hfarm = f.id
        ∧ (∀ k, k < 16 → (t.reeve c).hmask.getLsbD k = ps.any fun p => p.hid == c * 16 + k)
        ∧ (t.reeve c).rd 10 = f.pkt.args ∧ (t.reeve c).rd 11 = (t.reeve c).hmask.setWidth 64
        ∧ (t.reeve c).rd 12 = BitVec.ofNat 64 f.id ∧ (t.reeve c).rd 13 = BitVec.ofNat 64 f.pkt.whistle
        ∧ ∀ n, n.toNat < 10 ∨ 13 < n.toNat → (t.reeve c).rd n = (s.reeve c).rd n)
    ∧ (∀ c, f.pkt.rentry = 0 ∨ (∀ p ∈ ps, p.hid / 16 ≠ c) → t.reeve c = s.reeve c)
    ∧ t.mem = s.mem

/-- A run of n units from a on that meets none of the runs in use. -/
def Free (used : List (Nat × Nat)) (total n a : Nat) : Prop :=
  a + n ≤ total ∧ ∀ u ∈ used, n = 0 ∨ u.2 = 0 ∨ a + n ≤ u.1 ∨ u.1 + u.2 ≤ a

/-- What core c offers a farm while the hands of `busy` are taken (R34): its lowest free hand with the lowest free runs. -/
def Offers (busy : List Placed) (k : Packet) (c : Nat) (p : Placed) : Prop :=
  let mine := busy.filter fun q => q.hid / 16 == c
  p.hid / 16 = c ∧ (∀ q ∈ busy, q.hid ≠ p.hid) ∧ (∀ h, h / 16 = c → h < p.hid → ∃ q ∈ busy, q.hid = h)
    ∧ p.spn = k.spkib / 4 ∧ p.accn = k.accrows
    ∧ Free (mine.map fun q => (q.spb, q.spn)) 256 p.spn p.spb ∧ Free (mine.map fun q => (q.accb, q.accn)) 6144 p.accn p.accb
    ∧ (∀ a, Free (mine.map fun q => (q.spb, q.spn)) 256 p.spn a → p.spb ≤ a)
    ∧ ∀ a, Free (mine.map fun q => (q.accb, q.accn)) 6144 p.accn a → p.accb ≤ a

/-- The cores of the pseudocode's cand whose reeve may serve the farm (R34). -/
def Candidate (s : State) (p : Nat) (k : Packet) (c : Nat) : Prop :=
  c < 128 ∧ k.aff.getLsbD c = true ∧ (s.part p).pcore.getLsbD c = true ∧ (k.rentry = 0 ∨ (s.reeve c).serving = false)

/-- Busy hands of core c. -/
def busyOn (busy : List Placed) (c : Nat) : Nat := (busy.filter fun q => q.hid / 16 == c).length

/-- The pseudocode of R34: each hand of ps is what the offering core with the fewest busy hands, ties to the lowest, offers after
those before it; there are hands-min of them at least and the target at most, and fewer than the target only where no core offers. -/
def Follows (s : State) (p : Nat) (k : Packet) (busy ps : List Placed) : Prop :=
  let target := min k.hmax (max k.hmin k.strips)
  k.hmin ≤ ps.length ∧ ps.length ≤ target
    ∧ (∀ pre x post, ps = pre ++ x :: post →
        Candidate s p k (x.hid / 16) ∧ Offers (busy ++ pre) k (x.hid / 16) x
          ∧ ∀ c y, Candidate s p k c → Offers (busy ++ pre) k c y →
            busyOn (busy ++ pre) (x.hid / 16) < busyOn (busy ++ pre) c
              ∨ (busyOn (busy ++ pre) (x.hid / 16) = busyOn (busy ++ pre) c ∧ x.hid / 16 ≤ c))
    ∧ (ps.length < target → ∀ c y, Candidate s p k c → ¬ Offers (busy ++ ps) k c y)

/-- The hands that farms hold on the device: those of placed farms and of farms being pre-empted that have not ended (R43). -/
def heldHands (s : State) : List Placed :=
  (s.farms.filter fun f => decide (f.phase = .placed ∨ f.phase = .preempting)).flatMap fun f =>
    f.hands.filter fun p => !f.gone.contains p.hid

/-- The only farm of its partition that waits, while no farm of the partition is on the resume list, no child packet is queued and
no queue of the partition has a published head. -/
def WaitsAlone (s : State) (f : Farm) : Prop :=
  s.farms.filter (fun g => decide (g.part = f.part ∧ g.phase = .waiting)) = [f] ∧ f.pkt.prio < 8 ∧ f.queue ≤ 4
    ∧ (∀ g ∈ s.farms, g.part = f.part → g.phase ≠ .saved) ∧ (s.part f.part).ccount = 0 ∧ f.part < 16 ∧ f.killed = false
    ∧ (s.farms.map Farm.id).Nodup ∧ (∀ q ∈ [4 * f.part, 4 * f.part + 1, 4 * f.part + 2, 4 * f.part + 3], (s.queue q).pub = none)

/-- A table lists its numbers in rising order. -/
def Rising {α : Type} (t : List (Nat × α)) : Prop := (t.map Prod.fst).Pairwise (· < ·)

/-- Farms with the one of f's id changed. -/
def farmsWith (s : State) (f y : Farm) : List Farm := s.farms.map fun g => if g.id = f.id then y else g

/-- A farm whose record is not written: det is 0, or its partition's ring has no size (R343). -/
def NoRecord (s : State) (f : Farm) : Prop :=
  f.pkt.det = false ∨ (s.part f.part).manb.toNat % 32 = 0 ∨ 16 < (s.part f.part).manb.toNat % 32

/-- The status of a farm: the first that applies (R42). -/
def statusOf (f : Farm) : Nat :=
  if f.frozen then 3 else if f.killed then 2 else if f.abandoned then 1 else if f.remoteErr then 4 else 0

/-- The completion word lies in cacheable DRAM of this device; the transfers of its OR have tokens (R224), and no record of the farm is under
way (R343). -/
def WordAt (s : State) (f : Farm) (pas : List Nat) : Prop :=
  locateIn s f.part f.pkt.done 8 .store = .ok (dramLocs pas) ∧ locateIn s f.part f.pkt.done 8 .load = .ok (dramLocs pas)
    ∧ DramClean s pas ∧ Paid s (.other f.part) (dramLocs pas) ∧ f.record ≠ .sent

/-- Every hand of the farm has ended. -/
def AllGone (f : Farm) : Prop := ∀ p ∈ f.hands, p.hid ∈ f.gone

/-- A farm that has come to its end (R22, R41, R42): it is placed, its reeves are gone, and it ends with status 1, 2 or 3 and every hand
has been stopped, or its count is P. -/
def AtEnd (s : State) (f : Farm) (pas : List Nat) : Prop :=
  f.phase = .placed ∧ f.doneTag = none ∧ f.finished = false ∧ f.reeves = []
    ∧ ((statusOf f ∈ [1, 2, 3] ∧ AllGone f)
      ∨ (statusOf f ∉ [1, 2, 3] ∧ leValue ((pas.map (memGet s.mem)).drop 4) = f.hands.length))

/-- The 128 bytes of a manifest record (Table 20.2); the last digest's bytes are the device's (R344). -/
def manifestBytes (s : State) (f : Farm) (word : Word) : List Byte :=
  let n := (s.part f.part).next.toNat
  leBytes 8 (1 + Config.node * 2 ^ 12 + f.part * 2 ^ 24 + n * 2 ^ 32) ++ leBytes 8 (f.pkt.seq + f.id * 2 ^ 32)
    ++ leBytes 8 f.pkt.seed.toNat ++ leBytes 8 word.toNat ++ shake256 f.pkt.raw ++ leBytes 32 f.pimg.toNat
    ++ shake256 Config.identityBytes

/-- A farm that may be pre-empted and whose records fit into the save area (R37, R38). -/
def Preemptible (s : State) (f : Farm) : Prop :=
  f.phase = .placed ∧ f.frozen = false ∧ f.killed = false ∧ f.live ≠ []
    ∧ (∀ c ∈ f.reeves, (s.reeve c).kwaiting = true ∧ (s.reeve c).hfarm = f.id) ∧ (farmRuns s f).isSome = true

/-- Bytes of the share of a placed hand. -/
def shareBytes (s : State) (p : Placed) : List Byte := memBytes (s.core (p.hid / 16)).spad (4096 * p.spb) (4096 * p.spn)

end Sys2Proof.Spec

section Placer

open Sys2Proof Sys2Proof.Machine Sys2Proof.Spec

/-- R34, R35, R36, R33, R356, Table 2.8: PLACE_FARM with one farm waiting, once stage 3 of the boot has loaded the partitions (log 24); before
that it changes nothing.  Where the pseudocode of R34 finds hands, the farm starts on them;
a farm that could not be placed on an idle device (log 29) ends at once with status 2, its completion word ORed with 5; else
nothing changes. -/
def Obligations.FarmPlacement : Prop :=
  (∀ (s : State) (p : Nat), p < 16 → s.booted 3 = false → exec (.placeFarm p) s = .next s)
  ∧ ∀ (s : State) (f : Farm), WaitsAlone s f → s.booted 3 = true →
    (allocate (idleDevice s) f.part f.pkt ≠ none →
      (∀ ps, allocate s f.part f.pkt = some ps → Follows s f.part f.pkt (heldHands s) ps
        ∧ ∃ t, exec (.placeFarm f.part) s = .next t ∧ Started s t f ps
          ∧ t.farms = farmsWith s f { f with
              phase := .placed, hands := ps, order := s.nextOrder, pimg := (s.part f.part).pimg
              reeves := if f.pkt.rentry = 0 then [] else (List.range 128).filter fun c => ps.any fun p => p.hid / 16 == c })
      ∧ (allocate s f.part f.pkt = none → f.queue ≠ 4 → exec (.placeFarm f.part) s = .next s))
    ∧ (allocate (idleDevice s) f.part f.pkt = none → ∀ pas, WordAt s f pas → NoRecord s f → f.frozen = false → f.hands = [] →
      ∃ t, exec (.placeFarm f.part) s = .next t ∧ t.farms = s.farms.filter (fun g => g.id != f.id) ∧ t.hands = s.hands
        ∧ t.mem = putAll s.mem pas (leBytes 8 (leValue (pas.map (memGet s.mem)) ||| 5)))

/-- R22, R41, R42, R43: SET_DONE of a farm that has come to its end ORs 1 + 2·status into its completion word, here in DRAM of this
device, and the farm is over, or goes with its last hand where another farm's hands have made up its count; a farm with unfinished
reeves or a count short of P changes nothing.  A done word that cannot be written is reported, and the farm is over too; the source and
the sub-code of its black-box entry are the model's (log 54). -/
def Sys2Proof.Spec.FarmEnds : Prop :=
  ∀ (s : State) (f : Farm) (pas : List Nat), s.farm f.id = some f →
    (WordAt s f pas → NoRecord s f → AtEnd s f pas →
      ∃ t, exec (.setDone f.id) s = .next t ∧ t.hands = s.hands
        ∧ (AllGone f → t.farms = s.farms.filter (fun g => g.id != f.id))
        ∧ (¬ AllGone f → t.farms = s.farms.map fun g =>
            if g.id = f.id then { g with finished := true, doneTag := none, reading := false, record := .over } else g)
        ∧ t.mem = putAll s.mem pas (leBytes 8 (leValue (pas.map (memGet s.mem)) ||| (1 + 2 * statusOf f)))
        ∧ ∀ a, a ∉ pas → memGet t.mem a = memGet s.mem a)
    ∧ (WordAt s f pas → ¬ AtEnd s f pas → f.finished = false → f.reading = false → (s.farms.map Farm.id).Nodup →
      exec (.setDone f.id) s = .next s)
    ∧ (f.finished = true → AllGone f →
      ∃ t, exec (.setDone f.id) s = .next t ∧ t.farms = s.farms.filter (fun g => g.id != f.id) ∧ t.mem = s.mem ∧ t.hands = s.hands)
    ∧ (∀ c b a, locateIn s f.part f.pkt.done 8 .store = .fault c b a → NoRecord s f → f.phase = .placed → f.doneTag = none →
      f.finished = false → f.reeves = [] → AllGone f → f.record ≠ .sent →
      ∃ t, exec (.setDone f.id) s = .next t ∧ t.farms = s.farms.filter (fun g => g.id != f.id) ∧ t.mem = s.mem
        ∧ t.reports = s.reports ++ [.doneFailed f.id]
        ∧ t.box.getLast? = some { tick := s.tick, source := 0, part := f.part, sub := 0, event := 0x0F, detail := f.id })

/-- R343, R344, R41: a farm with det = 1 leaves a manifest record in slot next mod 2^lsize of its partition's ring, with the completion
word as written, before done; `ovf` is set where the ring is full; a record that cannot be written is lost, and the farm ends all
the same.  At another node the record is sent, and done waits until that node has replied (R280). -/
def Sys2Proof.Spec.ManifestRecords : Prop :=
  (∀ (s : State) (f : Farm) (pas : List Nat), s.farm f.id = some f → (s.farms.map Farm.id).Nodup → AtEnd s f pas →
    locateIn s f.part f.pkt.done 8 .store = .ok (dramLocs pas) → f.reading = false → f.record = .sent →
    exec (.setDone f.id) s = .next s)
  ∧ ∀ (s : State) (f : Farm) (pas : List Nat), s.farm f.id = some f → WordAt s f pas → AtEnd s f pas → AllGone f → f.pkt.det = true →
    f.record = .due → (∀ g ∈ s.farms, g.part = f.part → g.record ≠ .sent) →
    let x := s.part f.part
    let n := x.manb.toNat % 32
    let word := leValue (pas.map (memGet s.mem)) ||| (1 + 2 * statusOf f)
    let slot := (x.manb >>> 7 <<< 7) + BitVec.ofNat 64 (128 * (x.next.toNat % 2 ^ n))
    1 ≤ n → n ≤ 16 →
    (∀ locs node pa nc, locateIn s f.part slot 128 .store = .ok (.remote node pa nc :: locs) → nodeDead s f.part node = false →
      ∃ t g, exec (.setDone f.id) s = .next t ∧ t.farm f.id = some g ∧ g.record = .sent ∧ t.mem = s.mem ∧ t.parts = s.parts)
    ∧ (∀ qs, locateIn s f.part slot 128 .store = .ok (dramLocs qs) → (∀ a ∈ qs, a ∉ pas) → Paid s (.other f.part) (dramLocs qs) →
      Paid (payFor s (.other f.part) (dramLocs qs)).1 (.other f.part) (dramLocs pas) →
      ∃ t, exec (.setDone f.id) s = .next t ∧ t.farms = s.farms.filter (fun g => g.id != f.id)
        ∧ t.mem = putAll (putAll s.mem qs (manifestBytes s f (BitVec.ofNat 64 word))) pas (leBytes 8 word)
        ∧ (t.part f.part).next = x.next + 1 ∧ (t.part f.part).ovf = (x.ovf || decide (2 ^ n ≤ x.next.toNat))
        ∧ (t.part f.part).lost = x.lost)
    ∧ (∀ c b a, locateIn s f.part slot 128 .store = .fault c b a →
      ∃ t, exec (.setDone f.id) s = .next t ∧ t.farms = s.farms.filter (fun g => g.id != f.id)
        ∧ t.mem = putAll s.mem pas (leBytes 8 word) ∧ (t.part f.part).next = x.next ∧ (t.part f.part).lost = true)

/-- R41, R42, R343, R344: a farm that is done has its completion word and status, and its manifest record. -/
def Obligations.FarmCompletion : Prop := Spec.FarmEnds ∧ Spec.ManifestRecords

/-- R42, R49: FARM_KILL makes every live hand of the farm Off and stops its reeves; the farm has status 2, or 3 where it is frozen, and
no memory changes. -/
def Obligations.FarmKills : Prop :=
  ∀ (s : State) (f : Farm), s.farm f.id = some f → f.phase = .placed → (∀ p ∈ f.hands, (s.hand p.hid).farm = f.id) →
    Rising s.hands →
    ∃ t g, exec (.farmKill f.id) s = .next t ∧ t.farm f.id = some g ∧ g.reeves = [] ∧ (∀ p ∈ f.hands, p.hid ∈ g.gone)
      ∧ statusOf g = (if f.frozen then 3 else 2) ∧ t.mem = s.mem
      ∧ (∀ p ∈ f.live, (t.hand p.hid).st = .off) ∧ (∀ c ∈ f.reeves, (t.reeve c).halted = true ∧ (t.reeve c).kwaiting = false)
      ∧ (∀ h, (s.hand h).farm ≠ f.id → t.hand h = s.hand h) ∧ ∀ c, c ∉ f.reeves → t.reeve c = s.reeve c

/-- R37, R38: a farm that has waited longer than `PQUANT` and still cannot be placed pre-empts a placed farm of lower priority: the placer's
holds pend at its hands, here while they run, and the farm is being pre-empted; without such a farm, within the quantum, or where it can be
placed, nothing changes. -/
def Sys2Proof.Spec.QuantumExpires : Prop :=
  ∀ (s : State) (w f : Farm), WaitsAlone s w → w.id ≠ f.id → f.part = w.part →
    s.farms.filter (fun g => decide (g.part = w.part ∧ g.id ≠ w.id)) = [f] →
    ((s.part w.part).pquant < s.tick - w.since → 0 < (s.part w.part).pquant → allocate s w.part w.pkt = none → Preemptible s f →
      f.pkt.prio < w.pkt.prio →
      (∀ p ∈ f.live, (s.hand p.hid).st = .block ∨ (s.hand p.hid).st = .fetch) →
      ∃ t, exec (.quantumExpiry w.part) s = .next t ∧ t.farms = farmsWith s f { f with phase := .preempting } ∧ t.mem = s.mem
        ∧ ∀ h, t.hand h = if f.live.any (fun p => p.hid == h) then { s.hand h with placed := true } else s.hand h)
    ∧ ((s.part w.part).pquant = 0 ∨ s.tick - w.since ≤ (s.part w.part).pquant ∨ w.pkt.prio ≤ f.pkt.prio
        ∨ allocate s w.part w.pkt ≠ none →
      exec (.quantumExpiry w.part) s = .next s)

/-- R38, R320: PREEMPT_SAVE of a farm with one live hand that the placer holds: its image and then its share are written to the first
run of the empty save area, here in DRAM of this device, and the hand's place is free; FARM_RESUME of it, with its record as saved,
gives the hand back its registers, program counter and share, at its place, in its resume state, Parked, or Held where its reeve or the steward
holds it; the registers and the program counter are those of the device's own record (log 10), and the farm's place in the order is a new
one (log 33).  A farm saved with a frozen reeve is not restored (R332).  Both move their bytes once the transfers have tokens (R224). -/
def Sys2Proof.Spec.PreemptionCycle : Prop :=
  ∀ (s : State) (f : Farm) (p : Placed) (pas : List Nat), s.farms = [f] → f.live = [p] →
    let x := s.part f.part
    let h := p.hid
    (f.phase = .saved → f.frozen = true → exec (.farmResume f.id) s = .next s)
    ∧ (f.phase = .preempting → f.written = false → f.frozen = false → f.killed = false → (∀ o ∈ s.outs, o.who ≠ .unit f.part) →
      (s.hand h).st = .held ∨ (s.hand h).st = .parked → (s.hand h).acc = none → (∀ e ∈ (s.hand h).rq, e.awaiting = none) →
      (s.hand h).sb = [] → (s.hand h).unacked = [] → (s.hand h).dieWrites = [] → (s.hand h).vunacked = [] → (s.hand h).vdieWrites = [] →
      x.saved = [] → 36 + p.spn ≤ x.psaven →
      locateIn s f.part x.psave (4096 * (36 + p.spn)) .store = .ok (dramLocs pas) →
      Paid s (.other f.part) (dramLocs pas) →
      ∃ t key, exec (.preemptSave f.id) s = .next t ∧ t.mem = putAll s.mem pas (imageBytes s h key ++ shareBytes s p)
        ∧ t.farms = [{ f with phase := .saved, written := false, heldAt := none }] ∧ t.hand h = Hand.empty ∧ (∀ g, g ≠ h → t.hand g = s.hand g)
        ∧ (t.part f.part).saved = [(0, 36 + p.spn, f.id)])
    ∧ (∀ r a, f.phase = .saved → f.frozen = false → f.fetched = [] → f.fetching = none → s.lockstep = false → x.saved = [(a, 36 + p.spn, f.id)] → tabFind s.saves (f.id * 2048 + h) = some r →
      Memory.wf (s.core (h / 16)).spad = true →
      locateIn s f.part (x.psave + BitVec.ofNat 64 (4096 * a)) (4096 * (36 + p.spn)) .load = .ok (dramLocs pas) → DramClean s pas →
      Paid s (.other f.part) (dramLocs pas) →
      let bytes := pas.map (memGet s.mem)
      ∃ t, exec (.farmResume f.id) s = .next t ∧ t.mem = s.mem
        ∧ t.farms = [{ f with phase := .placed, order := s.nextOrder, fetched := [], fetching := none, heldAt := none }]
        ∧ (t.hand h).st = (if r.st = .parked then .parked else if r.heldBy.isSome then r.st
            else if r.resume = .block ∧ r.pc.toNat = r.blk + 64 then .idle else r.resume.toState) ∧ (t.hand h).s = r.s ∧ (t.hand h).pc = r.pc
        ∧ (∀ n, n < 32 → ((t.hand h).vrd (BitVec.ofNat 5 n)).toNat = leValue ((bytes.drop (1024 * n)).take 1024))
        ∧ (∀ i, i < 4096 * p.spn → memGet (t.core (h / 16)).spad (4096 * p.spb + i) = bytes.getD (imageBytesCount + i) 0)
        ∧ ∀ g, g ≠ h → t.hand g = s.hand g)

/-- R37, R38, R320: the expiry of a quantum, the save of a pre-empted farm and its return. -/
def Obligations.Preemption : Prop := Spec.QuantumExpires ∧ Spec.PreemptionCycle

end Placer


/-! # Events of a hand -/

namespace Sys2Proof.Spec

open Sys2Proof.Machine

/-- The safe points of a hand (R50): at once in Idle, Wait, Held and Parked; between instructions in Fetch; at a waiting `end` in
Block. -/
def Safe (x : Hand) : Prop :=
  x.st = .idle ∨ x.st = .wait ∨ x.st = .held ∨ x.st = .parked
    ∨ (x.st = .fetch ∧ x.acc = none ∧ x.pfault = none ∧ x.migHold = none ∧ x.fencing = false)
    ∨ (x.st = .block ∧ x.ending = true ∧ x.acc = none ∧ x.pfault = none ∧ x.migHold = none)

/-- Where the drain of R64 ends: nothing dispatched is left, or a pass before one of its stages, a `vwait` or a `wfin` is the oldest, and no
element is held by a migrating page (R185, R217, R335). -/
def DrainEnds (x : Hand) : Prop :=
  ∀ e es, x.rq = e :: es → ((e.kind = .pass ∧ e.stages < e.fw.toNat % 16) ∨ e.kind = .vwait ∨ e.kind = .wfin) ∧ ∀ f ∈ x.rq, f.heldAt = []

/-- Hand h has entered Held for whoever asked for it (R64, R48, R245): its registers and queues stay, an arrival is withdrawn, its
reservations go; nothing else changes but its core's window. -/
def EntersHeld (s t : State) (h : Nat) : Prop :=
  let x := s.hand h
  let y := t.hand h
  y.st = .held ∧ y.heldBy = x.holdReq ∧ y.placed = x.placed ∧ y.holdReq = none ∧ y.draining = false ∧ y.resume = x.resumeNow
    ∧ y.waiting = none ∧ y.arrived = none
    ∧ y.pc = x.pc ∧ y.s = x.s ∧ y.v = x.v ∧ y.lastd = x.lastd ∧ y.fflags = x.fflags ∧ y.vtype = x.vtype ∧ y.q = x.q
    ∧ y.rq.length = x.rq.length ∧ y.linkW = x.linkW ∧ y.linkE = x.linkE
    ∧ y.frame.cls = 2 ∧ y.frame.apc = x.pc ∧ y.frame.replay = x.rq.length
    ∧ t.mem = s.mem ∧ (∀ g, (h, g) ∉ t.resv) ∧ ∀ g, g ≠ h → t.hand g = s.hand g

/-- A hold pends: its reeve's, the steward's or the placer's (R63, R328, R38). -/
def HoldPends (x : Hand) : Prop := x.holdReq ≠ none ∨ x.placed = true

/-- The 64-byte block that holds an address. -/
def blockOf (a : Word) : Nat := a.toNat / 64 * 64

/-- A hand in Fetch whose program counter has left its current block (R67). -/
def LacksBlock (x : Hand) : Prop := x.st = .fetch ∧ x.acc = none ∧ ∀ b, x.cur = some b → b.base ≠ blockOf x.pc

/-- The core's hand instruction cache holds no block at a place. -/
def NotCached (s : State) (h pa : Nat) : Prop := tabFind (s.core (h / 16)).icache (pa / 64) = none

/-- The block buffer of the block at base. -/
def buffer (base : Nat) (bytes : List Byte) : Buf := { base := base, bytes := bytes, failed := none }

/-- The block buffer of a block at base whose fetch has failed (R67). -/
def failedBuffer (base sub : Nat) : Buf := { base := base, bytes := [], failed := some sub }

/-- t is s with hand h as given; no byte of memory and no other hand has changed. -/
def OnlyHand (s t : State) (h : Nat) (y : Hand) : Prop := t.hand h = y ∧ t.mem = s.mem ∧ ∀ g, g ≠ h → t.hand g = s.hand g

/-- A block fetch of the block at base by hand h: i makes it, and `put` is the hand with a buffer that holds it (R67, R69).  The block
is translated every time.  A block of cacheable memory that the core's hand instruction cache lacks comes from memory, and the cache
then holds it; of one that the cache holds, each byte is the cache's or memory's (R71).  That the cache is keyed by the place of the block's
first byte and keeps blocks of cacheable local DRAM alone is the model's choice (log 9). -/
def Fetches (s : State) (h base : Nat) (i : Instr) (put : Buf → Hand) : Prop :=
  let done := fun b => walkedOf (put b) (BitVec.ofNat 64 base) 64 .fetch
  (∀ c sub a, locate s h (BitVec.ofNat 64 base) 64 .fetch true = .fault c sub a →
      exec i s = .next (s.setHand h (put (failedBuffer base sub))))
  ∧ ∀ pa pas, locate s h (BitVec.ofNat 64 base) 64 .fetch true = .ok (dramLocs (pa :: pas)) →
    (NotCached s h pa → DramClean s (pa :: pas) → Paid s (.hand h) (dramLocs (pa :: pas)) →
      ∃ t, exec i s = .next t ∧ OnlyHand s t h (done (buffer base ((pa :: pas).map (memGet s.mem))))
        ∧ tabFind (t.core (h / 16)).icache (pa / 64) = some ((pa :: pas).map (memGet s.mem)))
    ∧ (∀ line, tabFind (s.core (h / 16)).icache (pa / 64) = some line →
      (2 * (pa / 64) ∈ (s.core (h / 16)).ipoison ∨ 2 * (pa / 64) + 1 ∈ (s.core (h / 16)).ipoison →
        ∃ t, exec i s = .next t ∧ OnlyHand s t h (done (failedBuffer base 0)))
      ∧ (2 * (pa / 64) ∉ (s.core (h / 16)).ipoison → 2 * (pa / 64) + 1 ∉ (s.core (h / 16)).ipoison →
        ∃ t bytes, exec i s = .next t ∧ OnlyHand s t h (done (buffer base bytes)) ∧ bytes.length = 64
          ∧ ∀ j, j < 64 → j < (pa :: pas).length →
              bytes.getD j 0 = line.getD j 0 ∨ bytes.getD j 0 = memGet s.mem ((pa :: pas).getD j 0)))

end Sys2Proof.Spec

section HandEvents

open Sys2Proof Sys2Proof.Machine Sys2Proof.Spec

/-- R50, R63, R64, R56: a hold that pends takes effect at a safe point, where the drain starts, and the hand is Held when the drain
ends; a stop takes effect at a safe point too, and an abandoned hand goes Off when its work is done.  Neither enters a Block hand
that does not wait at an `end`. -/
def Obligations.HoldsAndStops : Prop :=
  ∀ (s : State) (h : Nat), h < 2048 →
    let x := s.hand h
    (HoldPends x → x.stopReq = none → x.draining = false → x.retq = [] → Safe x → x.st ≠ .parked → x.st ≠ .held →
      (DrainEnds x → ∃ t, exec (.holdSafePoint h) s = .next t ∧ EntersHeld s t h)
      ∧ (¬ DrainEnds x → exec (.holdSafePoint h) s = .next (s.setHand h { x with draining := true, arrived := none })))
    ∧ (HoldPends x → x.draining = true → x.retq = [] →
      (DrainEnds x → ∃ t, exec (.heldEntry h) s = .next t ∧ EntersHeld s t h)
      ∧ (¬ DrainEnds x → exec (.heldEntry h) s = .next s))
    ∧ (¬ HoldPends x → exec (.holdSafePoint h) s = .next s)
    ∧ (x.draining = false → exec (.heldEntry h) s = .next s)
    ∧ (x.stopReq = some false → x.leaving = false → Safe x → exec (.stopTakesEffect h) s = .next (s.setHand h (stoppedHand x)))
    ∧ (x.st = .block → x.ending = false → exec (.holdSafePoint h) s = .next s ∧ exec (.stopTakesEffect h) s = .next s)
    ∧ (x.leaving = true → x.st = .idle → x.rq = [] → x.sb = [] → x.unacked = [] → x.dieWrites = [] → x.vunacked = [] →
      x.vdieWrites = [] →
      ∃ t, exec (.abandonOff h) s = .next t ∧ (t.hand h).st = .off ∧ t.mem = s.mem
        ∧ ∀ f, s.farm x.farm = some f → ∃ g, t.farm x.farm = some g ∧ g.abandoned = true ∧ h ∈ g.gone)
    ∧ (x.leaving = false → exec (.abandonOff h) s = .next s)

/-- R49, R51, R70, R72, R74: a hand in Wait goes on after its instruction once its condition holds, with the result of a `wfe` or
`lnk.get` and the value of a `lnk.put` delivered; until then nothing changes.  A hand whose hold has taken effect stays (R64). -/
def Obligations.WaitsEnd : Prop :=
  ∀ (s : State) (h : Nat), h < 2048 → (s.hand h).st = .wait →
    let x := s.hand h
    (x.draining = true → exec (.waitConditionMet h) s = .next s)
    ∧ (x.draining = false → x.stopReq = none → x.holdReq = none → x.placed = false →
    (∀ d, x.waiting = some (.wfe d) → exec (.waitConditionMet h) s
      = .next (if x.evt = 0 then s else s.setHand h (passed (putReg { x with evt := 0 } d x.evt))))
    ∧ (∀ c, x.waiting = some (.yield c) → ∀ i ∈ [Instr.waitConditionMet h, .yieldExpiry h],
        exec i s = .next (if 64 ≤ ((s.core (h / 16)).cyc - c).toNat then s.setHand h (passed x) else s))
    ∧ (∀ d west, x.waiting = some (.lnkGet d west) →
        ((if west then x.linkW else x.linkE) = [] → exec (.waitConditionMet h) s = .next s)
        ∧ (∀ v rest, west = true → x.linkW = v :: rest → exec (.waitConditionMet h) s
            = .next (s.setHand h (passed { setReg x d v with linkW := rest })))
        ∧ ∀ v rest, west = false → x.linkE = v :: rest → exec (.waitConditionMet h) s
            = .next (s.setHand h (passed { setReg x d v with linkE := rest })))
    ∧ (∀ east v, x.waiting = some (.lnkPut east v) →
        let n := ring h east
        ((s.hand n).farm = x.farm → (s.hand n).st ≠ .off → 4 ≤ (inbound (s.hand n) east).length →
          exec (.waitConditionMet h) s = .next s)
        ∧ ((s.hand n).farm = x.farm → (s.hand n).st ≠ .off → (inbound (s.hand n) east).length < 4 →
          exec (.waitConditionMet h) s = .next ((s.setHand n (withInbound (s.hand n) east v)).setHand h (passed x)))
        ∧ ((s.hand n).st = .off ∨ (s.hand n).farm ≠ x.farm → exec (.waitConditionMet h) s = .next (s.setHand h (passed x)))))

/-- R67, R69, R71: the block of a Fetch hand whose program counter has left its buffer: the buffers swap where the next one holds it, or
holds it as failed; else the block is fetched into the current buffer.  NEXT_BUFFER_FILL fetches the block that `bfetch` has named into the
next buffer.  A hand that needs no block stays as it is.  How the cache is keyed and what it keeps is log 9. -/
def Sys2Proof.Spec.BlockFetches : Prop :=
  ∀ (s : State) (h : Nat), h < 2048 → (s.hand h).sb = [] →
    let x := s.hand h
    let base := blockOf x.pc
    (LacksBlock x → ∀ b, x.nxt = some b → b.base = base → (b.bytes ≠ [] ∨ b.failed ≠ none) →
      exec (.blockFetchArrival h) s = .next (s.setHand h { x with cur := x.nxt, nxt := x.cur }))
    ∧ (LacksBlock x → (∀ b, x.nxt = some b → b.base ≠ base ∨ (b.bytes = [] ∧ b.failed = none)) →
      Fetches s h base (.blockFetchArrival h) fun b => { x with cur := some b, migHold := none })
    ∧ (x.st ≠ .fetch → exec (.blockFetchArrival h) s = .next s)
    ∧ (∀ n, x.nxt = some (buffer n []) → x.nacc = none → Fetches s h n (.nextBufferFill h) fun b => { x with nxt := some b })
    ∧ (x.nxt = none → exec (.nextBufferFill h) s = .next s)

/-- R67, R69, R71: `bfetch`, and the arrival of a block in the current and the next buffer. -/
def Obligations.BlockBuffers : Prop := Spec.BlockPrefetch ∧ Spec.BlockFetches

end HandEvents


/-! # The execute stream -/

namespace Sys2Proof.Spec

open Sys2Proof.Machine

/-- Slot p of the group at a register, of fields of sew bits (R147). -/
def slotVal (x : Hand) (base : Reg) (sew p : Nat) : Nat :=
  (x.vrd (base + BitVec.ofNat 5 (p / (8192 / sew)))).toNat / 2 ^ (p % (8192 / sew) * sew) % 2 ^ sew

/-- An integer element operation on n bits, signed for I formats, unsigned for N formats (Table 7.9, R163). -/
def intElem {n : Nat} (o : EwOp) (signed : Bool) (a b : BitVec n) : Option (BitVec n) :=
  match o with
  | .add => some (a + b)
  | .sub => some (a - b)
  | .rsub => some (b - a)
  | .mul => some (a * b)
  | .mulh => some (BitVec.ofInt n (a.toInt * b.toInt / 2 ^ n))
  | .mulhn => some (BitVec.ofNat n (a.toNat * b.toNat / 2 ^ n))
  | .min => some (if (if signed then decide (a.toInt < b.toInt) else decide (a.toNat < b.toNat)) then a else b)
  | .max => some (if (if signed then decide (a.toInt < b.toInt) else decide (a.toNat < b.toNat)) then b else a)
  | .and => some (a &&& b)
  | .or => some (a ||| b)
  | .xor => some (a ^^^ b)
  | .sll => some (a <<< (b.toNat % n))
  | .srl => some (a >>> (b.toNat % n))
  | .sra => some (a.sshiftRight (b.toNat % n))
  | _ => none

/-- The element index of slot p of a captured tile, if it is present (R148). -/
def presentAt (e : Entry) (p : Nat) : Option Nat :=
  let vlrow := 1024 / (8 * 2 ^ (e.vtype.toNat % 4))
  let row := p / vlrow
  let col := p % vlrow
  if row < e.rc.toNat ∧ col < e.vl.toNat ∧ (row + 1 < e.rc.toNat ∨ col < e.vt.toNat) then some (row * e.vl.toNat + col) else none

/-- Slot p of a destination after an integer instruction (R150): kept below `vstart`, the result where the element is active, kept or 0
by mp where it is not, kept or 0 by tp where no element is present. -/
def slotAfter (x : Hand) (e : Entry) (o : EwOp) (signed : Bool) (p : Nat) : Nat :=
  let n := 8 * 2 ^ (e.vtype.toNat % 4)
  let old := slotVal x e.d n p
  match presentAt e p with
  | none => if e.vtype.getLsbD 4 then 0 else old
  | some i =>
    if i < e.vstart.toNat then old
    else if e.m = 0 ∨ (x.vrd (e.m.setWidth 5)).getLsbD p = true then
      let b := match e.src with
        | .reg r => slotVal x r n p
        | .val v => v.toNat % 2 ^ n
      ((intElem o signed (BitVec.ofNat n (slotVal x e.a n p)) (BitVec.ofNat n b)).getD 0).toNat
    else if e.vtype.getLsbD 5 then 0 else old

/-- The format code of the I (signed) or N format of a width (Table 6.1). -/
def intCode (signed : Bool) (n : Nat) : Nat := (if signed then 0 else 4) + Nat.log2 (n / 8)

/-- The oldest dispatched instruction of a hand is complete and can retire, and nothing younger begins because of it (R158). -/
def Retires (s : State) (h : Nat) (e : Entry) (es : List Entry) : Prop :=
  let x := s.hand h
  x.rq = e :: es ∧ x.st ≠ .held ∧ x.st ≠ .parked ∧ x.st ≠ .frozen ∧ x.st ≠ .off ∧ e.taken = true ∧ e.fault = none ∧ e.dispute = none
    ∧ opsOf e ≤ e.written ∧ x.copies = [] ∧ x.chunks = [] ∧ s.lockstep = false ∧ x.draining = false ∧ x.leaving = false
    ∧ ∀ f ∈ es, f.kind ≠ .pass

/-- No vector register of hand h, byte of its B latch or row of its core's accumulator store carries an uncorrectable error (R325). -/
def Sound (s : State) (h : Nat) : Prop := (s.hand h).vpoison = [] ∧ (s.hand h).lpoison = [] ∧ (s.core (h / 16)).apoison = []

/-- A micro-op that has entered the window. -/
def entered (h : Nat) (e : Entry) (row : Nat) : MicroOp :=
  { hand := h, age := e.age, row := row, ready := none, unit := none, done := 0 }

/-- Only hand h of core c has dispatched instructions, and the one instruction is e. -/
def OnlyEntry (s : State) (c h : Nat) (e : Entry) : Prop :=
  c < 128 ∧ h / 16 = c ∧ (s.hand h).rq = [e] ∧ ∀ k, k < 16 → c * 16 + k ≠ h → (s.hand (c * 16 + k)).rq = []

/-- Occupancy and latency of the micro-op of row r of an integer element-wise instruction; past `rc` it is a fill (Table 7.4). -/
def integerCost (e : Entry) (o : EwOp) (r : Nat) : Nat × Nat :=
  let sew := 8 * 2 ^ (e.vtype.toNat % 4)
  if e.rc.toNat ≤ r then (1, 2)
  else if o = .mul ∨ o = .mulh ∨ o = .mulhn then (1, 5)
  else if o = .div ∨ o = .rem then (if sew = 64 then (16, 20) else (8, 12)) else (1, 2)

/-- The tile set to a count (R199). -/
def counted (x : Hand) (c : Nat) : Hand :=
  let rc := (c + x.vl.toNat - 1) / x.vl.toNat
  if c = 0 then { x with rc := 0, vt := 1 }
  else { x with rc := BitVec.ofNat 64 rc, vt := BitVec.ofNat 64 (c - (rc - 1) * x.vl.toNat) }

/-- A hand whose next instruction is the branch i: it can decode the instruction at its program counter, whose bytes are those of i. -/
def AtBranch (x : Hand) (i : Instr) : Prop :=
  (x.st = .block ∨ x.st = .fetch) ∧ x.pfault = none ∧ x.draining = false ∧ x.acc = none ∧ x.stopReq = none ∧ x.holdReq = none
    ∧ x.placed = false ∧ (∀ e ∈ x.rq, e.fault = none)
    ∧ ∃ b rest, x.cur = some b ∧ (x.st = .fetch → b.base = blockOf x.pc) ∧ b.failed = none
      ∧ b.bytes.drop (x.pc.toNat % 64) = (encode i).bytes ++ rest

end Sys2Proof.Spec

section ExecuteStream

open Sys2Proof Sys2Proof.Machine Sys2Proof.Spec

/-- R150, R158, R163, Table 7.9: an element-wise integer instruction retires: every slot of its destination group is written by R150
with the result of its operation, every other vector register, the scalar registers, the flags and memory stay. -/
def Obligations.IntegerElements : Prop :=
  ∀ (s : State) (h : Nat) (e : Entry) (es : List Entry) (o : EwOp) (signed : Bool), h < 2048 → Retires s h e es → Sound s h → e.kind = .ew o →
    let n := 8 * 2 ^ (e.vtype.toNat % 4)
    let g := 2 ^ (e.vtype.toNat / 4 % 4)
    (intElem (n := n) o signed 0 0).isSome = true → (formatWord e.fw).fa = intCode signed n → e.first = e.vstart.toNat →
    e.d.toNat % g = 0 → e.a.toNat % g = 0 → (∀ r, e.src = .reg r → r.toNat % g = 0) →
    ∃ t, exec (.retire h) s = .next t ∧ (t.hand h).rq = es ∧ (t.hand h).retq = (s.hand h).retq
      ∧ (∀ p, p < 8 * g * (1024 / n) → slotVal (t.hand h) e.d n p = slotAfter (s.hand h) e o signed p)
      ∧ (∀ r : Reg, r.toNat < e.d.toNat ∨ e.d.toNat + g ≤ r.toNat → (t.hand h).vrd r = (s.hand h).vrd r)
      ∧ (t.hand h).s = (s.hand h).s ∧ (t.hand h).fflags = (s.hand h).fflags ∧ (t.hand h).pc = (s.hand h).pc ∧ t.mem = s.mem
      ∧ ∀ k, k ≠ h → t.hand k = s.hand k

/-- R152 to R157: with one instruction on a core: RENAME takes it and its micro-ops enter the window, up to the hand's share of 66;
MICRO_OP_ISSUE issues a ready micro-op to the lowest free lane cluster at the costs of Table 7.4 (the core's lane cycle goes on);
MICRO_OP_STARVED issues one that has waited 256 lane cycles; ROW_WRITTEN writes the row of an issued one past its latency, so that a consumer
can issue in the lane cycle that is the latency after its issue.  That each MICRO_OP_ISSUE is one lane cycle and MICRO_OP_STARVED none is the
model's choice (log 20). -/
def Obligations.Pipeline : Prop :=
  ∀ (s : State) (c h : Nat) (e : Entry), OnlyEntry s c h e →
    let k := s.core c
    (e.taken = false → e.renamed = 0 → k.win = [] → (s.hand h).st = .block ∨ (s.hand h).st = .fetch →
      ∃ t, exec (.rename c) s = .next t ∧ t.mem = s.mem
        ∧ (t.hand h).rq = [{ e with taken := true, came := k.came, renamed := min (opsOf e) 66 }]
        ∧ (t.core c).win = (List.range (min (opsOf e) 66)).map (entered h e) ∧ (t.core c).rr = (h % 16 + 1) % 16)
    ∧ (∀ o m, e.kind = .ew o → isF (formatWord e.fw).fa = false → k.win = [m] → m.hand = h → m.age = e.age → m.row < opsOf e →
      m.unit = none → k.fouls.bench = [] → (∀ u, tabGet 0 k.busy u ≤ k.lane) →
      let cost := integerCost e o m.row
      (∃ t, exec (.microOpIssue c) s = .next t ∧ t.hands = s.hands ∧ t.core c = { k with
          lane := k.lane + 1
          win := [{ m with ready := some (m.ready.getD (k.lane + 1)), unit := some 0, done := k.lane + 1 + cost.2 }]
          busy := tabSet k.busy 0 (k.lane + 1 + cost.1) })
      ∧ (∀ r, m.ready = some r → r + 256 ≤ k.lane →
        ∃ t, exec (.microOpStarved c) s = .next t ∧ t.hands = s.hands ∧ t.core c = { k with
          win := [{ m with unit := some 0, done := k.lane + cost.2 }]
          busy := tabSet k.busy 0 (k.lane + cost.1) })
      ∧ (∀ r, m.ready = some r → k.lane < r + 256 →
        ∃ t, exec (.microOpStarved c) s = .next t ∧ t.hands = s.hands ∧ t.core c = k))
    ∧ (∀ m u, k.win = [m] → m.hand = h → m.age = e.age → m.unit = some u → e.taken = true → e.renamed = opsOf e → e.kind ≠ .pass →
      (m.done ≤ k.lane + 1 → ∃ t, exec (.rowWritten c 0) s = .next t ∧ t.core c = { k with win := [] }
        ∧ (t.hand h).rq = [{ e with written := e.written + 1 }] ∧ t.mem = s.mem)
      ∧ (k.lane + 1 < m.done → exec (.rowWritten c 0) s = .next s))

/-- R103, R199, R104, R117: the oldest value of the return queue reaches its scalar register, or sets the tile to its count; a branch whose
comparison has come back is decided as the branch at the hand's program counter: control goes to its target or on. -/
def Obligations.Returns : Prop :=
  ∀ (s : State) (h : Nat), h < 2048 →
    let x := s.hand h
    (∀ d v rest, x.retq = { d := some d, v := v, count := none } :: rest →
      exec (.returnQueueWrite h) s = .next (s.setHand h (putReg { x with retq := rest } d v)))
    ∧ (∀ v c rest, x.retq = { d := none, v := v, count := some c } :: rest →
      exec (.returnQueueWrite h) s = .next (s.setHand h (counted { x with retq := rest } c)))
    ∧ (x.retq = [] → exec (.returnQueueWrite h) s = .next s)
    ∧ ∀ i, (branchOp x i).isSome = true → AtBranch x i →
      exec (.branchQueueOutcome h) s = exec i { s with curHand := h }
      ∧ ∀ j, branchOp x i = some j → Ready { s with curHand := h } j.regs →
        exec (.branchQueueOutcome h) s
          = .next ({ s with curHand := h }.setHand h (if j.taken then jumped x j.target else stepped x j.len))

end ExecuteStream


/-! # The VMU, copies and waits -/

namespace Sys2Proof.Spec

open Sys2Proof.Machine

/-- A hand whose execute stream works, with a memory instruction e as its only dispatched one, that nothing keeps from its next
element: its writes are acknowledged (R232, R233), no active copy has its destination (R248), no `fence.rel` marks it (R282), and no
register byte is in error (R325); its engines move by events (log 2). -/
def AtElement (s : State) (h : Nat) (e : Entry) : Prop :=
  let x := s.hand h
  h < 2048 ∧ x.rq = [e] ∧ x.st ≠ .held ∧ x.st ≠ .parked ∧ x.st ≠ .frozen ∧ x.st ≠ .off ∧ e.fault = none ∧ e.awaiting = none
    ∧ e.torn = [] ∧ x.vunacked = [] ∧ x.vdieWrites = [] ∧ (∀ p ∈ x.copies, p.2.d.toNat ∉ writesOf e) ∧ x.marks = []
    ∧ x.vpoison = [] ∧ s.lockstep = false

/-- Bytes of an element of a captured tile. -/
def elemLen (e : Entry) : Nat := 2 ^ (e.vtype.toNat % 4)

/-- The slot of element k (Table 0.2). -/
def slotOf (e : Entry) (k : Nat) : Nat := k / e.vl.toNat * (1024 / (8 * 2 ^ (e.vtype.toNat % 4))) + k % e.vl.toNat

/-- Element k is active under the instruction's mask (R149). -/
def activeElem (x : Hand) (e : Entry) (k : Nat) : Bool := decide (e.m = 0) || (x.vrd (e.m.setWidth 5)).getLsbD (slotOf e k)

/-- Present elements of a captured tile. -/
def tileElems (e : Entry) : Nat := present e.vl.toNat e.rc.toNat e.vt.toNat

/-- The entry after one more element, with its value. -/
def oneMore (e : Entry) (v : Nat) : Entry :=
  { e with first := e.first + 1, acc := BitVec.ofNat 64 v :: e.acc, offs := none, heldAt := tabDel e.heldAt e.first, awaiting := none }

/-- The entry after an element that the mask leaves out. -/
def leftOut (e : Entry) : Entry := { e with first := e.first + 1, acc := 0 :: e.acc, skipped := e.skipped ||| (1#8192 <<< e.first) }

/-- The entry with a fault to take at its next element (R315). -/
def faulted (e : Entry) (cause sub : Nat) (a : Word) : Entry :=
  { e with fault := some (cause, sub, a, e.first), awaiting := none, offs := none, torn := [] }

/-- Hand h has one dispatched instruction, f, and is otherwise as before, but for the pages that its next accesses walk for (R217, R218). -/
def EntryIs (s t : State) (h : Nat) (f : Entry) : Prop :=
  t.hand h = { s.hand h with rq := [f], walks := (t.hand h).walks } ∧ ∀ g, g ≠ h → t.hand g = s.hand g

/-- A hand with the one copy c in slot sl, otherwise as before, but for the pages that its next accesses walk for. -/
def CopyIs (x y : Hand) (sl : Nat) (c : Copy) : Prop := y = { x with copies := [(sl, c)], walks := y.walks }

/-- The page of a hand's held scalar access still migrates, as a walk finds it (R217). -/
def Migrates (s : State) (h : Nat) (m : MigHold) : Prop :=
  handXlat s h m.addr.toNat (if m.cause = 0x06 then .load else .store) = .hold

/-- The address of element k of a unit-stride form (R231). -/
def unitAddr (e : Entry) (k : Nat) : Word := e.sa + BitVec.ofNat 64 (k * elemLen e)

/-- The `cyc` of the first read of a wait that reads now. -/
def firstRead (s : State) (h : Nat) (e : Entry) : Word := e.since.getD (s.core (h / 16)).cyc

/-- T scalar cycles have passed since the first read, and T is not 0 (R250, R303). -/
def Over (s : State) (h : Nat) (e : Entry) (T : Word) : Prop :=
  T ≠ 0 ∧ T.toNat ≤ ((s.core (h / 16)).cyc - firstRead s h e).toNat

/-- Every write that hand h has sent or buffered has performed and is acknowledged. -/
def AllPerformed (x : Hand) : Prop :=
  x.sb = [] ∧ x.unacked = [] ∧ x.dieWrites = [] ∧ x.vunacked = [] ∧ x.vdieWrites = []

/-- Some bytes, not none, of a list of places are as memory has them: numbers of the bytes and what was read (R276). -/
def ReadOf (m : Memory) (pas : List Nat) (got : Table Byte) : Prop :=
  ∀ q ∈ got, q.1 < pas.length ∧ q.2 = memGet m (pas.getD q.1 0)

/-- The copy in slot sl of a hand with chunk k, bit p, done: its bit is set, and a copy without a chunk left has gone. -/
def BitSet (x y : Hand) (sl k p : Nat) (c : Copy) (rest : List (Nat × Nat)) : Prop :=
  y.copies = (if rest = [] then [] else [(sl, { c with left := rest, flight := [], heldAt := tabDel c.heldAt k })])
    ∧ (∀ r, y.vrd r = if r = c.d then x.vrd r ||| (1#8192 <<< p) else x.vrd r) ∧ y.s = x.s ∧ y.rq = x.rq ∧ y.pc = x.pc

end Sys2Proof.Spec

section Vmu

open Sys2Proof Sys2Proof.Machine Sys2Proof.Spec

/-- R230, R231, R149, R224, R276: ELEMENT_PERFORM does the next element of a unit-stride load or store, here in DRAM of this device: an
inactive one accesses nothing; a load takes its bytes; a store writes the bytes of its slot; a failed check is noted with the element's
number; without tokens nothing happens to it.  A misaligned one goes byte by byte: some of its bytes are read (log 56, DEDUCED), but in lockstep
all at once (log 2, DESIGN CHOICE). -/
def Sys2Proof.Spec.ElementsPerform : Prop :=
  ∀ (s : State) (h : Nat) (e : Entry), AtElement s h e → e.kind = .load .unit ∨ e.kind = .store .unit false →
    e.first < tileElems e → e.d.toNat % 2 ^ (e.vtype.toNat / 4 % 4) = 0 → e.vl.toNat ≤ 1024 / (8 * elemLen e) →
    e.rc.toNat ≤ 8 * 2 ^ (e.vtype.toNat / 4 % 4) → e.vt.toNat ≤ e.vl.toNat →
    let a := unitAddr e e.first
    let t := if e.kind = .load .unit then AccType.load else .store
    (activeElem (s.hand h) e e.first = false →
      ∃ u, exec (.elementPerform h) s = .next u ∧ EntryIs s u h (leftOut e) ∧ u.mem = s.mem)
    ∧ (activeElem (s.hand h) e e.first = true →
      (∀ pas, locate s h a (elemLen e) t true = .ok (dramLocs pas) → DramClean s pas → Paid s (.vmu h) (dramLocs pas) →
        (a.toNat % elemLen e = 0 → e.kind = .load .unit → ∃ u, exec (.elementPerform h) s = .next u ∧ u.mem = s.mem
          ∧ EntryIs s u h (oneMore e (leValue (pas.map (memGet s.mem)))))
        ∧ (a.toNat % elemLen e = 0 → e.kind = .store .unit false → ∃ u, exec (.elementPerform h) s = .next u ∧ EntryIs s u h (oneMore e 0)
          ∧ u.mem = putAll s.mem pas (leBytes (elemLen e) (slotVal (s.hand h) e.d (8 * elemLen e) (slotOf e e.first))))
        ∧ (a.toNat % elemLen e ≠ 0 → e.kind = .load .unit → ∃ u got, exec (.elementPerform h) s = .next u ∧ u.mem = s.mem ∧ got ≠ []
          ∧ ReadOf s.mem pas got
          ∧ EntryIs s u h (if got.length = pas.length then oneMore e (leValue (got.map Prod.snd)) else { e with torn := got })))
      ∧ (∀ pas, locate s h a (elemLen e) t true = .ok (dramLocs pas) → ¬ Paid s (.vmu h) (dramLocs pas) →
        ∃ u, exec (.elementPerform h) s = .next u ∧ u.hands = s.hands ∧ u.mem = s.mem)
      ∧ ∀ c sub ad, locate s h a (elemLen e) t true = .fault c sub ad →
        ∃ u, exec (.elementPerform h) s = .next u ∧ u.mem = s.mem ∧ EntryIs s u h (faulted e c sub ad))

/-- R217: an element that finds its page migrating is held; it is asked for again by a walk, proceeds once the page has moved, and faults with
sub-status 5 after 200,000 reference ticks of its core group where the page still migrates; a held scalar access faults so too, and a held
block fetch leaves its buffer marked failed.  Where the page has moved, the access goes on instead. -/
def Obligations.MigrationHolds : Prop :=
  (∀ (s : State) (h : Nat) (e : Entry), AtElement s h e → e.kind = .load .unit → e.first < tileElems e →
    activeElem (s.hand h) e e.first = true → (s.hand h).copies = [] → e.vl.toNat ≤ 1024 / (8 * elemLen e) → (s.hand h).migHold = none →
    ∀ i ∈ [Instr.migrationRewalk h, .migrationHoldTimeout h],
      (∀ pas, locate s h (unitAddr e e.first) (elemLen e) .load true = .ok (dramLocs pas) → DramClean s pas →
        Paid s (.vmu h) (dramLocs pas) → (unitAddr e e.first).toNat % elemLen e = 0 →
        ∃ u, exec i s = .next u ∧ u.mem = s.mem ∧ EntryIs s u h (oneMore e (leValue (pas.map (memGet s.mem)))))
      ∧ ∀ ad, locate s h (unitAddr e e.first) (elemLen e) .load true = .hold ad →
        let now := s.coreTick (h / 16)
        let since := (tabFind e.heldAt e.first).getD now
        let held : Entry := { e with heldAt := tabSet e.heldAt e.first since }
        (now - since < 200000 → ∃ u, exec i s = .next u ∧ EntryIs s u h held ∧ u.mem = s.mem
            ∧ (ad.toNat / 4096, 0x06) ∈ (u.hand h).walks)
        ∧ (200000 ≤ now - since → ∃ u, exec i s = .next u ∧ u.mem = s.mem ∧ EntryIs s u h (faulted held 0x06 5 ad)))
  ∧ ∀ (s : State) (h : Nat) (m : MigHold), h < 2048 → (s.hand h).migHold = some m →
    (s.coreTick (h / 16) - m.since < 200000 → exec (.migrationHoldTimeout h) s = .next s)
    ∧ (200000 ≤ s.coreTick (h / 16) - m.since →
      ((m.cause = 0x06 ∨ m.cause = 0x07) → (¬ Migrates s h m → exec (.migrationHoldTimeout h) s = .next s)
        ∧ (Migrates s h m → s.curHand = h → Clear s → s.me.stopReq = none → s.me.fencing = false →
          ∃ t, exec (.migrationHoldTimeout h) s = .next t ∧ ParkedWith s t m.cause 5 m.addr s.me.pc))
      ∧ (m.cause = 0x08 → exec (.migrationHoldTimeout h) s = exec (.blockFetchArrival h) s
        ∧ (LacksBlock (s.hand h) → (∀ b, (s.hand h).nxt = some b → b.base ≠ blockOf (s.hand h).pc) →
          ∀ ad, locate s h (BitVec.ofNat 64 (blockOf (s.hand h).pc)) 64 .fetch true = .hold ad →
          exec (.migrationHoldTimeout h) s = .next (s.setHand h { s.hand h with
            migHold := none, cur := some (failedBuffer (blockOf (s.hand h).pc) 5) }))))

/-- R106, R211, R224, R276: SCALAR_STORE_PERFORM performs the oldest buffered store, here in DRAM of this device, and no other; a misaligned
one goes byte by byte: some of its bytes are written (log 56), but in lockstep all at once (log 2).  While base dies have not replied to
earlier ones, or without tokens, nothing is written. -/
def Sys2Proof.Spec.StoresDrain : Prop :=
  ∀ (s : State) (h : Nat) (p : PendingStore) (ps : List PendingStore) (pa : Nat) (pas : List Nat), h < 2048 →
    let x := s.hand h
    let all := pa :: pas
    x.sb = p :: ps → p.locs = dramLocs all → all.length = p.bytes.length → x.st ≠ .frozen → x.marks = [] → x.leaving = false →
    (x.dieWrites = [] → Paid s (.hand h) p.locs →
      (s.lockstep = true ∨ pa % all.length = 0 →
        ∃ t, exec (.scalarStorePerform h) s = .next t ∧ t.hand h = { x with sb := ps } ∧ t.mem = putAll s.mem all p.bytes
          ∧ ∀ g, g ≠ h → t.hand g = s.hand g)
      ∧ (s.lockstep = false → pa % all.length ≠ 0 →
        ∃ t ks, exec (.scalarStorePerform h) s = .next t ∧ ks ≠ [] ∧ (∀ k ∈ ks, k < all.length)
          ∧ t.mem = putAll s.mem (ks.map fun k => all.getD k 0) (ks.map fun k => p.bytes.getD k 0)
          ∧ (let rest := (List.range all.length).filter fun k => !ks.contains k
             t.hand h = { x with sb := if rest = [] then ps else { p with
               locs := dramLocs (rest.map fun k => all.getD k 0), bytes := rest.map fun k => p.bytes.getD k 0 } :: ps })
          ∧ ∀ g, g ≠ h → t.hand g = s.hand g))
    ∧ (x.dieWrites ≠ [] → exec (.scalarStorePerform h) s = .next s)
    ∧ (¬ Paid s (.hand h) p.locs → ∃ t, exec (.scalarStorePerform h) s = .next t ∧ t.hands = s.hands ∧ t.mem = s.mem)

/-- R106, R149, R230, R231: a buffered scalar store and an element of a memory instruction perform. -/
def Obligations.StreamsPerform : Prop := Spec.StoresDrain ∧ Spec.ElementsPerform

/-- R247, R248, R249, R276, R278: a chunk of an active copy, here within DRAM of this device, is read and written, and its bit of vd is set
once the hand's accesses before the `vcopy` have performed; the copy leaves its slot after its last chunk.  Where the engines work in lockstep (log 2) that is one
event; otherwise the chunk's bytes are read, and then written, some at a time, and a chunk that is written waits for its bit. -/
def Obligations.ChunksComplete : Prop :=
  ∀ (s : State) (h sl k p : Nat) (c : Copy) (rest : List (Nat × Nat)), h < 2048 →
    let x := s.hand h
    let a := c.src + BitVec.ofNat 64 (k * c.size)
    let b := c.dst + BitVec.ofNat 64 (k * c.size)
    let step : Instr := .copyChunkComplete h sl k
    x.copies = [(sl, c)] → c.left = (k, p) :: rest → (∀ q ∈ rest, q.1 ≠ k) → c.fault = none → p < 8192 → (∀ e ∈ x.rq, c.age ≤ e.age) →
    x.st ≠ .frozen → x.st ≠ .off → x.marks = [] → c.size = 256 ∨ c.size = 1024 ∨ c.size = 4096 ∨ c.size = 16384 →
    (s.lockstep = true → c.flight = [] → rest = [] → x.rq = [] → x.draining = false → x.leaving = false → AllPerformed x →
      ∀ src dst, locate s h a c.size .load true = .ok (dramLocs src) → DramClean s src → Paid s (.vmu h) (dramLocs src) →
        let u := noteTlb (payFor s (.vmu h) (dramLocs src)).1 h a c.size .load
        locate u h b c.size .store true = .ok (dramLocs dst) → Paid u (.vmu h) (dramLocs dst) →
        ∃ t, exec step s = .next t ∧ t.mem = putAll s.mem dst (src.map (memGet s.mem)) ∧ BitSet x (t.hand h) sl k p c []
          ∧ ∀ g, g ≠ h → t.hand g = s.hand g)
    ∧ (s.lockstep = false →
      (∀ src got, (c.flight = [] ∧ got = []) ∨ (c.flight = [(k, .taking got)] ∧ got ≠ []) → (∃ j, j < c.size ∧ ∀ q ∈ got, q.1 ≠ j) →
        locate s h a c.size .load true = .ok (dramLocs src) → DramClean s src → Paid s (.vmu h) (dramLocs src) →
        ∃ t g, exec step s = .next t ∧ t.mem = s.mem ∧ got.length < g.length ∧ (∀ q ∈ got, q ∈ g)
          ∧ ReadOf s.mem src (g.filter fun q => !got.contains q)
          ∧ CopyIs x (t.hand h) sl { c with flight := [(k,
              if g.length = c.size then .putting (g.map Prod.snd) (List.range c.size) else .taking g)] })
      ∧ (∀ dst bytes left, c.flight = [(k, .putting bytes left)] → left ≠ [] → (∀ j ∈ left, j < c.size) →
        locate s h b c.size .store true = .ok (dramLocs dst) → Paid s (.vmu h) (dramLocs dst) →
        ∃ t js, exec step s = .next t ∧ js ≠ [] ∧ (∀ j ∈ js, j ∈ left)
          ∧ t.mem = putAll s.mem (js.map fun j => dst.getD j 0) (js.map fun j => bytes.getD j 0)
          ∧ (let more := left.filter fun j => !js.contains j
             (more ≠ [] → CopyIs x (t.hand h) sl { c with flight := [(k, .putting bytes more)] })
             ∧ (more = [] → AllPerformed x → BitSet x (t.hand h) sl k p c rest)
             ∧ (more = [] → (x.dieWrites ≠ [] ∨ x.vdieWrites ≠ []) →
                CopyIs x (t.hand h) sl { c with flight := [(k, .written)] }))
          ∧ ∀ g, g ≠ h → t.hand g = s.hand g)
      ∧ (c.flight = [(k, .written)] →
        (AllPerformed x → ∃ t, exec step s = .next t ∧ t.mem = s.mem ∧ BitSet x (t.hand h) sl k p c rest
          ∧ ∀ g, g ≠ h → t.hand g = s.hand g)
        ∧ ((x.dieWrites ≠ [] ∨ x.vdieWrites ≠ []) →
          ∃ t, exec step s = .next t ∧ t.mem = s.mem ∧ ∀ g, t.hand g = s.hand g)))

/-- R250: VWAIT_REREAD of a `vwait` of one element, here in DRAM of this device: an equal doubleword meets it; an unequal one leaves it to be
read again, unless T cycles have passed since the first read; VWAIT_TIMEOUT acts only once they have. -/
def Sys2Proof.Spec.WaitsForValues : Prop :=
  ∀ (s : State) (h : Nat) (e : Entry) (pas : List Nat), AtElement s h e → e.kind = .vwait → e.first = 0 → e.acc = [] → e.mode = 0 →
    tileElems e = 1 → e.vl.toNat ≤ 1024 / (8 * elemLen e) → activeElem (s.hand h) e 0 = true →
    let off := BitVec.ofNat 64 (slotVal (s.hand h) e.b 64 0)
    elemLen e = 8 → off.toNat % 8 = 0 → locate s h off 8 .load true = .ok (dramLocs pas) → DramClean s pas →
    Paid s (.vmu h) (dramLocs pas) →
    let met := leValue (pas.map (memGet s.mem)) = slotVal (s.hand h) e.d 64 0
    let read : Entry := { e with awaiting := none, heldAt := tabDel e.heldAt e.first, since := some (firstRead s h e) }
    ∀ i ∈ [Instr.vwaitReread h, .vwaitTimeout h], (i = .vwaitTimeout h → e.since ≠ none ∧ Over s h e e.sa) →
      (met → ∃ u, exec i s = .next u ∧ u.mem = s.mem ∧ EntryIs s u h { read with first := 1, acc := [0], mode := 1 })
      ∧ (¬ met → Over s h e e.sa → ∃ u, exec i s = .next u ∧ u.mem = s.mem ∧ EntryIs s u h { read with first := 1, mode := 1 })
      ∧ (¬ met → ¬ Over s h e e.sa → ∃ u, exec i s = .next u ∧ u.mem = s.mem ∧ EntryIs s u h read)

/-- R303: WFIN_REREAD of a `wfin`, here of a status word in DRAM of this device: a final or lost word ends it, and so does the timeout;
any other leaves it to be read again; WFIN_TIMEOUT acts only once T cycles have passed since the first read. -/
def Sys2Proof.Spec.WaitsForWhistles : Prop :=
  ∀ (s : State) (h : Nat) (e : Entry) (pas : List Nat), AtElement s h e → e.kind = .wfin → e.mode = 0 →
    e.sa.toNat % 8 = 0 → locate s h e.sa 8 .load true = .ok (dramLocs pas) → DramClean s pas →
    Paid s (.vmu h) (dramLocs pas) →
    let w := BitVec.ofNat 64 (leValue (pas.map (memGet s.mem)))
    let read : Entry := { e with awaiting := none, heldAt := tabDel e.heldAt e.first, since := some (firstRead s h e) }
    let ends := w.getLsbD 1 = true ∨ w.getLsbD 2 = true ∨ Over s h e e.sb
    ∀ i ∈ [Instr.wfinReread h, .wfinTimeout h], (i = .wfinTimeout h → e.since ≠ none ∧ Over s h e e.sb) →
      (ends → ∃ u, exec i s = .next u ∧ u.mem = s.mem ∧ EntryIs s u h { read with acc := [w], mode := 1 })
      ∧ (¬ ends → ∃ u, exec i s = .next u ∧ u.mem = s.mem ∧ EntryIs s u h read)

/-- R250, R303: `vwait` and `wfin` look again at their words, and give up after their timeout. -/
def Obligations.VectorWaits : Prop := Spec.WaitsForValues ∧ Spec.WaitsForWhistles

end Vmu


/-! # Faults, replay, recheck and violations -/

namespace Sys2Proof.Spec

open Sys2Proof.Machine

/-- Hand h has parked (R315, R318, R322): its frame has the class, cause, sub-status, program counters, address and element given; its
scalar registers stay; its reeve is told, and it holds no reservation. -/
def ParkedAt (s t : State) (h cls cause sub : Nat) (apc fpc addr : Word) (elem : Nat) : Prop :=
  let x := s.hand h
  let y := t.hand h
  y.st = .parked ∧ y.pc = apc ∧ y.resume = x.resumeNow ∧ y.waiting = none ∧ y.arrived = none
    ∧ y.frame = { replay := x.rq.length, resume := x.resumeNow, cls := cls, sub := sub, cause := cause, apc := apc, fpc := fpc
                  addr := addr, elem := elem, cyc := (s.core (h / 16)).cyc }
    ∧ y.s = x.s ∧ y.lastd = x.lastd ∧ y.fflags = x.fflags ∧ y.rq.length = x.rq.length
    ∧ (t.reeve (h / 16)).hpend = (s.reeve (h / 16)).hpend ||| (1#64 <<< (h % 16))
    ∧ (∀ g, (h, g) ∉ t.resv) ∧ t.mem = s.mem ∧ ∀ g, g ≠ h → t.hand g = s.hand g

/-- What a load that faults at element k leaves in its group (R235, R150): its elements from `vstart` up to k have the values that they
read, one of them that the mask left out is kept or 0 by mp, every other slot and every other register stays. -/
def LoadedBelow (x y : Hand) (e : Entry) (k : Nat) : Prop :=
  let n := 8 * 2 ^ (e.vtype.toNat % 4)
  let g := 2 ^ (e.vtype.toNat / 4 % 4)
  (∀ p, p < 8 * g * (1024 / n) → slotVal y e.d n p =
      match presentAt e p with
      | none => slotVal x e.d n p
      | some i =>
        if i < e.vstart.toNat ∨ k ≤ i then slotVal x e.d n p
        else if e.skipped.getLsbD i = false then
          ((e.acc.reverse.getD (i - e.vstart.toNat) 0).toNat) % 2 ^ n
        else if e.vtype.getLsbD 5 then 0 else slotVal x e.d n p)
    ∧ ∀ r : Reg, r.toNat < e.d.toNat ∨ e.d.toNat + g ≤ r.toNat → y.vrd r = x.vrd r

/-- No value waits in the return queue, no stop pends and no fence waits. -/
def Settled (x : Hand) : Prop := x.retq = [] ∧ x.stopReq = none ∧ x.fencing = false

/-- The scalar stores of a hand have performed and are acknowledged, and no scalar load or atomic is under way (R314, R315). -/
def ScalarOver (x : Hand) : Prop := x.sb = [] ∧ x.unacked = [] ∧ x.dieWrites = [] ∧ x.accessOut = false

/-- An instruction that resumes at its beginning wherever it stopped: a pass at its stage, a form over the whole tile (R185, R191,
R266). -/
def FromStart : VKind → Prop
  | .pass => True
  | .red _ => True
  | .scan _ => True
  | .rowred => True
  | .permute _ => True
  | .sort _ => True
  | .sortkv => True
  | .topk => True
  | .merge _ => True
  | .rank => True
  | .mlatch => True
  | .mzero => True
  | .mrd => True
  | .mwr => True
  | _ => False

/-- The element at which an instruction resumes when its replays give out (R324, R185, R191, R232, R235, R266): its first unperformed one,
wherever that is for an unordered form; 0 for one that begins again. -/
def resumeElem (x : Hand) (e : Entry) : Nat → Prop
  | n => (e.unordered = true → n = (restElems x e).headD e.count)
      ∧ (e.unordered = false → (FromStart e.kind → n = 0) ∧ (¬ FromStart e.kind → n = e.first))

/-- A violation of partition p is recorded: the first in `PVIOL`, every one in the black box (R331); no memory changes. -/
def Recorded (s t : State) (p kind id code : Nat) (detail : Word) : Prop :=
  ((s.part p).viol = none → (t.part p).viol = some { node := Config.node, id := id, kind := kind, code := code, detail := detail })
    ∧ (∀ v, (s.part p).viol = some v → (t.part p).viol = some v)
    ∧ (∃ b, b ∈ t.box ∧ b.event = 0x05 ∧ b.source = id ∧ b.part = p ∧ b.sub = code) ∧ t.mem = s.mem

/-- Bytes of a device register, within one doubleword. -/
def regLocs (off n : Nat) : List Loc := (List.range n).map fun i => .reg (off + i)

/-- The violation of an access of partition p's software to the device register at an offset (Table 17.5, R24, R25, R213): 0x40 in the page of
another partition's queues, none in that of its own, 0x42 for every other register, which is the steward's.  Where the pages lie is the
model's choice (log 14). -/
def regCode (p off : Nat) : Option Nat :=
  if 0x100000 ≤ off ∧ off < 0x110000 then
    if (off - 0x100000) / 0x1000 = p ∧ (off - 0x100000) % 0x1000 < 0x100 then none else some 0x40
  else some 0x42

/-- Hand h has frozen (R330, R49): its state is kept for the steward, and its reeve and its farm know. -/
def Freezes (s t : State) (h : Nat) : Prop :=
  (t.hand h).st = .frozen ∧ (t.hand h).fcv = true ∧ (t.hand h).s = (s.hand h).s ∧ (t.hand h).pc = (s.hand h).pc
    ∧ (t.reeve (h / 16)).hpend = (s.reeve (h / 16)).hpend ||| (1#64 <<< (16 + h % 16))
    ∧ (∀ f, s.farm (s.hand h).farm = some f → ∃ g, t.farm (s.hand h).farm = some g ∧ g.frozen = true)
    ∧ ∀ g, g ≠ h → t.hand g = s.hand g

/-- A dispatched instruction back in the replay queue (R324). -/
def replayed (f : Entry) : Entry := { f with taken := false, renamed := 0, written := 0, dispute := none, settled := false }

/-- The execute stream of a hand works. -/
def Works (x : Hand) : Prop := x.st ≠ .held ∧ x.st ≠ .parked ∧ x.st ≠ .frozen ∧ x.st ≠ .off

/-- The address that a frame records: only causes 0x05 to 0x09 and 0x0C have one (Table 17.2). -/
def recorded (cause : Nat) (addr : Word) : Word := if (5 ≤ cause ∧ cause ≤ 9) ∨ cause = 12 then addr else 0

/-- The kinds of instruction that `hstat.rck` executes twice: those that compute over the tile, `mma`, `mrd` and `mwr` (R326). -/
def twice (e : Entry) : Prop := e.rck = true ∧ memoryType e = false ∧ e.kind ∉ [.bfLoad, .bfClr, .bfStat, .mlatch, .mzero]

/-- The unit kind's benched units on a core. -/
def benchedOf (s : State) (c u : Nat) : Nat := ((s.core c).fouls.bench.filter fun v => v / 4 == u / 4).length

/-- One more foul of a unit: its count saturates at 15 (R327). -/
def foulsAfter (s : State) (c u : Nat) : Nat := min 15 (tabGet 0 (s.core c).fouls.count u + 1)

end Sys2Proof.Spec

section Faults

open Sys2Proof Sys2Proof.Machine Sys2Proof.Spec

/-- R314, R315, R318, R249: a fault parks its hand once what must come before it is done: a precise or a remote scalar fault when no
dispatched instruction and no scalar store is left; a fault of the oldest dispatched instruction, at its element, when the scalar stores
have performed, no scalar access is under way and no request of the instruction is, with that instruction and the younger ones in the replay
queue; a fault of a copy likewise, whose slot keeps the chunk that faulted.  Until then nothing changes. -/
def Obligations.FaultsPark : Prop :=
  ∀ (s : State) (h : Nat), h < 2048 → Settled (s.hand h) →
    let x := s.hand h
    (∀ f, x.pfault = some f → f.cls = 0 →
      (x.rq = [] → x.scalarStoresDone = true →
        ∃ t, exec (.preciseFaultPark h) s = .next t ∧ ParkedAt s t h 0 f.cause f.sub f.apc x.pc f.addr 0 ∧ (t.hand h).v = x.v)
      ∧ (x.rq ≠ [] ∨ x.sb ≠ [] ∨ x.unacked ≠ [] ∨ x.dieWrites ≠ [] → exec (.preciseFaultPark h) s = .next s))
    ∧ (∀ f, x.pfault = some f → f.cls = 1 → x.rq = [] → ScalarOver x →
      ∃ t, exec (.impreciseFaultPark h) s = .next t ∧ ParkedAt s t h 1 f.cause f.sub f.apc x.pc f.addr 0 ∧ (t.hand h).v = x.v)
    ∧ (∀ e es c sub a j k, x.rq = e :: es → e.fault = some (c, sub, a, j) → Works x → ScalarOver x → e.faultReady = true →
      (if c = 0x0B ∧ sub = 3 then resumeElem x e k else k = j) →
      ∃ t, exec (.impreciseFaultPark h) s = .next t ∧ ParkedAt s t h 1 c sub x.pc e.pc (recorded c a) k
        ∧ (e.loads = false → (t.hand h).v = x.v)
        ∧ (e.loads = true → e.first = k → e.d.toNat % 2 ^ (e.vtype.toNat / 4 % 4) = 0 → LoadedBelow x (t.hand h) e k)
        ∧ (t.hand h).vstart = BitVec.ofNat 64 k ∧ (t.hand h).bpc = (if e.kind = .pass then BitVec.ofNat 64 e.stages else 0)
        ∧ (t.hand h).rq.map Entry.kind = x.rq.map Entry.kind ∧ ∀ f ∈ (t.hand h).rq, f.fault = none ∧ f.taken = false)
    ∧ (∀ e es, x.rq = e :: es → e.fault ≠ none → Works x → e.awaiting ≠ none → exec (.impreciseFaultPark h) s = .next s)
    ∧ (∀ sl c k cause sub a, x.rq = [] → x.pfault = none → ScalarOver x → Works x → x.copies = [(sl, c)] → c.left ≠ [] →
      c.fault = some (k, cause, sub, a) → (∀ q ∈ c.left, k ≤ q.1) →
      ∃ t, exec (.impreciseFaultPark h) s = .next t
        ∧ ParkedAt s t h 1 cause sub x.pc c.pc (if cause = 0x05 then c.dst else recorded cause a) k
        ∧ (t.hand h).v = x.v ∧ (t.hand h).copies = [(sl, { c with flight := [] })])
    ∧ (¬ ScalarOver x → exec (.impreciseFaultPark h) s = .next s)

/-- R324, R326, R327, R329: a replay sends every dispatched instruction back, counts in the core's telemetry and the black box, and the
third in a row parks the hand with cause 0x0B, sub-status 3, at the element from which the instruction resumes, once no request of it is under
way; a recheck mismatch keeps the oldest instruction from retiring until the
third execution agrees with one of the two, and the other unit gets a foul; where it agrees with neither, the hand parks with cause
0x12; fouls and benches clear as Table 17.4b says. -/
def Obligations.ReplayAndRecheck : Prop :=
  ∀ (s : State) (h : Nat) (e : Entry) (es : List Entry), h < 2048 → Settled (s.hand h) → Works (s.hand h) → (s.hand h).rq = e :: es →
    s.lockstep = false →
    let x := s.hand h
    let c := h / 16
    (x.replays < 2 → ∃ t, exec (.replay h) s = .next t ∧ t.mem = s.mem ∧ (t.core c).replays = (s.core c).replays + 1
      ∧ (∃ b, t.box.getLast? = some b ∧ b.event = 0x01 ∧ b.source = h)
      ∧ t.hand h = { x with rq := x.rq.map replayed, replays := x.replays + 1 } ∧ ∀ g, g ≠ h → t.hand g = s.hand g)
    ∧ (2 ≤ x.replays → e.fault = none → ScalarOver x → ∀ n, resumeElem x e n →
      (e.awaiting = none → ∃ t, exec (.replay h) s = .next t ∧ ParkedAt s t h 1 0x0B 3 x.pc e.pc 0 n)
      ∧ (e.awaiting ≠ none → ∃ t, exec (.replay h) s = .next t ∧ t.mem = s.mem ∧ (t.hand h).st = x.st
        ∧ ∃ f fs, (t.hand h).rq = f :: fs ∧ f.fault = some (0x0B, 3, 0, n) ∧ f.awaiting = e.awaiting))
    ∧ (∀ u v, u < 8 → v < 8 →
      (u ≠ v → u / 4 = v / 4 → (4 ≤ u ↔ e.matrixOp = true) → u ∉ (s.core c).fouls.bench → v ∉ (s.core c).fouls.bench → twice e →
        e.settled = false → e.dispute = none → e.fault = none →
        exec (.recheckMismatch h u v) s = .next (s.setHand h { x with rq := { e with dispute := some (u, v) } :: es }))
      ∧ ((u = v ∨ u / 4 ≠ v / 4 ∨ ¬(4 ≤ u ↔ e.matrixOp = true) ∨ u ∈ (s.core c).fouls.bench ∨ v ∈ (s.core c).fouls.bench ∨ ¬ twice e
          ∨ e.settled = true) → exec (.recheckMismatch h u v) s = .next s))
    ∧ (∀ u v, e.dispute = some (u, v) →
      (benchedOf s c u < 2 → ∀ first : Bool, let w := if first then v else u
        ∃ t, exec (.recheckResolve h (some first)) s = .next t ∧ t.mem = s.mem
          ∧ t.hand h = { x with rq := { e with dispute := none, settled := true } :: es }
          ∧ tabGet 0 (t.core c).fouls.count w = foulsAfter s c w
          ∧ (∀ z, z ≠ w → tabGet 0 (t.core c).fouls.count z = tabGet 0 (s.core c).fouls.count z)
          ∧ (∀ z, z ∈ (t.core c).fouls.bench ↔ z ∈ (s.core c).fouls.bench
              ∨ (z = w ∧ 1 ≤ (s.core c).rckcfg.toNat % 256 ∧ (s.core c).rckcfg.toNat % 256 ≤ foulsAfter s c w)))
      ∧ (∀ agree, (agree = none ∨ 2 ≤ benchedOf s c u) → ScalarOver x → e.awaiting = none → e.matrixOp = true ∨ memoryType e = false →
        ∃ t, exec (.recheckResolve h agree) s = .next t ∧ ParkedAt s t h 1 0x12 0 x.pc e.pc 0 0))
    ∧ (∀ d u, d < 128 → u < 8 →
      let k := s.core d
      (2 ^ ((s.core d).rckcfg.toNat / 2 ^ 16 % 32) ≤ tabGet 0 k.fouls.window u →
        ∃ t, exec (.foulWindowReset d u) s = .next t ∧ t.hands = s.hands ∧ tabGet 0 (t.core d).fouls.count u = 0
          ∧ (∀ z, z ≠ u → tabGet 0 (t.core d).fouls.count z = tabGet 0 k.fouls.count z) ∧ (t.core d).fouls.bench = k.fouls.bench)
      ∧ (tabGet 0 k.fouls.window u < 2 ^ ((s.core d).rckcfg.toNat / 2 ^ 16 % 32) → exec (.foulWindowReset d u) s = .next s)
      ∧ ∀ w : Word, ∃ t, exec (.foulBenchClear d w) s = .next t ∧ t.hands = s.hands
        ∧ (∀ z, z ∈ (t.core d).fouls.bench ↔ z ∈ k.fouls.bench ∧ ¬(z < 8 ∧ w.getLsbD (56 + z) = true))
        ∧ ∀ z, tabGet 0 (t.core d).fouls.count z
          = if z < 8 ∧ w.getLsbD (56 + z) = true ∧ z ∈ k.fouls.bench then 0 else tabGet 0 k.fouls.count z)

/-- R330, R331, R332, R24, R213, R306, Tables 15.13 and 17.5: a violation freezes its master, a hand or the engine of a hand, a reeve, or stops a
host function's queue, whose vector pends; that of a remote port is recorded with its node, and its windows that hold the PA freeze; the
first of a partition is recorded in `PVIOL`, every one in the black box.  A load of a hand, a buffered store of a hand, or a load of a reeve
outside machine mode, that reaches a register of the steward or of another partition is such a violation. -/
def Obligations.Violations : Prop :=
  (∀ (s : State) (code : Nat) (detail : Word), 0x40 ≤ code → code ≤ 0x44 →
    (∀ h, h < 2048 → (s.hand h).st ≠ .off → ∀ engine : Bool,
      ∃ t, exec (.violation (if engine then .engine h else .hand h) code detail) s = .next t
        ∧ Recorded s t (s.hand h).part (if engine then 1 else 0) h code detail ∧ Freezes s t h)
    ∧ (∀ c, c < 128 →
      let held := fun k => (s.reeve c).hmask.getLsbD k && decide ((s.hand (c * 16 + k)).farm = (s.reeve c).hfarm)
      (∀ k, k < 16 → held k = true → (s.hand (c * 16 + k)).st = .block ∨ (s.hand (c * 16 + k)).st = .fetch) →
      ∃ t, exec (.violation (.reeve c) code detail) s = .next t ∧ Recorded s t (s.reeve c).part 2 c code detail
        ∧ t.reeve c = { s.reeve c with frozen := true }
        ∧ ∀ h, t.hand h = if h / 16 = c ∧ held (h % 16) = true then { s.hand h with placed := true } else s.hand h)
    ∧ (∀ q, q < 64 → ∃ t, exec (.violation (.hostFn q) code detail) s = .next t ∧ Recorded s t (q / 4) 4 q code detail
      ∧ (t.queue q).stopped = true ∧ (t.queue q).pub = none ∧ q ∈ t.msix ∧ t.hands = s.hands)
    ∧ (∀ n p, n ≤ Config.maxNode → p < 16 → ∃ t, exec (.violation (.remotePort n p) code detail) s = .next t ∧ t.hands = s.hands ∧ t.mem = s.mem
      ∧ t.windows = windowsFrozen s.windows p detail.toNat
      ∧ ((s.part p).viol = none → (t.part p).viol = some { node := n, id := p, kind := 3, code := code, detail := detail })
      ∧ ∀ v, (s.part p).viol = some v → (t.part p).viol = some v))
  ∧ ∀ (s : State) (off n code : Nat), 1 ≤ n → off / 8 = (off + n - 1) / 8 →
    let detail := BitVec.ofNat 64 (Config.regBase + off)
    (∀ i l, loadOp s.me i = some l → l.n = n → Quiet s → Ready s [l.d, l.a] → Unblocked s (l.addr s.me) n true → s.me.sb = [] →
      locate s s.curHand (l.addr s.me) n .load true = .ok (regLocs off n) → regCode s.me.part off = some code →
      ∃ t, exec i s = .next t ∧ Recorded s t s.me.part 0 s.curHand code detail ∧ Freezes s t s.curHand)
    ∧ (∀ h ps age bytes, h < 2048 → (s.hand h).sb = { age := age, locs := regLocs off n, bytes := bytes } :: ps → bytes.length = n →
      (s.hand h).st ≠ .frozen → (s.hand h).marks = [] → (s.hand h).dieWrites = [] → regCode (s.hand h).part off = some code →
      ∃ t, exec (.scalarStorePerform h) s = .next t ∧ Recorded s t (s.hand h).part 0 h code detail ∧ Freezes s t h)
    ∧ ∀ (k : RvLoad) (d a : Reg) (im : Word) (short : Bool), (rvWidth k).1 = n → s.rv.mode ≠ .m → s.rv.fenced .load = false →
      rvLocate s s.curReeve (s.rv.rd a + im) n .load false = .ok (regLocs off n) → regCode s.rv.part off = some code →
      ∃ t, exec (.reeveInstruction (.load k d a im) short) s = .next t ∧ Recorded s t s.rv.part 2 s.curReeve code detail
        ∧ t.rv.frozen = true ∧ t.rv.x = s.rv.x ∧ t.rv.pc = s.rv.pc

end Faults


/-! # Ports, base dies, fabric and host -/

namespace Sys2Proof.Spec

open Sys2Proof.Machine

/-- The rates of a port's buckets, and the tokens of one tick that its buckets cannot hold, in 1/256 token (R223). -/
def inflow (q : Port) : Nat := (q.buckets.map fun b => b.2.rate).sum
/-- See inflow. -/
def overflow (q : Port) : Nat := (q.buckets.map fun b => b.2.tokens + b.2.rate - b.2.depth * 256).sum

/-- A port after a reference tick in which its buckets gain `gain b` and the commons `more`, and whether the tick scaled its rates (R223,
R352). -/
def ticked (q : Port) (scales : Bool) (gain : Bucket → Nat) (more : Nat) : Port :=
  { q with
    scaled := scales
    buckets := q.buckets.map fun b => (b.1, { b.2 with tokens := min (b.2.tokens + gain b.2) (b.2.depth * 256) })
    level := min (q.level + more) (q.depth * 256) }

/-- Bucket p of a port. -/
def bucketOf (q : Port) (p : Nat) : Bucket := tabGet Bucket.empty q.buckets p

/-- A read or write request of requester r at the head of a channel that can be received (R225, R226). -/
def FirstRequest (s : State) (ch : Nat) (r : DieReq) (rest : List DieReq) (tag : Nat) : Prop :=
  ch < 1024 ∧ ch ∉ s.calib ∧ (s.chan ch).waiting = r :: rest ∧ tag < 8
    ∧ (∀ y ∈ (s.chan ch).replies, ¬(y.requester = r.requester ∧ y.tag = tag))
    ∧ ∀ u, u < tag → ∃ y ∈ (s.chan ch).replies, y.requester = r.requester ∧ y.tag = u

/-- A request for the 8 bytes of a doubleword as one element: a read-modify-write or a conditional write (R241, R246). -/
def OneDword (pas : List Nat) (size : Nat) (val : List Byte) : Prop :=
  size = 0 ∧ val.length = 8 ∧ ∃ a, a % 8 = 0 ∧ pas = (List.range 8).map (a + ·)

/-- The doubleword that bytes of memory hold. -/
def dwordOf (m : Memory) (pas : List Nat) : Word := BitVec.ofNat 64 (leValue (pas.map (memGet m)))

/-- A doubleword as a list of bytes gives it. -/
def wordOf (bs : List Byte) : Word := BitVec.ofNat 64 (leValue bs)

/-- The memory m2 is m1 with bytes written at addresses, as every read of a byte sees it. -/
def Written (m1 m2 : Memory) (pas : List Nat) (bs : List Byte) : Prop := ∀ a, memGet m2 a = memGet (putAll m1 pas bs) a

/-- The scalar load of hand h waits for the reply with this tag, for all of its bytes (R305, R212, R211). -/
def AwaitsLoad (s : State) (h tag : Nat) (d : Reg) (n : Nat) (signed : Bool) (o : Outstanding) : Prop :=
  (s.hand h).stopReq = none ∧ (s.hand h).holdReq = none ∧ (s.hand h).placed = false ∧ s.lockstep = false ∧ o.tag = tag ∧ o.who = .handAccess h
    ∧ s.outs.filter (fun p => p.tag == tag) = [o]
    ∧ ∃ locs va acq, (s.hand h).acc = some { tag := tag, kind := .load d n signed acq, addr := va, len := 4, locs := locs, got := [] }
      ∧ locs.length = n ∧ 1 ≤ n ∧ n ≤ 8 ∧ leadRun locs = locs

/-- The hand has its load: the value is in S[d], and nothing of the access is outstanding. -/
def HasLoaded (s t : State) (h tag : Nat) (d : Reg) (n : Nat) (signed : Bool) (data : List Byte) : Prop :=
  t.hand h = loaded { s.hand h with acc := none } d (extended n signed data) 4 ∧ (∀ p ∈ t.outs, p.tag ≠ tag) ∧ t.mem = s.mem
    ∧ ∀ g, g ≠ h → t.hand g = s.hand g

/-- The entries of the remote window table of a request's source partition that cover it (R306). -/
def covering (s : State) (r : Request) : List Window :=
  (s.windows.filter fun q => decide (q.1 / 64 = r.part) && (q.2.v && decide (q.2.part = r.part)
    && r.pas.all fun pa => decide (q.2.base * 4096 ≤ pa ∧ pa < (q.2.base + q.2.frames) * 4096))).map Prod.snd

/-- A window's permission for an operation (R306). -/
def permits (w : Window) : MemOp → Prop
  | .read => w.r = true
  | .readBytes => w.r = true
  | .write => w.w = true
  | .writeBytes => w.w = true
  | _ => w.r = true ∧ w.w = true ∧ w.a = true

/-- The reply that a request gets. -/
def answer (r : Request) (ok : Bool) (data : List Byte) : Nat × FabMsg := (r.src % 4096, .reply r.tag ok false data)

/-- Every earlier posted write and read of a host function has performed (R285): no write of its partition waits for an acknowledgement, no
read of it for its bytes, and no misaligned access for its rest. -/
def PostedDone (s : State) (fn : Nat) : Prop :=
  (fn = 0 ∨ ∀ o ∈ s.outs, ¬(o.write = true ∧ o.who = .unit (fn - 1))) ∧ tabFind s.hostTorn fn = none
    ∧ ∀ o ∈ s.outs, o.who ≠ .placer (2 ^ 40 + fn)

/-- t is s after some bytes, not none, of a misaligned write have been written: those with numbers js, of the bytes bs at pas (R276). -/
def WrittenPart (s t : State) (pas : List Nat) (bs : List Byte) (js : List Nat) : Prop :=
  js ≠ [] ∧ js.length ≤ pas.length ∧ (∀ j ∈ js, j < pas.length)
    ∧ t.mem = putAll s.mem (js.map fun j => pas.getD j 0) (js.map fun j => bs.getD j 0)

/-- Bytes of BAR2 of a function (R310): 2^20 times 2 to the size code that Resizable BAR holds. -/
def barSize (s : State) (fn : Nat) : Nat := 2 ^ (20 + barSizeCode s fn)

/-- A read through BAR2 that completes with Unsupported Request, or a write that is not performed: both are logged (R310). -/
def unsupported (s : State) (write : Bool) : State := { s with hostRead := if write then s.hostRead else none, aer := s.aer + 1 }

end Sys2Proof.Spec

section Fabric

open Sys2Proof Sys2Proof.Machine Sys2Proof.Spec

/-- R223, R224, R352: TOKEN_REFILL: each bucket gains its rate and what it cannot hold goes to the commons, less what a derate withholds;
a derate beyond that scales the rates, and event 0x0D is written when a port begins to.  R352 gives the order, commons first; that a derate
takes inflow · d ÷ 256, rounded down, and that a scaled rate is rounded down, is the model's (log 41).  TOKEN_GRANT takes a waiting transfer's token from its own bucket, else from the commons
where it may borrow; of two that borrow, the one with the lower consumed ÷ rate goes first.  CONSUMED_RESET
zeroes the counts of consumed tokens once for each multiple of 65,536 ticks, and DERATE sets what a port withholds. -/
def Sys2Proof.Spec.Tokens : Prop :=
  ∀ (s : State),
    (∃ t, exec .tokenRefill s = .next t ∧ t.mem = s.mem ∧ t.hands = s.hands ∧ t.ports.map Prod.fst = s.ports.map Prod.fst
      ∧ ∀ i q, (i, q) ∈ s.ports →
        let cut := inflow q * q.derate / 256
        (cut ≤ overflow q → (i, ticked q false (fun b => b.rate) (overflow q - cut)) ∈ t.ports)
        ∧ (overflow q < cut →
          (i, ticked q true (fun b => b.rate * (inflow q - (cut - overflow q)) / inflow q) 0) ∈ t.ports
            ∧ (s.ports.length ≤ 64 → q.scaled = false → ∃ b ∈ t.box, b.event = 0x0D ∧ b.source = i)))
    ∧ (s.tick / 65536 ≤ s.consumedAt → exec .consumedReset s = .next s)
    ∧ (s.consumedAt < s.tick / 65536 → ∃ t, exec .consumedReset s = .next t ∧ t = { s with ports := t.ports, consumedAt := s.tick / 65536 }
      ∧ ∀ i q, (i, q) ∈ s.ports → (i, { q with buckets := q.buckets.map fun b => (b.1, { b.2 with used := 0 }) }) ∈ t.ports)
    ∧ (∀ p d, p < 64 →
      exec (.derate p d) s = .next { s with ports := tabSet s.ports p { s.port p with derate := d % 256, scaled := false } })
    ∧ ∀ i, i < 64 →
      let q := s.port i
      let own (p : Nat) : Prop := 256 ≤ (bucketOf q p).tokens
      let lends : Prop := q.reserve * 256 < q.level
      let took (p : Nat) (b : Bucket) (w : List Nat) (l : Nat) : State :=
        { s with ports := tabSet s.ports i { q with
            buckets := tabSet q.buckets p b, wait := w, level := l, granted := q.granted + 1
            credit := tabSet q.credit p (tabGet 0 q.credit p + 1)
            borrowed := if l = q.level then q.borrowed else q.borrowed + 1 } }
      (∀ p, q.wait = [p] → own p → exec (.tokenGrant i) s
        = .next (took p { bucketOf q p with tokens := (bucketOf q p).tokens - 256, used := (bucketOf q p).used + 1 } [] q.level))
      ∧ (∀ p, q.wait = [p] → ¬ own p → (bucketOf q p).borrow = true → lends → exec (.tokenGrant i) s
        = .next (took p { bucketOf q p with used := (bucketOf q p).used + 1 } [] (q.level - 256)))
      ∧ (∀ a b, q.wait = [a, b] ∨ q.wait = [b, a] → a ≠ b → ¬ own a → ¬ own b → (bucketOf q a).borrow = true →
        (bucketOf q b).borrow = true → lends → 0 < (bucketOf q a).rate → 0 < (bucketOf q b).rate →
        (bucketOf q a).used * (bucketOf q b).rate < (bucketOf q b).used * (bucketOf q a).rate → exec (.tokenGrant i) s
        = .next (took a { bucketOf q a with used := (bucketOf q a).used + 1 } [b] (q.level - 256)))

/-- R225, R226, R241, R246: a base die performs the first request that waits at a channel, under the lowest free tag of its requester: a
read replies with the granule's 64 bytes and its poisoned halves; a write merges the bytes that its mask names, and no others.  A
read-modify-write and a conditional write travel as a write request (log 49, the model's choice): the first answers the old value, the
second whether the agent's reservation stood, which it uses up.  A channel in calibration receives nothing (R354). -/
def Sys2Proof.Spec.BaseDies : Prop :=
  ∀ (s : State) (ch : Nat) (r : DieReq) (rest : List DieReq) (tag : Nat), FirstRequest s ch r rest tag →
    (r.write = false → r.op = .read →
      exec (.readRequest ch) s = .next { s with chans := tabSet s.chans ch { waiting := rest, replies := (s.chan ch).replies ++
        [{ id := r.id, requester := r.requester, tag := tag, granule := r.granule, write := false
           bad := [2 * r.granule, 2 * r.granule + 1].filter fun k => s.poison.contains k
           data := memBytes s.mem (64 * r.granule) 64, pas := r.pas, answer := none }] } })
    ∧ (r.write = true → r.op = .write → Memory.wf s.mem = true →
      ∃ t, exec (.writeRequest ch) s = .next t ∧ t.hands = s.hands
        ∧ (∀ i, i < 64 → memGet t.mem (64 * r.granule + i)
            = if r.mask.getLsbD i then r.data.getD i 0 else memGet s.mem (64 * r.granule + i))
        ∧ (∀ a, a / 64 ≠ r.granule → memGet t.mem a = memGet s.mem a)
        ∧ (t.chan ch).waiting = rest ∧ (t.chan ch).replies.getLast? = some
            { id := r.id, requester := r.requester, tag := tag, granule := r.granule, write := true, bad := [], data := [], pas := r.pas
              answer := none })
    ∧ (∀ o, r.write = true → r.op = .amo o → o ≠ .complete → Memory.wf s.mem = true → OneDword r.pas r.size r.val → DramClean s r.pas →
      let old := dwordOf s.mem r.pas
      ∃ t, exec (.writeRequest ch) s = .next t ∧ t.hands = s.hands
        ∧ Written s.mem t.mem r.pas (leBytes 8 (amoNew o old (wordOf r.val) (wordOf r.cmp)).toNat)
        ∧ (t.chan ch).waiting = rest ∧ (t.chan ch).replies.getLast? = some
            { id := r.id, requester := r.requester, tag := tag, granule := r.granule, write := true, bad := [], data := [], pas := r.pas
              answer := some (leBytes 8 old.toNat) })
    ∧ (r.write = true → r.op = .condWrite → OneDword r.pas r.size r.val →
      let mine : Nat × Loc := (r.agent, .dram (r.pas.headD 0) false)
      ∃ t, exec (.writeRequest ch) s = .next t ∧ t.hands = s.hands
        ∧ t.mem = (if mine ∈ s.resv then putAll s.mem r.pas r.val else s.mem) ∧ mine ∉ t.resv
        ∧ (t.chan ch).waiting = rest ∧ (t.chan ch).replies.getLast? = some
            { id := r.id, requester := r.requester, tag := tag, granule := r.granule, write := true, bad := [], data := [], pas := r.pas
              answer := some (List.replicate 8 (if mine ∈ s.resv then 1 else 0)) })
    ∧ ∀ c, c < 1024 → c ∈ s.calib → exec (.readRequest c) s = .next s ∧ exec (.writeRequest c) s = .next s

/-- R223 to R226, R352: tokens at an L2 port, and requests and replies of a base die. -/
def Obligations.PortsAndDies : Prop := Spec.Tokens ∧ Spec.BaseDies

/-- R305, R212, R225, R308: what ends an access that left its core: the reply of another node, of a base die or of the host gives a
scalar load its value; an acknowledged write is no longer outstanding; a host compare-and-swap whose compare failed is sent again with
what it found; a remote timeout marks the node dead and fails the load with sub-status 1, a refusal with sub-status 4. -/
def Obligations.AccessesComplete : Prop :=
  ∀ (s : State) (h tag : Nat) (o : Outstanding),
    (∀ d n signed, h < 2048 → AwaitsLoad s h tag d n signed o → ∀ data, data.length = n →
      (∀ k, s.inq[k]? = some (.reply tag true false data) → o.node ≠ Config.node →
        ∃ t, exec (.remoteReply k) s = .next t ∧ HasLoaded s t h tag d n signed data ∧ t.inq = s.inq.eraseIdx k)
      ∧ (∀ p addrs, s.hostq.filter (fun q => decide (hostTag q = some tag)) = [.read tag p addrs] → addrs.length = n →
        ∃ t, exec (.hostReadCompletion tag true data) s = .next t ∧ HasLoaded s t h tag d n signed data
          ∧ ∀ q ∈ t.hostq, hostTag q ≠ some tag)
      ∧ (∀ ch y ys, ch < 1024 → (s.chan ch).replies = y :: ys → y.id = tag → y.write = false → y.bad = [] → y.answer = none →
        y.pas.map (fun pa => y.data.getD (pa % 64) 0) = data →
        ∃ t, exec (.readReply ch 0) s = .next t ∧ HasLoaded s t h tag d n signed data ∧ (t.chan ch).replies = ys))
    ∧ (∀ ch y ys, ch < 1024 → (s.chan ch).replies = y :: ys → y.id = tag → y.write = true → y.bad = [] → o.who = .handStore h →
      o.tag = tag → s.outs.filter (fun p => p.tag == tag) = [o] → (s.hand h).leaving = false → s.lockstep = false →
      ∃ t, exec (.writeReply ch 0) s = .next t ∧ (t.chan ch).replies = ys ∧ t.mem = s.mem
        ∧ t.hand h = { s.hand h with
            unacked := (s.hand h).unacked.filter (· != tag), dieWrites := (s.hand h).dieWrites.filter (· != tag)
            vunacked := (s.hand h).vunacked.filter (· != tag), vdieWrites := (s.hand h).vdieWrites.filter (· != tag) })
    ∧ (∀ d n signed, AwaitsLoad s h tag d n signed o → o.node ≠ Config.node → (s.hand h).rq = [] → (s.hand h).scalarStoresDone = true →
      Settled (s.hand h) →
      (∀ k, s.inq[k]? = some (.reply tag false false []) →
        ∃ t, exec (.remoteReply k) s = .next t ∧ (t.hand h).st = .parked ∧ (t.hand h).frame.cause = 0x0C ∧ (t.hand h).frame.sub = 4
          ∧ (t.hand h).frame.cls = 1 ∧ (t.hand h).sld = d ∧ (t.hand h).rerr = (s.hand h).rerr + 1 ∧ t.mem = s.mem)
      ∧ (∀ done, (if (s.part o.part).prto = 0 then 200000 else (s.part o.part).prto) ≤ s.coreTick (h / 16) - o.sent → o.node < 2304 →
        ∃ t, exec (.remoteTimeout tag done) s = .next t ∧ (t.hand h).st = .parked ∧ (t.hand h).frame.cause = 0x0C
          ∧ (t.hand h).frame.sub = 1 ∧ (t.part o.part).pdead.getLsbD o.node = true ∧ t.mem = s.mem))
    ∧ (∀ p addrs op v c seen, s.hostq = [.cas tag p addrs op v c seen] → o.tag = tag → s.outs.filter (fun p => p.tag == tag) = [o] →
      (∀ old, old ≠ seen → exec (.hostCasCompletion tag true old) s = .next { s with hostq := [.cas tag p addrs op v c old] })
      ∧ (∀ f, op = .or → o.who = .placer (128 + f.id) → s.farm f.id = some f → f.id < 2 ^ 32 → f.reading = false → AllGone f →
        ∃ t, exec (.hostCasCompletion tag true seen) s = .next t ∧ t.hostq = [] ∧ t.mem = s.mem
          ∧ t.farms = s.farms.filter fun g => g.id != f.id))

/-- R304, R306: a flit that passes its CRC brings its message, one that does not is sent again; a request of another node is performed
where an entry of its source partition's window table covers every byte with the permission and none is frozen: here a read, a write or
an atomic of local DRAM, once its transfers are paid for; of a misaligned one some bytes are, and it arrives again for the rest (R276).
Without one it is refused, violation 0x41 is recorded, both stewards are told and the covering entries freeze; a frozen one refuses it.  That
any covering entry which is frozen refuses, and that all of them freeze, is the model's reading (log 42). -/
def Sys2Proof.Spec.RemoteRequests : Prop :=
  ∀ (s : State),
    (∀ p m, p < 18 → exec (.flitReceive p true m) s = .next { s with
          inq := s.inq ++ [m]
          retries := if tabGet 0 s.retries p = 0 then s.retries else tabSet s.retries p (tabGet 0 s.retries p - 1) }
      ∧ exec (.flitReceive p false m) s = .next { s with retries := tabSet s.retries p (tabGet 0 s.retries p + 1) })
    ∧ ∀ (r : Request) (rest : List FabMsg), s.inq = .request r :: rest → Rising s.windows → r.src % 4096 ≠ Config.node → r.pas ≠ [] →
      (r.op = .readBytes ∨ r.op = .writeBytes → r.cmp = []) →
      let node := r.src % 4096
      let locs : List Loc := r.pas.map fun pa => .dram pa r.nc
      let frozen : Prop := ∃ w ∈ covering s r, w.frozen = true
      let allowed : Prop := ∃ w ∈ covering s r, permits w r.op
      (¬ frozen → allowed → (∀ pa ∈ r.pas, pa < Config.dramSize) → ¬ Paid s (.remote node r.part) locs →
        ∃ t, exec (.remoteRequest 0) s = .next t ∧ t.mem = s.mem ∧ t.inq = s.inq ∧ t.outq = s.outq)
      ∧ (¬ frozen → allowed → (∀ pa ∈ r.pas, pa < Config.dramSize ∧ pa / 32 ∉ s.poison) → Paid s (.remote node r.part) locs →
        (r.op = .read → ∃ t, exec (.remoteRequest 0) s = .next t ∧ t.mem = s.mem ∧ t.inq = rest
          ∧ t.outq = s.outq ++ [answer r true (r.pas.map (memGet s.mem))])
        ∧ (r.op = .write → r.val.length = r.pas.length → ∃ t, exec (.remoteRequest 0) s = .next t ∧ t.mem = putAll s.mem r.pas r.val
          ∧ t.inq = rest ∧ t.outq = s.outq ++ [answer r true []])
        ∧ (r.op = .readBytes → ∃ t, exec (.remoteRequest 0) s = .next t ∧ t.mem = s.mem
          ∧ ((t.inq = rest ∧ t.outq = s.outq ++ [answer r true (r.pas.map (memGet s.mem))])
            ∨ (t.outq = s.outq ∧ ∃ q, t.inq = .request q :: rest ∧ q = { r with cmp := q.cmp, val := q.val } ∧ q.cmp ≠ [])))
        ∧ (r.op = .writeBytes → r.val.length = r.pas.length → ∃ t js, exec (.remoteRequest 0) s = .next t
          ∧ WrittenPart s t r.pas r.val js
          ∧ (js.length = r.pas.length → t.inq = rest ∧ t.outq = s.outq ++ [answer r true []])
          ∧ (js.length < r.pas.length → t.outq = s.outq ∧ ∃ q, t.inq = .request q :: rest ∧ q = { r with cmp := q.cmp } ∧ q.cmp ≠ []))
        ∧ ∀ o, r.op = .amo o → o ≠ .complete → OneDword r.pas r.size r.val → Memory.wf s.mem = true →
          let old := dwordOf s.mem r.pas
          ∃ t, exec (.remoteRequest 0) s = .next t
            ∧ Written s.mem t.mem r.pas (leBytes 8 (amoNew o old (wordOf r.val) (wordOf r.cmp)).toNat)
            ∧ t.inq = rest ∧ t.outq = s.outq ++ [answer r true (leBytes 8 old.toNat)])
      ∧ (frozen → ∃ t, exec (.remoteRequest 0) s = .next t ∧ t.mem = s.mem ∧ t.inq = rest ∧ t.outq = s.outq ++ [answer r false []])
      ∧ (¬ frozen → ¬ allowed →
        ∃ t, exec (.remoteRequest 0) s = .next t ∧ t.mem = s.mem ∧ t.inq = rest
          ∧ t.outq = s.outq ++ [(node, .refusal Config.node r.part), answer r false []] ∧ Report.remoteWindow r.part node ∈ t.reports
          ∧ ((s.part r.part).viol = none → (t.part r.part).viol = some { node := node, id := r.part, kind := 3, code := 0x41
                                                                         detail := BitVec.ofNat 64 (r.pas.headD 0) })
          ∧ ∀ w ∈ covering t r, w.frozen = true)

/-- R25, R285, R310, R347, R355, Table 15.13: the host reads and writes registers through BAR0 once the function's earlier requests have
performed: the launch queues, the physical function all 64, a virtual function its partition's four; the MSI-X table; and, the physical function
alone, the mailbox, the black box and the telemetry.  Where the mailbox and the telemetry lie and what other offsets read are the model's (logs 14,
35), and so are the codes of the resizable BAR's sizes (log 14).  Through BAR2 it reaches device memory, a virtual function at the partition VA `PHWIN` + offset, when its
transfers are paid for; an access that lies past the BAR's size or does not translate, or whose read is poisoned, is not performed and is
logged, a read with Unsupported Request; a misaligned one of several bytes goes byte by byte (R276, log 56), but in lockstep at once (log 2). -/
def Sys2Proof.Spec.HostAccesses : Prop :=
  ∀ (s : State) (v : Word),
    (∀ fn off n wr, fn < 17 → ¬ PostedDone s fn → exec (.hostRequest fn wr off v) s = .next s ∧ exec (.bar2Access fn wr off n v) s = .next s)
    ∧ (∀ fn off, fn < 17 → off % 8 = 0 → PostedDone s fn →
      (∀ q reg, q < 64 → reg < 0x40 → reg % 8 = 0 →
        (fn = 0 ∧ off = 0x100000 + 0x40 * q + reg) ∨ (fn = q / 4 + 1 ∧ off = 0x100000 + 0x40 * (q % 4) + reg) →
        exec (.hostRequest fn false off v) s = .next { s with hostRead := some (queueRead (s.queue q) reg) }
        ∧ (reg = 0x08 → ∃ t, exec (.hostRequest fn true off v) s = .next t ∧ exec (.qctlWrite q v) s = .next t)
        ∧ (reg = 0x10 → PostedDone s (q / 4 + 1) → ∃ t, exec (.hostRequest fn true off v) s = .next t ∧ exec (.qkickWrite .host q v) s = .next t))
      ∧ (0x200000 ≤ off → off < 0x201000 →
        exec (.hostRequest fn false off v) s = .next { s with hostRead := some (tabGet 0 s.msixTab (fn * 2 ^ 24 + off)) }
        ∧ exec (.hostRequest fn true off v) s = .next { s with msixTab := tabSet s.msixTab (fn * 2 ^ 24 + off) v })
      ∧ (fn = 0 → 0x1000 ≤ off → off < 0x2000 →
        exec (.hostRequest fn false off v) s = .next { s with hostRead := some (tabGet 0 s.mailbox ((off - 0x1000) / 8)) }
        ∧ exec (.hostRequest fn true off v) s = .next (s.report (.mailbox off v)))
      ∧ (∀ e, fn = 0 → 0x300000 ≤ off → off < 0x340000 → s.box[(off - 0x300000) / 32]? = some e →
        exec (.hostRequest fn false off v) s = .next { s with hostRead := some (boxWord e (off % 32 / 8)) })
      ∧ (∀ g, fn = 0 → g < 17 →
        (off = 0x90000 + 0x800 * g → exec (.hostRequest fn false off v) s = .next { s with hostRead := some (BitVec.ofNat 64 (s.ctrl g).power) })
        ∧ (off = 0x90008 + 0x800 * g → exec (.hostRequest fn false off v) s = .next { s with hostRead := some (BitVec.ofNat 64 (s.ctrl g).temp) })
        ∧ (off = 0x90010 + 0x800 * g → exec (.hostRequest fn false off v) s = .next { s with hostRead := some (BitVec.ofNat 64 (s.ctrl g).step) }))
      ∧ (0x201000 ≤ off → exec (.hostRequest fn true off v) s = .next s)
      ∧ ∃ w, exec (.hostRequest fn false off v) s = .next { s with hostRead := some w })
    ∧ (∀ off n, n = 1 ∨ n = 2 ∨ n = 4 ∨ n = 8 → PostedDone s 0 →
      (off + n ≤ Config.dramSize → off + n ≤ barSize s 0 → s.lockstep = true ∨ off % n = 0 →
        ((∀ i, i < n → (off + i) / 32 ∉ s.poison) →
          ∃ t, exec (.bar2Access 0 false off n v) s = .next t ∧ t.mem = s.mem ∧ t.hostRead = some (wordOf (memBytes s.mem off n)))
        ∧ ((∃ i, i < n ∧ (off + i) / 32 ∈ s.poison) → exec (.bar2Access 0 false off n v) s = .next (unsupported s false))
        ∧ ∃ t, exec (.bar2Access 0 true off n v) s = .next t ∧ t.mem = memPut s.mem off (leBytes n v.toNat))
      ∧ (Config.dramSize < off + n ∨ barSize s 0 < off + n → ∀ wr, exec (.bar2Access 0 wr off n v) s = .next (unsupported s wr)))
    ∧ (∀ p off n, p < 16 → n = 1 ∨ n = 2 ∨ n = 4 ∨ n = 8 → PostedDone s (p + 1) →
      let va := (s.part p).phwin + BitVec.ofNat 64 off
      let whole := s.lockstep = true ∨ va.toNat % n = 0
      (barSize s (p + 1) < off + n → ∀ wr, exec (.bar2Access (p + 1) wr off n v) s = .next (unsupported s wr))
      ∧ (off + n ≤ barSize s (p + 1) →
        (∀ pas, locateIn s p va n .load = .ok (dramLocs pas) → Paid s (.other p) (dramLocs pas) → DramClean s pas →
          ∃ t, exec (.bar2Access (p + 1) false off n v) s = .next t ∧ t.mem = s.mem
            ∧ (whole → t.hostRead = some (wordOf (pas.map (memGet s.mem))))
            ∧ (¬ whole → t.hostRead = some (wordOf (pas.map (memGet s.mem))) ∨ tabFind t.hostTorn (p + 1) ≠ none))
        ∧ (∀ pas, locateIn s p va n .store = .ok (dramLocs pas) → Paid s (.other p) (dramLocs pas) →
          ∃ t, exec (.bar2Access (p + 1) true off n v) s = .next t
            ∧ (whole → t.mem = putAll s.mem pas (leBytes n v.toNat))
            ∧ (¬ whole → ∃ js, WrittenPart s t pas (leBytes n v.toNat) js ∧ (js.length = n ↔ tabFind t.hostTorn (p + 1) = none)))
        ∧ (∀ wr pas, locateIn s p va n (if wr then .store else .load) = .ok (dramLocs pas) → ¬ Paid s (.other p) (dramLocs pas) →
          ∃ t, exec (.bar2Access (p + 1) wr off n v) s = .next t ∧ t.mem = s.mem ∧ t.hostRead = s.hostRead)
        ∧ ∀ wr c b a, locateIn s p va n (if wr then .store else .load) = .fault c b a →
          exec (.bar2Access (p + 1) wr off n v) s = .next (unsupported s wr)))

/-- R304, R306, R25, R285, R310: what other nodes and the host may do to this device. -/
def Obligations.OutsideAccesses : Prop := Spec.RemoteRequests ∧ Spec.HostAccesses

end Fabric


/-! # Whistles and the calls of a supervisor -/

namespace Sys2Proof.Spec

open Sys2Proof.Machine

/-- The instance of a tree node, new where no input has reached it (R293). -/
def treeInst (s : State) (key e n : Nat) : TreeInst := (s.inst key e n).getD (TreeInst.fresh s key e n)

/-- Room for an input at its tree node (R301): its instance is there, or fewer than 8 are in flight. -/
def HasRoom (s : State) (key e n : Nat) : Prop :=
  (∃ t, s.inst key e n = some t ∧ (t.inputs ≠ [] ∨ t.closed = true))
    ∨ (s.insts.filter fun t => decide (t.group = key ∧ t.entry = e ∧ t.inputs ≠ [] ∧ t.closed = false)).length < 8

/-- Every input folded, in ascending port order (R293). -/
def foldOf (g : Group) : List WInput → WInput
  | [] => { elems := [], bitmap := 0, det := false }
  | x :: xs => xs.foldl (fun a y => { elems := List.zipWith (grpCombine g) a.elems y.elems, bitmap := a.bitmap ||| y.bitmap
                                      det := a.det || y.det }) x

/-- The fold of an instance. -/
def folded (g : Group) (t : TreeInst) : WInput := foldOf g (t.inputs.map Prod.snd)

/-- The messages have been sent to the blocks of their nodes, in order, those for this device into its queue, which held `q`. -/
def SentAll (s t : State) (q : List FabMsg) (ms : List (Nat × FabMsg)) : Prop :=
  t.inq = q ++ (ms.filter fun m => decide (m.1 = Config.node)).map Prod.snd
    ∧ t.outq = s.outq ++ ms.filter fun m => decide (m.1 ≠ Config.node)

/-- The instance stored, and every other as it was; memory, hands and groups stay. -/
def Stored (s t : State) (u : TreeInst) : Prop :=
  t.inst u.group u.entry u.n = some u
    ∧ (∀ key e n, ¬(key = u.group ∧ e = u.entry ∧ n = u.n) → t.inst key e n = s.inst key e n)
    ∧ t.mem = s.mem ∧ t.hands = s.hands ∧ t.groups = s.groups

/-- A root's deliveries: one to every member slot (R296). -/
def deliveries (g : Group) (t : TreeInst) (k : WKind) : List (Nat × FabMsg) :=
  let f := folded g t
  let d : WDelivery := { kind := k, elems := f.elems, bitmap := f.bitmap, late := t.late, malformed := t.malformed }
  (List.range g.members.length).filterMap fun slot => g.members[slot]?.map fun m => (m.node, FabMsg.deliver t.group slot t.n d)

/-- The bitmap holds every member slot. -/
def Complete (g : Group) (b : BitVec 4096) : Prop := ∀ k, k < 4096 → b.getLsbD k = decide (k < g.members.length)

/-- What a forward of instance t does (R293, R295, R296): a node below the root sends its fold to its parent; the root delivers final
where every slot is in, partial the first time otherwise unless an input has det, and nothing on a later incomplete fold. -/
def Forwards (s r : State) (q : List FabMsg) (g : Group) (t : TreeInst) : Prop :=
  let again := t.fwd.isSome
  let u := { t with fwd := some (t.fwd.getD s.tick), last := s.tick }
  let f := folded g t
  (t.entry ≠ 0 → let p := (grpEntry g t.entry).parent
    Stored s r u ∧ SentAll s r q [((grpEntry g p).host, .winput t.group p (grpPort g t.entry) t.n f)])
  ∧ (t.entry = 0 → t.ended = true → Stored s r u ∧ SentAll s r q [])
  ∧ (t.entry = 0 → t.ended = false → Complete g f.bitmap →
    Stored s r { u with late := false, ended := true } ∧ SentAll s r q (deliveries g u .final))
  ∧ (t.entry = 0 → t.ended = false → ¬ Complete g f.bitmap → again = false → f.det = false →
    Stored s r { u with late := false, first := true } ∧ SentAll s r q (deliveries g u .partialRes))
  ∧ (t.entry = 0 → t.ended = false → ¬ Complete g f.bitmap → (again = true ∨ f.det = true) → Stored s r u ∧ SentAll s r q [])

/-- The root of a group has been told of a late or a malformed input: by a message, or at once where it is hosted here. -/
def TellsRoot (s r : State) (q : List FabMsg) (g : Group) (key n : Nat) (malformed : Bool) : Prop :=
  let root := (grpEntry g 0).host
  let t := treeInst s key 0 n
  (root ≠ Config.node → r.insts = s.insts ∧ SentAll s r q [(root, if malformed then .malformed key n else .drop key n)])
  ∧ (root = Config.node → SentAll s r q []
    ∧ Stored s r (if malformed then { t with malformed := true } else { t with late := true }))

/-- The window after its first forward has passed (R295). -/
def Late (s : State) (g : Group) (t : TreeInst) : Prop :=
  t.closed = true ∨ ∃ f, t.fwd = some f ∧ f + grpWindow g t.entry ≤ s.tick

/-- What a node sends counts: it is this device, or a member of the group's partition that is not dead (R300). -/
def Heard (s : State) (g : Group) (node : Nat) : Prop :=
  node = Config.node ∨ ((s.part g.part).pdead.getLsbD node = false ∧ (s.part g.part).pmem.getLsbD node = true)

/-- A group's registered descriptor is well formed as far as the folds need it (R290): at most 4,096 members. -/
def GroupAt (s : State) (key : Nat) (g : Group) : Prop := s.groupOf key = some g ∧ g.members.length ≤ 4096

/-- A block can write n bytes of partition p at a VA that lies in DRAM of this device: the bytes carry no error, and the transfers are
paid for (R298, R224). -/
def BlockPlace (s : State) (p : Nat) (va : Word) (n : Nat) (pas : List Nat) : Prop :=
  locateIn s p va n .store = .ok (dramLocs pas) ∧ pas.length = n ∧ DramClean s pas ∧ Paid s (.other p) (dramLocs pas)

/-- The machine after a block has paid for and made a write. -/
def afterBlock (s : State) (p : Nat) (pas : List Nat) (bytes : List Byte) : State :=
  { (payFor s (.other p) (dramLocs pas)).1 with mem := putAll s.mem pas bytes }

/-- Units of partition p wait for no acknowledgement (R298). -/
def UnitsDone (s : State) (p : Nat) : Prop := ∀ o ∈ s.outs, ¬(o.write = true ∧ o.who = .unit p)

/-- Bytes of an element of a group's type (Table 1.12). -/
def typeBytes (g : Group) : Nat := if g.type_ = 1 then 2 else if g.type_ = 2 ∨ g.type_ = 4 then 8 else 4

/-- The header of a result buffer from 0x008 on (Table 15.4). -/
def resultHeader (g : Group) (slot : Nat) (d : WDelivery) : List Byte :=
  leBytes 8 ((List.range 4096).countP fun k => d.bitmap.getLsbD k)
    ++ leBytes 8 (g.id + slot * 2 ^ 16 + d.elems.length * 2 ^ 32) ++ List.replicate 40 0 ++ leBytes 512 d.bitmap.toNat

/-- The low status bits that a delivery sets (Table 15.4). -/
def resultBits (d : WDelivery) : Nat :=
  (match d.kind with | .partialRes => 1 | .final => 2 | .lost => 4) + (if d.late then 8 else 0) + (if d.malformed then 16 else 0)

/-- The slot buffer of an instance at its member's block. -/
def slotInst (s : State) (key slot n : Nat) : Option SlotInst := s.slots.find? fun q => q.is key slot n

/-- Reeve c stands at its machine-mode handler after an `ecall` from supervisor mode with a7 = n. -/
def Called (s : State) (c n : Nat) : Prop :=
  let r := s.reeve c
  c < 128 ∧ r.mode = .m ∧ r.csrOf 0x342 = 9 ∧ r.rd 17 = BitVec.ofNat 64 n ∧ fld (r.csrOf 0x300) 12 11 = 1 ∧ r.frozen = false
    ∧ r.halted = false ∧ r.debug = false

/-- Argument a0, a1, a2, a3 of a call. -/
def arg (s : State) (c i : Nat) : Word := (s.reeve c).rd (BitVec.ofNat 5 (10 + i))

/-- The call of reeve c has returned to supervisor mode after its `ecall`, with a0 and, if given, a1. -/
def Returned (s t : State) (c a0 : Nat) (a1 : Option Nat) : Prop :=
  let r := t.reeve c
  r.mode = .s ∧ r.pc = (s.reeve c).csrOf 0x341 + 4 ∧ r.rd 10 = BitVec.ofNat 64 a0
    ∧ (∀ n, a1 = some n → r.rd 11 = BitVec.ofNat 64 n) ∧ (∀ q, q ≠ 10 → (q ≠ 11 ∨ a1 = none) → r.rd q = (s.reeve c).rd q)
    ∧ (∀ k ∈ t.calls, k.core ≠ c) ∧ t.hands = s.hands

/-- A cached translation is among those to be removed (R221): it translates a page of the range.  A contiguous leaf translates all 16
pages of its group (R214). -/
def goes (first pages : Nat) (l : Nat × Leaf) : Prop :=
  let v := l.1 % 2 ^ 36
  pages = 0
    ∨ (if l.2.level = 0 ∧ l.2.pte.getLsbD 10 = true then ∃ i, i < 16 ∧ first ≤ v / 16 * 16 + i ∧ v / 16 * 16 + i < first + pages
       else first ≤ v ∧ v < first + pages)

/-- Every hand TLB and reeve TLB of partition p has lost the translations of these pages, and no other (R221). -/
def Removed (s t : State) (c p first pages : Nat) : Prop :=
  (∀ d, d < 128 → ∀ l, l ∈ (t.core d).htlb ↔ l ∈ (s.core d).htlb ∧ ¬(l.1 / 2 ^ 36 = p ∧ goes first pages l))
    ∧ (∀ d l, l ∈ (t.reeve d).tlb ↔ l ∈ (s.reeve d).tlb ∧ ¬((s.reeve d).part = p ∧ goes first pages l))
    ∧ (∀ d, d ≠ c → (t.reeve d).x = (s.reeve d).x ∧ (t.reeve d).pc = (s.reeve d).pc) ∧ t.mem = s.mem

/-- Nothing of partition p is under way on this device (R222). -/
def QuietPart (s : State) (p : Nat) : Prop :=
  (∀ q ∈ s.hands, q.2.part = p → q.2.st ≠ .frozen →
    q.2.sb = [] ∧ q.2.unacked = [] ∧ q.2.dieWrites = [] ∧ q.2.vunacked = [] ∧ q.2.vdieWrites = [] ∧ q.2.underWay = false
      ∧ ∀ k ∈ q.2.copies, k.2.flight = [])
  ∧ (∀ q ∈ s.reeves, q.2.part = p → q.2.out = none ∧ q.2.unacked = [] ∧ q.2.dieWrites = []) ∧ ∀ o ∈ s.outs, o.part ≠ p

/-- The live members of a partition but this device (R221, R308). -/
def others (s : State) (p : Nat) : List Nat :=
  (List.range 2304).filter fun n => decide (n ≠ Config.node) && ((s.part p).pmem.getLsbD n && !(s.part p).pdead.getLsbD n)

/-- The remote timeout of a partition (R308, Table 15.11): 0 stands for the default. -/
def timeoutOf (s : State) (p : Nat) : Nat := if (s.part p).prto = 0 then Config.remoteTicks else (s.part p).prto

/-- The call of reeve c that the steward serves has had every answer it waits for (R221, R289). -/
def Answered (s : State) (c : Nat) (k : Call) : Prop := (s.calls.find? fun q => q.core == c) = some k ∧ k.waiting = []

/-- The records `first` to `first + n - 1` of a partition stand in its manifest ring (R343, R345, Table 20.1). -/
def InRing (s : State) (p first n : Nat) : Prop :=
  let x := s.part p
  let lsize := x.manb.toNat % 32
  1 ≤ lsize ∧ lsize ≤ 16 ∧ x.next.toNat ≤ first + 2 ^ lsize ∧ first + n ≤ x.next.toNat

/-- A descriptor, as its header, members and tree were read, is good (R290, Tables 1.12, 15.2, 15.3). -/
def GoodGroup (s : State) (p : Nat) (hd ms ts : List Word) : Prop :=
  let w := hd.getD 0 0
  let levels := fld w 11 8
  let n := ts.length / 2
  let level (e : Nat) : Nat := fld (ts.getD (2 * e) 0) 31 24
  let parent (e : Nat) : Nat := fld (ts.getD (2 * e) 0) 47 32
  let alive (m : Nat) : Prop := (s.part p).pmem.getLsbD m = true ∧ (s.part p).pdead.getLsbD m = false
  fld w 15 12 = 0 ∧ fld w 7 7 = 0 ∧ fld w 3 2 = 0 ∧ hd.getD 7 0 = 0
    ∧ fld w 1 0 ≤ 2 ∧ fld w 6 4 ≤ 4 ∧ 1 ≤ levels ∧ levels ≤ 8 ∧ 1 ≤ ms.length ∧ ms.length ≤ 4096 ∧ n ≤ 4096
    ∧ (∀ l, l < 8 → (fld (hd.getD (1 + l / 2) 0) (32 * (l % 2) + 31) (32 * (l % 2)) ≠ 0 ↔ l < levels))
    ∧ (∀ m ∈ ms, fld m 63 32 = 0 ∧ fld m 15 12 = 0 ∧ alive (fld m 11 0))
    ∧ parent 0 = 0xFFFF
    ∧ ∀ e, e < n → fld (ts.getD (2 * e) 0) 63 48 = 0 ∧ fld (ts.getD (2 * e) 0) 15 12 = 0 ∧ ts.getD (2 * e + 1) 0 = 0
      ∧ alive (fld (ts.getD (2 * e) 0) 11 0) ∧ level e < levels
      ∧ (e ≠ 0 → parent e < n ∧ level e < level (parent e))
      ∧ 1 ≤ fld (ts.getD (2 * e) 0) 23 16
      ∧ fld (ts.getD (2 * e) 0) 23 16 = (ms.filter fun m => decide (fld m 31 16 = e)).length
        + ((List.range n).filter fun d => decide (parent d = e)).length

end Sys2Proof.Spec

section Whistles

open Sys2Proof Sys2Proof.Machine Sys2Proof.Spec

/-- R292 to R296, R299, R301: a block takes the k-th message of its queue, an input of a tree node, when the node has room for its
instance: it is put at its port, and forwarded with the others once every port holds one, or again where the node has forwarded
already; an input after the window, or with another element count, goes to the root as a notice and to no port.  What a dead node sends
is dropped (R300), and an input waits behind an earlier one to its port.  INSTANCE_ACCEPT takes the first input for which there is room.
The folds of the whole-number types.  That an input waits behind an earlier one to its port, and that a device never counts itself dead,
is log 55's (DEDUCED); that the window runs from the first forward, log 43's (DEDUCED). -/
def Sys2Proof.Spec.WhistleInputs : Prop :=
  ∀ (s : State) (i : Instr) (k key e port n : Nat) (x : WInput) (g : Group), s.inq[k]? = some (.winput key e port n x) →
    GroupAt s key g →
    (i = .whistleInput k
      ∨ (i = .instanceAccept key e ∧ HasRoom s key e n
        ∧ ∀ j, j < k → ∀ p m y, s.inq[j]? = some (.winput key e p m y) → ¬ HasRoom s key e m)) →
    let t := treeInst s key e n
    let q := s.inq.eraseIdx k
    let u := { t with inputs := tabSet t.inputs port x, started := if t.inputs = [] then s.tick else t.started }
    let sameCount : Prop := ∀ p ps, t.inputs = p :: ps → p.2.elems.length = x.elems.length
    let earlier : Prop := ∃ j y, j < k ∧ s.inq[j]? = some (.winput key e port n y)
    let taken : Prop := Heard s g (portNode g e port) ∧ HasRoom s key e n ∧ ¬ earlier
    (¬ Heard s g (portNode g e port) → exec i s = .next { s with inq := q })
    ∧ (Heard s g (portNode g e port) → (¬ HasRoom s key e n ∨ earlier) → i = .whistleInput k → exec i s = .next s)
    ∧ (taken → Late s g t → ∃ r, exec i s = .next r ∧ TellsRoot s r q g key n false)
    ∧ (taken → ¬ Late s g t → ¬ sameCount → ∃ r, exec i s = .next r ∧ TellsRoot s r q g key n true)
    ∧ (taken → ¬ Late s g t → sameCount → t.fwd = none → u.inputs.length ≠ (grpEntry g e).children →
      ∃ r, exec i s = .next r ∧ Stored s r u ∧ SentAll s r q [])
    ∧ (taken → ¬ Late s g t → sameCount → (t.fwd.isSome = true ∨ u.inputs.length = (grpEntry g e).children) →
      ∃ r, exec i s = .next r ∧ Forwards s r q g u)
    ∧ (g.op = 0 → ∀ a b : Word, (g.type_ = 4 → grpCombine g a b = a + b)
      ∧ (g.type_ = 3 → grpCombine g a b = (a + b) &&& 0xFFFFFFFF#64))

/-- R293, R295, R296, R299, R301: WHISTLE_BLOW forwards what a node holds once its budget has passed, but never with an infinite
budget or a det input; RETENTION_EXPIRY ends an instance of the root whose partial has gone out as lost once the window has passed,
and forgets the inputs once it has passed after the last forward; DROP_NOTICE notes a late or malformed input at the root.  The window is
counted from the first forward (log 43, DEDUCED). -/
def Sys2Proof.Spec.WhistleTimes : Prop :=
  ∀ (s : State) (key e n : Nat) (g : Group) (t : TreeInst), GroupAt s key g → s.inst key e n = some t →
    let lastPassed : Prop := t.last + grpWindow g e ≤ s.tick
    (t.inputs ≠ [] → t.closed = false → t.fwd = none → (folded g t).det = false → grpBudget g e ≠ 0xFFFFFFFF →
        t.started + grpBudget g e ≤ s.tick → ∃ r, exec (.whistleBlow key e n) s = .next r ∧ Forwards s r s.inq g t)
    ∧ (t.inputs = [] ∨ t.closed = true ∨ t.fwd.isSome = true ∨ (folded g t).det = true ∨ grpBudget g e = 0xFFFFFFFF
        ∨ s.tick < t.started + grpBudget g e → exec (.whistleBlow key e n) s = .next s)
    ∧ (t.fwd = none → exec (.retentionExpiry key e n) s = .next s)
    ∧ (∀ f, t.fwd = some f → f ≤ t.last → s.tick < f + grpWindow g e → exec (.retentionExpiry key e n) s = .next s)
    ∧ (∀ f, t.fwd = some f → f + grpWindow g e ≤ s.tick → e = 0 → t.first = true → t.ended = false →
      let u := { t with late := false, ended := true }
      (lastPassed → ∃ r, exec (.retentionExpiry key e n) s = .next r ∧ Stored s r { u with closed := true, inputs := [] }
        ∧ SentAll s r s.inq (deliveries g t .lost))
      ∧ (¬ lastPassed → ∃ r, exec (.retentionExpiry key e n) s = .next r ∧ Stored s r u
        ∧ SentAll s r s.inq (deliveries g t .lost)))
    ∧ (∀ f, t.fwd = some f → (e ≠ 0 ∨ t.first = false ∨ t.ended = true) → lastPassed →
      ∃ r, exec (.retentionExpiry key e n) s = .next r ∧ Stored s r { t with closed := true, inputs := [] } ∧ SentAll s r s.inq [])
    ∧ (∀ k m (malformed : Bool), s.inq[k]? = some (if malformed then .malformed key m else .drop key m) →
      let u := treeInst s key 0 m
      ∃ r, exec (.dropNotice k) s = .next r ∧ SentAll s r (s.inq.eraseIdx k) []
        ∧ Stored s r (if malformed then { u with malformed := true } else { u with late := true }))

/-- R292 to R296, R299, R301: a tree node takes, folds and forwards inputs, blows and forgets. -/
def Obligations.WhistleTree : Prop := Spec.WhistleInputs ∧ Spec.WhistleTimes

/-- R297, R298, R217, R300: a delivery that reaches a member's block is kept while its `wred` has not come or a page of the buffer migrates,
and otherwise writes the data, then the header, then the status word into the buffer, here in DRAM; one that cannot be written is dropped
with event 0x0E, and one from a root whose host is dead is not taken.  A delivery waits behind an earlier one to its buffer, and a device
never counts itself a dead root host (log 55, DEDUCED).  The block forgets the instance once the root's window has passed after final or
lost. -/
def Obligations.DeliveriesArrive : Prop :=
  ∀ (s : State) (k key slot n : Nat) (d : WDelivery) (g : Group), s.inq[k]? = some (.deliver key slot n d) → GroupAt s key g →
    g.type_ ≤ 4 →
    let old := slotInst s key slot n
    let rest := s.inq.eraseIdx k
    let earlier : Prop := ∃ j y, j < k ∧ s.inq[j]? = some (.deliver key slot n y)
    let heard : Prop := Heard s g (grpEntry g 0).host
    let noted (q : SlotInst) : SlotInst := { q with ended := if d.kind = .partialRes then q.ended else some s.tick }
    let data := d.elems.flatMap fun v => leBytes (typeBytes g) v.toNat
    (¬ heard → exec (.delivery k) s = .next { s with inq := rest })
    ∧ (heard → earlier → exec (.delivery k) s = .next s)
    ∧ (heard → ¬ earlier → ∀ q, (old = some q ∧ q.buf = none) ∨ (old = none ∧ q = SlotInst.fresh key slot n) →
      ∃ r, exec (.delivery k) s = .next r ∧ r.mem = s.mem ∧ r.hands = s.hands ∧ r.inq = rest
        ∧ slotInst r key slot n = some { noted q with kept := q.kept ++ [d] })
    ∧ (heard → ¬ earlier → ∀ q va, old = some q → q.buf = some va → q.kept = [] → q.stage = 0 →
      (∀ dpas hpas spas, UnitsDone s g.part →
        let s1 := afterBlock s g.part dpas data
        let s2 := afterBlock s1 g.part hpas (resultHeader g slot d)
        let status := q.status ||| resultBits d
        BlockPlace s g.part (va + 0x240) data.length dpas → BlockPlace s1 g.part (va + 8) 568 hpas → BlockPlace s2 g.part va 8 spas →
        ∃ r, exec (.delivery k) s = .next r ∧ r.hands = s.hands ∧ r.inq = rest ∧ r.box = s.box
          ∧ r.mem = putAll s2.mem spas (leBytes 8 (n % 2 ^ 32 * 2 ^ 32 + status))
          ∧ slotInst r key slot n = some { noted q with kept := [], stage := 0, status := status, heldAt := none })
      ∧ (∀ c b a, d.elems ≠ [] → locateIn s g.part (va + 0x240) data.length .store = .fault c b a →
        ∃ r, exec (.delivery k) s = .next r ∧ r.mem = s.mem ∧ r.hands = s.hands
          ∧ ∃ x, r.box.getLast? = some x ∧ x.event = 0x0E ∧ x.source = g.id ∧ x.sub = slot ∧ x.part = g.part)
      ∧ ∀ a, d.elems ≠ [] → q.heldAt = none → locateIn s g.part (va + 0x240) data.length .store = .hold a →
        ∃ r, exec (.delivery k) s = .next r ∧ r.mem = s.mem ∧ r.hands = s.hands ∧ r.inq = rest
          ∧ slotInst r key slot n = some { noted q with kept := [d], heldAt := some s.tick })
    ∧ (∀ q f, old = some q → q.ended = some f →
      (f + grpWindow g 0 ≤ s.tick → q.kept = [] ∨ q.buf = none → ∃ r, exec (.deliveryKeepExpiry key slot n) s = .next r
        ∧ slotInst r key slot n = some { q with kept := [], buf := none } ∧ r.mem = s.mem ∧ r.hands = s.hands)
      ∧ (s.tick < f + grpWindow g 0 ∨ (q.kept ≠ [] ∧ q.buf ≠ none) → exec (.deliveryKeepExpiry key slot n) s = .next s))

/-- R221, R222, R308: an invalidation with a misaligned address or a2 not 0 returns 1 and does nothing; a good one removes the
translations on this device and asks every live member; it returns 0 when all have answered and every old access has performed;
members silent for the remote timeout are marked dead, and it returns 2 with their number.  That the steward serves the call while
the reeve stands at its machine-mode handler, and that an address at or above 2^48 is no bad one, is the model's choice (log 15). -/
def Obligations.Invalidations : Prop :=
  ∀ (s : State) (c : Nat), Called s c 0x100 →
    let p := (s.reeve c).part
    let first := (arg s c 0).toNat / 4096
    let pages := (arg s c 1).toNat
    ((∀ k ∈ s.calls, k.core ≠ c) →
      ((arg s c 0).toNat % 4096 ≠ 0 ∨ arg s c 2 ≠ 0 →
        ∃ t, exec (.domainInvalidate c) s = .next t ∧ Returned s t c 1 (some 0) ∧ t.mem = s.mem ∧ t.cores = s.cores)
      ∧ ((arg s c 0).toNat % 4096 = 0 → arg s c 2 = 0 → others s p = [] → QuietPart s p →
        ∃ t, exec (.domainInvalidate c) s = .next t ∧ Returned s t c 0 (some 0) ∧ Removed s t c p first pages)
      ∧ ((arg s c 0).toNat % 4096 = 0 → arg s c 2 = 0 → others s p ≠ [] →
        ∃ t k, exec (.domainInvalidate c) s = .next t ∧ Removed s t c p first pages ∧ (t.reeve c).pc = (s.reeve c).pc
          ∧ t.calls = s.calls ++ [k] ∧ k.core = c ∧ k.part = p ∧ k.waiting = others s p ∧ k.sent = s.tick
          ∧ t.outq = s.outq ++ (others s p).map fun n => (n, .invalidate Config.node k.tag p first pages)))
    ∧ (∀ k a b, Answered s c k → k.kind = .invalidate a b → QuietPart s k.part →
      ∃ t, exec (.domainInvalidate c) s = .next t ∧ Returned s t c (if k.dead = 0 then 0 else 2) (some k.dead) ∧ t.mem = s.mem)
    ∧ (∀ k a b, (s.calls.find? fun q => q.core == c) = some k → k.kind = .invalidate a b → k.waiting ≠ [] →
      k.waiting.length ≤ 2304 →
      (s.tick - k.sent < timeoutOf s k.part → exec (.invalidateAckTimeout c) s = .next s)
      ∧ (timeoutOf s k.part ≤ s.tick - k.sent → QuietPart s k.part →
        ∃ t, exec (.invalidateAckTimeout c) s = .next t ∧ t.mem = s.mem
          ∧ Returned s t c 2 (some (k.dead + k.waiting.length))
          ∧ (∀ n, n < 2304 → (t.part k.part).pdead.getLsbD n = ((s.part k.part).pdead.getLsbD n || k.waiting.contains n))
          ∧ ∀ n ∈ k.waiting, ∃ x ∈ t.box, x.event = 0x06 ∧ x.detail = n))

/-- R289, R290, R359: the outcomes of a create call, in the order 4, 1, 2, 3: a descriptor that cannot be read, a bad one, a group id
in use, no room; a good one is registered with its counters at 0, and takes contributions once every other live member of the partition has
its copy and has opened it.  Where this device has no room the others are asked all the same, since a group id in use there is the outcome
before 3; a refusal is the call's outcome once those that took the copy have dropped it.  A destroy call of an unknown group gives 2; a
group leaves this block where it is the only live member, and otherwise takes no more contributions while the others are asked.  A
descriptor that lies on another node or in the host window is read from there first, and its transfers here are paid for (R223).  That
the call is served while the reeve stands at its machine-mode handler, and that arguments outside their ranges give 1, is the model's
choice (log 15); the rounds among the members, and that every live member keeps a copy, are log 55's (DEDUCED). -/
def Obligations.GroupCalls : Prop :=
  ∀ (s : State) (c : Nat),
    let p := (s.reeve c).part
    let id := (arg s c 1).toNat
    let none_ : Prop := ∀ k ∈ s.calls, k.core ≠ c
    let Asks (k : Call) (g : Group) (t : State) : Prop := k.core = c ∧ k.kind = .create g ∧ k.waiting = others s p
      ∧ t.outq = s.outq ++ (others s p).map fun n => (n, .groupCopy Config.node k.tag g)
    (Called s c 0x101 → none_ →
      (readGroup s c p (arg s c 0) = .error none →
        ∃ t, exec (.groupCreate c) s = .next t ∧ Returned s t c 4 none ∧ t.groups = s.groups ∧ t.mem = s.mem)
      ∧ (∀ a, readGroup s c p (arg s c 0) = .error (some a) →
        ∃ t, exec (.groupCreate c) s = .next t ∧ t.reeve c = s.reeve c ∧ t.groups = s.groups ∧ t.mem = s.mem)
      ∧ (∀ hd ms ts, readGroup s c p (arg s c 0) = .ok (hd, ms, ts) → Paid s (.other p) (groupPlaces s p (arg s c 0) (hd, ms, ts)) →
        let g := groupFrom id p (hd, ms, ts)
        let good : Prop := GoodGroup s p hd ms ts ∧ (arg s c 0).toNat % 8 = 0 ∧ id < 65536
        let used : Prop := ∃ h ∈ s.groups, h.part = p ∧ h.id = id
        (¬ good → ∃ t, exec (.groupCreate c) s = .next t ∧ Returned s t c 1 none ∧ t.groups = s.groups ∧ t.mem = s.mem)
        ∧ (good → used → ∃ t, exec (.groupCreate c) s = .next t ∧ Returned s t c 2 none ∧ t.groups = s.groups ∧ t.mem = s.mem)
        ∧ (good → ¬ used → groupRoom s g = false → others s p = [] →
          ∃ t, exec (.groupCreate c) s = .next t ∧ Returned s t c 3 none ∧ t.groups = s.groups ∧ t.mem = s.mem)
        ∧ (good → ¬ used → groupRoom s g = false → others s p ≠ [] → ∃ t k, exec (.groupCreate c) s = .next t ∧ t.groups = s.groups
          ∧ t.mem = s.mem ∧ (t.reeve c).pc = (s.reeve c).pc ∧ t.calls = s.calls ++ [k] ∧ k.code = 3 ∧ k.insts = [] ∧ Asks k g t)
        ∧ (good → ¬ used → groupRoom s g = true → others s p = [] →
          ∃ t, exec (.groupCreate c) s = .next t ∧ Returned s t c 0 none ∧ t.groups = s.groups ++ [g] ∧ t.mem = s.mem
            ∧ groupKey p id ∉ t.barred ∧ ∀ slot, slot < 4096 → tabGet 0 t.counters (counterKey (groupKey p id) slot) = 0)
        ∧ (good → ¬ used → groupRoom s g = true → others s p ≠ [] →
          ∃ t k, exec (.groupCreate c) s = .next t ∧ t.groups = s.groups ++ [g] ∧ groupKey p id ∈ t.barred ∧ t.mem = s.mem
            ∧ (t.reeve c).pc = (s.reeve c).pc ∧ t.calls = s.calls ++ [k] ∧ k.code = 0 ∧ k.insts = [Config.node] ∧ Asks k g t)))
    ∧ (Called s c 0x101 → ∀ k g, Answered s c k → k.kind = .create g →
      (k.round = 0 → k.code = 0 → others s k.part ≠ [] →
        ∃ t, exec (.groupCreate c) s = .next t ∧ t.groups = s.groups ∧ t.reeve c = s.reeve c
          ∧ t.outq = s.outq ++ (others s k.part).map fun n => (n, .groupOpen Config.node k.tag g.part g.id))
      ∧ (k.round = 0 → k.code ≠ 0 →
        let took := k.insts.filter fun n => decide (n ∈ others s k.part)
        took ≠ [] → ∃ t, exec (.groupCreate c) s = .next t ∧ t.reeve c = s.reeve c
          ∧ t.outq = s.outq ++ took.map (fun n => (n, .groupDrop Config.node k.tag g.part g.id))
          ∧ t.groups = if Config.node ∈ k.insts then s.groups.filter (fun h => decide (groupKey h.part h.id ≠ groupKey g.part g.id))
              else s.groups)
      ∧ (k.round = 1 → ∃ t, exec (.groupCreate c) s = .next t ∧ Returned s t c 0 none ∧ t.groups = s.groups
          ∧ groupKey g.part g.id ∉ t.barred)
      ∧ (k.round = 2 → ∃ t, exec (.groupCreate c) s = .next t ∧ Returned s t c k.code none ∧ t.groups = s.groups))
    ∧ (Called s c 0x102 → none_ →
      ((∀ h ∈ s.groups, ¬(h.part = p ∧ h.id = id)) ∨ groupKey p id ∈ s.barred →
        ∃ t, exec (.groupDestroy c) s = .next t ∧ Returned s t c 2 none ∧ t.groups = s.groups ∧ t.mem = s.mem)
      ∧ (∀ g, s.group p id = some g → groupKey p id ∉ s.barred → others s p = [] → s.inq = [] → s.insts = [] → s.slots = [] →
        (∀ q ∈ s.hands, q.2.rq = []) →
        ∃ t, exec (.groupDestroy c) s = .next t ∧ Returned s t c 0 none ∧ t.mem = s.mem
          ∧ t.groups = s.groups.filter fun h => decide (groupKey h.part h.id ≠ groupKey p id))
      ∧ (∀ g, s.group p id = some g → groupKey p id ∉ s.barred → others s p ≠ [] →
        ∃ t k, exec (.groupDestroy c) s = .next t ∧ t.groups = s.groups ∧ groupKey p id ∈ t.barred ∧ t.reeve c = s.reeve c
          ∧ t.calls = s.calls ++ [k] ∧ k.core = c ∧ k.kind = .destroy g ∧ k.waiting = others s p
          ∧ t.outq = s.outq ++ (others s p).map fun n => (n, .groupEnd Config.node k.tag p id)))

/-- R345, R346: an attestation call with a nonce that cannot be read, a record count that is not 1 to 256 or a bad output address
gives 1; a record no longer in the ring 2; an exhausted key 3; otherwise the signature of nonce, node and records under the next
one-time index is written, here into DRAM and paid for (R223), and the index counts on.  A nonce that lies elsewhere is read from there
first, and a call whose signature is still being written elsewhere returns once every write of it has ended.  That the call is served
while the reeve stands at its machine-mode handler and returns as `mret` does is the model's choice (log 15); the signature is the
standard's, under a key that is a free value, and a write of it that fails gives 1 (log 17). -/
def Obligations.Attestations : Prop :=
  ∀ (s : State) (c : Nat), Called s c 0x103 →
    (∀ k, (s.calls.find? fun q => q.core == c) = some k →
      ((∃ o ∈ s.outs, o.tag ∈ k.insts) → exec (.attestation c) s = .next s)
      ∧ ((∀ o ∈ s.outs, o.tag ∉ k.insts) → ∃ t, exec (.attestation c) s = .next t ∧ Returned s t c k.code none ∧ t.mem = s.mem))
    ∧ ((∀ k ∈ s.calls, k.core ≠ c) →
    let p := (s.reeve c).part
    let n := (arg s c 2).toNat
    let first := (arg s c 1).toNat
    let out := arg s c 3
    let same (t : State) : Prop := t.mem = s.mem ∧ t.xmss = s.xmss
    (readArea s c p (arg s c 0) 32 = .error none → ∃ t, exec (.attestation c) s = .next t ∧ Returned s t c 1 none ∧ same t)
    ∧ (∀ a, readArea s c p (arg s c 0) 32 = .error (some a) → ∃ t, exec (.attestation c) s = .next t ∧ t.reeve c = s.reeve c ∧ same t)
    ∧ (∀ nonce, readArea s c p (arg s c 0) 32 = .ok nonce →
      (∀ x b a, locateIn s p out 2820 .store = .fault x b a → ∃ t, exec (.attestation c) s = .next t ∧ Returned s t c 1 none ∧ same t)
      ∧ (∀ ls, locateIn s p out 2820 .store = .ok ls → n < 1 ∨ 256 < n ∨ out.toNat % 8 ≠ 0 →
        ∃ t, exec (.attestation c) s = .next t ∧ Returned s t c 1 none ∧ same t)
      ∧ (∀ pas, locateIn s p out 2820 .store = .ok (dramLocs pas) → 1 ≤ n → n ≤ 256 → out.toNat % 8 = 0 →
        (¬ InRing s p first n ∨ manifestRecords s c p first n = .error none →
          ∃ t, exec (.attestation c) s = .next t ∧ Returned s t c 2 none ∧ same t)
        ∧ (∀ recs, InRing s p first n → manifestRecords s c p first n = .ok recs →
          (2 ^ 20 ≤ s.xmss → ∃ t, exec (.attestation c) s = .next t ∧ Returned s t c 3 none ∧ same t)
          ∧ (s.xmss < 2 ^ 20 → (∀ o ∈ s.outs, o.tag < s.nextTag) → Paid s (.other p) (attestPlaces s p (arg s c 0) first n ++ dramLocs pas) →
            ∃ t, exec (.attestation c) s = .next t ∧ Returned s t c 0 none ∧ t.xmss = s.xmss + 1
            ∧ t.mem = putAll s.mem pas ((List.range 2820).map fun i =>
                (xmssSign s.xmss (nonce ++ leBytes 8 Config.node ++ recs)).getD i 0))))))

end Whistles


/-! # Operating the device -/

namespace Sys2Proof.Spec

open Sys2Proof.Machine

/-- The error of a controller in 1/16 W: its budget, 30 W in fallback, less the power measured (R349, R351). -/
def ctrlError (c : Ctrl) (power : Nat) : Int := (if c.fallback then 480 else (c.gpwr : Int)) - power
/-- The sum that the controller keeps, within ±4,096 W. -/
def ctrlSum (c : Ctrl) (power : Nat) : Int := max (-65536) (min 65536 (c.acc + ctrlError c power))
/-- u in 1/4096 of a step: gains are 8.8 fixed point and errors 1/16 W (Table 20.4a). -/
def ctrlOut (c : Ctrl) (power : Nat) : Int := (c.kp : Int) * ctrlError c power + (c.ki : Int) * ctrlSum c power
/-- The highest step that a controller may choose (R351). -/
def ctrlTop (c : Ctrl) : Nat := if c.fallback then min c.top 4 else c.top

/-- The last entry of the black box, with the tick of the block that wrote it (R5, Table 20.3). -/
def LastEvent (t : State) (tick event source detail : Nat) : Prop :=
  ∃ b, t.box.getLast? = some b ∧ b.event = event ∧ b.source = source ∧ b.detail = detail ∧ b.part = 15 ∧ b.tick = tick

/-- A list holds what another holds, and some numbers more. -/
def Gained (l m new : List Nat) : Prop := ∀ j, j ∈ m ↔ j ∈ l ∨ j ∈ new

/-- The numbers of the 32 bytes of a unit. -/
def unitOf (k : Nat) : List Nat := (List.range 32).map fun j => 32 * k + j

/-- The boot has come to the point where reeve c runs (Table 20.5): the mask ROM's steward core from stage 1 on, the other stewards once
stage 2 is over, a core's reeve once stage 3 is; no stage has failed (log 24). -/
def ReeveUp (s : State) (c : Nat) : Prop := s.bootHalt = none ∧ (if c = 128 then 1 else if 128 < c then 3 else 4) ≤ s.boot

/-- Whose time the oscillator of core c counts: the access, the block, the elements, the copies and the stores of its hands, and those of
its reeve (R5). -/
def countsOn (c : Nat) (w : Waiter) : Prop :=
  w = .reeve c ∨ w = .reeveStore c
    ∨ ∃ k, k < 16 ∧ let h := c * 16 + k
      (w = .handAccess h ∨ w = .handNext h ∨ w = .handEntry h ∨ w = .handCopy h ∨ w = .handStore h ∨ w = .handEnd h)

/-- A hand without the holds of pages under way: what is still held is held anew, on the oscillator of its new core (R5, R217, R328; log 23). -/
def heldAnew (x : Hand) : Hand :=
  { x with
    migHold := none
    rq := x.rq.map fun e => if e.fault = none then { e with heldAt := [] } else e
    copies := x.copies.map fun p => if p.2.fault = none then (p.1, { p.2 with heldAt := [] }) else p }

/-- Hands, reeves, cores and memory are as they were. -/
def SameWork (s t : State) : Prop := t.hands = s.hands ∧ t.reeves = s.reeves ∧ t.cores = s.cores ∧ t.mem = s.mem ∧ t.farms = s.farms

/-- A reeve in debug mode (log 25): dpc and dcsr record its program counter, its mode and the cause. -/
def debugged (x : Reeve) (cause : Nat) : Reeve :=
  let mode := match x.mode with
    | .u => 0
    | .s => 1
    | .m => 3
  { x.setCsr 0x7B0 ((x.csrOf 0x7B0 &&& 0xB004#64) ||| BitVec.ofNat 64 (64 * cause + mode)) with
    debug := true, dpc := x.pc, due := .none, wfi := false, kwaiting := false, migHold := none, dbuf := none, ibuf := none
    framing := false }

end Sys2Proof.Spec

section Operation

open Sys2Proof Sys2Proof.Machine Sys2Proof.Spec

/-- R349, R350, R351: a controller's update moves its point one step up where u ≥ 1, down where u ≤ −1, within `GLIM` and, in fallback,
at most step 4; a hot group goes down a step; throttle, fallback, clamp and shutdown as Table 20.4 says.  The measured power and
temperature are operands of the steps (log 22); that a hot group goes below the bottom of `GLIM` is log 44's (DEDUCED), and what the events
0x07, 0x08 and 0x09 name as source and detail log 54's (DESIGN CHOICE). -/
def Obligations.ControllersAct : Prop :=
  ∀ (s : State) (g : Nat), g < 17 →
    let c := s.ctrl g
    (∀ power, ∃ t x, exec (.controllerUpdate g power) s = .next t ∧ t = s.setCtrl g x
      ∧ x = { c with acc := ctrlSum c power, power := power, step := x.step }
      ∧ (c.hot = true → x.step = c.step - 1)
      ∧ (c.hot = false → c.bottom ≤ ctrlTop c →
        (4096 ≤ ctrlOut c power → c.bottom ≤ c.step + 1 → c.step + 1 ≤ ctrlTop c → x.step = c.step + 1)
        ∧ (ctrlOut c power ≤ -4096 → c.bottom ≤ c.step - 1 → c.step - 1 ≤ ctrlTop c → x.step = c.step - 1)
        ∧ (-4096 < ctrlOut c power → ctrlOut c power < 4096 → c.bottom ≤ c.step → c.step ≤ ctrlTop c → x.step = c.step)
        ∧ c.bottom ≤ x.step ∧ x.step ≤ ctrlTop c))
    ∧ (∀ temp, (100 ≤ temp → ∃ t, exec (.thermalThrottle g temp) s = .next t ∧ t.ctrl g = { c with hot := true, temp := temp } ∧ SameWork s t
          ∧ (c.hot = false → LastEvent t (s.groupTick g) 0x07 g temp))
        ∧ (temp < 95 → exec (.thermalThrottle g temp) s = .next (s.setCtrl g { c with hot := false, temp := temp }))
        ∧ (95 ≤ temp → temp < 100 → exec (.thermalThrottle g temp) s = .next (s.setCtrl g { c with temp := temp }))
        ∧ (110 ≤ temp → ∃ t, exec (.thermalShutdown temp) s = .next t ∧ t.shutdown = true ∧ SameWork s t
          ∧ t.reports = s.reports ++ [.fatalThermal])
        ∧ (temp < 110 → exec (.thermalShutdown temp) s = .next s))
    ∧ (c.fallback = false → c.beat + 100000 ≤ s.groupTick g →
      ∃ t, exec (.fallbackEntry g) s = .next t ∧ t.ctrl g = { c with fallback := true, step := min c.step 4 } ∧ SameWork s t
        ∧ LastEvent t (s.groupTick g) 0x09 g g)
    ∧ (c.fallback = true ∨ s.groupTick g < c.beat + 100000 → exec (.fallbackEntry g) s = .next s)
    ∧ (∀ watts, (s.clamp = none → 1400 < watts →
          ∃ t, exec (.powerClamp watts) s = .next t ∧ t.clamp = some s.tick ∧ SameWork s t ∧ LastEvent t s.tick 0x08 0 watts)
        ∧ (s.clamp = none → watts ≤ 1400 → exec (.powerClamp watts) s = .next s)
        ∧ (s.clamp ≠ none → 1300 ≤ watts → exec (.powerClamp watts) s = .next { s with clamp := some s.tick })
        ∧ (s.clamp ≠ none → watts < 1300 → exec (.powerClamp watts) s = .next s))
    ∧ (∀ since, s.clamp = some since →
      (since + 1000 ≤ s.tick → exec .powerClampRelease s = .next { s with clamp := none })
      ∧ (s.tick < since + 1000 → exec .powerClampRelease s = .next s))

/-- R352, R353, R354, R274: the refresh factor of a stack by its temperature; a scrub changes no value, and an uncorrectable unit of
DRAM, of a scratchpad, of an accumulator store, of a hand's vector registers or B latch or of a cache that holds it is poisoned with event
0x0C; a calibration of a channel begins or ends; the eviction of a data cache line takes the line away and changes no memory.  What a
unit's event names as its source is log 54's. -/
def Sys2Proof.Spec.MemoryUpkeep : Prop :=
  ∀ (s : State),
    (∀ st temp, st < 16 → exec (.dramRefresh st temp) s
      = .next { s with refresh := tabSet s.refresh st (if temp ≤ 85 then 1 else if temp ≤ 95 then 2 else 4) })
    ∧ (∀ k, k < Config.dramSize / 32 → exec (.scrub (.dram k) false) s = .next s
      ∧ ∃ t, exec (.scrub (.dram k) true) s = .next t ∧ SameWork s t ∧ (∀ j, j ∈ t.poison ↔ j ∈ s.poison ∨ j = k)
        ∧ LastEvent t s.tick 0x0C (32 * k / 256 % 16) (32 * k))
    ∧ (∀ c k, c < 128 → k < Config.spadSize / 32 → exec (.scrub (.spad c k) false) s = .next s
      ∧ ∃ t, exec (.scrub (.spad c k) true) s = .next t ∧ t.hands = s.hands ∧ t.mem = s.mem
        ∧ (∀ d, (t.core d).spad = (s.core d).spad)
        ∧ (∀ d j, d < 128 → (j ∈ (t.core d).spoison ↔ j ∈ (s.core d).spoison ∨ (d = c ∧ j = k))) ∧ LastEvent t (s.coreTick c) 0x0C c (32 * k))
    ∧ (∀ c r, c < 128 → r < Config.accRows → exec (.scrub (.acc c r) false) s = .next s
      ∧ ∃ t, exec (.scrub (.acc c r) true) s = .next t ∧ t.hands = s.hands ∧ t.mem = s.mem ∧ (t.core c).acc = (s.core c).acc
        ∧ (t.core c).spad = (s.core c).spad ∧ Gained (s.core c).apoison (t.core c).apoison [r] ∧ (∀ d, d ≠ c → t.core d = s.core d)
        ∧ LastEvent t (s.coreTick c) 0x0C c (256 * r))
    ∧ (∀ h k, h < 2048 → (k < 1024 → exec (.scrub (.vreg h k) false) s = .next s
        ∧ ∃ t p, exec (.scrub (.vreg h k) true) s = .next t ∧ t.hand h = { s.hand h with vpoison := p }
          ∧ Gained (s.hand h).vpoison p (unitOf k) ∧ (∀ g, g ≠ h → t.hand g = s.hand g) ∧ t.mem = s.mem ∧ t.cores = s.cores
          ∧ LastEvent t (s.coreTick (h / 16)) 0x0C h (32 * k))
      ∧ (k < 384 → exec (.scrub (.latch h k) false) s = .next s
        ∧ ∃ t p, exec (.scrub (.latch h k) true) s = .next t ∧ t.hand h = { s.hand h with lpoison := p }
          ∧ Gained (s.hand h).lpoison p (unitOf k) ∧ (∀ g, g ≠ h → t.hand g = s.hand g) ∧ t.mem = s.mem ∧ t.cores = s.cores
          ∧ LastEvent t (s.coreTick (h / 16)) 0x0C h (32 * k)))
    ∧ (∀ c l, c < 128 → exec (.scrub (.dline c l) false) s = .next s ∧ exec (.scrub (.iblock c l) false) s = .next s
      ∧ (tabFind (s.core c).dcache l = none → exec (.scrub (.dline c l) true) s = .next s)
      ∧ (tabFind (s.core c).icache l = none → exec (.scrub (.iblock c l) true) s = .next s)
      ∧ (tabFind (s.core c).dcache l ≠ none → ∃ t p, exec (.scrub (.dline c l) true) s = .next t
        ∧ t.core c = { s.core c with dpoison := p } ∧ Gained (s.core c).dpoison p [2 * l, 2 * l + 1]
        ∧ (∀ d, d ≠ c → t.core d = s.core d) ∧ t.hands = s.hands ∧ t.mem = s.mem ∧ LastEvent t (s.coreTick c) 0x0C c (64 * l))
      ∧ (tabFind (s.core c).icache l ≠ none → ∃ t p, exec (.scrub (.iblock c l) true) s = .next t
        ∧ t.core c = { s.core c with ipoison := p } ∧ Gained (s.core c).ipoison p [2 * l, 2 * l + 1]
        ∧ (∀ d, d ≠ c → t.core d = s.core d) ∧ t.hands = s.hands ∧ t.mem = s.mem ∧ LastEvent t (s.coreTick c) 0x0C c (64 * l)))
    ∧ (∀ ch, ch < 1024 → ∃ t, exec (.calibration ch) s = .next t ∧ SameWork s t
      ∧ ∀ x, x ∈ t.calib ↔ if x = ch then ch ∉ s.calib else x ∈ s.calib)
    ∧ (∀ c line, c < 128 → ∃ t, exec (.handDataCacheEviction c line) s = .next t ∧ t.mem = s.mem ∧ t.hands = s.hands
      ∧ tabFind (t.core c).dcache line = none
      ∧ (∀ n, n ≠ line → tabFind (t.core c).dcache n = tabFind (s.core c).dcache n) ∧ ∀ d, d ≠ c → t.core d = s.core d)

/-- R328, R5: a core moves to a spare once every hand is Held, Parked, Frozen or Off and nothing is under way or counts on the oscillator it
leaves: its hands and its reeve go on with their state, but that what a page still holds is held anew; its TLBs, caches and fouls are empty, and the
spare is used up; while hands run it places the steward's hold on them; a spare that is none moves nothing. -/
def Sys2Proof.Spec.CoresMigrate : Prop :=
  ∀ (s : State) (c phys : Nat), c < 128 →
    (phys ∉ s.spares → exec (.coreMigrate c phys) s = .next s)
    ∧ (phys ∈ s.spares →
      (∀ k, k < 16 → let x := s.hand (c * 16 + k)
        (x.st = .parked ∨ x.st = .frozen ∨ x.st = .off ∨ (x.st = .held ∧ x.heldBy ≠ some .steward)) ∧ x.storesDone = true
          ∧ x.underWay = false) →
      (s.reeve c).out = none → (s.reeve c).unacked = [] → (s.reeve c).dieWrites = [] → (s.reeve c).migHold = none →
      (∀ o ∈ s.outs, ¬ countsOn c o.who) →
      ∃ t, exec (.coreMigrate c phys) s = .next t ∧ t.mem = s.mem
        ∧ (∀ h, t.hand h = if h / 16 = c then heldAnew (s.hand h) else s.hand h)
        ∧ t.reeve c = { s.reeve c with tlb := [] } ∧ (∀ d, d ≠ c → t.reeve d = s.reeve d ∧ t.core d = s.core d)
        ∧ t.core c = { s.core c with phys := phys, htlb := [], dcache := [], icache := [], dpoison := [], ipoison := [], win := []
                                     busy := []
                                     fouls := { count := [], bench := [], window := [] } }
        ∧ ∀ p, p ∈ t.spares ↔ p ∈ s.spares ∧ p ≠ phys)
    ∧ (phys ∈ s.spares →
      (∀ k, k < 16 → let x := s.hand (c * 16 + k)
        x.st = .block ∨ x.st = .fetch ∨ x.st = .parked ∨ x.st = .frozen ∨ x.st = .off) →
      (∃ k, k < 16 ∧ ((s.hand (c * 16 + k)).st = .block ∨ (s.hand (c * 16 + k)).st = .fetch)) →
      ∃ t, exec (.coreMigrate c phys) s = .next t ∧ t.mem = s.mem ∧ t.reeves = s.reeves ∧ t.cores = s.cores ∧ t.spares = s.spares
        ∧ ∀ h, t.hand h = if h / 16 = c ∧ ((s.hand h).st = .block ∨ (s.hand h).st = .fetch) then
            { s.hand h with holdReq := some ((s.hand h).holdReq.getD .steward) } else s.hand h)

/-- R352 to R354, R274, R328: upkeep of memory, and the migration of a core to a spare. -/
def Obligations.UpkeepAndMigration : Prop := Spec.MemoryUpkeep ∧ Spec.CoresMigrate

/-- R346, R347, R356, R357: a device reset clears the machine but for the black box, the flash and the one-time index of the key; a boot
stage writes event 0x0A and leads to the next, or halts the boot where it fails; once stage 2 is over and the boot has not halted, a
partition's image leaves its SHAKE256 in `PIMG`, and before that nothing is loaded (Table 20.5).  That a reset empties DRAM, and that one after
a thermal shutdown counts as unclean, is log 39's (DEDUCED); that it keeps the model's own bookkeeping is the model's choice. -/
def Sys2Proof.Spec.ResetsAndBoots : Prop :=
  ∀ (s : State),
    (∃ t, exec .deviceReset s = .next t ∧ t.mem = [] ∧ t.hands = [] ∧ t.reeves = [] ∧ t.cores = [] ∧ t.farms = [] ∧ t.queues = []
      ∧ t.parts = [] ∧ t.groups = [] ∧ t.windows = [] ∧ t.ctrls = [] ∧ t.boot = 1 ∧ t.bootHalt = none ∧ t.shutdown = false
      ∧ t.box = s.box ∧ t.flash = s.flash ∧ t.xmss = s.xmss ∧ t.unclean = (s.unclean || s.shutdown))
    ∧ (s.bootHalt = none → s.boot ≤ 4 → (s.boot = 1 → s.unclean = false) → ∀ ok,
      ∃ t, exec (.bootStage ok) s = .next t ∧ SameWork s t ∧ t.flash = s.flash
        ∧ (∃ b, t.box.getLast? = some b ∧ b.event = 0x0A ∧ b.sub = s.boot)
        ∧ t.boot = (if ok then s.boot + 1 else s.boot) ∧ t.bootHalt = if ok then none else some s.boot)
    ∧ (s.bootHalt = none → s.boot = 1 → s.unclean = true → ∀ ok,
      ∃ t, exec (.bootStage ok) s = .next t ∧ SameWork s t ∧ t.flash = s.flash ++ s.box ∧ t.unclean = false
        ∧ ∃ b, t.box = [b] ∧ b.event = 0x0A ∧ b.sub = 1)
    ∧ (s.bootHalt ≠ none ∨ 4 < s.boot → ∀ ok, exec (.bootStage ok) s = .next s)
    ∧ (∀ p pa n, p < 16 →
      (s.bootHalt = none → 3 ≤ s.boot → exec (.partitionLoad p pa n) s = .next (s.setPart p { s.part p with
        pimg := BitVec.ofNat 256 (leValue (shake256 (memBytes s.mem pa n))) }))
      ∧ (s.bootHalt ≠ none ∨ s.boot < 3 → exec (.partitionLoad p pa n) s = .next s))

/-- R45: the debug module halts a reeve at its program counter, once its access elsewhere has ended; it reads and writes the registers,
dpc and memory of a halted one, and lets it go on in the mode that dcsr names, or for one instruction only.  An `ebreak` goes to the
debug module where dcsr says so.  A request that needs a halted reeve does nothing to one that runs.  (The debug specification's own
rules are log 25's.) -/
def Sys2Proof.Spec.DebugRequests : Prop :=
  ∀ (s : State) (c : Nat) (r : Reg) (v : Word), c < 132 →
    let x := s.reeve c
    let at_ (q : DebugReq) (t : State) : Prop := exec (.jtagDebugRequest c q) s = .next t
    (x.debug = false → (x.out = none → at_ .halt (s.setReeve c (debugged x 3)))
      ∧ (x.out ≠ none → at_ .halt (s.setReeve c { x with due := .halt })) ∧ ∀ q : DebugReq, q ≠ .halt → at_ q s)
    ∧ (x.debug = true → at_ .halt s
      ∧ at_ .resume (s.setReeve c { x with
          debug := false, pc := x.dpc, due := if (x.csrOf 0x7B0).getLsbD 2 then .stepArmed else .none
          mode := if fld (x.csrOf 0x7B0) 1 0 = 3 then .m else if fld (x.csrOf 0x7B0) 1 0 = 1 then .s else .u })
      ∧ at_ (.readGpr r) { s with hostRead := some (x.rd r) } ∧ at_ (.writeGpr r v) (s.setReeve c (rvPut x r v))
      ∧ at_ (.readCsr 0x7B1) { s with hostRead := some x.dpc } ∧ at_ (.writeCsr 0x7B1 v) (s.setReeve c { x with dpc := v &&& ~~~1#64 })
      ∧ ∀ a z pas, x.mode = .m → (x.csrOf 0x300).getLsbD 17 = false → rvLocate s c a (2 ^ z.toNat) .load false = .ok (dramLocs pas) →
        (DramClean s pas → at_ (.readMem a z) { s with hostRead := some (BitVec.ofNat 64 (leValue (pas.map (memGet s.mem)))) })
        ∧ ∃ t, exec (.jtagDebugRequest c (.writeMem a z v)) s = .next t
          ∧ t.mem = putAll s.mem pas (leBytes (2 ^ z.toNat) v.toNat) ∧ t.reeves = s.reeves ∧ t.hands = s.hands)
    ∧ (∀ short, (s.rv.csrOf 0x7B0).getLsbD (debugBit s.rv.mode) = true →
      exec (.reeveInstruction .ebreak short) s = .next (s.setReeve s.curReeve (debugged s.rv 1)))
    ∧ (s.shutdown = false → nextTurn s = .reeve c → ReeveUp s c → x.frozen = false → x.halted = false → x.debug = false → x.out = none →
      (passTime s).reeve c = x → (x.due = .halt ∨ (x.due = .stepping ∧ x.kwaiting = false ∧ x.migHold = none ∧ x.dbuf = none ∧ x.ibuf = none)) →
      step s = .next ({ passTime s with curReeve := c }.setReeve c (debugged x (if x.due = DebugDue.halt then 3 else 4))))

/-- R346, R347, R356, R357, R45: reset, boot, the load of a partition, and debug requests to a reeve. -/
def Obligations.ResetBootDebug : Prop := Spec.ResetsAndBoots ∧ Spec.DebugRequests

end Operation


/-! # The machine as a whole -/

namespace Sys2Proof.Spec

open Sys2Proof.Machine

/-- A word from its fields, the most significant first: width and value of each. -/
def bits (fs : List (Nat × Nat)) : Nat := fs.foldl (fun v f => v * 2 ^ f.1 + f.2) 0

/-- Format A (Table 4.2): sub6, q, b, a, d, op. -/
def fmtA (sub q b a d op : Nat) : Nat := bits [(6, sub), (3, q), (5, b), (5, a), (5, d), (6, op), (2, 1)]
/-- Formats I, S and B (Tables 4.3, 4.4, 4.6): imm11, sub3, [17:13], [12:8], op. -/
def fmtI (imm sub x y op : Nat) : Nat := bits [(11, imm), (3, sub), (5, x), (5, y), (6, op), (2, 1)]
/-- Formats L and J (Tables 4.5, 4.7): imm19, d, op. -/
def fmtL (imm d op : Nat) : Nat := bits [(19, imm), (5, d), (6, op), (2, 1)]
/-- Format C (Table 4.8): csr12, sub2, a, d, op. -/
def fmtC (csr sub a d op : Nat) : Nat := bits [(12, csr), (2, sub), (5, a), (5, d), (6, op), (2, 1)]
/-- Formats V, M and P (Tables 4.9 to 4.11): [31:29], [28:26], m, [22:18], [17:13], [12:8], op. -/
def fmtV (sub f m b a d op : Nat) : Nat := bits [(3, sub), (3, f), (3, m), (5, b), (5, a), (5, d), (6, op), (2, 1)]
/-- The compressed layout (Table 4.21): imm6, b, cop. -/
def fmtCc (imm b cop : Nat) : Nat := bits [(6, imm), (5, b), (4, cop), (1, 0)]
/-- Xkry (R52): funct7, xb, xa, funct3, xd, custom-0. -/
def fmtX (f7 b a f3 d : Nat) : Nat := bits [(7, f7), (5, b), (5, a), (3, f3), (5, d), (7, 0b0001011)]

/-- Every memory, and the tables of hands and of remote windows, are in canonical form. -/
def Canonical (s : State) : Prop :=
  s.mem.wf = true ∧ (∀ q ∈ s.cores, q.2.spad.wf = true) ∧ Rising s.hands ∧ Rising s.cores ∧ Rising s.windows

/-- The windows of a hand lie inside those it was granted (R90). -/
def InGrant (x : Hand) : Prop :=
  x.gAccb ≤ x.accb ∧ x.accb + x.accn ≤ x.gAccb + x.gAccn ∧ x.gSpb ≤ x.spb ∧ x.spb + x.spn ≤ x.gSpb + x.gSpn

/-- So it is for every hand, and for every hand that is saved. -/
def WindowsInGrant (s : State) : Prop :=
  (∀ q ∈ s.hands, InGrant q.2) ∧ (∀ q ∈ s.saves, InGrant q.2) ∧ ∀ q ∈ s.frames, InGrant q.2.hand

/-- The machine as the turn of hand h finds it: time has passed, and a scalar cycle of its core (logs 1, 2, 6). -/
noncomputable def atTurn (s : State) (h : Nat) : State := { tickCore (passTime s) (h / 16) with curHand := h }

/-- Hand h runs, and nothing stands before its next instruction: no fault that it or a dispatched instruction has to take, no drain, no
access under way, no request; b is the block of its program counter, or the block that it was given (R49, R54, R67, R315). -/
def Runs (s : State) (h : Nat) (b : Buf) : Prop :=
  let x := s.hand h
  (x.st = .block ∨ x.st = .fetch) ∧ x.pfault = none ∧ (∀ e ∈ x.rq, e.fault = none) ∧ x.draining = false ∧ x.acc = none
    ∧ x.stopReq = none ∧ x.holdReq = none ∧ x.placed = false ∧ x.cur = some b ∧ b.failed = none
    ∧ (x.st = .fetch → b.base = x.pc.toNat / 64 * 64)

end Sys2Proof.Spec

section Whole

open Sys2Proof Sys2Proof.Machine Sys2Proof.Spec

/-- R48, R49, R78, R80: a step in which a hand moves runs the instruction that the bytes at its program counter decode to, up to the end
of its block; bytes that decode to none take the illegal-instruction fault.  A step in which a reeve moves runs the instruction of the
word at its program counter, once the boot has started the reeve (R356, log 24), and an event of the device runs itself.  After a thermal
shutdown only a reset does anything (Table 20.4).  Which agent moves is the model's choice (log 1), and so are the amounts by which time
passes (log 6); where a fabric block has no delivery to write (R298) and the host no misaligned access under way (R276), the time that passes
touches no hand, no reeve and no memory. -/
def Obligations.StepRunsTheDecoded : Prop :=
  ∀ (s : State),
    (s.shutdown = false → ∀ h b, nextTurn s = .hand h → h < 2048 → Runs s h b → (passTime s).hand h = s.hand h →
      let bytes := b.bytes.drop ((s.hand h).pc.toNat % 64)
      (∀ i n, decodeHand bytes = some (i, n) → step s = exec i (atTurn s h))
      ∧ (decodeHand bytes = none → (s.hand h).rq = [] → (s.hand h).sb = [] → (s.hand h).retq = [] →
        (s.hand h).unacked = [] → (s.hand h).dieWrites = [] →
        ∃ t, step s = .next t ∧ ParkedAt (atTurn s h) t h 0 0x01 0 (s.hand h).pc (s.hand h).pc 0 0))
    ∧ (s.shutdown = false → ∀ c u w, nextTurn s = .reeve c → c < 132 → (¬ ReeveUp s c → step s = .next (passTime s)) ∧ (ReeveUp s c →
      let t := { passTime s with curReeve := c }
      let r := t.reeve c
      r.frozen = false → r.halted = false → r.debug = false → r.due = .none → r.out = none → r.wfi = false → rvPending r = none →
      rvFetch (t.setReeve c r) = .ok (u, w) →
      step s = exec (decodeReeve w).1 u))
    ∧ (s.shutdown = false → ∀ i, nextTurn s = .event i → isEvent i = true → step s = exec i (passTime s))
    ∧ (∀ t ts, s.agenda = t :: ts → nextTurn s = t)
    ∧ (s.shutdown = true → (∀ ts, s.agenda ≠ .event .deviceReset :: ts) → step s = .next { s with agenda := s.agenda.drop 1 })
    ∧ ((∀ q ∈ s.slots, q.kept = [] ∨ q.buf = none) → s.hostTorn = [] → let t := passTime s
      t.hands = s.hands ∧ t.reeves = s.reeves ∧ t.mem = s.mem ∧ t.farms = s.farms ∧ (∀ h, t.hand h = s.hand h)
        ∧ (∀ c, (t.core c).spad = (s.core c).spad ∧ (t.core c).acc = (s.core c).acc) ∧ s.tick ≤ t.tick
        ∧ (∀ g, s.groupTick g ≤ t.groupTick g ∨ 17 ≤ g) ∧ t.agenda = s.agenda.drop 1)

/-- Tables 4.2 to 4.16, 4.20, 4.13, 3.7: words written out field by field decode to the instructions they stand for; majors and codes
that are not assigned decode to none. -/
def Obligations.WordsDecode : Prop :=
  decodeTableWord 32 (fmtA 1 0 3 2 1 0x01) = some (.sub 1 2 3)
  ∧ decodeTableWord 32 (fmtI 0x7FF 0 2 1 0x02) = some (.addi 1 2 0x7FF)
  ∧ decodeTableWord 32 (fmtI 8 3 2 1 0x06) = some (.stD 1 2 8)
  ∧ decodeTableWord 32 (fmtI 0x7FE 1 2 1 0x08) = some (.bne 1 2 0x7FE)
  ∧ decodeTableWord 32 (fmtC 0x001 0 0 5 0x0B) = some (.csrr 5 0x001)
  ∧ decodeTableWord 32 (fmtV 1 2 3 6 5 4 0x10) = some (.vaddVs 4 5 6 3 2)
  ∧ decodeTableWord 32 (fmtV 2 3 1 6 5 4 0x20) = some (.vldx 4 5 6 1 3)
  ∧ decodeTableWord 16 (fmtCc 3 0 6) = some (.cAddi 0 3)
  ∧ decodeTableWord 64 0x000002FD01808903 = some (.mma 9 4 3 0 0 2 0)
  ∧ decodeTableWord 32 0x00E6878B = some (.kbc 15 13 14)
  ∧ decodeTableWord 32 (fmtX 4 7 6 7 5) = some (.kevt 5 6 7)
  ∧ decodeTableWord 32 (fmtA 0 0 0 0 0 0x0F) = none ∧ decodeTableWord 32 (fmtA 24 0 3 2 1 0x01) = none
  ∧ decodeTableWord 32 (fmtA 1 1 3 2 1 0x01) = none ∧ decodeTableWord 16 0 = none ∧ decodeTableWord 64 (2 ^ 64 - 1) = none

/-- Tables 2.1 to 2.4, 2.8, 3.5, 9.7, 17.4a, 17.6, 20.4a, R223, R347, R356: what the machine holds after reset, and that it is in
canonical form, every hand's windows lie inside those it was granted, and no boot stage has been.  The values that no rule gives are the
model's: the program counter and mode of a reeve (logs 4, 5), the producer of a queue and the fill of a bucket (log 4), memory that reads 0
(log 3), cyc = 0 (log 6), and that core c is physical core c (log 23). -/
def Obligations.ResetState : Prop :=
  let s := State.reset
  Canonical s ∧ WindowsInGrant s
  ∧ (∀ h, (s.hand h).st = .off ∧ (s.hand h).rq = [] ∧ (s.hand h).sb = [] ∧ (s.hand h).vl = 1 ∧ (s.hand h).vt = 1 ∧ (s.hand h).rc = 0
      ∧ (s.hand h).vtype = 0 ∧ (s.hand h).fflags = 0 ∧ (∀ r, (s.hand h).rd r = 0) ∧ ∀ r, (s.hand h).vrd r = 0)
  ∧ (∀ q, s.queue q = { base := 0, en := false, lsize := 0, head := 0, badseq := 0, reason := 0, bad := false, stopped := false
                        pub := none, producer := .host, rereads := none, readAt := 0, heldAt := none })
  ∧ (∀ p, (s.part p).pcore = 0 ∧ (s.part p).viol = none ∧ (s.part p).pmem = 0 ∧ (s.part p).proot = 0 ∧ (s.part p).pimg = 0)
  ∧ (∀ c, (s.core c).rckcfg.toNat = 20 * 2 ^ 16 + 3 ∧ (s.core c).fouls.bench = [] ∧ (s.core c).cyc = 0 ∧ (s.core c).phys = c)
  ∧ (∀ g, (s.ctrl g).gpwr = 0x1E0 ∧ (s.ctrl g).kp = 0 ∧ (s.ctrl g).ki = 0 ∧ (s.ctrl g).top = 16 ∧ (s.ctrl g).bottom = 0
      ∧ (s.ctrl g).step = 8 ∧ (s.ctrl g).fallback = false)
  ∧ (∀ i p, bucketOf (s.port i) p = { borrow := false, rate := 0, depth := 0, tokens := 0, used := 0 })
  ∧ (∀ c, (s.reeve c).mode = .m ∧ (s.reeve c).pc = 0 ∧ (s.reeve c).hpend = 0 ∧ (s.reeve c).hmask = 0)
  ∧ s.farms = [] ∧ s.windows = [] ∧ s.box = [] ∧ s.boot = 1 ∧ s.bootHalt = none ∧ s.shutdown = false ∧ ∀ a, memGet s.mem a = 0

/-- R78 to R97, R52: for every well-formed instruction of the hands the decoder reads the instruction and its length back from its bytes,
whatever follows them, and for every Xkry form the reeve's decoder reads it back from its word. -/
def Sys2Proof.Spec.DecodeOfEncode : Prop :=
  ∀ (i : Instr), wellFormed i = true →
    (∀ rest, (∃ w, encode i = .half w) ∨ (∃ w, encode i = .word w) ∨ (∃ w, encode i = .double w) →
      decodeHand ((encode i).bytes ++ rest) = some (i, (encode i).bytes.length))
    ∧ ∀ w, encode i = .xkry w → decodeReeve w = (i, 4)

/-- R81, R84, R87, R95, R97: no bit of a hand's instruction is passed over: what the decoder reads is well formed, and its encoding is
exactly the bytes that were read. -/
def Sys2Proof.Spec.EncodeOfDecode : Prop :=
  ∀ (bytes : List Byte) (i : Instr) (n : Nat), decodeHand bytes = some (i, n) →
    wellFormed i = true ∧ (encode i).bytes = bytes.take n ∧ n = handLength (leValue (bytes.take 2)) ∧ n ≤ bytes.length

/-- R78 to R97, R52: decoding an encoded instruction gives it back, and encoding a decoded one gives its bytes: no bit is dropped. -/
def Obligations.CodingsAgree : Prop := Spec.DecodeOfEncode ∧ Spec.EncodeOfDecode

/-- R90: a write of `accb`, `accn`, `spb` or `spn`, by the hand or by its reeve, only narrows, and the windows go with a hand that is saved and
restored: over every step the windows of every hand stay inside those that the placer granted. -/
def Obligations.StepsKeepWindows : Prop :=
  ∀ (s t : State), WindowsInGrant s → step s = .next t → WindowsInGrant t

/-- Every step keeps memory, the scratchpads and the tables of hands, cores and remote windows in canonical form (log 3: equal memories
are equal data). -/
def Obligations.StepsKeepCanonical : Prop :=
  ∀ (s t : State), Canonical s → step s = .next t → Canonical t

end Whole
end

