-- ==== Sys2Proof/Laws/Tables.lean ====
section
/-!
SUPPORT. Reading a table or memory after writing it, and the canonical form of memory.
-/

namespace Sys2Proof.Machine

/-! ## Tables -/

@[simp] theorem tabGet_tabSet_same {α : Type} (d : α) (t : Table α) (n : Nat) (x : α) : tabGet d (tabSet t n x) n = x := by
  induction t with
  | nil => simp [tabSet, tabGet]
  | cons p t ih =>
    simp only [tabSet]
    split
    · simp [tabGet]
    · split
      · simp [tabGet]
      · simp [tabGet, *]

theorem tabGet_tabSet_ne {α : Type} (d : α) (t : Table α) (n m : Nat) (x : α) (h : m ≠ n) :
    tabGet d (tabSet t n x) m = tabGet d t m := by
  induction t with
  | nil => simp [tabSet, tabGet, Ne.symm h]
  | cons p t ih =>
    simp only [tabSet]
    split
    · simp [tabGet, Ne.symm h]
    · split
      · rename_i h2
        simp [tabGet, Ne.symm h, h2]
      · simp [tabGet, ih]

theorem tabGet_tabSet {α : Type} (d : α) (t : Table α) (n m : Nat) (x : α) :
    tabGet d (tabSet t n x) m = if m = n then x else tabGet d t m := by
  split
  · next h => subst h; simp
  · next h => exact tabGet_tabSet_ne d t n m x h

/-! ## Bytes of memory -/

@[simp] theorem memGet_memSet_same (m : Memory) (a : Nat) (b : Byte) (h : m.wf = true) : memGet (memSet m a b) a = b := by
  have key : ∀ (m : Memory) (lo : Nat), memWfFrom lo m = true → memGet (memSet m a b) a = b := by
    intro m
    induction m with
    | nil =>
      intro lo _
      by_cases hb : b = 0#8 <;> simp [memSet, memGet, hb]
    | cons p t ih =>
      obtain ⟨k, v⟩ := p
      intro lo hw
      simp only [memWfFrom, Bool.and_eq_true, decide_eq_true_eq] at hw
      have absent : ∀ (t : Memory) (lo : Nat), a < lo → memWfFrom lo t = true → memGet t a = 0 := by
        intro t
        induction t with
        | nil => intros; rfl
        | cons q t ih2 =>
          obtain ⟨j, w⟩ := q
          intro lo hlt h2
          simp only [memWfFrom, Bool.and_eq_true, decide_eq_true_eq] at h2
          have : j ≠ a := by omega
          simp only [memGet, if_neg this]
          exact ih2 (j + 1) (by omega) h2.2
      simp only [memSet]
      split
      · next hlt =>
        by_cases hb : b = 0#8
        · subst hb
          have h1 : k ≠ a := by omega
          simp only [BitVec.ofNat_eq_ofNat, if_true, memGet, if_neg h1]
          exact absent t (k + 1) (by omega) hw.2
        · simp [hb, memGet]
      · split
        · next heq =>
          subst heq
          by_cases hb : b = 0#8
          · subst hb
            simp only [BitVec.ofNat_eq_ofNat, if_true]
            exact absent t (k + 1) (by omega) hw.2
          · simp [hb, memGet]
        · next hne =>
          simp only [memGet, if_neg hne]
          exact ih (k + 1) hw.2
  exact key m 0 h

theorem memGet_memSet_ne (m : Memory) (a c : Nat) (b : Byte) (h : c ≠ a) : memGet (memSet m a b) c = memGet m c := by
  induction m with
  | nil => by_cases hb : b = 0#8 <;> simp [memSet, memGet, hb, Ne.symm h]
  | cons p t ih =>
    obtain ⟨k, v⟩ := p
    simp only [memSet]
    split
    · by_cases hb : b = 0#8 <;> simp [hb, memGet, Ne.symm h]
    · split
      · next heq =>
        subst heq
        by_cases hb : b = 0#8 <;> simp [hb, memGet, Ne.symm h]
      · simp [memGet, ih]

theorem memSet_wf (m : Memory) (a : Nat) (b : Byte) (h : m.wf = true) : (memSet m a b).wf = true := by
  have key : ∀ (m : Memory) (lo : Nat), lo ≤ a → memWfFrom lo m = true → memWfFrom lo (memSet m a b) = true := by
    intro m
    induction m with
    | nil =>
      intro lo hlo _
      by_cases hb : b = 0#8 <;> simp [memSet, memWfFrom, hb, hlo]
    | cons p t ih =>
      obtain ⟨k, v⟩ := p
      intro lo hlo hw
      have hw' := hw
      simp only [memWfFrom, Bool.and_eq_true, decide_eq_true_eq] at hw'
      have weaken : ∀ (t : Memory) (i j : Nat), i ≤ j → memWfFrom j t = true → memWfFrom i t = true := by
        intro t i j hij ht
        cases t with
        | nil => rfl
        | cons q t =>
          simp only [memWfFrom, Bool.and_eq_true, decide_eq_true_eq] at ht ⊢
          exact ⟨⟨by omega, ht.1.2⟩, ht.2⟩
      simp only [memSet]
      split
      · next hlt =>
        by_cases hb : b = 0#8
        · simpa [hb] using hw
        · simp only [BitVec.ofNat_eq_ofNat, if_neg hb, memWfFrom, Bool.and_eq_true, decide_eq_true_eq]
          exact ⟨⟨hlo, hb⟩, ⟨by omega, hw'.1.2⟩, hw'.2⟩
      · split
        · next heq =>
          subst heq
          by_cases hb : b = 0#8
          · simp only [BitVec.ofNat_eq_ofNat, if_pos hb]
            exact weaken t lo (k + 1) (by omega) hw'.2
          · simp only [BitVec.ofNat_eq_ofNat, if_neg hb, memWfFrom, Bool.and_eq_true, decide_eq_true_eq]
            exact ⟨⟨hlo, hb⟩, hw'.2⟩
        · simp only [memWfFrom, Bool.and_eq_true, decide_eq_true_eq]
          exact ⟨hw'.1, ih (k + 1) (by omega) hw'.2⟩
  exact key m 0 (by omega) h

theorem memPut_wf (m : Memory) (a : Nat) (bs : List Byte) (h : m.wf = true) : (memPut m a bs).wf = true := by
  induction bs generalizing m a with
  | nil => simpa [memPut] using h
  | cons b bs ih =>
    simp only [memPut]
    exact ih _ _ (memSet_wf m a b h)

theorem memGet_memPut_ne (m : Memory) (a c : Nat) (bs : List Byte) (h : c < a ∨ a + bs.length ≤ c) :
    memGet (memPut m a bs) c = memGet m c := by
  induction bs generalizing m a with
  | nil => rfl
  | cons b bs ih =>
    simp only [memPut]
    simp only [List.length_cons] at h
    rw [ih _ _ (by omega), memGet_memSet_ne _ _ _ _ (by omega)]

theorem memBytes_memPut (m : Memory) (a : Nat) (bs : List Byte) (h : m.wf = true) : memBytes (memPut m a bs) a bs.length = bs := by
  induction bs generalizing m a with
  | nil => rfl
  | cons b bs ih =>
    simp only [memPut, List.length_cons, memBytes]
    rw [ih _ _ (memSet_wf m a b h), memGet_memPut_ne _ _ _ _ (by omega), memGet_memSet_same _ _ _ h]

@[simp] theorem empty_wf : Memory.wf [] = true := rfl

end Sys2Proof.Machine
end

