-- ==== Sys2Proof/Laws/State.lean ====
section
/-!
SUPPORT. One lemma for each field of State under each named update, and the parts of the machine after an update of one.
-/

namespace Sys2Proof.Machine

/-! ## `State.setHand` -/

@[simp] theorem State.setHand_agenda (s : State) (h : Nat) (x : Hand) : (s.setHand h x).agenda = s.agenda := rfl
@[simp] theorem State.setHand_curHand (s : State) (h : Nat) (x : Hand) : (s.setHand h x).curHand = s.curHand := rfl
@[simp] theorem State.setHand_curReeve (s : State) (h : Nat) (x : Hand) : (s.setHand h x).curReeve = s.curReeve := rfl
@[simp] theorem State.setHand_lockstep (s : State) (h : Nat) (x : Hand) : (s.setHand h x).lockstep = s.lockstep := rfl
@[simp] theorem State.setHand_choice (s : State) (h : Nat) (x : Hand) : (s.setHand h x).choice = s.choice := rfl
@[simp] theorem State.setHand_tick (s : State) (h : Nat) (x : Hand) : (s.setHand h x).tick = s.tick := rfl
@[simp] theorem State.setHand_gtick (s : State) (h : Nat) (x : Hand) : (s.setHand h x).gtick = s.gtick := rfl
@[simp] theorem State.setHand_mem (s : State) (h : Nat) (x : Hand) : (s.setHand h x).mem = s.mem := rfl
@[simp] theorem State.setHand_poison (s : State) (h : Nat) (x : Hand) : (s.setHand h x).poison = s.poison := rfl
@[simp] theorem State.setHand_resv (s : State) (h : Nat) (x : Hand) : (s.setHand h x).resv = s.resv := rfl
@[simp] theorem State.setHand_cores (s : State) (h : Nat) (x : Hand) : (s.setHand h x).cores = s.cores := rfl
@[simp] theorem State.setHand_reeves (s : State) (h : Nat) (x : Hand) : (s.setHand h x).reeves = s.reeves := rfl
@[simp] theorem State.setHand_parts (s : State) (h : Nat) (x : Hand) : (s.setHand h x).parts = s.parts := rfl
@[simp] theorem State.setHand_queues (s : State) (h : Nat) (x : Hand) : (s.setHand h x).queues = s.queues := rfl
@[simp] theorem State.setHand_farms (s : State) (h : Nat) (x : Hand) : (s.setHand h x).farms = s.farms := rfl
@[simp] theorem State.setHand_nextFarm (s : State) (h : Nat) (x : Hand) : (s.setHand h x).nextFarm = s.nextFarm := rfl
@[simp] theorem State.setHand_nextOrder (s : State) (h : Nat) (x : Hand) : (s.setHand h x).nextOrder = s.nextOrder := rfl
@[simp] theorem State.setHand_groups (s : State) (h : Nat) (x : Hand) : (s.setHand h x).groups = s.groups := rfl
@[simp] theorem State.setHand_barred (s : State) (h : Nat) (x : Hand) : (s.setHand h x).barred = s.barred := rfl
@[simp] theorem State.setHand_insts (s : State) (h : Nat) (x : Hand) : (s.setHand h x).insts = s.insts := rfl
@[simp] theorem State.setHand_slots (s : State) (h : Nat) (x : Hand) : (s.setHand h x).slots = s.slots := rfl
@[simp] theorem State.setHand_counters (s : State) (h : Nat) (x : Hand) : (s.setHand h x).counters = s.counters := rfl
@[simp] theorem State.setHand_inq (s : State) (h : Nat) (x : Hand) : (s.setHand h x).inq = s.inq := rfl
@[simp] theorem State.setHand_outq (s : State) (h : Nat) (x : Hand) : (s.setHand h x).outq = s.outq := rfl
@[simp] theorem State.setHand_outs (s : State) (h : Nat) (x : Hand) : (s.setHand h x).outs = s.outs := rfl
@[simp] theorem State.setHand_nextTag (s : State) (h : Nat) (x : Hand) : (s.setHand h x).nextTag = s.nextTag := rfl
@[simp] theorem State.setHand_hostq (s : State) (h : Nat) (x : Hand) : (s.setHand h x).hostq = s.hostq := rfl
@[simp] theorem State.setHand_windows (s : State) (h : Nat) (x : Hand) : (s.setHand h x).windows = s.windows := rfl
@[simp] theorem State.setHand_routes (s : State) (h : Nat) (x : Hand) : (s.setHand h x).routes = s.routes := rfl
@[simp] theorem State.setHand_retries (s : State) (h : Nat) (x : Hand) : (s.setHand h x).retries = s.retries := rfl
@[simp] theorem State.setHand_ports (s : State) (h : Nat) (x : Hand) : (s.setHand h x).ports = s.ports := rfl
@[simp] theorem State.setHand_chans (s : State) (h : Nat) (x : Hand) : (s.setHand h x).chans = s.chans := rfl
@[simp] theorem State.setHand_ctrls (s : State) (h : Nat) (x : Hand) : (s.setHand h x).ctrls = s.ctrls := rfl
@[simp] theorem State.setHand_box (s : State) (h : Nat) (x : Hand) : (s.setHand h x).box = s.box := rfl
@[simp] theorem State.setHand_flash (s : State) (h : Nat) (x : Hand) : (s.setHand h x).flash = s.flash := rfl
@[simp] theorem State.setHand_unclean (s : State) (h : Nat) (x : Hand) : (s.setHand h x).unclean = s.unclean := rfl
@[simp] theorem State.setHand_clamp (s : State) (h : Nat) (x : Hand) : (s.setHand h x).clamp = s.clamp := rfl
@[simp] theorem State.setHand_shutdown (s : State) (h : Nat) (x : Hand) : (s.setHand h x).shutdown = s.shutdown := rfl
@[simp] theorem State.setHand_refresh (s : State) (h : Nat) (x : Hand) : (s.setHand h x).refresh = s.refresh := rfl
@[simp] theorem State.setHand_actCap (s : State) (h : Nat) (x : Hand) : (s.setHand h x).actCap = s.actCap := rfl
@[simp] theorem State.setHand_calib (s : State) (h : Nat) (x : Hand) : (s.setHand h x).calib = s.calib := rfl
@[simp] theorem State.setHand_boot (s : State) (h : Nat) (x : Hand) : (s.setHand h x).boot = s.boot := rfl
@[simp] theorem State.setHand_bootHalt (s : State) (h : Nat) (x : Hand) : (s.setHand h x).bootHalt = s.bootHalt := rfl
@[simp] theorem State.setHand_xmss (s : State) (h : Nat) (x : Hand) : (s.setHand h x).xmss = s.xmss := rfl
@[simp] theorem State.setHand_aer (s : State) (h : Nat) (x : Hand) : (s.setHand h x).aer = s.aer := rfl
@[simp] theorem State.setHand_msix (s : State) (h : Nat) (x : Hand) : (s.setHand h x).msix = s.msix := rfl
@[simp] theorem State.setHand_msixTab (s : State) (h : Nat) (x : Hand) : (s.setHand h x).msixTab = s.msixTab := rfl
@[simp] theorem State.setHand_hostRead (s : State) (h : Nat) (x : Hand) : (s.setHand h x).hostRead = s.hostRead := rfl
@[simp] theorem State.setHand_hostTorn (s : State) (h : Nat) (x : Hand) : (s.setHand h x).hostTorn = s.hostTorn := rfl
@[simp] theorem State.setHand_consumedAt (s : State) (h : Nat) (x : Hand) : (s.setHand h x).consumedAt = s.consumedAt := rfl
@[simp] theorem State.setHand_barSizes (s : State) (h : Nat) (x : Hand) : (s.setHand h x).barSizes = s.barSizes := rfl
@[simp] theorem State.setHand_mailbox (s : State) (h : Nat) (x : Hand) : (s.setHand h x).mailbox = s.mailbox := rfl
@[simp] theorem State.setHand_reports (s : State) (h : Nat) (x : Hand) : (s.setHand h x).reports = s.reports := rfl
@[simp] theorem State.setHand_calls (s : State) (h : Nat) (x : Hand) : (s.setHand h x).calls = s.calls := rfl
@[simp] theorem State.setHand_reads (s : State) (h : Nat) (x : Hand) : (s.setHand h x).reads = s.reads := rfl
@[simp] theorem State.setHand_frames (s : State) (h : Nat) (x : Hand) : (s.setHand h x).frames = s.frames := rfl
@[simp] theorem State.setHand_saves (s : State) (h : Nat) (x : Hand) : (s.setHand h x).saves = s.saves := rfl
@[simp] theorem State.setHand_spares (s : State) (h : Nat) (x : Hand) : (s.setHand h x).spares = s.spares := rfl
theorem State.setHand_hands (s : State) (h : Nat) (x : Hand) : (s.setHand h x).hands = tabSet s.hands h x := rfl

/-! ## `State.setCore` -/

@[simp] theorem State.setCore_agenda (s : State) (c : Nat) (x : CoreSt) : (s.setCore c x).agenda = s.agenda := rfl
@[simp] theorem State.setCore_curHand (s : State) (c : Nat) (x : CoreSt) : (s.setCore c x).curHand = s.curHand := rfl
@[simp] theorem State.setCore_curReeve (s : State) (c : Nat) (x : CoreSt) : (s.setCore c x).curReeve = s.curReeve := rfl
@[simp] theorem State.setCore_lockstep (s : State) (c : Nat) (x : CoreSt) : (s.setCore c x).lockstep = s.lockstep := rfl
@[simp] theorem State.setCore_choice (s : State) (c : Nat) (x : CoreSt) : (s.setCore c x).choice = s.choice := rfl
@[simp] theorem State.setCore_tick (s : State) (c : Nat) (x : CoreSt) : (s.setCore c x).tick = s.tick := rfl
@[simp] theorem State.setCore_gtick (s : State) (c : Nat) (x : CoreSt) : (s.setCore c x).gtick = s.gtick := rfl
@[simp] theorem State.setCore_mem (s : State) (c : Nat) (x : CoreSt) : (s.setCore c x).mem = s.mem := rfl
@[simp] theorem State.setCore_poison (s : State) (c : Nat) (x : CoreSt) : (s.setCore c x).poison = s.poison := rfl
@[simp] theorem State.setCore_resv (s : State) (c : Nat) (x : CoreSt) : (s.setCore c x).resv = s.resv := rfl
@[simp] theorem State.setCore_hands (s : State) (c : Nat) (x : CoreSt) : (s.setCore c x).hands = s.hands := rfl
@[simp] theorem State.setCore_reeves (s : State) (c : Nat) (x : CoreSt) : (s.setCore c x).reeves = s.reeves := rfl
@[simp] theorem State.setCore_parts (s : State) (c : Nat) (x : CoreSt) : (s.setCore c x).parts = s.parts := rfl
@[simp] theorem State.setCore_queues (s : State) (c : Nat) (x : CoreSt) : (s.setCore c x).queues = s.queues := rfl
@[simp] theorem State.setCore_farms (s : State) (c : Nat) (x : CoreSt) : (s.setCore c x).farms = s.farms := rfl
@[simp] theorem State.setCore_nextFarm (s : State) (c : Nat) (x : CoreSt) : (s.setCore c x).nextFarm = s.nextFarm := rfl
@[simp] theorem State.setCore_nextOrder (s : State) (c : Nat) (x : CoreSt) : (s.setCore c x).nextOrder = s.nextOrder := rfl
@[simp] theorem State.setCore_groups (s : State) (c : Nat) (x : CoreSt) : (s.setCore c x).groups = s.groups := rfl
@[simp] theorem State.setCore_barred (s : State) (c : Nat) (x : CoreSt) : (s.setCore c x).barred = s.barred := rfl
@[simp] theorem State.setCore_insts (s : State) (c : Nat) (x : CoreSt) : (s.setCore c x).insts = s.insts := rfl
@[simp] theorem State.setCore_slots (s : State) (c : Nat) (x : CoreSt) : (s.setCore c x).slots = s.slots := rfl
@[simp] theorem State.setCore_counters (s : State) (c : Nat) (x : CoreSt) : (s.setCore c x).counters = s.counters := rfl
@[simp] theorem State.setCore_inq (s : State) (c : Nat) (x : CoreSt) : (s.setCore c x).inq = s.inq := rfl
@[simp] theorem State.setCore_outq (s : State) (c : Nat) (x : CoreSt) : (s.setCore c x).outq = s.outq := rfl
@[simp] theorem State.setCore_outs (s : State) (c : Nat) (x : CoreSt) : (s.setCore c x).outs = s.outs := rfl
@[simp] theorem State.setCore_nextTag (s : State) (c : Nat) (x : CoreSt) : (s.setCore c x).nextTag = s.nextTag := rfl
@[simp] theorem State.setCore_hostq (s : State) (c : Nat) (x : CoreSt) : (s.setCore c x).hostq = s.hostq := rfl
@[simp] theorem State.setCore_windows (s : State) (c : Nat) (x : CoreSt) : (s.setCore c x).windows = s.windows := rfl
@[simp] theorem State.setCore_routes (s : State) (c : Nat) (x : CoreSt) : (s.setCore c x).routes = s.routes := rfl
@[simp] theorem State.setCore_retries (s : State) (c : Nat) (x : CoreSt) : (s.setCore c x).retries = s.retries := rfl
@[simp] theorem State.setCore_ports (s : State) (c : Nat) (x : CoreSt) : (s.setCore c x).ports = s.ports := rfl
@[simp] theorem State.setCore_chans (s : State) (c : Nat) (x : CoreSt) : (s.setCore c x).chans = s.chans := rfl
@[simp] theorem State.setCore_ctrls (s : State) (c : Nat) (x : CoreSt) : (s.setCore c x).ctrls = s.ctrls := rfl
@[simp] theorem State.setCore_box (s : State) (c : Nat) (x : CoreSt) : (s.setCore c x).box = s.box := rfl
@[simp] theorem State.setCore_flash (s : State) (c : Nat) (x : CoreSt) : (s.setCore c x).flash = s.flash := rfl
@[simp] theorem State.setCore_unclean (s : State) (c : Nat) (x : CoreSt) : (s.setCore c x).unclean = s.unclean := rfl
@[simp] theorem State.setCore_clamp (s : State) (c : Nat) (x : CoreSt) : (s.setCore c x).clamp = s.clamp := rfl
@[simp] theorem State.setCore_shutdown (s : State) (c : Nat) (x : CoreSt) : (s.setCore c x).shutdown = s.shutdown := rfl
@[simp] theorem State.setCore_refresh (s : State) (c : Nat) (x : CoreSt) : (s.setCore c x).refresh = s.refresh := rfl
@[simp] theorem State.setCore_actCap (s : State) (c : Nat) (x : CoreSt) : (s.setCore c x).actCap = s.actCap := rfl
@[simp] theorem State.setCore_calib (s : State) (c : Nat) (x : CoreSt) : (s.setCore c x).calib = s.calib := rfl
@[simp] theorem State.setCore_boot (s : State) (c : Nat) (x : CoreSt) : (s.setCore c x).boot = s.boot := rfl
@[simp] theorem State.setCore_bootHalt (s : State) (c : Nat) (x : CoreSt) : (s.setCore c x).bootHalt = s.bootHalt := rfl
@[simp] theorem State.setCore_xmss (s : State) (c : Nat) (x : CoreSt) : (s.setCore c x).xmss = s.xmss := rfl
@[simp] theorem State.setCore_aer (s : State) (c : Nat) (x : CoreSt) : (s.setCore c x).aer = s.aer := rfl
@[simp] theorem State.setCore_msix (s : State) (c : Nat) (x : CoreSt) : (s.setCore c x).msix = s.msix := rfl
@[simp] theorem State.setCore_msixTab (s : State) (c : Nat) (x : CoreSt) : (s.setCore c x).msixTab = s.msixTab := rfl
@[simp] theorem State.setCore_hostRead (s : State) (c : Nat) (x : CoreSt) : (s.setCore c x).hostRead = s.hostRead := rfl
@[simp] theorem State.setCore_hostTorn (s : State) (c : Nat) (x : CoreSt) : (s.setCore c x).hostTorn = s.hostTorn := rfl
@[simp] theorem State.setCore_consumedAt (s : State) (c : Nat) (x : CoreSt) : (s.setCore c x).consumedAt = s.consumedAt := rfl
@[simp] theorem State.setCore_barSizes (s : State) (c : Nat) (x : CoreSt) : (s.setCore c x).barSizes = s.barSizes := rfl
@[simp] theorem State.setCore_mailbox (s : State) (c : Nat) (x : CoreSt) : (s.setCore c x).mailbox = s.mailbox := rfl
@[simp] theorem State.setCore_reports (s : State) (c : Nat) (x : CoreSt) : (s.setCore c x).reports = s.reports := rfl
@[simp] theorem State.setCore_calls (s : State) (c : Nat) (x : CoreSt) : (s.setCore c x).calls = s.calls := rfl
@[simp] theorem State.setCore_reads (s : State) (c : Nat) (x : CoreSt) : (s.setCore c x).reads = s.reads := rfl
@[simp] theorem State.setCore_frames (s : State) (c : Nat) (x : CoreSt) : (s.setCore c x).frames = s.frames := rfl
@[simp] theorem State.setCore_saves (s : State) (c : Nat) (x : CoreSt) : (s.setCore c x).saves = s.saves := rfl
@[simp] theorem State.setCore_spares (s : State) (c : Nat) (x : CoreSt) : (s.setCore c x).spares = s.spares := rfl
theorem State.setCore_cores (s : State) (c : Nat) (x : CoreSt) : (s.setCore c x).cores = tabSet s.cores c x := rfl

/-! ## `State.setReeve` -/

@[simp] theorem State.setReeve_agenda (s : State) (c : Nat) (x : Reeve) : (s.setReeve c x).agenda = s.agenda := rfl
@[simp] theorem State.setReeve_curHand (s : State) (c : Nat) (x : Reeve) : (s.setReeve c x).curHand = s.curHand := rfl
@[simp] theorem State.setReeve_curReeve (s : State) (c : Nat) (x : Reeve) : (s.setReeve c x).curReeve = s.curReeve := rfl
@[simp] theorem State.setReeve_lockstep (s : State) (c : Nat) (x : Reeve) : (s.setReeve c x).lockstep = s.lockstep := rfl
@[simp] theorem State.setReeve_choice (s : State) (c : Nat) (x : Reeve) : (s.setReeve c x).choice = s.choice := rfl
@[simp] theorem State.setReeve_tick (s : State) (c : Nat) (x : Reeve) : (s.setReeve c x).tick = s.tick := rfl
@[simp] theorem State.setReeve_gtick (s : State) (c : Nat) (x : Reeve) : (s.setReeve c x).gtick = s.gtick := rfl
@[simp] theorem State.setReeve_mem (s : State) (c : Nat) (x : Reeve) : (s.setReeve c x).mem = s.mem := rfl
@[simp] theorem State.setReeve_poison (s : State) (c : Nat) (x : Reeve) : (s.setReeve c x).poison = s.poison := rfl
@[simp] theorem State.setReeve_resv (s : State) (c : Nat) (x : Reeve) : (s.setReeve c x).resv = s.resv := rfl
@[simp] theorem State.setReeve_hands (s : State) (c : Nat) (x : Reeve) : (s.setReeve c x).hands = s.hands := rfl
@[simp] theorem State.setReeve_cores (s : State) (c : Nat) (x : Reeve) : (s.setReeve c x).cores = s.cores := rfl
@[simp] theorem State.setReeve_parts (s : State) (c : Nat) (x : Reeve) : (s.setReeve c x).parts = s.parts := rfl
@[simp] theorem State.setReeve_queues (s : State) (c : Nat) (x : Reeve) : (s.setReeve c x).queues = s.queues := rfl
@[simp] theorem State.setReeve_farms (s : State) (c : Nat) (x : Reeve) : (s.setReeve c x).farms = s.farms := rfl
@[simp] theorem State.setReeve_nextFarm (s : State) (c : Nat) (x : Reeve) : (s.setReeve c x).nextFarm = s.nextFarm := rfl
@[simp] theorem State.setReeve_nextOrder (s : State) (c : Nat) (x : Reeve) : (s.setReeve c x).nextOrder = s.nextOrder := rfl
@[simp] theorem State.setReeve_groups (s : State) (c : Nat) (x : Reeve) : (s.setReeve c x).groups = s.groups := rfl
@[simp] theorem State.setReeve_barred (s : State) (c : Nat) (x : Reeve) : (s.setReeve c x).barred = s.barred := rfl
@[simp] theorem State.setReeve_insts (s : State) (c : Nat) (x : Reeve) : (s.setReeve c x).insts = s.insts := rfl
@[simp] theorem State.setReeve_slots (s : State) (c : Nat) (x : Reeve) : (s.setReeve c x).slots = s.slots := rfl
@[simp] theorem State.setReeve_counters (s : State) (c : Nat) (x : Reeve) : (s.setReeve c x).counters = s.counters := rfl
@[simp] theorem State.setReeve_inq (s : State) (c : Nat) (x : Reeve) : (s.setReeve c x).inq = s.inq := rfl
@[simp] theorem State.setReeve_outq (s : State) (c : Nat) (x : Reeve) : (s.setReeve c x).outq = s.outq := rfl
@[simp] theorem State.setReeve_outs (s : State) (c : Nat) (x : Reeve) : (s.setReeve c x).outs = s.outs := rfl
@[simp] theorem State.setReeve_nextTag (s : State) (c : Nat) (x : Reeve) : (s.setReeve c x).nextTag = s.nextTag := rfl
@[simp] theorem State.setReeve_hostq (s : State) (c : Nat) (x : Reeve) : (s.setReeve c x).hostq = s.hostq := rfl
@[simp] theorem State.setReeve_windows (s : State) (c : Nat) (x : Reeve) : (s.setReeve c x).windows = s.windows := rfl
@[simp] theorem State.setReeve_routes (s : State) (c : Nat) (x : Reeve) : (s.setReeve c x).routes = s.routes := rfl
@[simp] theorem State.setReeve_retries (s : State) (c : Nat) (x : Reeve) : (s.setReeve c x).retries = s.retries := rfl
@[simp] theorem State.setReeve_ports (s : State) (c : Nat) (x : Reeve) : (s.setReeve c x).ports = s.ports := rfl
@[simp] theorem State.setReeve_chans (s : State) (c : Nat) (x : Reeve) : (s.setReeve c x).chans = s.chans := rfl
@[simp] theorem State.setReeve_ctrls (s : State) (c : Nat) (x : Reeve) : (s.setReeve c x).ctrls = s.ctrls := rfl
@[simp] theorem State.setReeve_box (s : State) (c : Nat) (x : Reeve) : (s.setReeve c x).box = s.box := rfl
@[simp] theorem State.setReeve_flash (s : State) (c : Nat) (x : Reeve) : (s.setReeve c x).flash = s.flash := rfl
@[simp] theorem State.setReeve_unclean (s : State) (c : Nat) (x : Reeve) : (s.setReeve c x).unclean = s.unclean := rfl
@[simp] theorem State.setReeve_clamp (s : State) (c : Nat) (x : Reeve) : (s.setReeve c x).clamp = s.clamp := rfl
@[simp] theorem State.setReeve_shutdown (s : State) (c : Nat) (x : Reeve) : (s.setReeve c x).shutdown = s.shutdown := rfl
@[simp] theorem State.setReeve_refresh (s : State) (c : Nat) (x : Reeve) : (s.setReeve c x).refresh = s.refresh := rfl
@[simp] theorem State.setReeve_actCap (s : State) (c : Nat) (x : Reeve) : (s.setReeve c x).actCap = s.actCap := rfl
@[simp] theorem State.setReeve_calib (s : State) (c : Nat) (x : Reeve) : (s.setReeve c x).calib = s.calib := rfl
@[simp] theorem State.setReeve_boot (s : State) (c : Nat) (x : Reeve) : (s.setReeve c x).boot = s.boot := rfl
@[simp] theorem State.setReeve_bootHalt (s : State) (c : Nat) (x : Reeve) : (s.setReeve c x).bootHalt = s.bootHalt := rfl
@[simp] theorem State.setReeve_xmss (s : State) (c : Nat) (x : Reeve) : (s.setReeve c x).xmss = s.xmss := rfl
@[simp] theorem State.setReeve_aer (s : State) (c : Nat) (x : Reeve) : (s.setReeve c x).aer = s.aer := rfl
@[simp] theorem State.setReeve_msix (s : State) (c : Nat) (x : Reeve) : (s.setReeve c x).msix = s.msix := rfl
@[simp] theorem State.setReeve_msixTab (s : State) (c : Nat) (x : Reeve) : (s.setReeve c x).msixTab = s.msixTab := rfl
@[simp] theorem State.setReeve_hostRead (s : State) (c : Nat) (x : Reeve) : (s.setReeve c x).hostRead = s.hostRead := rfl
@[simp] theorem State.setReeve_hostTorn (s : State) (c : Nat) (x : Reeve) : (s.setReeve c x).hostTorn = s.hostTorn := rfl
@[simp] theorem State.setReeve_consumedAt (s : State) (c : Nat) (x : Reeve) : (s.setReeve c x).consumedAt = s.consumedAt := rfl
@[simp] theorem State.setReeve_barSizes (s : State) (c : Nat) (x : Reeve) : (s.setReeve c x).barSizes = s.barSizes := rfl
@[simp] theorem State.setReeve_mailbox (s : State) (c : Nat) (x : Reeve) : (s.setReeve c x).mailbox = s.mailbox := rfl
@[simp] theorem State.setReeve_reports (s : State) (c : Nat) (x : Reeve) : (s.setReeve c x).reports = s.reports := rfl
@[simp] theorem State.setReeve_calls (s : State) (c : Nat) (x : Reeve) : (s.setReeve c x).calls = s.calls := rfl
@[simp] theorem State.setReeve_reads (s : State) (c : Nat) (x : Reeve) : (s.setReeve c x).reads = s.reads := rfl
@[simp] theorem State.setReeve_frames (s : State) (c : Nat) (x : Reeve) : (s.setReeve c x).frames = s.frames := rfl
@[simp] theorem State.setReeve_saves (s : State) (c : Nat) (x : Reeve) : (s.setReeve c x).saves = s.saves := rfl
@[simp] theorem State.setReeve_spares (s : State) (c : Nat) (x : Reeve) : (s.setReeve c x).spares = s.spares := rfl
theorem State.setReeve_reeves (s : State) (c : Nat) (x : Reeve) : (s.setReeve c x).reeves = tabSet s.reeves c x := rfl

/-! ## `State.setPart` -/

@[simp] theorem State.setPart_agenda (s : State) (p : Nat) (x : Part) : (s.setPart p x).agenda = s.agenda := rfl
@[simp] theorem State.setPart_curHand (s : State) (p : Nat) (x : Part) : (s.setPart p x).curHand = s.curHand := rfl
@[simp] theorem State.setPart_curReeve (s : State) (p : Nat) (x : Part) : (s.setPart p x).curReeve = s.curReeve := rfl
@[simp] theorem State.setPart_lockstep (s : State) (p : Nat) (x : Part) : (s.setPart p x).lockstep = s.lockstep := rfl
@[simp] theorem State.setPart_choice (s : State) (p : Nat) (x : Part) : (s.setPart p x).choice = s.choice := rfl
@[simp] theorem State.setPart_tick (s : State) (p : Nat) (x : Part) : (s.setPart p x).tick = s.tick := rfl
@[simp] theorem State.setPart_gtick (s : State) (p : Nat) (x : Part) : (s.setPart p x).gtick = s.gtick := rfl
@[simp] theorem State.setPart_mem (s : State) (p : Nat) (x : Part) : (s.setPart p x).mem = s.mem := rfl
@[simp] theorem State.setPart_poison (s : State) (p : Nat) (x : Part) : (s.setPart p x).poison = s.poison := rfl
@[simp] theorem State.setPart_resv (s : State) (p : Nat) (x : Part) : (s.setPart p x).resv = s.resv := rfl
@[simp] theorem State.setPart_hands (s : State) (p : Nat) (x : Part) : (s.setPart p x).hands = s.hands := rfl
@[simp] theorem State.setPart_cores (s : State) (p : Nat) (x : Part) : (s.setPart p x).cores = s.cores := rfl
@[simp] theorem State.setPart_reeves (s : State) (p : Nat) (x : Part) : (s.setPart p x).reeves = s.reeves := rfl
@[simp] theorem State.setPart_queues (s : State) (p : Nat) (x : Part) : (s.setPart p x).queues = s.queues := rfl
@[simp] theorem State.setPart_farms (s : State) (p : Nat) (x : Part) : (s.setPart p x).farms = s.farms := rfl
@[simp] theorem State.setPart_nextFarm (s : State) (p : Nat) (x : Part) : (s.setPart p x).nextFarm = s.nextFarm := rfl
@[simp] theorem State.setPart_nextOrder (s : State) (p : Nat) (x : Part) : (s.setPart p x).nextOrder = s.nextOrder := rfl
@[simp] theorem State.setPart_groups (s : State) (p : Nat) (x : Part) : (s.setPart p x).groups = s.groups := rfl
@[simp] theorem State.setPart_barred (s : State) (p : Nat) (x : Part) : (s.setPart p x).barred = s.barred := rfl
@[simp] theorem State.setPart_insts (s : State) (p : Nat) (x : Part) : (s.setPart p x).insts = s.insts := rfl
@[simp] theorem State.setPart_slots (s : State) (p : Nat) (x : Part) : (s.setPart p x).slots = s.slots := rfl
@[simp] theorem State.setPart_counters (s : State) (p : Nat) (x : Part) : (s.setPart p x).counters = s.counters := rfl
@[simp] theorem State.setPart_inq (s : State) (p : Nat) (x : Part) : (s.setPart p x).inq = s.inq := rfl
@[simp] theorem State.setPart_outq (s : State) (p : Nat) (x : Part) : (s.setPart p x).outq = s.outq := rfl
@[simp] theorem State.setPart_outs (s : State) (p : Nat) (x : Part) : (s.setPart p x).outs = s.outs := rfl
@[simp] theorem State.setPart_nextTag (s : State) (p : Nat) (x : Part) : (s.setPart p x).nextTag = s.nextTag := rfl
@[simp] theorem State.setPart_hostq (s : State) (p : Nat) (x : Part) : (s.setPart p x).hostq = s.hostq := rfl
@[simp] theorem State.setPart_windows (s : State) (p : Nat) (x : Part) : (s.setPart p x).windows = s.windows := rfl
@[simp] theorem State.setPart_routes (s : State) (p : Nat) (x : Part) : (s.setPart p x).routes = s.routes := rfl
@[simp] theorem State.setPart_retries (s : State) (p : Nat) (x : Part) : (s.setPart p x).retries = s.retries := rfl
@[simp] theorem State.setPart_ports (s : State) (p : Nat) (x : Part) : (s.setPart p x).ports = s.ports := rfl
@[simp] theorem State.setPart_chans (s : State) (p : Nat) (x : Part) : (s.setPart p x).chans = s.chans := rfl
@[simp] theorem State.setPart_ctrls (s : State) (p : Nat) (x : Part) : (s.setPart p x).ctrls = s.ctrls := rfl
@[simp] theorem State.setPart_box (s : State) (p : Nat) (x : Part) : (s.setPart p x).box = s.box := rfl
@[simp] theorem State.setPart_flash (s : State) (p : Nat) (x : Part) : (s.setPart p x).flash = s.flash := rfl
@[simp] theorem State.setPart_unclean (s : State) (p : Nat) (x : Part) : (s.setPart p x).unclean = s.unclean := rfl
@[simp] theorem State.setPart_clamp (s : State) (p : Nat) (x : Part) : (s.setPart p x).clamp = s.clamp := rfl
@[simp] theorem State.setPart_shutdown (s : State) (p : Nat) (x : Part) : (s.setPart p x).shutdown = s.shutdown := rfl
@[simp] theorem State.setPart_refresh (s : State) (p : Nat) (x : Part) : (s.setPart p x).refresh = s.refresh := rfl
@[simp] theorem State.setPart_actCap (s : State) (p : Nat) (x : Part) : (s.setPart p x).actCap = s.actCap := rfl
@[simp] theorem State.setPart_calib (s : State) (p : Nat) (x : Part) : (s.setPart p x).calib = s.calib := rfl
@[simp] theorem State.setPart_boot (s : State) (p : Nat) (x : Part) : (s.setPart p x).boot = s.boot := rfl
@[simp] theorem State.setPart_bootHalt (s : State) (p : Nat) (x : Part) : (s.setPart p x).bootHalt = s.bootHalt := rfl
@[simp] theorem State.setPart_xmss (s : State) (p : Nat) (x : Part) : (s.setPart p x).xmss = s.xmss := rfl
@[simp] theorem State.setPart_aer (s : State) (p : Nat) (x : Part) : (s.setPart p x).aer = s.aer := rfl
@[simp] theorem State.setPart_msix (s : State) (p : Nat) (x : Part) : (s.setPart p x).msix = s.msix := rfl
@[simp] theorem State.setPart_msixTab (s : State) (p : Nat) (x : Part) : (s.setPart p x).msixTab = s.msixTab := rfl
@[simp] theorem State.setPart_hostRead (s : State) (p : Nat) (x : Part) : (s.setPart p x).hostRead = s.hostRead := rfl
@[simp] theorem State.setPart_hostTorn (s : State) (p : Nat) (x : Part) : (s.setPart p x).hostTorn = s.hostTorn := rfl
@[simp] theorem State.setPart_consumedAt (s : State) (p : Nat) (x : Part) : (s.setPart p x).consumedAt = s.consumedAt := rfl
@[simp] theorem State.setPart_barSizes (s : State) (p : Nat) (x : Part) : (s.setPart p x).barSizes = s.barSizes := rfl
@[simp] theorem State.setPart_mailbox (s : State) (p : Nat) (x : Part) : (s.setPart p x).mailbox = s.mailbox := rfl
@[simp] theorem State.setPart_reports (s : State) (p : Nat) (x : Part) : (s.setPart p x).reports = s.reports := rfl
@[simp] theorem State.setPart_calls (s : State) (p : Nat) (x : Part) : (s.setPart p x).calls = s.calls := rfl
@[simp] theorem State.setPart_reads (s : State) (p : Nat) (x : Part) : (s.setPart p x).reads = s.reads := rfl
@[simp] theorem State.setPart_frames (s : State) (p : Nat) (x : Part) : (s.setPart p x).frames = s.frames := rfl
@[simp] theorem State.setPart_saves (s : State) (p : Nat) (x : Part) : (s.setPart p x).saves = s.saves := rfl
@[simp] theorem State.setPart_spares (s : State) (p : Nat) (x : Part) : (s.setPart p x).spares = s.spares := rfl
theorem State.setPart_parts (s : State) (p : Nat) (x : Part) : (s.setPart p x).parts = tabSet s.parts p x := rfl

/-! ## `State.setQueue` -/

@[simp] theorem State.setQueue_agenda (s : State) (q : Nat) (x : Queue) : (s.setQueue q x).agenda = s.agenda := rfl
@[simp] theorem State.setQueue_curHand (s : State) (q : Nat) (x : Queue) : (s.setQueue q x).curHand = s.curHand := rfl
@[simp] theorem State.setQueue_curReeve (s : State) (q : Nat) (x : Queue) : (s.setQueue q x).curReeve = s.curReeve := rfl
@[simp] theorem State.setQueue_lockstep (s : State) (q : Nat) (x : Queue) : (s.setQueue q x).lockstep = s.lockstep := rfl
@[simp] theorem State.setQueue_choice (s : State) (q : Nat) (x : Queue) : (s.setQueue q x).choice = s.choice := rfl
@[simp] theorem State.setQueue_tick (s : State) (q : Nat) (x : Queue) : (s.setQueue q x).tick = s.tick := rfl
@[simp] theorem State.setQueue_gtick (s : State) (q : Nat) (x : Queue) : (s.setQueue q x).gtick = s.gtick := rfl
@[simp] theorem State.setQueue_mem (s : State) (q : Nat) (x : Queue) : (s.setQueue q x).mem = s.mem := rfl
@[simp] theorem State.setQueue_poison (s : State) (q : Nat) (x : Queue) : (s.setQueue q x).poison = s.poison := rfl
@[simp] theorem State.setQueue_resv (s : State) (q : Nat) (x : Queue) : (s.setQueue q x).resv = s.resv := rfl
@[simp] theorem State.setQueue_hands (s : State) (q : Nat) (x : Queue) : (s.setQueue q x).hands = s.hands := rfl
@[simp] theorem State.setQueue_cores (s : State) (q : Nat) (x : Queue) : (s.setQueue q x).cores = s.cores := rfl
@[simp] theorem State.setQueue_reeves (s : State) (q : Nat) (x : Queue) : (s.setQueue q x).reeves = s.reeves := rfl
@[simp] theorem State.setQueue_parts (s : State) (q : Nat) (x : Queue) : (s.setQueue q x).parts = s.parts := rfl
@[simp] theorem State.setQueue_farms (s : State) (q : Nat) (x : Queue) : (s.setQueue q x).farms = s.farms := rfl
@[simp] theorem State.setQueue_nextFarm (s : State) (q : Nat) (x : Queue) : (s.setQueue q x).nextFarm = s.nextFarm := rfl
@[simp] theorem State.setQueue_nextOrder (s : State) (q : Nat) (x : Queue) : (s.setQueue q x).nextOrder = s.nextOrder := rfl
@[simp] theorem State.setQueue_groups (s : State) (q : Nat) (x : Queue) : (s.setQueue q x).groups = s.groups := rfl
@[simp] theorem State.setQueue_barred (s : State) (q : Nat) (x : Queue) : (s.setQueue q x).barred = s.barred := rfl
@[simp] theorem State.setQueue_insts (s : State) (q : Nat) (x : Queue) : (s.setQueue q x).insts = s.insts := rfl
@[simp] theorem State.setQueue_slots (s : State) (q : Nat) (x : Queue) : (s.setQueue q x).slots = s.slots := rfl
@[simp] theorem State.setQueue_counters (s : State) (q : Nat) (x : Queue) : (s.setQueue q x).counters = s.counters := rfl
@[simp] theorem State.setQueue_inq (s : State) (q : Nat) (x : Queue) : (s.setQueue q x).inq = s.inq := rfl
@[simp] theorem State.setQueue_outq (s : State) (q : Nat) (x : Queue) : (s.setQueue q x).outq = s.outq := rfl
@[simp] theorem State.setQueue_outs (s : State) (q : Nat) (x : Queue) : (s.setQueue q x).outs = s.outs := rfl
@[simp] theorem State.setQueue_nextTag (s : State) (q : Nat) (x : Queue) : (s.setQueue q x).nextTag = s.nextTag := rfl
@[simp] theorem State.setQueue_hostq (s : State) (q : Nat) (x : Queue) : (s.setQueue q x).hostq = s.hostq := rfl
@[simp] theorem State.setQueue_windows (s : State) (q : Nat) (x : Queue) : (s.setQueue q x).windows = s.windows := rfl
@[simp] theorem State.setQueue_routes (s : State) (q : Nat) (x : Queue) : (s.setQueue q x).routes = s.routes := rfl
@[simp] theorem State.setQueue_retries (s : State) (q : Nat) (x : Queue) : (s.setQueue q x).retries = s.retries := rfl
@[simp] theorem State.setQueue_ports (s : State) (q : Nat) (x : Queue) : (s.setQueue q x).ports = s.ports := rfl
@[simp] theorem State.setQueue_chans (s : State) (q : Nat) (x : Queue) : (s.setQueue q x).chans = s.chans := rfl
@[simp] theorem State.setQueue_ctrls (s : State) (q : Nat) (x : Queue) : (s.setQueue q x).ctrls = s.ctrls := rfl
@[simp] theorem State.setQueue_box (s : State) (q : Nat) (x : Queue) : (s.setQueue q x).box = s.box := rfl
@[simp] theorem State.setQueue_flash (s : State) (q : Nat) (x : Queue) : (s.setQueue q x).flash = s.flash := rfl
@[simp] theorem State.setQueue_unclean (s : State) (q : Nat) (x : Queue) : (s.setQueue q x).unclean = s.unclean := rfl
@[simp] theorem State.setQueue_clamp (s : State) (q : Nat) (x : Queue) : (s.setQueue q x).clamp = s.clamp := rfl
@[simp] theorem State.setQueue_shutdown (s : State) (q : Nat) (x : Queue) : (s.setQueue q x).shutdown = s.shutdown := rfl
@[simp] theorem State.setQueue_refresh (s : State) (q : Nat) (x : Queue) : (s.setQueue q x).refresh = s.refresh := rfl
@[simp] theorem State.setQueue_actCap (s : State) (q : Nat) (x : Queue) : (s.setQueue q x).actCap = s.actCap := rfl
@[simp] theorem State.setQueue_calib (s : State) (q : Nat) (x : Queue) : (s.setQueue q x).calib = s.calib := rfl
@[simp] theorem State.setQueue_boot (s : State) (q : Nat) (x : Queue) : (s.setQueue q x).boot = s.boot := rfl
@[simp] theorem State.setQueue_bootHalt (s : State) (q : Nat) (x : Queue) : (s.setQueue q x).bootHalt = s.bootHalt := rfl
@[simp] theorem State.setQueue_xmss (s : State) (q : Nat) (x : Queue) : (s.setQueue q x).xmss = s.xmss := rfl
@[simp] theorem State.setQueue_aer (s : State) (q : Nat) (x : Queue) : (s.setQueue q x).aer = s.aer := rfl
@[simp] theorem State.setQueue_msix (s : State) (q : Nat) (x : Queue) : (s.setQueue q x).msix = s.msix := rfl
@[simp] theorem State.setQueue_msixTab (s : State) (q : Nat) (x : Queue) : (s.setQueue q x).msixTab = s.msixTab := rfl
@[simp] theorem State.setQueue_hostRead (s : State) (q : Nat) (x : Queue) : (s.setQueue q x).hostRead = s.hostRead := rfl
@[simp] theorem State.setQueue_hostTorn (s : State) (q : Nat) (x : Queue) : (s.setQueue q x).hostTorn = s.hostTorn := rfl
@[simp] theorem State.setQueue_consumedAt (s : State) (q : Nat) (x : Queue) : (s.setQueue q x).consumedAt = s.consumedAt := rfl
@[simp] theorem State.setQueue_barSizes (s : State) (q : Nat) (x : Queue) : (s.setQueue q x).barSizes = s.barSizes := rfl
@[simp] theorem State.setQueue_mailbox (s : State) (q : Nat) (x : Queue) : (s.setQueue q x).mailbox = s.mailbox := rfl
@[simp] theorem State.setQueue_reports (s : State) (q : Nat) (x : Queue) : (s.setQueue q x).reports = s.reports := rfl
@[simp] theorem State.setQueue_calls (s : State) (q : Nat) (x : Queue) : (s.setQueue q x).calls = s.calls := rfl
@[simp] theorem State.setQueue_reads (s : State) (q : Nat) (x : Queue) : (s.setQueue q x).reads = s.reads := rfl
@[simp] theorem State.setQueue_frames (s : State) (q : Nat) (x : Queue) : (s.setQueue q x).frames = s.frames := rfl
@[simp] theorem State.setQueue_saves (s : State) (q : Nat) (x : Queue) : (s.setQueue q x).saves = s.saves := rfl
@[simp] theorem State.setQueue_spares (s : State) (q : Nat) (x : Queue) : (s.setQueue q x).spares = s.spares := rfl
theorem State.setQueue_queues (s : State) (q : Nat) (x : Queue) : (s.setQueue q x).queues = tabSet s.queues q x := rfl

/-! ## `State.setCtrl` -/

@[simp] theorem State.setCtrl_agenda (s : State) (g : Nat) (x : Ctrl) : (s.setCtrl g x).agenda = s.agenda := rfl
@[simp] theorem State.setCtrl_curHand (s : State) (g : Nat) (x : Ctrl) : (s.setCtrl g x).curHand = s.curHand := rfl
@[simp] theorem State.setCtrl_curReeve (s : State) (g : Nat) (x : Ctrl) : (s.setCtrl g x).curReeve = s.curReeve := rfl
@[simp] theorem State.setCtrl_lockstep (s : State) (g : Nat) (x : Ctrl) : (s.setCtrl g x).lockstep = s.lockstep := rfl
@[simp] theorem State.setCtrl_choice (s : State) (g : Nat) (x : Ctrl) : (s.setCtrl g x).choice = s.choice := rfl
@[simp] theorem State.setCtrl_tick (s : State) (g : Nat) (x : Ctrl) : (s.setCtrl g x).tick = s.tick := rfl
@[simp] theorem State.setCtrl_gtick (s : State) (g : Nat) (x : Ctrl) : (s.setCtrl g x).gtick = s.gtick := rfl
@[simp] theorem State.setCtrl_mem (s : State) (g : Nat) (x : Ctrl) : (s.setCtrl g x).mem = s.mem := rfl
@[simp] theorem State.setCtrl_poison (s : State) (g : Nat) (x : Ctrl) : (s.setCtrl g x).poison = s.poison := rfl
@[simp] theorem State.setCtrl_resv (s : State) (g : Nat) (x : Ctrl) : (s.setCtrl g x).resv = s.resv := rfl
@[simp] theorem State.setCtrl_hands (s : State) (g : Nat) (x : Ctrl) : (s.setCtrl g x).hands = s.hands := rfl
@[simp] theorem State.setCtrl_cores (s : State) (g : Nat) (x : Ctrl) : (s.setCtrl g x).cores = s.cores := rfl
@[simp] theorem State.setCtrl_reeves (s : State) (g : Nat) (x : Ctrl) : (s.setCtrl g x).reeves = s.reeves := rfl
@[simp] theorem State.setCtrl_parts (s : State) (g : Nat) (x : Ctrl) : (s.setCtrl g x).parts = s.parts := rfl
@[simp] theorem State.setCtrl_queues (s : State) (g : Nat) (x : Ctrl) : (s.setCtrl g x).queues = s.queues := rfl
@[simp] theorem State.setCtrl_farms (s : State) (g : Nat) (x : Ctrl) : (s.setCtrl g x).farms = s.farms := rfl
@[simp] theorem State.setCtrl_nextFarm (s : State) (g : Nat) (x : Ctrl) : (s.setCtrl g x).nextFarm = s.nextFarm := rfl
@[simp] theorem State.setCtrl_nextOrder (s : State) (g : Nat) (x : Ctrl) : (s.setCtrl g x).nextOrder = s.nextOrder := rfl
@[simp] theorem State.setCtrl_groups (s : State) (g : Nat) (x : Ctrl) : (s.setCtrl g x).groups = s.groups := rfl
@[simp] theorem State.setCtrl_barred (s : State) (g : Nat) (x : Ctrl) : (s.setCtrl g x).barred = s.barred := rfl
@[simp] theorem State.setCtrl_insts (s : State) (g : Nat) (x : Ctrl) : (s.setCtrl g x).insts = s.insts := rfl
@[simp] theorem State.setCtrl_slots (s : State) (g : Nat) (x : Ctrl) : (s.setCtrl g x).slots = s.slots := rfl
@[simp] theorem State.setCtrl_counters (s : State) (g : Nat) (x : Ctrl) : (s.setCtrl g x).counters = s.counters := rfl
@[simp] theorem State.setCtrl_inq (s : State) (g : Nat) (x : Ctrl) : (s.setCtrl g x).inq = s.inq := rfl
@[simp] theorem State.setCtrl_outq (s : State) (g : Nat) (x : Ctrl) : (s.setCtrl g x).outq = s.outq := rfl
@[simp] theorem State.setCtrl_outs (s : State) (g : Nat) (x : Ctrl) : (s.setCtrl g x).outs = s.outs := rfl
@[simp] theorem State.setCtrl_nextTag (s : State) (g : Nat) (x : Ctrl) : (s.setCtrl g x).nextTag = s.nextTag := rfl
@[simp] theorem State.setCtrl_hostq (s : State) (g : Nat) (x : Ctrl) : (s.setCtrl g x).hostq = s.hostq := rfl
@[simp] theorem State.setCtrl_windows (s : State) (g : Nat) (x : Ctrl) : (s.setCtrl g x).windows = s.windows := rfl
@[simp] theorem State.setCtrl_routes (s : State) (g : Nat) (x : Ctrl) : (s.setCtrl g x).routes = s.routes := rfl
@[simp] theorem State.setCtrl_retries (s : State) (g : Nat) (x : Ctrl) : (s.setCtrl g x).retries = s.retries := rfl
@[simp] theorem State.setCtrl_ports (s : State) (g : Nat) (x : Ctrl) : (s.setCtrl g x).ports = s.ports := rfl
@[simp] theorem State.setCtrl_chans (s : State) (g : Nat) (x : Ctrl) : (s.setCtrl g x).chans = s.chans := rfl
@[simp] theorem State.setCtrl_box (s : State) (g : Nat) (x : Ctrl) : (s.setCtrl g x).box = s.box := rfl
@[simp] theorem State.setCtrl_flash (s : State) (g : Nat) (x : Ctrl) : (s.setCtrl g x).flash = s.flash := rfl
@[simp] theorem State.setCtrl_unclean (s : State) (g : Nat) (x : Ctrl) : (s.setCtrl g x).unclean = s.unclean := rfl
@[simp] theorem State.setCtrl_clamp (s : State) (g : Nat) (x : Ctrl) : (s.setCtrl g x).clamp = s.clamp := rfl
@[simp] theorem State.setCtrl_shutdown (s : State) (g : Nat) (x : Ctrl) : (s.setCtrl g x).shutdown = s.shutdown := rfl
@[simp] theorem State.setCtrl_refresh (s : State) (g : Nat) (x : Ctrl) : (s.setCtrl g x).refresh = s.refresh := rfl
@[simp] theorem State.setCtrl_actCap (s : State) (g : Nat) (x : Ctrl) : (s.setCtrl g x).actCap = s.actCap := rfl
@[simp] theorem State.setCtrl_calib (s : State) (g : Nat) (x : Ctrl) : (s.setCtrl g x).calib = s.calib := rfl
@[simp] theorem State.setCtrl_boot (s : State) (g : Nat) (x : Ctrl) : (s.setCtrl g x).boot = s.boot := rfl
@[simp] theorem State.setCtrl_bootHalt (s : State) (g : Nat) (x : Ctrl) : (s.setCtrl g x).bootHalt = s.bootHalt := rfl
@[simp] theorem State.setCtrl_xmss (s : State) (g : Nat) (x : Ctrl) : (s.setCtrl g x).xmss = s.xmss := rfl
@[simp] theorem State.setCtrl_aer (s : State) (g : Nat) (x : Ctrl) : (s.setCtrl g x).aer = s.aer := rfl
@[simp] theorem State.setCtrl_msix (s : State) (g : Nat) (x : Ctrl) : (s.setCtrl g x).msix = s.msix := rfl
@[simp] theorem State.setCtrl_msixTab (s : State) (g : Nat) (x : Ctrl) : (s.setCtrl g x).msixTab = s.msixTab := rfl
@[simp] theorem State.setCtrl_hostRead (s : State) (g : Nat) (x : Ctrl) : (s.setCtrl g x).hostRead = s.hostRead := rfl
@[simp] theorem State.setCtrl_hostTorn (s : State) (g : Nat) (x : Ctrl) : (s.setCtrl g x).hostTorn = s.hostTorn := rfl
@[simp] theorem State.setCtrl_consumedAt (s : State) (g : Nat) (x : Ctrl) : (s.setCtrl g x).consumedAt = s.consumedAt := rfl
@[simp] theorem State.setCtrl_barSizes (s : State) (g : Nat) (x : Ctrl) : (s.setCtrl g x).barSizes = s.barSizes := rfl
@[simp] theorem State.setCtrl_mailbox (s : State) (g : Nat) (x : Ctrl) : (s.setCtrl g x).mailbox = s.mailbox := rfl
@[simp] theorem State.setCtrl_reports (s : State) (g : Nat) (x : Ctrl) : (s.setCtrl g x).reports = s.reports := rfl
@[simp] theorem State.setCtrl_calls (s : State) (g : Nat) (x : Ctrl) : (s.setCtrl g x).calls = s.calls := rfl
@[simp] theorem State.setCtrl_reads (s : State) (g : Nat) (x : Ctrl) : (s.setCtrl g x).reads = s.reads := rfl
@[simp] theorem State.setCtrl_frames (s : State) (g : Nat) (x : Ctrl) : (s.setCtrl g x).frames = s.frames := rfl
@[simp] theorem State.setCtrl_saves (s : State) (g : Nat) (x : Ctrl) : (s.setCtrl g x).saves = s.saves := rfl
@[simp] theorem State.setCtrl_spares (s : State) (g : Nat) (x : Ctrl) : (s.setCtrl g x).spares = s.spares := rfl
theorem State.setCtrl_ctrls (s : State) (g : Nat) (x : Ctrl) : (s.setCtrl g x).ctrls = tabSet s.ctrls g x := rfl

/-! ## `State.setMe`, `State.updFarm`, `State.used` -/

@[simp] theorem State.setMe_agenda (s : State) (x : Hand) : (s.setMe x).agenda = s.agenda := rfl
@[simp] theorem State.setMe_curHand (s : State) (x : Hand) : (s.setMe x).curHand = s.curHand := rfl
@[simp] theorem State.setMe_curReeve (s : State) (x : Hand) : (s.setMe x).curReeve = s.curReeve := rfl
@[simp] theorem State.setMe_lockstep (s : State) (x : Hand) : (s.setMe x).lockstep = s.lockstep := rfl
@[simp] theorem State.setMe_choice (s : State) (x : Hand) : (s.setMe x).choice = s.choice := rfl
@[simp] theorem State.setMe_tick (s : State) (x : Hand) : (s.setMe x).tick = s.tick := rfl
@[simp] theorem State.setMe_gtick (s : State) (x : Hand) : (s.setMe x).gtick = s.gtick := rfl
@[simp] theorem State.setMe_mem (s : State) (x : Hand) : (s.setMe x).mem = s.mem := rfl
@[simp] theorem State.setMe_poison (s : State) (x : Hand) : (s.setMe x).poison = s.poison := rfl
@[simp] theorem State.setMe_resv (s : State) (x : Hand) : (s.setMe x).resv = s.resv := rfl
@[simp] theorem State.setMe_cores (s : State) (x : Hand) : (s.setMe x).cores = s.cores := rfl
@[simp] theorem State.setMe_reeves (s : State) (x : Hand) : (s.setMe x).reeves = s.reeves := rfl
@[simp] theorem State.setMe_parts (s : State) (x : Hand) : (s.setMe x).parts = s.parts := rfl
@[simp] theorem State.setMe_queues (s : State) (x : Hand) : (s.setMe x).queues = s.queues := rfl
@[simp] theorem State.setMe_farms (s : State) (x : Hand) : (s.setMe x).farms = s.farms := rfl
@[simp] theorem State.setMe_nextFarm (s : State) (x : Hand) : (s.setMe x).nextFarm = s.nextFarm := rfl
@[simp] theorem State.setMe_nextOrder (s : State) (x : Hand) : (s.setMe x).nextOrder = s.nextOrder := rfl
@[simp] theorem State.setMe_groups (s : State) (x : Hand) : (s.setMe x).groups = s.groups := rfl
@[simp] theorem State.setMe_barred (s : State) (x : Hand) : (s.setMe x).barred = s.barred := rfl
@[simp] theorem State.setMe_insts (s : State) (x : Hand) : (s.setMe x).insts = s.insts := rfl
@[simp] theorem State.setMe_slots (s : State) (x : Hand) : (s.setMe x).slots = s.slots := rfl
@[simp] theorem State.setMe_counters (s : State) (x : Hand) : (s.setMe x).counters = s.counters := rfl
@[simp] theorem State.setMe_inq (s : State) (x : Hand) : (s.setMe x).inq = s.inq := rfl
@[simp] theorem State.setMe_outq (s : State) (x : Hand) : (s.setMe x).outq = s.outq := rfl
@[simp] theorem State.setMe_outs (s : State) (x : Hand) : (s.setMe x).outs = s.outs := rfl
@[simp] theorem State.setMe_nextTag (s : State) (x : Hand) : (s.setMe x).nextTag = s.nextTag := rfl
@[simp] theorem State.setMe_hostq (s : State) (x : Hand) : (s.setMe x).hostq = s.hostq := rfl
@[simp] theorem State.setMe_windows (s : State) (x : Hand) : (s.setMe x).windows = s.windows := rfl
@[simp] theorem State.setMe_routes (s : State) (x : Hand) : (s.setMe x).routes = s.routes := rfl
@[simp] theorem State.setMe_retries (s : State) (x : Hand) : (s.setMe x).retries = s.retries := rfl
@[simp] theorem State.setMe_ports (s : State) (x : Hand) : (s.setMe x).ports = s.ports := rfl
@[simp] theorem State.setMe_chans (s : State) (x : Hand) : (s.setMe x).chans = s.chans := rfl
@[simp] theorem State.setMe_ctrls (s : State) (x : Hand) : (s.setMe x).ctrls = s.ctrls := rfl
@[simp] theorem State.setMe_box (s : State) (x : Hand) : (s.setMe x).box = s.box := rfl
@[simp] theorem State.setMe_flash (s : State) (x : Hand) : (s.setMe x).flash = s.flash := rfl
@[simp] theorem State.setMe_unclean (s : State) (x : Hand) : (s.setMe x).unclean = s.unclean := rfl
@[simp] theorem State.setMe_clamp (s : State) (x : Hand) : (s.setMe x).clamp = s.clamp := rfl
@[simp] theorem State.setMe_shutdown (s : State) (x : Hand) : (s.setMe x).shutdown = s.shutdown := rfl
@[simp] theorem State.setMe_refresh (s : State) (x : Hand) : (s.setMe x).refresh = s.refresh := rfl
@[simp] theorem State.setMe_actCap (s : State) (x : Hand) : (s.setMe x).actCap = s.actCap := rfl
@[simp] theorem State.setMe_calib (s : State) (x : Hand) : (s.setMe x).calib = s.calib := rfl
@[simp] theorem State.setMe_boot (s : State) (x : Hand) : (s.setMe x).boot = s.boot := rfl
@[simp] theorem State.setMe_bootHalt (s : State) (x : Hand) : (s.setMe x).bootHalt = s.bootHalt := rfl
@[simp] theorem State.setMe_xmss (s : State) (x : Hand) : (s.setMe x).xmss = s.xmss := rfl
@[simp] theorem State.setMe_aer (s : State) (x : Hand) : (s.setMe x).aer = s.aer := rfl
@[simp] theorem State.setMe_msix (s : State) (x : Hand) : (s.setMe x).msix = s.msix := rfl
@[simp] theorem State.setMe_msixTab (s : State) (x : Hand) : (s.setMe x).msixTab = s.msixTab := rfl
@[simp] theorem State.setMe_hostRead (s : State) (x : Hand) : (s.setMe x).hostRead = s.hostRead := rfl
@[simp] theorem State.setMe_hostTorn (s : State) (x : Hand) : (s.setMe x).hostTorn = s.hostTorn := rfl
@[simp] theorem State.setMe_consumedAt (s : State) (x : Hand) : (s.setMe x).consumedAt = s.consumedAt := rfl
@[simp] theorem State.setMe_barSizes (s : State) (x : Hand) : (s.setMe x).barSizes = s.barSizes := rfl
@[simp] theorem State.setMe_mailbox (s : State) (x : Hand) : (s.setMe x).mailbox = s.mailbox := rfl
@[simp] theorem State.setMe_reports (s : State) (x : Hand) : (s.setMe x).reports = s.reports := rfl
@[simp] theorem State.setMe_calls (s : State) (x : Hand) : (s.setMe x).calls = s.calls := rfl
@[simp] theorem State.setMe_reads (s : State) (x : Hand) : (s.setMe x).reads = s.reads := rfl
@[simp] theorem State.setMe_frames (s : State) (x : Hand) : (s.setMe x).frames = s.frames := rfl
@[simp] theorem State.setMe_saves (s : State) (x : Hand) : (s.setMe x).saves = s.saves := rfl
@[simp] theorem State.setMe_spares (s : State) (x : Hand) : (s.setMe x).spares = s.spares := rfl
@[simp] theorem State.updFarm_agenda (s : State) (f : Nat) (k : Farm → Farm) : (s.updFarm f k).agenda = s.agenda := rfl
@[simp] theorem State.updFarm_curHand (s : State) (f : Nat) (k : Farm → Farm) : (s.updFarm f k).curHand = s.curHand := rfl
@[simp] theorem State.updFarm_curReeve (s : State) (f : Nat) (k : Farm → Farm) : (s.updFarm f k).curReeve = s.curReeve := rfl
@[simp] theorem State.updFarm_lockstep (s : State) (f : Nat) (k : Farm → Farm) : (s.updFarm f k).lockstep = s.lockstep := rfl
@[simp] theorem State.updFarm_choice (s : State) (f : Nat) (k : Farm → Farm) : (s.updFarm f k).choice = s.choice := rfl
@[simp] theorem State.updFarm_tick (s : State) (f : Nat) (k : Farm → Farm) : (s.updFarm f k).tick = s.tick := rfl
@[simp] theorem State.updFarm_gtick (s : State) (f : Nat) (k : Farm → Farm) : (s.updFarm f k).gtick = s.gtick := rfl
@[simp] theorem State.updFarm_mem (s : State) (f : Nat) (k : Farm → Farm) : (s.updFarm f k).mem = s.mem := rfl
@[simp] theorem State.updFarm_poison (s : State) (f : Nat) (k : Farm → Farm) : (s.updFarm f k).poison = s.poison := rfl
@[simp] theorem State.updFarm_resv (s : State) (f : Nat) (k : Farm → Farm) : (s.updFarm f k).resv = s.resv := rfl
@[simp] theorem State.updFarm_hands (s : State) (f : Nat) (k : Farm → Farm) : (s.updFarm f k).hands = s.hands := rfl
@[simp] theorem State.updFarm_cores (s : State) (f : Nat) (k : Farm → Farm) : (s.updFarm f k).cores = s.cores := rfl
@[simp] theorem State.updFarm_reeves (s : State) (f : Nat) (k : Farm → Farm) : (s.updFarm f k).reeves = s.reeves := rfl
@[simp] theorem State.updFarm_parts (s : State) (f : Nat) (k : Farm → Farm) : (s.updFarm f k).parts = s.parts := rfl
@[simp] theorem State.updFarm_queues (s : State) (f : Nat) (k : Farm → Farm) : (s.updFarm f k).queues = s.queues := rfl
@[simp] theorem State.updFarm_nextFarm (s : State) (f : Nat) (k : Farm → Farm) : (s.updFarm f k).nextFarm = s.nextFarm := rfl
@[simp] theorem State.updFarm_nextOrder (s : State) (f : Nat) (k : Farm → Farm) : (s.updFarm f k).nextOrder = s.nextOrder := rfl
@[simp] theorem State.updFarm_groups (s : State) (f : Nat) (k : Farm → Farm) : (s.updFarm f k).groups = s.groups := rfl
@[simp] theorem State.updFarm_barred (s : State) (f : Nat) (k : Farm → Farm) : (s.updFarm f k).barred = s.barred := rfl
@[simp] theorem State.updFarm_insts (s : State) (f : Nat) (k : Farm → Farm) : (s.updFarm f k).insts = s.insts := rfl
@[simp] theorem State.updFarm_slots (s : State) (f : Nat) (k : Farm → Farm) : (s.updFarm f k).slots = s.slots := rfl
@[simp] theorem State.updFarm_counters (s : State) (f : Nat) (k : Farm → Farm) : (s.updFarm f k).counters = s.counters := rfl
@[simp] theorem State.updFarm_inq (s : State) (f : Nat) (k : Farm → Farm) : (s.updFarm f k).inq = s.inq := rfl
@[simp] theorem State.updFarm_outq (s : State) (f : Nat) (k : Farm → Farm) : (s.updFarm f k).outq = s.outq := rfl
@[simp] theorem State.updFarm_outs (s : State) (f : Nat) (k : Farm → Farm) : (s.updFarm f k).outs = s.outs := rfl
@[simp] theorem State.updFarm_nextTag (s : State) (f : Nat) (k : Farm → Farm) : (s.updFarm f k).nextTag = s.nextTag := rfl
@[simp] theorem State.updFarm_hostq (s : State) (f : Nat) (k : Farm → Farm) : (s.updFarm f k).hostq = s.hostq := rfl
@[simp] theorem State.updFarm_windows (s : State) (f : Nat) (k : Farm → Farm) : (s.updFarm f k).windows = s.windows := rfl
@[simp] theorem State.updFarm_routes (s : State) (f : Nat) (k : Farm → Farm) : (s.updFarm f k).routes = s.routes := rfl
@[simp] theorem State.updFarm_retries (s : State) (f : Nat) (k : Farm → Farm) : (s.updFarm f k).retries = s.retries := rfl
@[simp] theorem State.updFarm_ports (s : State) (f : Nat) (k : Farm → Farm) : (s.updFarm f k).ports = s.ports := rfl
@[simp] theorem State.updFarm_chans (s : State) (f : Nat) (k : Farm → Farm) : (s.updFarm f k).chans = s.chans := rfl
@[simp] theorem State.updFarm_ctrls (s : State) (f : Nat) (k : Farm → Farm) : (s.updFarm f k).ctrls = s.ctrls := rfl
@[simp] theorem State.updFarm_box (s : State) (f : Nat) (k : Farm → Farm) : (s.updFarm f k).box = s.box := rfl
@[simp] theorem State.updFarm_flash (s : State) (f : Nat) (k : Farm → Farm) : (s.updFarm f k).flash = s.flash := rfl
@[simp] theorem State.updFarm_unclean (s : State) (f : Nat) (k : Farm → Farm) : (s.updFarm f k).unclean = s.unclean := rfl
@[simp] theorem State.updFarm_clamp (s : State) (f : Nat) (k : Farm → Farm) : (s.updFarm f k).clamp = s.clamp := rfl
@[simp] theorem State.updFarm_shutdown (s : State) (f : Nat) (k : Farm → Farm) : (s.updFarm f k).shutdown = s.shutdown := rfl
@[simp] theorem State.updFarm_refresh (s : State) (f : Nat) (k : Farm → Farm) : (s.updFarm f k).refresh = s.refresh := rfl
@[simp] theorem State.updFarm_actCap (s : State) (f : Nat) (k : Farm → Farm) : (s.updFarm f k).actCap = s.actCap := rfl
@[simp] theorem State.updFarm_calib (s : State) (f : Nat) (k : Farm → Farm) : (s.updFarm f k).calib = s.calib := rfl
@[simp] theorem State.updFarm_boot (s : State) (f : Nat) (k : Farm → Farm) : (s.updFarm f k).boot = s.boot := rfl
@[simp] theorem State.updFarm_bootHalt (s : State) (f : Nat) (k : Farm → Farm) : (s.updFarm f k).bootHalt = s.bootHalt := rfl
@[simp] theorem State.updFarm_xmss (s : State) (f : Nat) (k : Farm → Farm) : (s.updFarm f k).xmss = s.xmss := rfl
@[simp] theorem State.updFarm_aer (s : State) (f : Nat) (k : Farm → Farm) : (s.updFarm f k).aer = s.aer := rfl
@[simp] theorem State.updFarm_msix (s : State) (f : Nat) (k : Farm → Farm) : (s.updFarm f k).msix = s.msix := rfl
@[simp] theorem State.updFarm_msixTab (s : State) (f : Nat) (k : Farm → Farm) : (s.updFarm f k).msixTab = s.msixTab := rfl
@[simp] theorem State.updFarm_hostRead (s : State) (f : Nat) (k : Farm → Farm) : (s.updFarm f k).hostRead = s.hostRead := rfl
@[simp] theorem State.updFarm_hostTorn (s : State) (f : Nat) (k : Farm → Farm) : (s.updFarm f k).hostTorn = s.hostTorn := rfl
@[simp] theorem State.updFarm_consumedAt (s : State) (f : Nat) (k : Farm → Farm) : (s.updFarm f k).consumedAt = s.consumedAt := rfl
@[simp] theorem State.updFarm_barSizes (s : State) (f : Nat) (k : Farm → Farm) : (s.updFarm f k).barSizes = s.barSizes := rfl
@[simp] theorem State.updFarm_mailbox (s : State) (f : Nat) (k : Farm → Farm) : (s.updFarm f k).mailbox = s.mailbox := rfl
@[simp] theorem State.updFarm_reports (s : State) (f : Nat) (k : Farm → Farm) : (s.updFarm f k).reports = s.reports := rfl
@[simp] theorem State.updFarm_calls (s : State) (f : Nat) (k : Farm → Farm) : (s.updFarm f k).calls = s.calls := rfl
@[simp] theorem State.updFarm_reads (s : State) (f : Nat) (k : Farm → Farm) : (s.updFarm f k).reads = s.reads := rfl
@[simp] theorem State.updFarm_frames (s : State) (f : Nat) (k : Farm → Farm) : (s.updFarm f k).frames = s.frames := rfl
@[simp] theorem State.updFarm_saves (s : State) (f : Nat) (k : Farm → Farm) : (s.updFarm f k).saves = s.saves := rfl
@[simp] theorem State.updFarm_spares (s : State) (f : Nat) (k : Farm → Farm) : (s.updFarm f k).spares = s.spares := rfl
@[simp] theorem State.used_agenda (s : State) : s.used.agenda = s.agenda := rfl
@[simp] theorem State.used_curHand (s : State) : s.used.curHand = s.curHand := rfl
@[simp] theorem State.used_curReeve (s : State) : s.used.curReeve = s.curReeve := rfl
@[simp] theorem State.used_lockstep (s : State) : s.used.lockstep = s.lockstep := rfl
@[simp] theorem State.used_tick (s : State) : s.used.tick = s.tick := rfl
@[simp] theorem State.used_gtick (s : State) : s.used.gtick = s.gtick := rfl
@[simp] theorem State.used_mem (s : State) : s.used.mem = s.mem := rfl
@[simp] theorem State.used_poison (s : State) : s.used.poison = s.poison := rfl
@[simp] theorem State.used_resv (s : State) : s.used.resv = s.resv := rfl
@[simp] theorem State.used_hands (s : State) : s.used.hands = s.hands := rfl
@[simp] theorem State.used_cores (s : State) : s.used.cores = s.cores := rfl
@[simp] theorem State.used_reeves (s : State) : s.used.reeves = s.reeves := rfl
@[simp] theorem State.used_parts (s : State) : s.used.parts = s.parts := rfl
@[simp] theorem State.used_queues (s : State) : s.used.queues = s.queues := rfl
@[simp] theorem State.used_farms (s : State) : s.used.farms = s.farms := rfl
@[simp] theorem State.used_nextFarm (s : State) : s.used.nextFarm = s.nextFarm := rfl
@[simp] theorem State.used_nextOrder (s : State) : s.used.nextOrder = s.nextOrder := rfl
@[simp] theorem State.used_groups (s : State) : s.used.groups = s.groups := rfl
@[simp] theorem State.used_barred (s : State) : s.used.barred = s.barred := rfl
@[simp] theorem State.used_insts (s : State) : s.used.insts = s.insts := rfl
@[simp] theorem State.used_slots (s : State) : s.used.slots = s.slots := rfl
@[simp] theorem State.used_counters (s : State) : s.used.counters = s.counters := rfl
@[simp] theorem State.used_inq (s : State) : s.used.inq = s.inq := rfl
@[simp] theorem State.used_outq (s : State) : s.used.outq = s.outq := rfl
@[simp] theorem State.used_outs (s : State) : s.used.outs = s.outs := rfl
@[simp] theorem State.used_nextTag (s : State) : s.used.nextTag = s.nextTag := rfl
@[simp] theorem State.used_hostq (s : State) : s.used.hostq = s.hostq := rfl
@[simp] theorem State.used_windows (s : State) : s.used.windows = s.windows := rfl
@[simp] theorem State.used_routes (s : State) : s.used.routes = s.routes := rfl
@[simp] theorem State.used_retries (s : State) : s.used.retries = s.retries := rfl
@[simp] theorem State.used_ports (s : State) : s.used.ports = s.ports := rfl
@[simp] theorem State.used_chans (s : State) : s.used.chans = s.chans := rfl
@[simp] theorem State.used_ctrls (s : State) : s.used.ctrls = s.ctrls := rfl
@[simp] theorem State.used_box (s : State) : s.used.box = s.box := rfl
@[simp] theorem State.used_flash (s : State) : s.used.flash = s.flash := rfl
@[simp] theorem State.used_unclean (s : State) : s.used.unclean = s.unclean := rfl
@[simp] theorem State.used_clamp (s : State) : s.used.clamp = s.clamp := rfl
@[simp] theorem State.used_shutdown (s : State) : s.used.shutdown = s.shutdown := rfl
@[simp] theorem State.used_refresh (s : State) : s.used.refresh = s.refresh := rfl
@[simp] theorem State.used_actCap (s : State) : s.used.actCap = s.actCap := rfl
@[simp] theorem State.used_calib (s : State) : s.used.calib = s.calib := rfl
@[simp] theorem State.used_boot (s : State) : s.used.boot = s.boot := rfl
@[simp] theorem State.used_bootHalt (s : State) : s.used.bootHalt = s.bootHalt := rfl
@[simp] theorem State.used_xmss (s : State) : s.used.xmss = s.xmss := rfl
@[simp] theorem State.used_aer (s : State) : s.used.aer = s.aer := rfl
@[simp] theorem State.used_msix (s : State) : s.used.msix = s.msix := rfl
@[simp] theorem State.used_msixTab (s : State) : s.used.msixTab = s.msixTab := rfl
@[simp] theorem State.used_hostRead (s : State) : s.used.hostRead = s.hostRead := rfl
@[simp] theorem State.used_hostTorn (s : State) : s.used.hostTorn = s.hostTorn := rfl
@[simp] theorem State.used_consumedAt (s : State) : s.used.consumedAt = s.consumedAt := rfl
@[simp] theorem State.used_barSizes (s : State) : s.used.barSizes = s.barSizes := rfl
@[simp] theorem State.used_mailbox (s : State) : s.used.mailbox = s.mailbox := rfl
@[simp] theorem State.used_reports (s : State) : s.used.reports = s.reports := rfl
@[simp] theorem State.used_calls (s : State) : s.used.calls = s.calls := rfl
@[simp] theorem State.used_reads (s : State) : s.used.reads = s.reads := rfl
@[simp] theorem State.used_frames (s : State) : s.used.frames = s.frames := rfl
@[simp] theorem State.used_saves (s : State) : s.used.saves = s.saves := rfl
@[simp] theorem State.used_spares (s : State) : s.used.spares = s.spares := rfl
@[simp] theorem State.used_choice (s : State) : s.used.choice = s.choice + 1 := rfl

/-! ## Parts after an update -/

@[simp] theorem State.hand_setHand_same (s : State) (h : Nat) (x : Hand) : (s.setHand h x).hand h = x := by
  simp [State.hand, State.setHand]
theorem State.hand_setHand_ne (s : State) (h k : Nat) (x : Hand) (hk : k ≠ h) : (s.setHand h x).hand k = s.hand k :=
  tabGet_tabSet_ne _ _ _ _ _ hk
@[simp] theorem State.core_setHand (s : State) (h k : Nat) (x : Hand) : (s.setHand h x).core k = s.core k := rfl
@[simp] theorem State.reeve_setHand (s : State) (h k : Nat) (x : Hand) : (s.setHand h x).reeve k = s.reeve k := rfl
@[simp] theorem State.part_setHand (s : State) (h k : Nat) (x : Hand) : (s.setHand h x).part k = s.part k := rfl
@[simp] theorem State.queue_setHand (s : State) (h k : Nat) (x : Hand) : (s.setHand h x).queue k = s.queue k := rfl
@[simp] theorem State.ctrl_setHand (s : State) (h k : Nat) (x : Hand) : (s.setHand h x).ctrl k = s.ctrl k := rfl
@[simp] theorem State.farm_setHand (s : State) (h f : Nat) (x : Hand) : (s.setHand h x).farm f = s.farm f := rfl
@[simp] theorem State.core_setCore_same (s : State) (c : Nat) (x : CoreSt) : (s.setCore c x).core c = x := by
  simp [State.core, State.setCore]
theorem State.core_setCore_ne (s : State) (c k : Nat) (x : CoreSt) (hk : k ≠ c) : (s.setCore c x).core k = s.core k :=
  tabGet_tabSet_ne _ _ _ _ _ hk
@[simp] theorem State.hand_setCore (s : State) (c k : Nat) (x : CoreSt) : (s.setCore c x).hand k = s.hand k := rfl
@[simp] theorem State.reeve_setCore (s : State) (c k : Nat) (x : CoreSt) : (s.setCore c x).reeve k = s.reeve k := rfl
@[simp] theorem State.part_setCore (s : State) (c k : Nat) (x : CoreSt) : (s.setCore c x).part k = s.part k := rfl
@[simp] theorem State.queue_setCore (s : State) (c k : Nat) (x : CoreSt) : (s.setCore c x).queue k = s.queue k := rfl
@[simp] theorem State.ctrl_setCore (s : State) (c k : Nat) (x : CoreSt) : (s.setCore c x).ctrl k = s.ctrl k := rfl
@[simp] theorem State.farm_setCore (s : State) (c f : Nat) (x : CoreSt) : (s.setCore c x).farm f = s.farm f := rfl
@[simp] theorem State.reeve_setReeve_same (s : State) (c : Nat) (x : Reeve) : (s.setReeve c x).reeve c = x := by
  simp [State.reeve, State.setReeve]
theorem State.reeve_setReeve_ne (s : State) (c k : Nat) (x : Reeve) (hk : k ≠ c) : (s.setReeve c x).reeve k = s.reeve k :=
  tabGet_tabSet_ne _ _ _ _ _ hk
@[simp] theorem State.hand_setReeve (s : State) (c k : Nat) (x : Reeve) : (s.setReeve c x).hand k = s.hand k := rfl
@[simp] theorem State.core_setReeve (s : State) (c k : Nat) (x : Reeve) : (s.setReeve c x).core k = s.core k := rfl
@[simp] theorem State.part_setReeve (s : State) (c k : Nat) (x : Reeve) : (s.setReeve c x).part k = s.part k := rfl
@[simp] theorem State.queue_setReeve (s : State) (c k : Nat) (x : Reeve) : (s.setReeve c x).queue k = s.queue k := rfl
@[simp] theorem State.ctrl_setReeve (s : State) (c k : Nat) (x : Reeve) : (s.setReeve c x).ctrl k = s.ctrl k := rfl
@[simp] theorem State.farm_setReeve (s : State) (c f : Nat) (x : Reeve) : (s.setReeve c x).farm f = s.farm f := rfl
@[simp] theorem State.part_setPart_same (s : State) (p : Nat) (x : Part) : (s.setPart p x).part p = x := by
  simp [State.part, State.setPart]
theorem State.part_setPart_ne (s : State) (p k : Nat) (x : Part) (hk : k ≠ p) : (s.setPart p x).part k = s.part k :=
  tabGet_tabSet_ne _ _ _ _ _ hk
@[simp] theorem State.hand_setPart (s : State) (p k : Nat) (x : Part) : (s.setPart p x).hand k = s.hand k := rfl
@[simp] theorem State.core_setPart (s : State) (p k : Nat) (x : Part) : (s.setPart p x).core k = s.core k := rfl
@[simp] theorem State.reeve_setPart (s : State) (p k : Nat) (x : Part) : (s.setPart p x).reeve k = s.reeve k := rfl
@[simp] theorem State.queue_setPart (s : State) (p k : Nat) (x : Part) : (s.setPart p x).queue k = s.queue k := rfl
@[simp] theorem State.ctrl_setPart (s : State) (p k : Nat) (x : Part) : (s.setPart p x).ctrl k = s.ctrl k := rfl
@[simp] theorem State.farm_setPart (s : State) (p f : Nat) (x : Part) : (s.setPart p x).farm f = s.farm f := rfl
@[simp] theorem State.queue_setQueue_same (s : State) (q : Nat) (x : Queue) : (s.setQueue q x).queue q = x := by
  simp [State.queue, State.setQueue]
theorem State.queue_setQueue_ne (s : State) (q k : Nat) (x : Queue) (hk : k ≠ q) : (s.setQueue q x).queue k = s.queue k :=
  tabGet_tabSet_ne _ _ _ _ _ hk
@[simp] theorem State.hand_setQueue (s : State) (q k : Nat) (x : Queue) : (s.setQueue q x).hand k = s.hand k := rfl
@[simp] theorem State.core_setQueue (s : State) (q k : Nat) (x : Queue) : (s.setQueue q x).core k = s.core k := rfl
@[simp] theorem State.reeve_setQueue (s : State) (q k : Nat) (x : Queue) : (s.setQueue q x).reeve k = s.reeve k := rfl
@[simp] theorem State.part_setQueue (s : State) (q k : Nat) (x : Queue) : (s.setQueue q x).part k = s.part k := rfl
@[simp] theorem State.ctrl_setQueue (s : State) (q k : Nat) (x : Queue) : (s.setQueue q x).ctrl k = s.ctrl k := rfl
@[simp] theorem State.farm_setQueue (s : State) (q f : Nat) (x : Queue) : (s.setQueue q x).farm f = s.farm f := rfl
@[simp] theorem State.ctrl_setCtrl_same (s : State) (g : Nat) (x : Ctrl) : (s.setCtrl g x).ctrl g = x := by
  simp [State.ctrl, State.setCtrl]
theorem State.ctrl_setCtrl_ne (s : State) (g k : Nat) (x : Ctrl) (hk : k ≠ g) : (s.setCtrl g x).ctrl k = s.ctrl k :=
  tabGet_tabSet_ne _ _ _ _ _ hk
@[simp] theorem State.hand_setCtrl (s : State) (g k : Nat) (x : Ctrl) : (s.setCtrl g x).hand k = s.hand k := rfl
@[simp] theorem State.core_setCtrl (s : State) (g k : Nat) (x : Ctrl) : (s.setCtrl g x).core k = s.core k := rfl
@[simp] theorem State.reeve_setCtrl (s : State) (g k : Nat) (x : Ctrl) : (s.setCtrl g x).reeve k = s.reeve k := rfl
@[simp] theorem State.part_setCtrl (s : State) (g k : Nat) (x : Ctrl) : (s.setCtrl g x).part k = s.part k := rfl
@[simp] theorem State.queue_setCtrl (s : State) (g k : Nat) (x : Ctrl) : (s.setCtrl g x).queue k = s.queue k := rfl
@[simp] theorem State.farm_setCtrl (s : State) (g f : Nat) (x : Ctrl) : (s.setCtrl g x).farm f = s.farm f := rfl
@[simp] theorem State.me_setMe (s : State) (x : Hand) : (s.setMe x).me = x := by
  simp [State.me, State.setMe]
theorem State.hand_setMe_ne (s : State) (x : Hand) (k : Nat) (hk : k ≠ s.curHand) : (s.setMe x).hand k = s.hand k :=
  State.hand_setHand_ne s _ k x hk
@[simp] theorem State.hand_updFarm (s : State) (f k : Nat) (g : Farm → Farm) : (s.updFarm f g).hand k = s.hand k := rfl
@[simp] theorem State.core_setMe (s : State) (k : Nat) (x : Hand) : (s.setMe x).core k = s.core k := rfl
@[simp] theorem State.core_updFarm (s : State) (f k : Nat) (g : Farm → Farm) : (s.updFarm f g).core k = s.core k := rfl
@[simp] theorem State.reeve_setMe (s : State) (k : Nat) (x : Hand) : (s.setMe x).reeve k = s.reeve k := rfl
@[simp] theorem State.reeve_updFarm (s : State) (f k : Nat) (g : Farm → Farm) : (s.updFarm f g).reeve k = s.reeve k := rfl
@[simp] theorem State.part_setMe (s : State) (k : Nat) (x : Hand) : (s.setMe x).part k = s.part k := rfl
@[simp] theorem State.part_updFarm (s : State) (f k : Nat) (g : Farm → Farm) : (s.updFarm f g).part k = s.part k := rfl
@[simp] theorem State.queue_setMe (s : State) (k : Nat) (x : Hand) : (s.setMe x).queue k = s.queue k := rfl
@[simp] theorem State.queue_updFarm (s : State) (f k : Nat) (g : Farm → Farm) : (s.updFarm f g).queue k = s.queue k := rfl
@[simp] theorem State.ctrl_setMe (s : State) (k : Nat) (x : Hand) : (s.setMe x).ctrl k = s.ctrl k := rfl
@[simp] theorem State.ctrl_updFarm (s : State) (f k : Nat) (g : Farm → Farm) : (s.updFarm f g).ctrl k = s.ctrl k := rfl

end Sys2Proof.Machine
end

