-- ==== Sys2Proof/Laws/Ops.lean ====
section
/-!
SUPPORT. One lemma per shared operation: what it answers, for the proofs about instructions to cite.
-/

namespace Sys2Proof.Machine

/-! ## Waits of the access stream -/

/-- An instruction none of whose registers is pending runs (R103). -/
theorem whenReady_of_ready {s : State} {rs : List Reg} (r : Res) (h : ∀ x ∈ rs, s.me.pending x = false) : whenReady s rs r = r := by
  have : ¬ (rs.any s.me.pending = true) := by
    simp only [List.any_eq_true, not_exists, not_and]
    intro x hx hp
    exact absurd (h x hx ▸ hp) (by simp)
  simp only [whenReady, if_neg this]

/-- s0 is never pending (R103). -/
@[simp] theorem pending_zero (x : Hand) : x.pending 0 = false := by simp [Hand.pending]

/-- With no pending tile an instruction runs (R199). -/
theorem whenTile_of_free {s : State} (r : Res) (h : s.me.tilePending = false) : whenTile s r = r := by
  simp [whenTile, h]

/-! ## The end of an instruction -/

/-- No request pends, so none takes effect. -/
theorem takeRequests_quiet {s : State} {h : Nat} (hs : (s.hand h).stopReq = none) (hh : (s.hand h).holdDue = false) :
    takeRequests s h = s := by simp [takeRequests, hs, hh]

/-- An instruction ends and no request pends: the program counter moves on, and a Block hand at its block's end is Idle. -/
theorem finish_quiet {s : State} {x : Hand} (len : Nat) (h1 : x.stopReq = none) (h2 : x.holdDue = false) :
    finish s x len = s.setMe { x with
      pc := x.pc + BitVec.ofNat 64 len
      st := if x.st = .block ∧ (x.pc + BitVec.ofNat 64 len).toNat = x.blk + 64 then .idle else x.st } := by
  unfold finish finishOf
  simp only [Hand.atBlockEnd, decide_eq_true_eq]
  split
  · rw [takeRequests_quiet (by simp [h1]) (by rw [State.hand_setHand_same]; exact h2)]; rfl
  · rfl

/-- A register write changes no request. -/
@[simp] theorem wr_stopReq (x : Hand) (d : Reg) (v : Word) : (x.wr d v).stopReq = x.stopReq := by unfold Hand.wr; split <;> rfl
/-- A register write changes no request. -/
@[simp] theorem wr_holdReq (x : Hand) (d : Reg) (v : Word) : (x.wr d v).holdReq = x.holdReq := by unfold Hand.wr; split <;> rfl
/-- A register write changes no hold. -/
@[simp] theorem wr_holdDue (x : Hand) (d : Reg) (v : Word) : (x.wr d v).holdDue = x.holdDue := by unfold Hand.wr; split <;> rfl
/-- The last destination says nothing about holds. -/
@[simp] theorem setSld_holdDue (x : Hand) (d : Reg) : (x.setSld d).holdDue = x.holdDue := rfl
/-- A register write keeps the program counter. -/
@[simp] theorem wr_pc (x : Hand) (d : Reg) (v : Word) : (x.wr d v).pc = x.pc := by unfold Hand.wr; split <;> rfl
/-- A register write keeps the state. -/
@[simp] theorem wr_st (x : Hand) (d : Reg) (v : Word) : (x.wr d v).st = x.st := by unfold Hand.wr; split <;> rfl
/-- A register write keeps the block. -/
@[simp] theorem wr_blk (x : Hand) (d : Reg) (v : Word) : (x.wr d v).blk = x.blk := by unfold Hand.wr; split <;> rfl

/-- A scalar result is written and no request pends (R93). -/
theorem writeBack_quiet {s : State} {x : Hand} (d : Reg) (v : Word) (len : Nat) (h1 : x.stopReq = none) (h2 : x.holdDue = false) :
    writeBack s x d v len = .next (s.setMe { (x.wr d v).setSld d with
      pc := x.pc + BitVec.ofNat 64 len
      st := if x.st = .block ∧ (x.pc + BitVec.ofNat 64 len).toNat = x.blk + 64 then .idle else x.st }) := by
  unfold writeBack
  rw [finish_quiet len (by simp [Hand.setSld, h1]) (by simp [h2])]
  simp [Hand.setSld]

/-! ## Taking a fault -/

/-- No stop pends: a fault that is no page fault parks the hand, and what changes is the hand, its reservations, its reeve's `hpend` and its core's
window (R314, R315, R318, R322). -/
theorem park_quiet {s : State} {h cls cause sub elem : Nat} {apc0 fpc addr : Word} (hs : (s.hand h).stopReq = none)
    (hr : (s.hand h).retq = []) (hf : (s.hand h).fencing = false) (hc : cause ≠ 0x0B) (hk : cause ∉ [0x06, 0x07, 0x08]) :
    park s h cls cause sub apc0 fpc addr elem
      = (((s.setHand h { s.hand h with
          st := .parked, resume := (s.hand h).resumeNow, pc := apc0
          frame := { replay := (s.hand h).rq.length, resume := (s.hand h).resumeNow, cls := cls, sub := sub, cause := cause
                     apc := apc0, fpc := fpc, addr := addr, elem := elem, cyc := (s.core (coreOf h)).cyc }
          waiting := none, arrived := none, ending := false, pfault := none, draining := false, migHold := none, replays := 0
          rq := (s.hand h).rq.map fun e => { e.unissued with heldAt := [] }
          fencing := false
          cur := (s.hand h).cur.bind fun b => if b.failed.isSome then none else some b
          holdReq := if (s.hand h).holdReq = some .reeve then none else (s.hand h).holdReq }).dropResv h).notePark h).leaveWindow h := by
  have hx : (s.hand h).flushRet = s.hand h := by
    unfold Hand.flushRet; rw [hr]
    rw [show (List.foldl Hand.takeRet (s.hand h) []) = s.hand h from rfl]
    conv => rhs; rw [show s.hand h = { s.hand h with retq := (s.hand h).retq } from rfl, hr]
  have hnot : ∀ (t : State), ((t.dropResv h).notePark h).hand h = t.hand h := fun t => rfl
  have hlw : ∀ (t : State), (t.leaveWindow h).hand h = t.hand h := by intro t; unfold State.leaveWindow; dsimp only; split <;> rfl
  have hp : pageCause cause = false := decide_eq_false hk
  unfold park parkHeld forgetLeaf
  rw [hx]
  simp only [hf, hc, hp, if_false, Bool.false_and, Bool.false_eq_true, hlw, hnot]
  simp [hs]

end Sys2Proof.Machine
end

