-- ==== Sys2Proof/Laws/Access.lean ====
section
/-!
SUPPORT. What the operations of an access do on the bytes of this device: where a windowed access lies, what its reads give and
what its writes leave.
-/

namespace Sys2Proof.Machine

/-! ## The scratchpad window -/

/-- An access of `n` bytes inside the hand's share lies in the scratchpad, byte after byte (R206). -/
theorem locate_share {s : State} {h : Nat} {va : Word} {n : Nat} (t : AccType) (h0 : 0 < n)
    (h1 : Config.spadBase + (s.hand h).spb * 4096 ≤ va.toNat)
    (h2 : va.toNat + n ≤ Config.spadBase + ((s.hand h).spb + (s.hand h).spn) * 4096)
    (h3 : (s.hand h).spb + (s.hand h).spn ≤ Config.spadUnits) :
    locate s h va n t true = .ok ((List.range n).map fun i => .spad (coreOf h) (va.toNat - Config.spadBase + i)) := by
  have hb : Config.spadBase = 0xF00000000000 := rfl
  have hu : Config.spadUnits = 256 := rfl
  have hz : Config.spadSize = 0x100000 := rfl
  have hm : ∀ i, i < n → (va.toNat + i) % 2 ^ 64 = va.toNat + i := fun i hi => Nat.mod_eq_of_lt (by omega)
  have hv : (List.range n).map (fun i => (va.toNat + i) % 2 ^ 64) = (List.range n).map fun i => va.toNat + i :=
    List.map_congr_left fun i hi => hm i (List.mem_range.1 hi)
  have f1 : ((List.range n).map fun i => va.toNat + i).find? (fun a => decide (a ≥ 2 ^ 48)) = none := by
    rw [List.find?_eq_none]; intro x hx
    obtain ⟨i, hi, rfl⟩ := List.mem_map.1 hx
    have := List.mem_range.1 hi
    simp; omega
  have f2 : ((List.range n).map fun i => va.toNat + i).any inWindow = true := by
    rw [List.any_eq_true]
    exact ⟨va.toNat + 0, List.mem_map.2 ⟨0, List.mem_range.2 h0, rfl⟩, by
      simp only [inWindow]; simp; omega⟩
  have f3 : ((List.range n).map fun i => va.toNat + i).find? (fun a => !(inWindow a && inShare (s.hand h) a)) = none := by
    rw [List.find?_eq_none]; intro x hx
    obtain ⟨i, hi, rfl⟩ := List.mem_map.1 hx
    have := List.mem_range.1 hi
    simp only [inWindow, inShare]; simp; omega
  have f4 : ((List.range n).map fun i => va.toNat + i).map (fun a => Loc.spad (coreOf h) (a - Config.spadBase))
      = (List.range n).map fun i => Loc.spad (coreOf h) (va.toNat - Config.spadBase + i) := by
    rw [List.map_map]
    apply List.map_congr_left
    intro i _
    exact congrArg (Loc.spad (coreOf h)) (show va.toNat + i - Config.spadBase = _ by omega)
  unfold locate
  rw [hv]; dsimp only
  rw [f1]; dsimp only
  rw [f2, Bool.and_true, if_pos rfl, f3, ← f4]

/-- A windowed access is not translated. -/
theorem pagesOf_window {va : Word} {n : Nat} (h1 : Config.spadBase ≤ va.toNat) (h2 : va.toNat + n ≤ Config.spadBase + Config.spadSize) :
    pagesOf va n = [] := by
  have hb : Config.spadBase = 0xF00000000000 := rfl
  have hz : Config.spadSize = 0x100000 := rfl
  have key : ∀ fuel a m, Config.spadBase ≤ a → a + m ≤ Config.spadBase + Config.spadSize →
      ((pageParts fuel a m).map Prod.fst).filter (fun va => !inWindow va) = [] := by
    intro fuel
    induction fuel with
    | zero => intro a m _ _; rfl
    | succ f ih =>
      intro a m ha hm
      unfold pageParts
      split
      · rfl
      · next hne =>
        have hw : inWindow a = true := by simp only [inWindow, hb, hz]; simp; omega
        simp only [List.map_cons, List.filter_cons, hw, Bool.not_true, Bool.false_eq_true, if_false]
        exact ih _ _ (by omega) (by omega)
  exact key _ _ _ h1 h2

/-- A windowed access leaves no TLB entry. -/
theorem noteTlb_window {s : State} {h : Nat} {va : Word} {n : Nat} {t : AccType}
    (h1 : Config.spadBase ≤ va.toNat) (h2 : va.toNat + n ≤ Config.spadBase + Config.spadSize) : noteTlb s h va n t = s := by
  unfold noteTlb noteWalks
  rw [pagesOf_window h1 h2]
  simp

/-- The parts of a range have its length, where there are enough of them. -/
theorem pageParts_length (xl : Nat → Xlat) (cause : Nat) (fuel va n : Nat) (locs : List Loc) (hf : n = 0 ∨ n + va % 4096 ≤ fuel * 4096)
    (h : locateParts xl cause (pageParts fuel va n) = .ok locs) : locs.length = n := by
  induction fuel generalizing va n locs with
  | zero =>
    have : locs = [] := by simpa [pageParts, locateParts] using h.symm
    subst this; simp; omega
  | succ f ih =>
    unfold pageParts at h
    split at h
    · have : locs = [] := by simpa [locateParts] using h.symm
      subst this; simp; omega
    · simp only [locateParts] at h
      split at h
      · simp at h
      · simp at h
      · split at h
        · next hr =>
          have := ih (va + min n (4096 - va % 4096)) (n - min n (4096 - va % 4096)) _ (by omega) hr
          have e := Located.ok.inj h; subst e
          rw [List.length_append, List.length_map, List.length_range, this]; omega
        · next hr => exact absurd h (by intro hh; exact hr _ hh)

/-- Where an access lies, one location for each byte. -/
theorem locate_length {s : State} {h : Nat} {va : Word} {n : Nat} {t : AccType} {w : Bool} {locs : List Loc}
    (hl : locate s h va n t w = .ok locs) : locs.length = n := by
  unfold locate at hl
  dsimp only at hl
  split at hl
  · simp at hl
  · split at hl
    · split at hl
      · simp at hl
      · have e := Located.ok.inj hl; subst e; simp
    · exact pageParts_length _ _ _ _ _ _ (.inr (by omega)) hl

/-- Parts of an access whose pages are cacheable DRAM of this device lie there. -/
theorem locateParts_dram (xl : Nat → Xlat) (cause : Nat) (parts : List (Nat × Nat))
    (h : parts.all (fun q => match xl q.1 with
      | .page node pa nc => decide (node = Config.node) && !nc && decide (pa + q.2 ≤ Config.dramSize)
      | _ => false) = true) : ∃ pas : List Nat, locateParts xl cause parts = .ok (pas.map fun pa => Loc.dram pa false) := by
  induction parts with
  | nil => exact ⟨[], rfl⟩
  | cons q rest ih =>
    obtain ⟨va, n⟩ := q
    rw [List.all_cons, Bool.and_eq_true] at h
    obtain ⟨h1, h2⟩ := h
    obtain ⟨pas, e⟩ := ih h2
    simp only at h1
    split at h1
    · next node pa nc hx =>
      simp only [Bool.and_eq_true, decide_eq_true_eq, Bool.not_eq_true'] at h1
      refine ⟨(List.range n).map (pa + ·) ++ pas, ?_⟩
      simp only [locateParts, hx, e, List.map_append, List.map_map]
      congr 2
      apply List.map_congr_left
      intro i hi
      have := List.mem_range.1 hi
      simp only [pageLoc, Function.comp_apply, h1.1.1, h1.1.2, ne_eq, not_true, if_false, if_pos (show pa + i < Config.dramSize by omega)]
    · exact absurd h1 (by simp)

/-- An access of a partition whose pages are cacheable DRAM of this device lies there. -/
theorem locateIn_dram {s : State} {p : Nat} {addr : Word} {n : Nat} {t : AccType}
    (h : (pageParts (n / 4096 + 2) addr.toNat n).all (fun q => match partXlat s p q.1 t with
      | .page node pa nc => decide (node = Config.node) && !nc && decide (pa + q.2 ≤ Config.dramSize)
      | _ => false) = true) : ∃ pas : List Nat, locateIn s p addr n t = .ok (pas.map fun pa => Loc.dram pa false) :=
  locateParts_dram _ _ _ h

/-! ## Reads -/

/-- Locations of this device that perform together: one run of scratchpad bytes or of cacheable DRAM bytes. -/
def NearRun (ls : List Loc) : Prop := (∃ (c : Nat) (os : List Nat), ls = os.map (Loc.spad c)) ∨ ∃ pas : List Nat, ls = pas.map fun pa => Loc.dram pa false

/-- Every element of a list that satisfies p is taken. -/
theorem takeWhile_of_all {α : Type} {p : α → Bool} {l : List α} (h : ∀ x ∈ l, p x = true) : l.takeWhile p = l := by
  induction l with
  | nil => rfl
  | cons a l ih =>
    rw [List.takeWhile_cons, if_pos (h a (by simp)), ih fun x hx => h x (by simp [hx])]

/-- A run of near bytes is its own leading run. -/
theorem leadRun_near {ls : List Loc} (h : NearRun ls) : leadRun ls = ls := by
  cases ls with
  | nil => rfl
  | cons l ls =>
    show l :: ls.takeWhile (sameRun l) = l :: ls
    rw [takeWhile_of_all]
    intro x hx
    rcases h with ⟨c, os, e⟩ | ⟨pas, e⟩
    · cases os with
      | nil => simp at e
      | cons o os =>
        simp only [List.map_cons, List.cons.injEq] at e
        obtain ⟨e1, e2⟩ := e; subst e1; rw [e2] at hx
        obtain ⟨o', _, rfl⟩ := List.mem_map.1 hx; rfl
    · cases pas with
      | nil => simp at e
      | cons o os =>
        simp only [List.map_cons, List.cons.injEq] at e
        obtain ⟨e1, e2⟩ := e; subst e1; rw [e2] at hx
        obtain ⟨o', _, rfl⟩ := List.mem_map.1 hx; rfl

/-- The reads of a near run: every byte at once, where none is poisoned. -/
theorem gather_near (who : Waiter) (a : Agent) (op : MemOp) (rd : State → Loc → Byte) (addr : Word) (fuel : Nat) (s : State)
    {ls : List Loc} (h : NearRun ls) (hp : ls.any (poisonedFor s a) = false) (hne : ls ≠ []) :
    gather who a op rd addr (fuel + 2) s ls [] = (freshen s a ls, .done (ls.map (rd s))) := by
  cases ls with
  | nil => exact absurd rfl hne
  | cons l ls =>
    have hl := leadRun_near h
    have hd : (l :: ls).drop (l :: ls).length = [] := List.drop_length
    have e : gather who a op rd addr (fuel + 1) (freshen s a (l :: ls)) [] ((l :: ls).map (rd s))
        = (freshen s a (l :: ls), .done ((l :: ls).map (rd s))) := by simp [gather]
    rcases h with ⟨c, os, e'⟩ | ⟨pas, e'⟩
    · cases os with
      | nil => simp at e'
      | cons o os =>
        simp only [List.map_cons, List.cons.injEq] at e'
        obtain ⟨rfl, -⟩ := e'
        rw [gather]
        · simp only [hl, hd, hp, Bool.false_eq_true, if_false, List.nil_append]; exact e
        all_goals (intros; simp_all)
    · cases pas with
      | nil => simp at e'
      | cons o os =>
        simp only [List.map_cons, List.cons.injEq] at e'
        obtain ⟨rfl, -⟩ := e'
        rw [gather]
        · simp only [hl, hd, hp, Bool.false_eq_true, if_false, List.nil_append]; exact e
        all_goals (intros; simp_all)

/-- The writes of a near run perform at once. -/
theorem store_near (s : State) (a : Agent) (addr : Word) {ls : List Loc} (bs : List Byte) (h : NearRun ls) (hne : ls ≠ [])
    (hb : bs.length = ls.length) : store s a addr ls bs = performWrite s a ls bs := by
  cases ls with
  | nil => exact absurd rfl hne
  | cons l ls =>
    have hl := leadRun_near h
    have hd : (l :: ls).drop (l :: ls).length = [] := List.drop_length
    have ht : bs.take (l :: ls).length = bs := List.take_of_length_le (by omega)
    have e : ∀ t x, scatter .write a addr ((l :: ls).length) t [] x = t := by intro t x; simp [scatter]
    unfold store
    rcases h with ⟨c, os, e'⟩ | ⟨pas, e'⟩
    · cases os with
      | nil => simp at e'
      | cons o os =>
        simp only [List.map_cons, List.cons.injEq] at e'
        obtain ⟨rfl, -⟩ := e'
        rw [scatter]
        · simp only [hl, hd, ht, e]
        all_goals (intros; simp_all)
    · cases pas with
      | nil => simp at e'
      | cons o os =>
        simp only [List.map_cons, List.cons.injEq] at e'
        obtain ⟨rfl, -⟩ := e'
        rw [scatter]
        · simp only [hl, hd, ht, e]
        all_goals (intros; simp_all)

/-! ## What a write leaves -/

/-- Asking for the transfers of an access changes only the ports. -/
theorem pay_eq (s : State) (p : Option Nat) (ls : List Loc) : ∃ ports, (pay s p ls).1 = { s with ports := ports } := by
  unfold pay; split
  · exact ⟨s.ports, rfl⟩
  · dsimp only; split
    · exact ⟨_, rfl⟩
    · exact ⟨_, rfl⟩

/-- Breaking reservations changes only the reservations. -/
theorem breakResv_eq (s : State) (ls : List Loc) : ∃ r, breakResv s ls = { s with resv := r } := by
  unfold breakResv; split
  · exact ⟨s.resv, rfl⟩
  · exact ⟨_, rfl⟩

/-- New ECC of DRAM changes only the poison. -/
theorem healDram_eq (s : State) (ls : List Loc) : ∃ r, healDram s ls = { s with poison := r } := by
  unfold healDram; split
  · exact ⟨s.poison, rfl⟩
  · exact ⟨_, rfl⟩

/-- New ECC of a scratchpad changes only its poison. -/
theorem healSpad_eq (s : State) (ls : List Loc) : ∃ u, healSpad s ls = { s with cores := u }
    ∧ ∀ c, ∃ b, (healSpad s ls).core c = { s.core c with spoison := b } := by
  unfold healSpad
  split
  · next k _ _ =>
    dsimp only
    split
    · exact ⟨s.cores, rfl, fun c => ⟨(s.core c).spoison, rfl⟩⟩
    · refine ⟨_, rfl, fun c => ?_⟩
      by_cases hc : c = k
      · subst hc; exact ⟨_, State.core_setCore_same _ _ _⟩
      · exact ⟨(s.core c).spoison, State.core_setCore_ne _ _ _ _ hc⟩
  · exact ⟨s.cores, rfl, fun c => ⟨(s.core c).spoison, rfl⟩⟩

/-- New ECC changes only the poison, and of the cores only the poison of a scratchpad. -/
theorem healPoison_eq (s : State) (ls : List Loc) : ∃ r u, healPoison s ls = { s with poison := r, cores := u }
    ∧ ∀ c, ∃ b, (healPoison s ls).core c = { s.core c with spoison := b } := by
  obtain ⟨r, e⟩ := healDram_eq s ls
  obtain ⟨u, e1, e2⟩ := healSpad_eq (healDram s ls) ls
  refine ⟨r, u, by rw [healPoison, e1, e], fun c => ?_⟩
  obtain ⟨b, hb⟩ := e2 c
  exact ⟨b, by rw [healPoison, hb, e]; rfl⟩

/-- A write changes at most the data cache of its agent's core (R274). -/
theorem cacheWrite_eq (s : State) (a : Agent) (ls : List Loc) (bs : List Byte) (c : Nat)
    (ha : a = .reeve c ∨ ∃ h, coreOf h = c ∧ (a = .hand h ∨ a = .vmu h)) :
    ∃ u d, cacheWrite s a ls bs = { s with cores := u } ∧ (cacheWrite s a ls bs).core c = { s.core c with dcache := d }
      ∧ ∀ k, k ≠ c → (cacheWrite s a ls bs).core k = s.core k := by
  rcases ha with rfl | ⟨h, rfl, rfl | rfl⟩
  all_goals
    unfold cacheWrite
    dsimp only
    split
    · exact ⟨s.cores, _, rfl, rfl, fun _ _ => rfl⟩
    · exact ⟨_, _, rfl, State.core_setCore_same _ _ _, fun k hk => State.core_setCore_ne _ _ _ _ hk⟩

/-- Writes of DRAM bytes, one by one. -/
theorem writeAll_dram (s : State) (pas : List Nat) (nc : Bool) (bs : List Byte) :
    writeAll s (pas.map fun pa => Loc.dram pa nc) bs = { s with mem := (pas.zip bs).foldl (fun m p => memSet m p.1 p.2) s.mem } := by
  induction pas generalizing s bs with
  | nil => cases bs <;> rfl
  | cons p ps ih =>
    cases bs with
    | nil => rfl
    | cons b bs => simp only [List.map_cons, writeAll, writeLoc, ih, List.zip_cons_cons, List.foldl_cons]

/-- DRAM bytes outside the addresses written keep their values. -/
theorem memGet_putAll_ne (m : Memory) (pas : List Nat) (bs : List Byte) (a : Nat) (h : a ∉ pas) :
    memGet ((pas.zip bs).foldl (fun m p => memSet m p.1 p.2) m) a = memGet m a := by
  induction pas generalizing m bs with
  | nil => cases bs <;> rfl
  | cons p ps ih =>
    cases bs with
    | nil => rfl
    | cons b bs =>
      simp only [List.mem_cons, not_or] at h
      rw [List.zip_cons_cons, List.foldl_cons, ih _ _ h.2, memGet_memSet_ne _ _ _ _ h.1]

/-- An access of hand h notes what it leaves of translations: of the machine only the hand TLB of its core changes, and the pages for which
the hand must walk. -/
def NotesTlb (s u : State) (h : Nat) : Prop :=
  (∃ c x, u = { s with cores := c, hands := x }) ∧ (∃ t, u.core (coreOf h) = { s.core (coreOf h) with htlb := t })
    ∧ (∀ k, k ≠ coreOf h → u.core k = s.core k) ∧ (∃ w, u.hand h = { s.hand h with walks := w }) ∧ ∀ k, k ≠ h → u.hand k = s.hand k

/-- A cached leaf changes only the hand TLB. -/
theorem fillHtlb_notes {s x : State} {h va : Nat} {t : AccType} (hx : NotesTlb s x h) : NotesTlb s (fillHtlb x h va t) h := by
  obtain ⟨⟨c, y, e1⟩, ⟨l, e2⟩, e3, e4, e5⟩ := hx
  unfold fillHtlb
  split
  · exact ⟨⟨c, y, e1⟩, ⟨l, e2⟩, e3, e4, e5⟩
  · split
    · exact ⟨⟨c, y, e1⟩, ⟨l, e2⟩, e3, e4, e5⟩
    · refine ⟨?_, ?_, fun k hk => ?_, e4, e5⟩
      · rw [e1]; exact ⟨_, _, rfl⟩
      · rw [State.core_setCore_same, e2]; exact ⟨_, rfl⟩
      · rw [State.core_setCore_ne _ _ _ _ hk, e3 k hk]

/-- An access's TLB entries and walks: nothing else changes (R217, R218). -/
theorem noteTlb_notes (s : State) (h : Nat) (va : Word) (n : Nat) (t : AccType) : NotesTlb s (noteTlb s h va n t) h := by
  have many : ∀ (ps : List Nat) (x : State), NotesTlb s x h → NotesTlb s (ps.foldl (fun u va => fillHtlb u h va t) x) h := by
    intro ps
    induction ps with
    | nil => intro x hx; exact hx
    | cons p ps ih => intro x hx; rw [List.foldl_cons]; exact ih _ (fillHtlb_notes hx)
  obtain ⟨⟨c, y, e1⟩, ⟨l, e2⟩, e3, ⟨w, e4⟩, e5⟩ :=
    many (pagesOf va n) s ⟨⟨s.cores, s.hands, rfl⟩, ⟨(s.core (coreOf h)).htlb, rfl⟩, fun _ _ => rfl, ⟨(s.hand h).walks, rfl⟩, fun _ _ => rfl⟩
  unfold noteTlb noteWalks
  dsimp only
  split
  · refine ⟨?_, ⟨l, ?_⟩, fun k hk => ?_, ?_, fun k hk => ?_⟩
    · rw [e1]; exact ⟨_, _, rfl⟩
    · rw [State.core_setHand, e2]
    · rw [State.core_setHand, e3 k hk]
    · rw [State.hand_setHand_same, e4]; exact ⟨_, rfl⟩
    · rw [State.hand_setHand_ne _ _ _ _ hk, e5 k hk]
  · exact ⟨⟨c, y, e1⟩, ⟨l, e2⟩, e3, ⟨w, e4⟩, e5⟩

/-- What a table lists after an update. -/
theorem tabFind_tabSet {α : Type} (t : Table α) (n : Nat) (x : α) (m : Nat) :
    tabFind (tabSet t n x) m = if m = n then some x else tabFind t m := by
  induction t with
  | nil => grind [tabSet, tabFind]
  | cons p t ih => grind [tabSet, tabFind]

/-- What a table finds it lists. -/
theorem mem_of_tabFind {α : Type} {t : Table α} {n : Nat} {x : α} (h : tabFind t n = some x) : (n, x) ∈ t := by
  induction t with
  | nil => simp [tabFind] at h
  | cons p t ih =>
    obtain ⟨k, v⟩ := p
    unfold tabFind at h
    split at h
    · next e => subst e; rw [Option.some.inj h]; simp
    · exact List.mem_cons_of_mem _ (ih h)

/-- A table with one number set lists that, and otherwise what it listed. -/
theorem mem_tabSet {α : Type} {t : Table α} {n : Nat} {x : α} {q : Nat × α} (h : q ∈ tabSet t n x) : q = (n, x) ∨ q ∈ t := by
  induction t with
  | nil => simpa [tabSet] using h
  | cons p t ih =>
    obtain ⟨k, v⟩ := p
    unfold tabSet at h
    split at h
    · simpa using h
    · split at h
      · rcases List.mem_cons.1 h with h | h
        · exact .inl h
        · exact .inr (List.mem_cons_of_mem _ h)
      · rcases List.mem_cons.1 h with h | h
        · exact .inr (by simp [h])
        · exact (ih h).imp_right (List.mem_cons_of_mem _)

/-- A cache with a line added lists that line, and otherwise what it listed. -/
theorem mem_cacheAdd {s : State} {t : Table (List Byte)} {k : Nat} {x : List Byte} {q : Nat × List Byte} (h : q ∈ cacheAdd s t k x) :
    q = (k, x) ∨ q ∈ t := by
  unfold cacheAdd at h
  refine (mem_tabSet h).imp_right fun h => ?_
  split at h
  · exact h
  · exact List.mem_of_mem_eraseIdx h

/-- A plain scalar load of cacheable DRAM fills lines as memory holds them: only its core's data cache changes, and every line is as
memory holds it, if that was so before. -/
theorem fillDcache_dram (s : State) (h : Nat) (pas : List Nat)
    (hd : ∀ q ∈ (s.core (coreOf h)).dcache, q.2 = memBytes s.mem (q.1 * 64) 64) :
    ∃ u d b, fillDcache s h (pas.map fun pa => Loc.dram pa false) = { s with cores := u }
      ∧ (fillDcache s h (pas.map fun pa => Loc.dram pa false)).core (coreOf h) = { s.core (coreOf h) with dcache := d, dpoison := b }
      ∧ (∀ k, k ≠ coreOf h → (fillDcache s h (pas.map fun pa => Loc.dram pa false)).core k = s.core k)
      ∧ ∀ q ∈ d, q.2 = memBytes s.mem (q.1 * 64) 64 := by
  induction pas generalizing s with
  | nil => exact ⟨s.cores, _, _, rfl, rfl, fun _ _ => rfl, hd⟩
  | cons p ps ih =>
    have hs : fillDcache s h ((p :: ps).map fun pa => Loc.dram pa false)
        = fillDcache (fillDcache s h [Loc.dram p false]) h (ps.map fun pa => Loc.dram pa false) := by
      unfold fillDcache; simp only [List.map_cons, List.foldl_cons, List.foldl_nil]
    obtain ⟨u, d, b, e1, e2, e3, e4⟩ : ∃ u d b, fillDcache s h [Loc.dram p false] = { s with cores := u }
        ∧ (fillDcache s h [Loc.dram p false]).core (coreOf h) = { s.core (coreOf h) with dcache := d, dpoison := b }
        ∧ (∀ k, k ≠ coreOf h → (fillDcache s h [Loc.dram p false]).core k = s.core k)
        ∧ ∀ q ∈ d, q.2 = memBytes s.mem (q.1 * 64) 64 := by
      unfold fillDcache
      simp only [List.foldl_cons, List.foldl_nil]
      split
      · exact ⟨s.cores, _, _, rfl, rfl, fun _ _ => rfl, hd⟩
      · refine ⟨_, _, _, rfl, State.core_setCore_same _ _ _, fun k hk => State.core_setCore_ne _ _ _ _ hk, fun q hq => ?_⟩
        rcases mem_cacheAdd hq with rfl | hq
        · rfl
        · exact hd q hq
    have hm : (fillDcache s h [Loc.dram p false]).mem = s.mem := by rw [e1]
    obtain ⟨u', d', b', f1, f2, f3, f4⟩ := ih (fillDcache s h [Loc.dram p false]) (by rw [e2, hm]; exact e4)
    rw [hs]
    exact ⟨u', d', b', by rw [f1, e1], by rw [f2, e2], fun k hk => by rw [f3 k hk, e3 k hk], by rw [hm] at f4; exact f4⟩

/-- A byte of a range. -/
theorem memBytes_getD (m : Memory) (a n i : Nat) (h : i < n) : (memBytes m a n).getD i 0 = memGet m (a + i) := by
  induction n generalizing a i with
  | zero => omega
  | succ n ih =>
    cases i with
    | zero => rfl
    | succ i => rw [memBytes, List.getD_cons_succ, ih _ _ (by omega)]; congr 1; omega

/-! ## Tokens -/

/-- A partition that holds its tokens already is given none, and waits for none (R224). -/
theorem Port.ask_of_credit {q : Port} {p need : Nat} (h : need ≤ q.creditOf p) : q.ask p need = q := by
  have f : ∀ n, q.fill p need n = q := fun n => by cases n <;> simp [Port.fill, h]
  simp [Port.ask, f, h]

/-- There is no home slice but the 64 of the device (R209). -/
theorem sliceOf_lt (pa : Nat) : sliceOf pa < 64 :=
  Nat.xor_lt_two_pow (n := 6) (Nat.mod_lt _ (by decide)) (Nat.mod_lt _ (by decide))

theorem eraseDups_length_le {α : Type} [BEq α] [LawfulBEq α] (l : List α) : l.eraseDups.length ≤ l.length := by
  induction h : l.length using Nat.strongRecOn generalizing l with
  | _ n ih =>
    cases l with
    | nil => simp [← h]
    | cons a as =>
      subst h
      rw [List.eraseDups_cons, List.length_cons, List.length_cons]
      have hf := List.length_filter_le (fun b => !b == a) as
      have := ih _ (by rw [List.length_cons]; omega) (as.filter fun b => !b == a) rfl
      omega

/-- The transfers of an access pass ports of the device, no more of them than the access has bytes. -/
theorem mem_transfersOf {ls : List Loc} {k : Nat × Nat} (h : k ∈ transfersOf ls) : k.1 < 64 ∧ k.2 ≤ ls.length := by
  unfold transfersOf at h
  obtain ⟨x, hx, rfl⟩ := List.mem_map.1 h
  refine ⟨?_, Nat.le_trans List.count_le_length ?_⟩
  · obtain ⟨g, -, rfl⟩ := List.mem_map.1 (List.mem_eraseDups.1 hx)
    exact sliceOf_lt _
  · rw [List.length_map]
    exact Nat.le_trans (eraseDups_length_le _) (List.length_filterMap_le _ _)

/-- An access moves where its partition holds a token for each of its bytes at every port (R224). -/
theorem payFor_of_credit {s : State} {a : Agent} {ls : List Loc} {p : Nat} (ha : agentTokens s a = some p)
    (h : ∀ k, k < 64 → ls.length ≤ (s.port k).creditOf p) : (payFor s a ls).2 = true := by
  have asked : ∀ (ks : List (Nat × Nat)) (t : Table Port), (∀ k ∈ ks, k.1 < 64 ∧ k.2 ≤ ls.length) →
      (∀ k, k < 64 → ls.length ≤ (tabGet Port.empty t k).creditOf p) →
      ∀ k, k < 64 → ls.length ≤ (tabGet Port.empty
        (ks.foldl (fun t k => tabSet t k.1 ((tabGet Port.empty t k.1).ask p k.2)) t) k).creditOf p := by
    intro ks
    induction ks with
    | nil => exact fun t _ ht => ht
    | cons q qs ih =>
      intro t hk ht
      refine ih _ (fun k hm => hk k (List.mem_cons_of_mem _ hm)) fun k h64 => ?_
      have hq := hk q List.mem_cons_self
      dsimp only
      rw [Port.ask_of_credit (Nat.le_trans hq.2 (ht q.1 hq.1)), tabGet_tabSet]
      split
      · next e => exact e ▸ ht k h64
      · exact ht k h64
  have hk : ∀ k ∈ transfersOf ls, k.1 < 64 ∧ k.2 ≤ ls.length := fun k hm => mem_transfersOf hm
  have all := asked (transfersOf ls) s.ports hk h
  unfold payFor pay
  rw [ha]
  dsimp only
  rw [if_pos (List.all_eq_true.2 fun k hm => decide_eq_true (Nat.le_trans (hk k hm).2 (all k.1 (hk k hm).1)))]

end Sys2Proof.Machine
end

