-- ==== Sys2Proof/Laws/Bytes.lean ====
section
/-!
SUPPORT. Little-endian bytes and their values, and repeated updates of one entry of a table or of the running hand.
-/

namespace Sys2Proof.Machine

/-- A value as n bytes has n bytes. -/
@[simp] theorem leBytes_length (n x : Nat) : (leBytes n x).length = n := by
  induction n generalizing x <;> simp_all [leBytes]

/-- The value of bytes fits into them. -/
theorem leValue_lt (bs : List Byte) : leValue bs < 2 ^ (8 * bs.length) := by
  induction bs with
  | nil => decide
  | cons b bs ih =>
    unfold leValue
    have := b.isLt
    rw [List.length_cons, show 8 * (bs.length + 1) = 8 * bs.length + 8 by omega, Nat.pow_add]
    omega

/-- The signed reading of the low n bits. -/
theorem toSigned_eq (n x : Nat) (hn : 0 < n) : toSigned n x = (BitVec.ofNat n x).toInt := by
  unfold toSigned
  rw [BitVec.toInt_eq_toNat_cond, BitVec.toNat_ofNat]
  have : 2 ^ n = 2 * 2 ^ (n - 1) := by rw [← Nat.pow_succ']; congr 1; omega
  have hc : ((2 ^ n : Nat) : Int) = (2 : Int) ^ n := by simp
  rw [← hc]
  split <;> split <;> omega

/-- Of two updates of one entry the later one stands. -/
@[simp] theorem tabSet_tabSet {α : Type} (t : Table α) (n : Nat) (x y : α) : tabSet (tabSet t n x) n y = tabSet t n y := by
  induction t with
  | nil => simp [tabSet]
  | cons p t ih =>
    simp only [tabSet]
    split
    · simp [tabSet]
    · split
      · next h1 h2 => simp [tabSet]
      · next h1 h2 => simp [tabSet, h1, h2, ih]

/-- The running hand after it was stored. -/
@[simp] theorem setMe_me (t : State) (y : Hand) : (t.setMe y).me = y := by simp [State.setMe, State.me]

/-- Of two updates of the running hand the later one stands. -/
@[simp] theorem setMe_setMe (t : State) (y z : Hand) : (t.setMe y).setMe z = t.setMe z := by
  simp [State.setMe, State.setHand]

end Sys2Proof.Machine
end

