-- ==== Sys2Proof/Laws/Encoding.lean ====
section
/-!
SUPPORT. Fields of a word, rows that do not overlap, and the little-endian bytes of an encoding.
-/

namespace Sys2Proof

/-! ## Fields -/

theorem getF_or {w : Nat} (x y : BitVec w) (lo n : Nat) : getF (x ||| y) lo n = getF x lo n ||| getF y lo n := by
  ext i hi; simp [getF]

theorem or_and_mask {w : Nat} (x y m : BitVec w) : (x ||| y) &&& m = (x &&& m) ||| (y &&& m) := by
  ext i hi; simp [Bool.and_or_distrib_right]

theorem getF_putF_same {w n : Nat} (x : BitVec n) (lo : Nat) (h : lo + n ≤ w) : getF (putF x lo : BitVec w) lo n = x := by
  ext i hi
  have h1 : lo + i < w := by omega
  simp [getF, putF, h1, BitVec.getLsbD_eq_getElem hi]

theorem getF_putF_apart {w n k : Nat} (x : BitVec n) (lo at_ : Nat) (h : at_ + k ≤ lo ∨ lo + n ≤ at_) :
    getF (putF x lo : BitVec w) at_ k = 0#k := by
  ext i hi
  simp [getF, putF]
  intro h1 h2
  rcases h with h | h
  · omega
  · intro _
    exact BitVec.getLsbD_of_ge _ _ (by omega)

theorem putF_and_zero {w n : Nat} (x : BitVec n) (lo : Nat) (m : BitVec w) (h : getF m lo n = 0#n) :
    (putF x lo : BitVec w) &&& m = 0#w := by
  ext i hi
  simp [putF]
  intro h1 h2
  have h3 : (getF m lo n).getLsbD (i - lo) = false := by rw [h]; simp
  by_cases h4 : i - lo < n
  · simp [getF, h4] at h3
    have h5 : lo + (i - lo) = i := by omega
    rw [h5] at h3
    simpa [BitVec.getLsbD_eq_getElem hi] using h3
  · rw [BitVec.getLsbD_of_ge _ _ (by omega)] at h2
    exact absurd h2 (by simp)

/-! ## Rows -/

/-- No word belongs to both rows. -/
def Row.apart {w : Nat} (a b : Row w) : Prop := a.value &&& b.mask ≠ b.value &&& a.mask

theorem Row.apart_no_word {w : Nat} {a b : Row w} (h : Row.apart a b) {x : BitVec w} (ha : x &&& a.mask = a.value) :
    x &&& b.mask ≠ b.value := by
  intro hb
  apply h
  rw [← ha, ← hb]
  ext i hi
  simp only [BitVec.getElem_and]
  cases x[i] <;> cases a.mask[i] <;> cases b.mask[i] <;> rfl

/-- In a list of rows that do not overlap, a word of a row is decoded by that row. -/
theorem lookupRow_of_row {w : Nat} : ∀ {rows : List (Row w)} {k : Nat} {r : Row w} {x : BitVec w},
    rows.Pairwise Row.apart → rows[k]? = some r → x &&& r.mask = r.value → lookupRow rows x = some (r.build x)
  | [], _, _, _, _, hk, _ => by simp at hk
  | a :: rows, 0, r, x, _, hk, hx => by
    simp at hk
    subst hk
    simp [lookupRow, hx]
  | a :: rows, k + 1, r, x, hp, hk, hx => by
    simp at hk
    have hp' := List.pairwise_cons.mp hp
    have hr : r ∈ rows := List.mem_of_getElem? hk
    have ha : ¬ (x &&& a.mask = a.value) := fun hxa => Row.apart_no_word (hp'.1 r hr) hxa hx
    simp only [lookupRow, if_neg ha]
    exact lookupRow_of_row hp'.2 hk hx

theorem handRows_apart : handRows.Pairwise Row.apart := by
  unfold Row.apart
  decide +kernel

theorem xkryRows_apart : xkryRows.Pairwise Row.apart := by
  unfold Row.apart
  decide +kernel

theorem shortRows_apart : shortRows.Pairwise Row.apart := by
  unfold Row.apart
  decide +kernel

end Sys2Proof
end

