-- ==== Sys2Proof/Laws/Exact.lean ====
section
/-!
SUPPORT. Of every row of the decode tables: what the row builds from a word that matches it encodes to that word, so no bit of an
encoding is passed over.
-/

set_option maxRecDepth 8000
set_option linter.unusedSimpArgs false

namespace Sys2Proof

theorem putF_getF {w : Nat} (x : BitVec w) (lo n : Nat) :
    (putF (getF x lo n) lo : BitVec w) = x &&& ((BitVec.allOnes n).setWidth w <<< lo) := by
  ext i hi
  simp [putF, getF, BitVec.getElem_and, BitVec.getElem_shiftLeft]
  by_cases h : i < lo
  · simp [h]
  · have h2 : lo + (i - lo) = i := by omega
    by_cases h3 : i - lo < n <;> simp [h, h2, h3, BitVec.getLsbD_eq_getElem hi]
theorem and_or_same {w : Nat} (x a b : BitVec w) : (x &&& a) ||| (x &&& b) = x &&& (a ||| b) := by
  ext i hi; simp [Bool.and_or_distrib_left]
theorem rebuild {w : Nat} {x v m r : BitVec w} (h : x &&& m = v) (e : m ||| r = BitVec.allOnes w) : v ||| (x &&& r) = x := by
  rw [← h, and_or_same, e, BitVec.and_allOnes]
theorem rebuild0 {w : Nat} {x v : BitVec w} (h : x &&& BitVec.allOnes w = v) : v = x := by rw [← h, BitVec.and_allOnes]
theorem exact_handRows1 : ∀ r ∈ handRows1, ∀ w, w &&& r.mask = r.value → encode (r.build w) = .word w := by
  simp only [handRows1, List.forall_mem_cons, List.not_mem_nil, false_implies, implies_true, and_true]
  repeat' apply And.intro
  all_goals
    intro w h
    refine congrArg Enc.word ?_
    first | exact rebuild0 h | (simp only [putDAB, putDAB2, putDA, putDAI, putDAI2, putDI, putBAI, putDABQW, putDAQW, putABQW, putABO, putDO, putDC, putDAC, putQ, putAQ, putDQ, putA, putD, putI, putDABMF, putDAIMF, putDAMF, putDABM, putDAM, putDBM, putDIM, putDB, putDM, putDAKMLQ, putABQ, putDAME, putDABME, putDBME, putAME, putAB, putDABE, putBs, putBIs, putIs, putBCs, putF_getF, BitVec.or_assoc, and_or_same]; exact rebuild h (by decide))
theorem exact_handRows2 : ∀ r ∈ handRows2, ∀ w, w &&& r.mask = r.value → encode (r.build w) = .word w := by
  simp only [handRows2, List.forall_mem_cons, List.not_mem_nil, false_implies, implies_true, and_true]
  repeat' apply And.intro
  all_goals
    intro w h
    refine congrArg Enc.word ?_
    first | exact rebuild0 h | (simp only [putDAB, putDAB2, putDA, putDAI, putDAI2, putDI, putBAI, putDABQW, putDAQW, putABQW, putABO, putDO, putDC, putDAC, putQ, putAQ, putDQ, putA, putD, putI, putDABMF, putDAIMF, putDAMF, putDABM, putDAM, putDBM, putDIM, putDB, putDM, putDAKMLQ, putABQ, putDAME, putDABME, putDBME, putAME, putAB, putDABE, putBs, putBIs, putIs, putBCs, putF_getF, BitVec.or_assoc, and_or_same]; exact rebuild h (by decide))
theorem exact_handRows3 : ∀ r ∈ handRows3, ∀ w, w &&& r.mask = r.value → encode (r.build w) = .word w := by
  simp only [handRows3, List.forall_mem_cons, List.not_mem_nil, false_implies, implies_true, and_true]
  repeat' apply And.intro
  all_goals
    intro w h
    refine congrArg Enc.word ?_
    first | exact rebuild0 h | (simp only [putDAB, putDAB2, putDA, putDAI, putDAI2, putDI, putBAI, putDABQW, putDAQW, putABQW, putABO, putDO, putDC, putDAC, putQ, putAQ, putDQ, putA, putD, putI, putDABMF, putDAIMF, putDAMF, putDABM, putDAM, putDBM, putDIM, putDB, putDM, putDAKMLQ, putABQ, putDAME, putDABME, putDBME, putAME, putAB, putDABE, putBs, putBIs, putIs, putBCs, putF_getF, BitVec.or_assoc, and_or_same]; exact rebuild h (by decide))
theorem exact_handRows4 : ∀ r ∈ handRows4, ∀ w, w &&& r.mask = r.value → encode (r.build w) = .word w := by
  simp only [handRows4, List.forall_mem_cons, List.not_mem_nil, false_implies, implies_true, and_true]
  repeat' apply And.intro
  all_goals
    intro w h
    refine congrArg Enc.word ?_
    first | exact rebuild0 h | (simp only [putDAB, putDAB2, putDA, putDAI, putDAI2, putDI, putBAI, putDABQW, putDAQW, putABQW, putABO, putDO, putDC, putDAC, putQ, putAQ, putDQ, putA, putD, putI, putDABMF, putDAIMF, putDAMF, putDABM, putDAM, putDBM, putDIM, putDB, putDM, putDAKMLQ, putABQ, putDAME, putDABME, putDBME, putAME, putAB, putDABE, putBs, putBIs, putIs, putBCs, putF_getF, BitVec.or_assoc, and_or_same]; exact rebuild h (by decide))
theorem exact_handRows5 : ∀ r ∈ handRows5, ∀ w, w &&& r.mask = r.value → encode (r.build w) = .word w := by
  simp only [handRows5, List.forall_mem_cons, List.not_mem_nil, false_implies, implies_true, and_true]
  repeat' apply And.intro
  all_goals
    intro w h
    refine congrArg Enc.word ?_
    first | exact rebuild0 h | (simp only [putDAB, putDAB2, putDA, putDAI, putDAI2, putDI, putBAI, putDABQW, putDAQW, putABQW, putABO, putDO, putDC, putDAC, putQ, putAQ, putDQ, putA, putD, putI, putDABMF, putDAIMF, putDAMF, putDABM, putDAM, putDBM, putDIM, putDB, putDM, putDAKMLQ, putABQ, putDAME, putDABME, putDBME, putAME, putAB, putDABE, putBs, putBIs, putIs, putBCs, putF_getF, BitVec.or_assoc, and_or_same]; exact rebuild h (by decide))
theorem exact_handRows6 : ∀ r ∈ handRows6, ∀ w, w &&& r.mask = r.value → encode (r.build w) = .word w := by
  simp only [handRows6, List.forall_mem_cons, List.not_mem_nil, false_implies, implies_true, and_true]
  repeat' apply And.intro
  all_goals
    intro w h
    refine congrArg Enc.word ?_
    first | exact rebuild0 h | (simp only [putDAB, putDAB2, putDA, putDAI, putDAI2, putDI, putBAI, putDABQW, putDAQW, putABQW, putABO, putDO, putDC, putDAC, putQ, putAQ, putDQ, putA, putD, putI, putDABMF, putDAIMF, putDAMF, putDABM, putDAM, putDBM, putDIM, putDB, putDM, putDAKMLQ, putABQ, putDAME, putDABME, putDBME, putAME, putAB, putDABE, putBs, putBIs, putIs, putBCs, putF_getF, BitVec.or_assoc, and_or_same]; exact rebuild h (by decide))
theorem exact_handRows7 : ∀ r ∈ handRows7, ∀ w, w &&& r.mask = r.value → encode (r.build w) = .word w := by
  simp only [handRows7, List.forall_mem_cons, List.not_mem_nil, false_implies, implies_true, and_true]
  repeat' apply And.intro
  all_goals
    intro w h
    refine congrArg Enc.word ?_
    first | exact rebuild0 h | (simp only [putDAB, putDAB2, putDA, putDAI, putDAI2, putDI, putBAI, putDABQW, putDAQW, putABQW, putABO, putDO, putDC, putDAC, putQ, putAQ, putDQ, putA, putD, putI, putDABMF, putDAIMF, putDAMF, putDABM, putDAM, putDBM, putDIM, putDB, putDM, putDAKMLQ, putABQ, putDAME, putDABME, putDBME, putAME, putAB, putDABE, putBs, putBIs, putIs, putBCs, putF_getF, BitVec.or_assoc, and_or_same]; exact rebuild h (by decide))
theorem exact_shortRows1 : ∀ r ∈ shortRows1, ∀ w, w &&& r.mask = r.value → encode (r.build w) = .half w := by
  simp only [shortRows1, List.forall_mem_cons, List.not_mem_nil, false_implies, implies_true, and_true]
  repeat' apply And.intro
  all_goals
    intro w h
    refine congrArg Enc.half ?_
    first | exact rebuild0 h | (simp only [putDAB, putDAB2, putDA, putDAI, putDAI2, putDI, putBAI, putDABQW, putDAQW, putABQW, putABO, putDO, putDC, putDAC, putQ, putAQ, putDQ, putA, putD, putI, putDABMF, putDAIMF, putDAMF, putDABM, putDAM, putDBM, putDIM, putDB, putDM, putDAKMLQ, putABQ, putDAME, putDABME, putDBME, putAME, putAB, putDABE, putBs, putBIs, putIs, putBCs, putF_getF, BitVec.or_assoc, and_or_same]; exact rebuild h (by decide))
theorem exact_xkryRows1 : ∀ r ∈ xkryRows1, ∀ w, w &&& r.mask = r.value → encode (r.build w) = .xkry w := by
  simp only [xkryRows1, List.forall_mem_cons, List.not_mem_nil, false_implies, implies_true, and_true]
  repeat' apply And.intro
  all_goals
    intro w h
    refine congrArg Enc.xkry ?_
    first | exact rebuild0 h | (simp only [putDAB, putDAB2, putDA, putDAI, putDAI2, putDI, putBAI, putDABQW, putDAQW, putABQW, putABO, putDO, putDC, putDAC, putQ, putAQ, putDQ, putA, putD, putI, putDABMF, putDAIMF, putDAMF, putDABM, putDAM, putDBM, putDIM, putDB, putDM, putDAKMLQ, putABQ, putDAME, putDABME, putDBME, putAME, putAB, putDABE, putBs, putBIs, putIs, putBCs, putF_getF, BitVec.or_assoc, and_or_same]; exact rebuild h (by decide))
end Sys2Proof
end

