-- ==== Sys2Proof/Laws/PerInstr.lean ====
section
/-!
SUPPORT. Decoding the words of an instruction gives it back: one lemma for each constructor (family RoundTrip).
-/

namespace Sys2Proof.Laws.RoundTrip

/-- A well-formed instruction that has an encoding is what its words decode to. -/
def Statement (i : Instr) : Prop := wellFormed i = true → encode i ≠ .none → decodeEnc (encode i) = some i

/-- A 32-bit hand form: row k owns its word, and builds it. -/
theorem of_word {i : Instr} {r : Row 32} {w : BitVec 32} (k : Nat) (hk : handRows[k]? = some r) (he : encode i = .word w)
    (hm : w &&& r.mask = r.value) (hb : r.build w = i) : Statement i := by
  intro hw _
  rw [he]
  simp only [decodeEnc, decode32, lookupRow_of_row handRows_apart hk hm, hb, checked, hw, if_true]

/-- A compressed form. -/
theorem of_half {i : Instr} {r : Row 16} {w : BitVec 16} (k : Nat) (hk : shortRows[k]? = some r) (he : encode i = .half w)
    (hm : w &&& r.mask = r.value) (hb : r.build w = i) : Statement i := by
  intro hw _
  rw [he]
  simp only [decodeEnc, decode16, lookupRow_of_row shortRows_apart hk hm, hb, checked, hw, if_true]

/-- An Xkry form. -/
theorem of_xkry {i : Instr} {r : Row 32} {w : BitVec 32} (k : Nat) (hk : xkryRows[k]? = some r) (he : encode i = .xkry w)
    (hm : w &&& r.mask = r.value) (hb : r.build w = i) : Statement i := by
  intro _ _
  rw [he]
  simp only [decodeEnc, lookupRow_of_row xkryRows_apart hk hm, hb]

/-- A step without an encoding. -/
theorem of_none {i : Instr} (he : encode i = .none) : Statement i := fun _ h => absurd he h

theorem registerWrite (x0 : RegName) (x1 : Word) : Statement (.registerWrite x0 x1) := of_none rfl
theorem qctlWrite (x0 : Nat) (x1 : Word) : Statement (.qctlWrite x0 x1) := of_none rfl
theorem qkickWrite (x0 : Producer) (x1 : Nat) (x2 : Word) : Statement (.qkickWrite x0 x1 x2) := of_none rfl
theorem qstatClearStopped (x0 : Nat) : Statement (.qstatClearStopped x0) := of_none rfl
theorem slotHeaderRead (x0 : Nat) : Statement (.slotHeaderRead x0) := of_none rfl
theorem slotHeaderReread (x0 : Nat) : Statement (.slotHeaderReread x0) := of_none rfl
theorem placeFarm (x0 : Nat) : Statement (.placeFarm x0) := of_none rfl
theorem quantumExpiry (x0 : Nat) : Statement (.quantumExpiry x0) := of_none rfl
theorem preemptSave (x0 : Nat) : Statement (.preemptSave x0) := of_none rfl
theorem farmResume (x0 : Nat) : Statement (.farmResume x0) := of_none rfl
theorem setDone (x0 : Nat) : Statement (.setDone x0) := of_none rfl
theorem farmKill (x0 : Nat) : Statement (.farmKill x0) := of_none rfl
theorem rexitWrite (x0 : Nat) (x1 : Word) : Statement (.rexitWrite x0 x1) := of_none rfl
theorem holdSafePoint (x0 : Nat) : Statement (.holdSafePoint x0) := of_none rfl
theorem heldEntry (x0 : Nat) : Statement (.heldEntry x0) := of_none rfl
theorem stopTakesEffect (x0 : Nat) : Statement (.stopTakesEffect x0) := of_none rfl
theorem abandonOff (x0 : Nat) : Statement (.abandonOff x0) := of_none rfl
theorem waitConditionMet (x0 : Nat) : Statement (.waitConditionMet x0) := of_none rfl
theorem yieldExpiry (x0 : Nat) : Statement (.yieldExpiry x0) := of_none rfl
theorem blockFetchArrival (x0 : Nat) : Statement (.blockFetchArrival x0) := of_none rfl
theorem nextBufferFill (x0 : Nat) : Statement (.nextBufferFill x0) := of_none rfl
theorem kwaitComplete (x0 : Nat) : Statement (.kwaitComplete x0) := of_none rfl
theorem rename (x0 : Nat) : Statement (.rename x0) := of_none rfl
theorem microOpIssue (x0 : Nat) : Statement (.microOpIssue x0) := of_none rfl
theorem microOpStarved (x0 : Nat) : Statement (.microOpStarved x0) := of_none rfl
theorem rowWritten (x0 : Nat) (x1 : Nat) : Statement (.rowWritten x0 x1) := of_none rfl
theorem retire (x0 : Nat) : Statement (.retire x0) := of_none rfl
theorem returnQueueWrite (x0 : Nat) : Statement (.returnQueueWrite x0) := of_none rfl
theorem branchQueueOutcome (x0 : Nat) : Statement (.branchQueueOutcome x0) := of_none rfl
theorem scalarStorePerform (x0 : Nat) : Statement (.scalarStorePerform x0) := of_none rfl
theorem elementPerform (x0 : Nat) : Statement (.elementPerform x0) := of_none rfl
theorem migrationRewalk (x0 : Nat) : Statement (.migrationRewalk x0) := of_none rfl
theorem migrationHoldTimeout (x0 : Nat) : Statement (.migrationHoldTimeout x0) := of_none rfl
theorem domainInvalidate (x0 : Nat) : Statement (.domainInvalidate x0) := of_none rfl
theorem invalidateAckTimeout (x0 : Nat) : Statement (.invalidateAckTimeout x0) := of_none rfl
theorem tokenRefill : Statement .tokenRefill := of_none rfl
theorem consumedReset : Statement .consumedReset := of_none rfl
theorem tokenGrant (x0 : Nat) : Statement (.tokenGrant x0) := of_none rfl
theorem readRequest (x0 : Nat) : Statement (.readRequest x0) := of_none rfl
theorem writeRequest (x0 : Nat) : Statement (.writeRequest x0) := of_none rfl
theorem readReply (x0 : Nat) (x1 : Nat) : Statement (.readReply x0 x1) := of_none rfl
theorem writeReply (x0 : Nat) (x1 : Nat) : Statement (.writeReply x0 x1) := of_none rfl
theorem hostCasCompletion (x0 : Nat) (x1 : Bool) (x2 : Word) : Statement (.hostCasCompletion x0 x1 x2) := of_none rfl
theorem copyChunkComplete (x0 : Nat) (x1 : Nat) (x2 : Nat) : Statement (.copyChunkComplete x0 x1 x2) := of_none rfl
theorem vwaitReread (x0 : Nat) : Statement (.vwaitReread x0) := of_none rfl
theorem vwaitTimeout (x0 : Nat) : Statement (.vwaitTimeout x0) := of_none rfl
theorem wfinReread (x0 : Nat) : Statement (.wfinReread x0) := of_none rfl
theorem wfinTimeout (x0 : Nat) : Statement (.wfinTimeout x0) := of_none rfl
theorem groupCreate (x0 : Nat) : Statement (.groupCreate x0) := of_none rfl
theorem groupDestroy (x0 : Nat) : Statement (.groupDestroy x0) := of_none rfl
theorem whistleInput (x0 : Nat) : Statement (.whistleInput x0) := of_none rfl
theorem whistleBlow (x0 : Nat) (x1 : Nat) (x2 : Nat) : Statement (.whistleBlow x0 x1 x2) := of_none rfl
theorem retentionExpiry (x0 : Nat) (x1 : Nat) (x2 : Nat) : Statement (.retentionExpiry x0 x1 x2) := of_none rfl
theorem dropNotice (x0 : Nat) : Statement (.dropNotice x0) := of_none rfl
theorem delivery (x0 : Nat) : Statement (.delivery x0) := of_none rfl
theorem deliveryKeepExpiry (x0 : Nat) (x1 : Nat) (x2 : Nat) : Statement (.deliveryKeepExpiry x0 x1 x2) := of_none rfl
theorem instanceAccept (x0 : Nat) (x1 : Nat) : Statement (.instanceAccept x0 x1) := of_none rfl
theorem flitReceive (x0 : Nat) (x1 : Bool) (x2 : FabMsg) : Statement (.flitReceive x0 x1 x2) := of_none rfl
theorem remoteRequest (x0 : Nat) : Statement (.remoteRequest x0) := of_none rfl
theorem remoteReply (x0 : Nat) : Statement (.remoteReply x0) := of_none rfl
theorem remoteTimeout (x0 : Nat) (x1 : Bool) : Statement (.remoteTimeout x0 x1) := of_none rfl
theorem hostRequest (x0 : Nat) (x1 : Bool) (x2 : Nat) (x3 : Word) : Statement (.hostRequest x0 x1 x2 x3) := of_none rfl
theorem bar2Access (x0 : Nat) (x1 : Bool) (x2 : Nat) (x3 : Nat) (x4 : Word) : Statement (.bar2Access x0 x1 x2 x3 x4) := of_none rfl
theorem preciseFaultPark (x0 : Nat) : Statement (.preciseFaultPark x0) := of_none rfl
theorem impreciseFaultPark (x0 : Nat) : Statement (.impreciseFaultPark x0) := of_none rfl
theorem replay (x0 : Nat) : Statement (.replay x0) := of_none rfl
theorem recheckMismatch (x0 : Nat) (x1 : Nat) (x2 : Nat) : Statement (.recheckMismatch x0 x1 x2) := of_none rfl
theorem recheckResolve (x0 : Nat) (x1 : Option Bool) : Statement (.recheckResolve x0 x1) := of_none rfl
theorem foulWindowReset (x0 : Nat) (x1 : Nat) : Statement (.foulWindowReset x0 x1) := of_none rfl
theorem foulBenchClear (x0 : Nat) (x1 : Word) : Statement (.foulBenchClear x0 x1) := of_none rfl
theorem coreMigrate (x0 : Nat) (x1 : Nat) : Statement (.coreMigrate x0 x1) := of_none rfl
theorem violation (x0 : Master) (x1 : Nat) (x2 : Word) : Statement (.violation x0 x1 x2) := of_none rfl
theorem attestation (x0 : Nat) : Statement (.attestation x0) := of_none rfl
theorem controllerUpdate (x0 : Nat) (x1 : Nat) : Statement (.controllerUpdate x0 x1) := of_none rfl
theorem powerClamp (x0 : Nat) : Statement (.powerClamp x0) := of_none rfl
theorem thermalThrottle (x0 : Nat) (x1 : Nat) : Statement (.thermalThrottle x0 x1) := of_none rfl
theorem thermalShutdown (x0 : Nat) : Statement (.thermalShutdown x0) := of_none rfl
theorem gheartWrite (x0 : Nat) (x1 : Word) : Statement (.gheartWrite x0 x1) := of_none rfl
theorem fallbackEntry (x0 : Nat) : Statement (.fallbackEntry x0) := of_none rfl
theorem dramRefresh (x0 : Nat) (x1 : Nat) : Statement (.dramRefresh x0 x1) := of_none rfl
theorem derate (x0 : Nat) (x1 : Nat) : Statement (.derate x0 x1) := of_none rfl
theorem scrub (x0 : ScrubUnit) (x1 : Bool) : Statement (.scrub x0 x1) := of_none rfl
theorem calibration (x0 : Nat) : Statement (.calibration x0) := of_none rfl
theorem deviceReset : Statement .deviceReset := of_none rfl
theorem bootStage (x0 : Bool) : Statement (.bootStage x0) := of_none rfl
theorem partitionLoad (x0 : Nat) (x1 : Nat) (x2 : Nat) : Statement (.partitionLoad x0 x1 x2) := of_none rfl
theorem endCompletionAdd (x0 : Nat) : Statement (.endCompletionAdd x0) := of_none rfl
theorem kbc (x0 : Reg) (x1 : Reg) (x2 : Reg) : Statement (.kbc x0 x1 x2) := by
  refine of_xkry 0 rfl rfl ?_ ?_
  · simp (disch := decide) only [putDAB, or_and_mask, putF_and_zero]; rfl
  · simp (disch := decide) only [putDAB, getF_or, getF_putF_same, getF_putF_apart]; simp [getF]
theorem kgo (x0 : Reg) (x1 : Reg) (x2 : Reg) : Statement (.kgo x0 x1 x2) := by
  refine of_xkry 1 rfl rfl ?_ ?_
  · simp (disch := decide) only [putDAB, or_and_mask, putF_and_zero]; rfl
  · simp (disch := decide) only [putDAB, getF_or, getF_putF_same, getF_putF_apart]; simp [getF]
theorem kstop (x0 : Reg) (x1 : Reg) (x2 : Reg) : Statement (.kstop x0 x1 x2) := by
  refine of_xkry 2 rfl rfl ?_ ?_
  · simp (disch := decide) only [putDAB, or_and_mask, putF_and_zero]; rfl
  · simp (disch := decide) only [putDAB, getF_or, getF_putF_same, getF_putF_apart]; simp [getF]
theorem kwait (x0 : Reg) (x1 : Reg) (x2 : Reg) : Statement (.kwait x0 x1 x2) := by
  refine of_xkry 3 rfl rfl ?_ ?_
  · simp (disch := decide) only [putDAB, or_and_mask, putF_and_zero]; rfl
  · simp (disch := decide) only [putDAB, getF_or, getF_putF_same, getF_putF_apart]; simp [getF]
theorem kstat (x0 : Reg) (x1 : Reg) (x2 : Reg) : Statement (.kstat x0 x1 x2) := by
  refine of_xkry 4 rfl rfl ?_ ?_
  · simp (disch := decide) only [putDAB, or_and_mask, putF_and_zero]; rfl
  · simp (disch := decide) only [putDAB, getF_or, getF_putF_same, getF_putF_apart]; simp [getF]
theorem kread (x0 : Reg) (x1 : Reg) (x2 : Reg) : Statement (.kread x0 x1 x2) := by
  refine of_xkry 5 rfl rfl ?_ ?_
  · simp (disch := decide) only [putDAB, or_and_mask, putF_and_zero]; rfl
  · simp (disch := decide) only [putDAB, getF_or, getF_putF_same, getF_putF_apart]; simp [getF]
theorem kwrite (x0 : Reg) (x1 : Reg) (x2 : Reg) : Statement (.kwrite x0 x1 x2) := by
  refine of_xkry 6 rfl rfl ?_ ?_
  · simp (disch := decide) only [putDAB, or_and_mask, putF_and_zero]; rfl
  · simp (disch := decide) only [putDAB, getF_or, getF_putF_same, getF_putF_apart]; simp [getF]
theorem kframe (x0 : Reg) (x1 : Reg) (x2 : Reg) : Statement (.kframe x0 x1 x2) := by
  refine of_xkry 7 rfl rfl ?_ ?_
  · simp (disch := decide) only [putDAB, or_and_mask, putF_and_zero]; rfl
  · simp (disch := decide) only [putDAB, getF_or, getF_putF_same, getF_putF_apart]; simp [getF]
theorem krest (x0 : Reg) (x1 : Reg) (x2 : Reg) : Statement (.krest x0 x1 x2) := by
  refine of_xkry 8 rfl rfl ?_ ?_
  · simp (disch := decide) only [putDAB, or_and_mask, putF_and_zero]; rfl
  · simp (disch := decide) only [putDAB, getF_or, getF_putF_same, getF_putF_apart]; simp [getF]
theorem klaunch (x0 : Reg) (x1 : Reg) (x2 : Reg) : Statement (.klaunch x0 x1 x2) := by
  refine of_xkry 9 rfl rfl ?_ ?_
  · simp (disch := decide) only [putDAB, or_and_mask, putF_and_zero]; rfl
  · simp (disch := decide) only [putDAB, getF_or, getF_putF_same, getF_putF_apart]; simp [getF]
theorem kquiet (x0 : Reg) (x1 : Reg) (x2 : Reg) : Statement (.kquiet x0 x1 x2) := by
  refine of_xkry 10 rfl rfl ?_ ?_
  · simp (disch := decide) only [putDAB, or_and_mask, putF_and_zero]; rfl
  · simp (disch := decide) only [putDAB, getF_or, getF_putF_same, getF_putF_apart]; simp [getF]
theorem kevt (x0 : Reg) (x1 : Reg) (x2 : Reg) : Statement (.kevt x0 x1 x2) := by
  refine of_xkry 11 rfl rfl ?_ ?_
  · simp (disch := decide) only [putDAB, or_and_mask, putF_and_zero]; rfl
  · simp (disch := decide) only [putDAB, getF_or, getF_putF_same, getF_putF_apart]; simp [getF]
theorem add (x0 : Reg) (x1 : Reg) (x2 : Reg) : Statement (.add x0 x1 x2) := by
  refine of_word 0 rfl rfl ?_ ?_
  · simp (disch := decide) only [putDAB2, or_and_mask, putF_and_zero]; rfl
  · simp (disch := decide) only [putDAB2, getF_or, getF_putF_same, getF_putF_apart]; simp [getF]
theorem sub (x0 : Reg) (x1 : Reg) (x2 : Reg) : Statement (.sub x0 x1 x2) := by
  refine of_word 1 rfl rfl ?_ ?_
  · simp (disch := decide) only [putDAB2, or_and_mask, putF_and_zero]; rfl
  · simp (disch := decide) only [putDAB2, getF_or, getF_putF_same, getF_putF_apart]; simp [getF]
theorem and (x0 : Reg) (x1 : Reg) (x2 : Reg) : Statement (.and x0 x1 x2) := by
  refine of_word 2 rfl rfl ?_ ?_
  · simp (disch := decide) only [putDAB2, or_and_mask, putF_and_zero]; rfl
  · simp (disch := decide) only [putDAB2, getF_or, getF_putF_same, getF_putF_apart]; simp [getF]
theorem or (x0 : Reg) (x1 : Reg) (x2 : Reg) : Statement (.or x0 x1 x2) := by
  refine of_word 3 rfl rfl ?_ ?_
  · simp (disch := decide) only [putDAB2, or_and_mask, putF_and_zero]; rfl
  · simp (disch := decide) only [putDAB2, getF_or, getF_putF_same, getF_putF_apart]; simp [getF]
theorem xor (x0 : Reg) (x1 : Reg) (x2 : Reg) : Statement (.xor x0 x1 x2) := by
  refine of_word 4 rfl rfl ?_ ?_
  · simp (disch := decide) only [putDAB2, or_and_mask, putF_and_zero]; rfl
  · simp (disch := decide) only [putDAB2, getF_or, getF_putF_same, getF_putF_apart]; simp [getF]
theorem sll (x0 : Reg) (x1 : Reg) (x2 : Reg) : Statement (.sll x0 x1 x2) := by
  refine of_word 5 rfl rfl ?_ ?_
  · simp (disch := decide) only [putDAB2, or_and_mask, putF_and_zero]; rfl
  · simp (disch := decide) only [putDAB2, getF_or, getF_putF_same, getF_putF_apart]; simp [getF]
theorem srl (x0 : Reg) (x1 : Reg) (x2 : Reg) : Statement (.srl x0 x1 x2) := by
  refine of_word 6 rfl rfl ?_ ?_
  · simp (disch := decide) only [putDAB2, or_and_mask, putF_and_zero]; rfl
  · simp (disch := decide) only [putDAB2, getF_or, getF_putF_same, getF_putF_apart]; simp [getF]
theorem sra (x0 : Reg) (x1 : Reg) (x2 : Reg) : Statement (.sra x0 x1 x2) := by
  refine of_word 7 rfl rfl ?_ ?_
  · simp (disch := decide) only [putDAB2, or_and_mask, putF_and_zero]; rfl
  · simp (disch := decide) only [putDAB2, getF_or, getF_putF_same, getF_putF_apart]; simp [getF]
theorem slt (x0 : Reg) (x1 : Reg) (x2 : Reg) : Statement (.slt x0 x1 x2) := by
  refine of_word 8 rfl rfl ?_ ?_
  · simp (disch := decide) only [putDAB2, or_and_mask, putF_and_zero]; rfl
  · simp (disch := decide) only [putDAB2, getF_or, getF_putF_same, getF_putF_apart]; simp [getF]
theorem sltn (x0 : Reg) (x1 : Reg) (x2 : Reg) : Statement (.sltn x0 x1 x2) := by
  refine of_word 9 rfl rfl ?_ ?_
  · simp (disch := decide) only [putDAB2, or_and_mask, putF_and_zero]; rfl
  · simp (disch := decide) only [putDAB2, getF_or, getF_putF_same, getF_putF_apart]; simp [getF]
theorem mul (x0 : Reg) (x1 : Reg) (x2 : Reg) : Statement (.mul x0 x1 x2) := by
  refine of_word 10 rfl rfl ?_ ?_
  · simp (disch := decide) only [putDAB2, or_and_mask, putF_and_zero]; rfl
  · simp (disch := decide) only [putDAB2, getF_or, getF_putF_same, getF_putF_apart]; simp [getF]
theorem mulh (x0 : Reg) (x1 : Reg) (x2 : Reg) : Statement (.mulh x0 x1 x2) := by
  refine of_word 11 rfl rfl ?_ ?_
  · simp (disch := decide) only [putDAB2, or_and_mask, putF_and_zero]; rfl
  · simp (disch := decide) only [putDAB2, getF_or, getF_putF_same, getF_putF_apart]; simp [getF]
theorem mulhn (x0 : Reg) (x1 : Reg) (x2 : Reg) : Statement (.mulhn x0 x1 x2) := by
  refine of_word 12 rfl rfl ?_ ?_
  · simp (disch := decide) only [putDAB2, or_and_mask, putF_and_zero]; rfl
  · simp (disch := decide) only [putDAB2, getF_or, getF_putF_same, getF_putF_apart]; simp [getF]
theorem div (x0 : Reg) (x1 : Reg) (x2 : Reg) : Statement (.div x0 x1 x2) := by
  refine of_word 13 rfl rfl ?_ ?_
  · simp (disch := decide) only [putDAB2, or_and_mask, putF_and_zero]; rfl
  · simp (disch := decide) only [putDAB2, getF_or, getF_putF_same, getF_putF_apart]; simp [getF]
theorem divn (x0 : Reg) (x1 : Reg) (x2 : Reg) : Statement (.divn x0 x1 x2) := by
  refine of_word 14 rfl rfl ?_ ?_
  · simp (disch := decide) only [putDAB2, or_and_mask, putF_and_zero]; rfl
  · simp (disch := decide) only [putDAB2, getF_or, getF_putF_same, getF_putF_apart]; simp [getF]
theorem rem (x0 : Reg) (x1 : Reg) (x2 : Reg) : Statement (.rem x0 x1 x2) := by
  refine of_word 15 rfl rfl ?_ ?_
  · simp (disch := decide) only [putDAB2, or_and_mask, putF_and_zero]; rfl
  · simp (disch := decide) only [putDAB2, getF_or, getF_putF_same, getF_putF_apart]; simp [getF]
theorem remn (x0 : Reg) (x1 : Reg) (x2 : Reg) : Statement (.remn x0 x1 x2) := by
  refine of_word 16 rfl rfl ?_ ?_
  · simp (disch := decide) only [putDAB2, or_and_mask, putF_and_zero]; rfl
  · simp (disch := decide) only [putDAB2, getF_or, getF_putF_same, getF_putF_apart]; simp [getF]
theorem min (x0 : Reg) (x1 : Reg) (x2 : Reg) : Statement (.min x0 x1 x2) := by
  refine of_word 17 rfl rfl ?_ ?_
  · simp (disch := decide) only [putDAB2, or_and_mask, putF_and_zero]; rfl
  · simp (disch := decide) only [putDAB2, getF_or, getF_putF_same, getF_putF_apart]; simp [getF]
theorem max (x0 : Reg) (x1 : Reg) (x2 : Reg) : Statement (.max x0 x1 x2) := by
  refine of_word 18 rfl rfl ?_ ?_
  · simp (disch := decide) only [putDAB2, or_and_mask, putF_and_zero]; rfl
  · simp (disch := decide) only [putDAB2, getF_or, getF_putF_same, getF_putF_apart]; simp [getF]
theorem minn (x0 : Reg) (x1 : Reg) (x2 : Reg) : Statement (.minn x0 x1 x2) := by
  refine of_word 19 rfl rfl ?_ ?_
  · simp (disch := decide) only [putDAB2, or_and_mask, putF_and_zero]; rfl
  · simp (disch := decide) only [putDAB2, getF_or, getF_putF_same, getF_putF_apart]; simp [getF]
theorem maxn (x0 : Reg) (x1 : Reg) (x2 : Reg) : Statement (.maxn x0 x1 x2) := by
  refine of_word 20 rfl rfl ?_ ?_
  · simp (disch := decide) only [putDAB2, or_and_mask, putF_and_zero]; rfl
  · simp (disch := decide) only [putDAB2, getF_or, getF_putF_same, getF_putF_apart]; simp [getF]
theorem clz (x0 : Reg) (x1 : Reg) : Statement (.clz x0 x1) := by
  refine of_word 21 rfl rfl ?_ ?_
  · simp (disch := decide) only [putDA, or_and_mask, putF_and_zero]; rfl
  · simp (disch := decide) only [putDA, getF_or, getF_putF_same, getF_putF_apart]; simp [getF]
theorem ctz (x0 : Reg) (x1 : Reg) : Statement (.ctz x0 x1) := by
  refine of_word 22 rfl rfl ?_ ?_
  · simp (disch := decide) only [putDA, or_and_mask, putF_and_zero]; rfl
  · simp (disch := decide) only [putDA, getF_or, getF_putF_same, getF_putF_apart]; simp [getF]
theorem popc (x0 : Reg) (x1 : Reg) : Statement (.popc x0 x1) := by
  refine of_word 23 rfl rfl ?_ ?_
  · simp (disch := decide) only [putDA, or_and_mask, putF_and_zero]; rfl
  · simp (disch := decide) only [putDA, getF_or, getF_putF_same, getF_putF_apart]; simp [getF]
theorem addi (x0 : Reg) (x1 : Reg) (x2 : BitVec 11) : Statement (.addi x0 x1 x2) := by
  refine of_word 24 rfl rfl ?_ ?_
  · simp (disch := decide) only [putDAI, or_and_mask, putF_and_zero]; rfl
  · simp (disch := decide) only [putDAI, getF_or, getF_putF_same, getF_putF_apart]; simp [getF]
theorem andi (x0 : Reg) (x1 : Reg) (x2 : BitVec 11) : Statement (.andi x0 x1 x2) := by
  refine of_word 25 rfl rfl ?_ ?_
  · simp (disch := decide) only [putDAI, or_and_mask, putF_and_zero]; rfl
  · simp (disch := decide) only [putDAI, getF_or, getF_putF_same, getF_putF_apart]; simp [getF]
theorem ori (x0 : Reg) (x1 : Reg) (x2 : BitVec 11) : Statement (.ori x0 x1 x2) := by
  refine of_word 26 rfl rfl ?_ ?_
  · simp (disch := decide) only [putDAI, or_and_mask, putF_and_zero]; rfl
  · simp (disch := decide) only [putDAI, getF_or, getF_putF_same, getF_putF_apart]; simp [getF]
theorem xori (x0 : Reg) (x1 : Reg) (x2 : BitVec 11) : Statement (.xori x0 x1 x2) := by
  refine of_word 27 rfl rfl ?_ ?_
  · simp (disch := decide) only [putDAI, or_and_mask, putF_and_zero]; rfl
  · simp (disch := decide) only [putDAI, getF_or, getF_putF_same, getF_putF_apart]; simp [getF]
theorem slti (x0 : Reg) (x1 : Reg) (x2 : BitVec 11) : Statement (.slti x0 x1 x2) := by
  refine of_word 28 rfl rfl ?_ ?_
  · simp (disch := decide) only [putDAI, or_and_mask, putF_and_zero]; rfl
  · simp (disch := decide) only [putDAI, getF_or, getF_putF_same, getF_putF_apart]; simp [getF]
theorem slli (x0 : Reg) (x1 : Reg) (x2 : BitVec 6) : Statement (.slli x0 x1 x2) := by
  refine of_word 29 rfl rfl ?_ ?_
  · simp (disch := decide) only [putDAI2, or_and_mask, putF_and_zero]; rfl
  · simp (disch := decide) only [putDAI2, getF_or, getF_putF_same, getF_putF_apart]; simp [getF]
theorem srli (x0 : Reg) (x1 : Reg) (x2 : BitVec 6) : Statement (.srli x0 x1 x2) := by
  refine of_word 30 rfl rfl ?_ ?_
  · simp (disch := decide) only [putDAI2, or_and_mask, putF_and_zero]; rfl
  · simp (disch := decide) only [putDAI2, getF_or, getF_putF_same, getF_putF_apart]; simp [getF]
theorem srai (x0 : Reg) (x1 : Reg) (x2 : BitVec 6) : Statement (.srai x0 x1 x2) := by
  refine of_word 31 rfl rfl ?_ ?_
  · simp (disch := decide) only [putDAI2, or_and_mask, putF_and_zero]; rfl
  · simp (disch := decide) only [putDAI2, getF_or, getF_putF_same, getF_putF_apart]; simp [getF]
theorem lim (x0 : Reg) (x1 : BitVec 19) : Statement (.lim x0 x1) := by
  refine of_word 32 rfl rfl ?_ ?_
  · simp (disch := decide) only [putDI, or_and_mask, putF_and_zero]; rfl
  · simp (disch := decide) only [putDI, getF_or, getF_putF_same, getF_putF_apart]; simp [getF]
theorem lsh (x0 : Reg) (x1 : BitVec 19) : Statement (.lsh x0 x1) := by
  refine of_word 33 rfl rfl ?_ ?_
  · simp (disch := decide) only [putDI, or_and_mask, putF_and_zero]; rfl
  · simp (disch := decide) only [putDI, getF_or, getF_putF_same, getF_putF_apart]; simp [getF]
theorem ldB (x0 : Reg) (x1 : Reg) (x2 : BitVec 11) : Statement (.ldB x0 x1 x2) := by
  refine of_word 34 rfl rfl ?_ ?_
  · simp (disch := decide) only [putDAI, or_and_mask, putF_and_zero]; rfl
  · simp (disch := decide) only [putDAI, getF_or, getF_putF_same, getF_putF_apart]; simp [getF]
theorem ldH (x0 : Reg) (x1 : Reg) (x2 : BitVec 11) : Statement (.ldH x0 x1 x2) := by
  refine of_word 35 rfl rfl ?_ ?_
  · simp (disch := decide) only [putDAI, or_and_mask, putF_and_zero]; rfl
  · simp (disch := decide) only [putDAI, getF_or, getF_putF_same, getF_putF_apart]; simp [getF]
theorem ldW (x0 : Reg) (x1 : Reg) (x2 : BitVec 11) : Statement (.ldW x0 x1 x2) := by
  refine of_word 36 rfl rfl ?_ ?_
  · simp (disch := decide) only [putDAI, or_and_mask, putF_and_zero]; rfl
  · simp (disch := decide) only [putDAI, getF_or, getF_putF_same, getF_putF_apart]; simp [getF]
theorem ldD (x0 : Reg) (x1 : Reg) (x2 : BitVec 11) : Statement (.ldD x0 x1 x2) := by
  refine of_word 37 rfl rfl ?_ ?_
  · simp (disch := decide) only [putDAI, or_and_mask, putF_and_zero]; rfl
  · simp (disch := decide) only [putDAI, getF_or, getF_putF_same, getF_putF_apart]; simp [getF]
theorem ldBn (x0 : Reg) (x1 : Reg) (x2 : BitVec 11) : Statement (.ldBn x0 x1 x2) := by
  refine of_word 38 rfl rfl ?_ ?_
  · simp (disch := decide) only [putDAI, or_and_mask, putF_and_zero]; rfl
  · simp (disch := decide) only [putDAI, getF_or, getF_putF_same, getF_putF_apart]; simp [getF]
theorem ldHn (x0 : Reg) (x1 : Reg) (x2 : BitVec 11) : Statement (.ldHn x0 x1 x2) := by
  refine of_word 39 rfl rfl ?_ ?_
  · simp (disch := decide) only [putDAI, or_and_mask, putF_and_zero]; rfl
  · simp (disch := decide) only [putDAI, getF_or, getF_putF_same, getF_putF_apart]; simp [getF]
theorem ldWn (x0 : Reg) (x1 : Reg) (x2 : BitVec 11) : Statement (.ldWn x0 x1 x2) := by
  refine of_word 40 rfl rfl ?_ ?_
  · simp (disch := decide) only [putDAI, or_and_mask, putF_and_zero]; rfl
  · simp (disch := decide) only [putDAI, getF_or, getF_putF_same, getF_putF_apart]; simp [getF]
theorem stB (x0 : Reg) (x1 : Reg) (x2 : BitVec 11) : Statement (.stB x0 x1 x2) := by
  refine of_word 41 rfl rfl ?_ ?_
  · simp (disch := decide) only [putBAI, or_and_mask, putF_and_zero]; rfl
  · simp (disch := decide) only [putBAI, getF_or, getF_putF_same, getF_putF_apart]; simp [getF]
theorem stH (x0 : Reg) (x1 : Reg) (x2 : BitVec 11) : Statement (.stH x0 x1 x2) := by
  refine of_word 42 rfl rfl ?_ ?_
  · simp (disch := decide) only [putBAI, or_and_mask, putF_and_zero]; rfl
  · simp (disch := decide) only [putBAI, getF_or, getF_putF_same, getF_putF_apart]; simp [getF]
theorem stW (x0 : Reg) (x1 : Reg) (x2 : BitVec 11) : Statement (.stW x0 x1 x2) := by
  refine of_word 43 rfl rfl ?_ ?_
  · simp (disch := decide) only [putBAI, or_and_mask, putF_and_zero]; rfl
  · simp (disch := decide) only [putBAI, getF_or, getF_putF_same, getF_putF_apart]; simp [getF]
theorem stD (x0 : Reg) (x1 : Reg) (x2 : BitVec 11) : Statement (.stD x0 x1 x2) := by
  refine of_word 44 rfl rfl ?_ ?_
  · simp (disch := decide) only [putBAI, or_and_mask, putF_and_zero]; rfl
  · simp (disch := decide) only [putBAI, getF_or, getF_putF_same, getF_putF_apart]; simp [getF]
theorem amoSwap (x0 : Reg) (x1 : Reg) (x2 : Reg) (x3 : BitVec 3) (x4 : BitVec 1) : Statement (.amoSwap x0 x1 x2 x3 x4) := by
  refine of_word 45 rfl rfl ?_ ?_
  · simp (disch := decide) only [putDABQW, or_and_mask, putF_and_zero]; rfl
  · simp (disch := decide) only [putDABQW, getF_or, getF_putF_same, getF_putF_apart]; simp [getF]
theorem amoAdd (x0 : Reg) (x1 : Reg) (x2 : Reg) (x3 : BitVec 3) (x4 : BitVec 1) : Statement (.amoAdd x0 x1 x2 x3 x4) := by
  refine of_word 46 rfl rfl ?_ ?_
  · simp (disch := decide) only [putDABQW, or_and_mask, putF_and_zero]; rfl
  · simp (disch := decide) only [putDABQW, getF_or, getF_putF_same, getF_putF_apart]; simp [getF]
theorem amoAnd (x0 : Reg) (x1 : Reg) (x2 : Reg) (x3 : BitVec 3) (x4 : BitVec 1) : Statement (.amoAnd x0 x1 x2 x3 x4) := by
  refine of_word 47 rfl rfl ?_ ?_
  · simp (disch := decide) only [putDABQW, or_and_mask, putF_and_zero]; rfl
  · simp (disch := decide) only [putDABQW, getF_or, getF_putF_same, getF_putF_apart]; simp [getF]
theorem amoOr (x0 : Reg) (x1 : Reg) (x2 : Reg) (x3 : BitVec 3) (x4 : BitVec 1) : Statement (.amoOr x0 x1 x2 x3 x4) := by
  refine of_word 48 rfl rfl ?_ ?_
  · simp (disch := decide) only [putDABQW, or_and_mask, putF_and_zero]; rfl
  · simp (disch := decide) only [putDABQW, getF_or, getF_putF_same, getF_putF_apart]; simp [getF]
theorem amoXor (x0 : Reg) (x1 : Reg) (x2 : Reg) (x3 : BitVec 3) (x4 : BitVec 1) : Statement (.amoXor x0 x1 x2 x3 x4) := by
  refine of_word 49 rfl rfl ?_ ?_
  · simp (disch := decide) only [putDABQW, or_and_mask, putF_and_zero]; rfl
  · simp (disch := decide) only [putDABQW, getF_or, getF_putF_same, getF_putF_apart]; simp [getF]
theorem amoMax (x0 : Reg) (x1 : Reg) (x2 : Reg) (x3 : BitVec 3) (x4 : BitVec 1) : Statement (.amoMax x0 x1 x2 x3 x4) := by
  refine of_word 50 rfl rfl ?_ ?_
  · simp (disch := decide) only [putDABQW, or_and_mask, putF_and_zero]; rfl
  · simp (disch := decide) only [putDABQW, getF_or, getF_putF_same, getF_putF_apart]; simp [getF]
theorem amoMin (x0 : Reg) (x1 : Reg) (x2 : Reg) (x3 : BitVec 3) (x4 : BitVec 1) : Statement (.amoMin x0 x1 x2 x3 x4) := by
  refine of_word 51 rfl rfl ?_ ?_
  · simp (disch := decide) only [putDABQW, or_and_mask, putF_and_zero]; rfl
  · simp (disch := decide) only [putDABQW, getF_or, getF_putF_same, getF_putF_apart]; simp [getF]
theorem amoMaxn (x0 : Reg) (x1 : Reg) (x2 : Reg) (x3 : BitVec 3) (x4 : BitVec 1) : Statement (.amoMaxn x0 x1 x2 x3 x4) := by
  refine of_word 52 rfl rfl ?_ ?_
  · simp (disch := decide) only [putDABQW, or_and_mask, putF_and_zero]; rfl
  · simp (disch := decide) only [putDABQW, getF_or, getF_putF_same, getF_putF_apart]; simp [getF]
theorem amoMinn (x0 : Reg) (x1 : Reg) (x2 : Reg) (x3 : BitVec 3) (x4 : BitVec 1) : Statement (.amoMinn x0 x1 x2 x3 x4) := by
  refine of_word 53 rfl rfl ?_ ?_
  · simp (disch := decide) only [putDABQW, or_and_mask, putF_and_zero]; rfl
  · simp (disch := decide) only [putDABQW, getF_or, getF_putF_same, getF_putF_apart]; simp [getF]
theorem amoCas (x0 : Reg) (x1 : Reg) (x2 : Reg) (x3 : BitVec 3) (x4 : BitVec 1) : Statement (.amoCas x0 x1 x2 x3 x4) := by
  refine of_word 54 rfl rfl ?_ ?_
  · simp (disch := decide) only [putDABQW, or_and_mask, putF_and_zero]; rfl
  · simp (disch := decide) only [putDABQW, getF_or, getF_putF_same, getF_putF_apart]; simp [getF]
theorem ldAcq (x0 : Reg) (x1 : Reg) (x2 : BitVec 3) (x3 : BitVec 1) : Statement (.ldAcq x0 x1 x2 x3) := by
  refine of_word 55 rfl rfl ?_ ?_
  · simp (disch := decide) only [putDAQW, or_and_mask, putF_and_zero]; rfl
  · simp (disch := decide) only [putDAQW, getF_or, getF_putF_same, getF_putF_apart]; simp [getF]
theorem stRel (x0 : Reg) (x1 : Reg) (x2 : BitVec 3) (x3 : BitVec 1) : Statement (.stRel x0 x1 x2 x3) := by
  refine of_word 56 rfl rfl ?_ ?_
  · simp (disch := decide) only [putABQW, or_and_mask, putF_and_zero]; rfl
  · simp (disch := decide) only [putABQW, getF_or, getF_putF_same, getF_putF_apart]; simp [getF]
theorem beq (x0 : Reg) (x1 : Reg) (x2 : BitVec 11) : Statement (.beq x0 x1 x2) := by
  refine of_word 57 rfl rfl ?_ ?_
  · simp (disch := decide) only [putABO, or_and_mask, putF_and_zero]; rfl
  · simp (disch := decide) only [putABO, getF_or, getF_putF_same, getF_putF_apart]; simp [getF]
theorem bne (x0 : Reg) (x1 : Reg) (x2 : BitVec 11) : Statement (.bne x0 x1 x2) := by
  refine of_word 58 rfl rfl ?_ ?_
  · simp (disch := decide) only [putABO, or_and_mask, putF_and_zero]; rfl
  · simp (disch := decide) only [putABO, getF_or, getF_putF_same, getF_putF_apart]; simp [getF]
theorem blt (x0 : Reg) (x1 : Reg) (x2 : BitVec 11) : Statement (.blt x0 x1 x2) := by
  refine of_word 59 rfl rfl ?_ ?_
  · simp (disch := decide) only [putABO, or_and_mask, putF_and_zero]; rfl
  · simp (disch := decide) only [putABO, getF_or, getF_putF_same, getF_putF_apart]; simp [getF]
theorem bge (x0 : Reg) (x1 : Reg) (x2 : BitVec 11) : Statement (.bge x0 x1 x2) := by
  refine of_word 60 rfl rfl ?_ ?_
  · simp (disch := decide) only [putABO, or_and_mask, putF_and_zero]; rfl
  · simp (disch := decide) only [putABO, getF_or, getF_putF_same, getF_putF_apart]; simp [getF]
theorem bltn (x0 : Reg) (x1 : Reg) (x2 : BitVec 11) : Statement (.bltn x0 x1 x2) := by
  refine of_word 61 rfl rfl ?_ ?_
  · simp (disch := decide) only [putABO, or_and_mask, putF_and_zero]; rfl
  · simp (disch := decide) only [putABO, getF_or, getF_putF_same, getF_putF_apart]; simp [getF]
theorem bgen (x0 : Reg) (x1 : Reg) (x2 : BitVec 11) : Statement (.bgen x0 x1 x2) := by
  refine of_word 62 rfl rfl ?_ ?_
  · simp (disch := decide) only [putABO, or_and_mask, putF_and_zero]; rfl
  · simp (disch := decide) only [putABO, getF_or, getF_putF_same, getF_putF_apart]; simp [getF]
theorem bbs (x0 : Reg) (x1 : Reg) (x2 : BitVec 11) : Statement (.bbs x0 x1 x2) := by
  refine of_word 63 rfl rfl ?_ ?_
  · simp (disch := decide) only [putABO, or_and_mask, putF_and_zero]; rfl
  · simp (disch := decide) only [putABO, getF_or, getF_putF_same, getF_putF_apart]; simp [getF]
theorem bbc (x0 : Reg) (x1 : Reg) (x2 : BitVec 11) : Statement (.bbc x0 x1 x2) := by
  refine of_word 64 rfl rfl ?_ ?_
  · simp (disch := decide) only [putABO, or_and_mask, putF_and_zero]; rfl
  · simp (disch := decide) only [putABO, getF_or, getF_putF_same, getF_putF_apart]; simp [getF]
theorem jal (x0 : Reg) (x1 : BitVec 19) : Statement (.jal x0 x1) := by
  refine of_word 65 rfl rfl ?_ ?_
  · simp (disch := decide) only [putDO, or_and_mask, putF_and_zero]; rfl
  · simp (disch := decide) only [putDO, getF_or, getF_putF_same, getF_putF_apart]; simp [getF]
theorem jalr (x0 : Reg) (x1 : Reg) (x2 : BitVec 11) : Statement (.jalr x0 x1 x2) := by
  refine of_word 66 rfl rfl ?_ ?_
  · simp (disch := decide) only [putDAI, or_and_mask, putF_and_zero]; rfl
  · simp (disch := decide) only [putDAI, getF_or, getF_putF_same, getF_putF_apart]; simp [getF]
theorem csrr (x0 : Reg) (x1 : BitVec 12) : Statement (.csrr x0 x1) := by
  refine of_word 67 rfl rfl ?_ ?_
  · simp (disch := decide) only [putDC, or_and_mask, putF_and_zero]; rfl
  · simp (disch := decide) only [putDC, getF_or, getF_putF_same, getF_putF_apart]; simp [getF]
theorem csrw (x0 : Reg) (x1 : Reg) (x2 : BitVec 12) : Statement (.csrw x0 x1 x2) := by
  refine of_word 68 rfl rfl ?_ ?_
  · simp (disch := decide) only [putDAC, or_and_mask, putF_and_zero]; rfl
  · simp (disch := decide) only [putDAC, getF_or, getF_putF_same, getF_putF_apart]; simp [getF]
theorem csrs (x0 : Reg) (x1 : Reg) (x2 : BitVec 12) : Statement (.csrs x0 x1 x2) := by
  refine of_word 69 rfl rfl ?_ ?_
  · simp (disch := decide) only [putDAC, or_and_mask, putF_and_zero]; rfl
  · simp (disch := decide) only [putDAC, getF_or, getF_putF_same, getF_putF_apart]; simp [getF]
theorem csrc (x0 : Reg) (x1 : Reg) (x2 : BitVec 12) : Statement (.csrc x0 x1 x2) := by
  refine of_word 70 rfl rfl ?_ ?_
  · simp (disch := decide) only [putDAC, or_and_mask, putF_and_zero]; rfl
  · simp (disch := decide) only [putDAC, getF_or, getF_putF_same, getF_putF_apart]; simp [getF]
theorem vtype (x0 : Reg) (x1 : Reg) : Statement (.vtype x0 x1) := by
  refine of_word 71 rfl rfl ?_ ?_
  · simp (disch := decide) only [putDA, or_and_mask, putF_and_zero]; rfl
  · simp (disch := decide) only [putDA, getF_or, getF_putF_same, getF_putF_apart]; simp [getF]
theorem setvl (x0 : Reg) (x1 : Reg) : Statement (.setvl x0 x1) := by
  refine of_word 72 rfl rfl ?_ ?_
  · simp (disch := decide) only [putDA, or_and_mask, putF_and_zero]; rfl
  · simp (disch := decide) only [putDA, getF_or, getF_putF_same, getF_putF_apart]; simp [getF]
theorem setrc (x0 : Reg) (x1 : Reg) : Statement (.setrc x0 x1) := by
  refine of_word 73 rfl rfl ?_ ?_
  · simp (disch := decide) only [putDA, or_and_mask, putF_and_zero]; rfl
  · simp (disch := decide) only [putDA, getF_or, getF_putF_same, getF_putF_apart]; simp [getF]
theorem setvt (x0 : Reg) (x1 : Reg) : Statement (.setvt x0 x1) := by
  refine of_word 74 rfl rfl ?_ ?_
  · simp (disch := decide) only [putDA, or_and_mask, putF_and_zero]; rfl
  · simp (disch := decide) only [putDA, getF_or, getF_putF_same, getF_putF_apart]; simp [getF]
theorem setvn (x0 : Reg) (x1 : Reg) : Statement (.setvn x0 x1) := by
  refine of_word 75 rfl rfl ?_ ?_
  · simp (disch := decide) only [putDA, or_and_mask, putF_and_zero]; rfl
  · simp (disch := decide) only [putDA, getF_or, getF_putF_same, getF_putF_apart]; simp [getF]
theorem fenceSv : Statement .fenceSv := of_word 76 rfl rfl (by decide) rfl
theorem fenceVs : Statement .fenceVs := of_word 77 rfl rfl (by decide) rfl
theorem fenceAcq (x0 : BitVec 3) : Statement (.fenceAcq x0) := by
  refine of_word 78 rfl rfl ?_ ?_
  · simp (disch := decide) only [putQ, or_and_mask, putF_and_zero]; rfl
  · simp (disch := decide) only [putQ, getF_or, getF_putF_same]; simp [getF]
theorem fenceRel (x0 : BitVec 3) : Statement (.fenceRel x0) := by
  refine of_word 79 rfl rfl ?_ ?_
  · simp (disch := decide) only [putQ, or_and_mask, putF_and_zero]; rfl
  · simp (disch := decide) only [putQ, getF_or, getF_putF_same]; simp [getF]
theorem fenceAr (x0 : BitVec 3) : Statement (.fenceAr x0) := by
  refine of_word 80 rfl rfl ?_ ?_
  · simp (disch := decide) only [putQ, or_and_mask, putF_and_zero]; rfl
  · simp (disch := decide) only [putQ, getF_or, getF_putF_same]; simp [getF]
theorem lnkPut (x0 : Reg) (x1 : BitVec 3) : Statement (.lnkPut x0 x1) := by
  refine of_word 81 rfl rfl ?_ ?_
  · simp (disch := decide) only [putAQ, or_and_mask, putF_and_zero]; rfl
  · simp (disch := decide) only [putAQ, getF_or, getF_putF_same, getF_putF_apart]; simp [getF]
theorem lnkGet (x0 : Reg) (x1 : BitVec 3) : Statement (.lnkGet x0 x1) := by
  refine of_word 82 rfl rfl ?_ ?_
  · simp (disch := decide) only [putDQ, or_and_mask, putF_and_zero]; rfl
  · simp (disch := decide) only [putDQ, getF_or, getF_putF_same, getF_putF_apart]; simp [getF]
theorem sig (x0 : Reg) : Statement (.sig x0) := by
  refine of_word 83 rfl rfl ?_ ?_
  · simp (disch := decide) only [putA, or_and_mask, putF_and_zero]; rfl
  · simp (disch := decide) only [putA, getF_or, getF_putF_same]; simp [getF]
theorem bar : Statement .bar := of_word 84 rfl rfl (by decide) rfl
theorem fbar : Statement .fbar := of_word 85 rfl rfl (by decide) rfl
theorem claim (x0 : Reg) : Statement (.claim x0) := by
  refine of_word 86 rfl rfl ?_ ?_
  · simp (disch := decide) only [putD, or_and_mask, putF_and_zero]; rfl
  · simp (disch := decide) only [putD, getF_or, getF_putF_same]; simp [getF]
theorem wfe (x0 : Reg) : Statement (.wfe x0) := by
  refine of_word 87 rfl rfl ?_ ?_
  · simp (disch := decide) only [putD, or_and_mask, putF_and_zero]; rfl
  · simp (disch := decide) only [putD, getF_or, getF_putF_same]; simp [getF]
theorem endHand : Statement .endHand := of_word 88 rfl rfl (by decide) rfl
theorem stop : Statement .stop := of_word 89 rfl rfl (by decide) rfl
theorem go (x0 : Reg) : Statement (.go x0) := by
  refine of_word 90 rfl rfl ?_ ?_
  · simp (disch := decide) only [putA, or_and_mask, putF_and_zero]; rfl
  · simp (disch := decide) only [putA, getF_or, getF_putF_same]; simp [getF]
theorem bfetch (x0 : Reg) : Statement (.bfetch x0) := by
  refine of_word 91 rfl rfl ?_ ?_
  · simp (disch := decide) only [putA, or_and_mask, putF_and_zero]; rfl
  · simp (disch := decide) only [putA, getF_or, getF_putF_same]; simp [getF]
theorem ecall : Statement .ecall := of_word 92 rfl rfl (by decide) rfl
theorem ebreak : Statement .ebreak := of_word 93 rfl rfl (by decide) rfl
theorem yield : Statement .yield := of_word 94 rfl rfl (by decide) rfl
theorem hint (x0 : BitVec 24) : Statement (.hint x0) := by
  refine of_word 95 rfl rfl ?_ ?_
  · simp (disch := decide) only [putI, or_and_mask, putF_and_zero]; rfl
  · simp (disch := decide) only [putI, getF_or, getF_putF_same]; simp [getF]
theorem vaddVv (x0 : Reg) (x1 : Reg) (x2 : Reg) (x3 : BitVec 3) (x4 : BitVec 3) : Statement (.vaddVv x0 x1 x2 x3 x4) := by
  refine of_word 96 rfl rfl ?_ ?_
  · simp (disch := decide) only [putDABMF, or_and_mask, putF_and_zero]; rfl
  · simp (disch := decide) only [putDABMF, getF_or, getF_putF_same, getF_putF_apart]; simp [getF]
theorem vaddVs (x0 : Reg) (x1 : Reg) (x2 : Reg) (x3 : BitVec 3) (x4 : BitVec 3) : Statement (.vaddVs x0 x1 x2 x3 x4) := by
  refine of_word 97 rfl rfl ?_ ?_
  · simp (disch := decide) only [putDABMF, or_and_mask, putF_and_zero]; rfl
  · simp (disch := decide) only [putDABMF, getF_or, getF_putF_same, getF_putF_apart]; simp [getF]
theorem vaddVi (x0 : Reg) (x1 : Reg) (x2 : BitVec 5) (x3 : BitVec 3) (x4 : BitVec 3) : Statement (.vaddVi x0 x1 x2 x3 x4) := by
  refine of_word 98 rfl rfl ?_ ?_
  · simp (disch := decide) only [putDAIMF, or_and_mask, putF_and_zero]; rfl
  · simp (disch := decide) only [putDAIMF, getF_or, getF_putF_same, getF_putF_apart]; simp [getF]
theorem vsubVv (x0 : Reg) (x1 : Reg) (x2 : Reg) (x3 : BitVec 3) (x4 : BitVec 3) : Statement (.vsubVv x0 x1 x2 x3 x4) := by
  refine of_word 99 rfl rfl ?_ ?_
  · simp (disch := decide) only [putDABMF, or_and_mask, putF_and_zero]; rfl
  · simp (disch := decide) only [putDABMF, getF_or, getF_putF_same, getF_putF_apart]; simp [getF]
theorem vsubVs (x0 : Reg) (x1 : Reg) (x2 : Reg) (x3 : BitVec 3) (x4 : BitVec 3) : Statement (.vsubVs x0 x1 x2 x3 x4) := by
  refine of_word 100 rfl rfl ?_ ?_
  · simp (disch := decide) only [putDABMF, or_and_mask, putF_and_zero]; rfl
  · simp (disch := decide) only [putDABMF, getF_or, getF_putF_same, getF_putF_apart]; simp [getF]
theorem vrsubVs (x0 : Reg) (x1 : Reg) (x2 : Reg) (x3 : BitVec 3) (x4 : BitVec 3) : Statement (.vrsubVs x0 x1 x2 x3 x4) := by
  refine of_word 101 rfl rfl ?_ ?_
  · simp (disch := decide) only [putDABMF, or_and_mask, putF_and_zero]; rfl
  · simp (disch := decide) only [putDABMF, getF_or, getF_putF_same, getF_putF_apart]; simp [getF]
theorem vrsubVi (x0 : Reg) (x1 : Reg) (x2 : BitVec 5) (x3 : BitVec 3) (x4 : BitVec 3) : Statement (.vrsubVi x0 x1 x2 x3 x4) := by
  refine of_word 102 rfl rfl ?_ ?_
  · simp (disch := decide) only [putDAIMF, or_and_mask, putF_and_zero]; rfl
  · simp (disch := decide) only [putDAIMF, getF_or, getF_putF_same, getF_putF_apart]; simp [getF]
theorem vneg (x0 : Reg) (x1 : Reg) (x2 : BitVec 3) (x3 : BitVec 3) : Statement (.vneg x0 x1 x2 x3) := by
  refine of_word 103 rfl rfl ?_ ?_
  · simp (disch := decide) only [putDAMF, or_and_mask, putF_and_zero]; rfl
  · simp (disch := decide) only [putDAMF, getF_or, getF_putF_same, getF_putF_apart]; simp [getF]
theorem vmulVv (x0 : Reg) (x1 : Reg) (x2 : Reg) (x3 : BitVec 3) (x4 : BitVec 3) : Statement (.vmulVv x0 x1 x2 x3 x4) := by
  refine of_word 104 rfl rfl ?_ ?_
  · simp (disch := decide) only [putDABMF, or_and_mask, putF_and_zero]; rfl
  · simp (disch := decide) only [putDABMF, getF_or, getF_putF_same, getF_putF_apart]; simp [getF]
theorem vmulVs (x0 : Reg) (x1 : Reg) (x2 : Reg) (x3 : BitVec 3) (x4 : BitVec 3) : Statement (.vmulVs x0 x1 x2 x3 x4) := by
  refine of_word 105 rfl rfl ?_ ?_
  · simp (disch := decide) only [putDABMF, or_and_mask, putF_and_zero]; rfl
  · simp (disch := decide) only [putDABMF, getF_or, getF_putF_same, getF_putF_apart]; simp [getF]
theorem vmulhVv (x0 : Reg) (x1 : Reg) (x2 : Reg) (x3 : BitVec 3) (x4 : BitVec 3) : Statement (.vmulhVv x0 x1 x2 x3 x4) := by
  refine of_word 106 rfl rfl ?_ ?_
  · simp (disch := decide) only [putDABMF, or_and_mask, putF_and_zero]; rfl
  · simp (disch := decide) only [putDABMF, getF_or, getF_putF_same, getF_putF_apart]; simp [getF]
theorem vmulhVs (x0 : Reg) (x1 : Reg) (x2 : Reg) (x3 : BitVec 3) (x4 : BitVec 3) : Statement (.vmulhVs x0 x1 x2 x3 x4) := by
  refine of_word 107 rfl rfl ?_ ?_
  · simp (disch := decide) only [putDABMF, or_and_mask, putF_and_zero]; rfl
  · simp (disch := decide) only [putDABMF, getF_or, getF_putF_same, getF_putF_apart]; simp [getF]
theorem vmulhnVv (x0 : Reg) (x1 : Reg) (x2 : Reg) (x3 : BitVec 3) (x4 : BitVec 3) : Statement (.vmulhnVv x0 x1 x2 x3 x4) := by
  refine of_word 108 rfl rfl ?_ ?_
  · simp (disch := decide) only [putDABMF, or_and_mask, putF_and_zero]; rfl
  · simp (disch := decide) only [putDABMF, getF_or, getF_putF_same, getF_putF_apart]; simp [getF]
theorem vmulhnVs (x0 : Reg) (x1 : Reg) (x2 : Reg) (x3 : BitVec 3) (x4 : BitVec 3) : Statement (.vmulhnVs x0 x1 x2 x3 x4) := by
  refine of_word 109 rfl rfl ?_ ?_
  · simp (disch := decide) only [putDABMF, or_and_mask, putF_and_zero]; rfl
  · simp (disch := decide) only [putDABMF, getF_or, getF_putF_same, getF_putF_apart]; simp [getF]
theorem vdivVv (x0 : Reg) (x1 : Reg) (x2 : Reg) (x3 : BitVec 3) (x4 : BitVec 3) : Statement (.vdivVv x0 x1 x2 x3 x4) := by
  refine of_word 110 rfl rfl ?_ ?_
  · simp (disch := decide) only [putDABMF, or_and_mask, putF_and_zero]; rfl
  · simp (disch := decide) only [putDABMF, getF_or, getF_putF_same, getF_putF_apart]; simp [getF]
theorem vdivVs (x0 : Reg) (x1 : Reg) (x2 : Reg) (x3 : BitVec 3) (x4 : BitVec 3) : Statement (.vdivVs x0 x1 x2 x3 x4) := by
  refine of_word 111 rfl rfl ?_ ?_
  · simp (disch := decide) only [putDABMF, or_and_mask, putF_and_zero]; rfl
  · simp (disch := decide) only [putDABMF, getF_or, getF_putF_same, getF_putF_apart]; simp [getF]
theorem vremVv (x0 : Reg) (x1 : Reg) (x2 : Reg) (x3 : BitVec 3) (x4 : BitVec 3) : Statement (.vremVv x0 x1 x2 x3 x4) := by
  refine of_word 112 rfl rfl ?_ ?_
  · simp (disch := decide) only [putDABMF, or_and_mask, putF_and_zero]; rfl
  · simp (disch := decide) only [putDABMF, getF_or, getF_putF_same, getF_putF_apart]; simp [getF]
theorem vremVs (x0 : Reg) (x1 : Reg) (x2 : Reg) (x3 : BitVec 3) (x4 : BitVec 3) : Statement (.vremVs x0 x1 x2 x3 x4) := by
  refine of_word 113 rfl rfl ?_ ?_
  · simp (disch := decide) only [putDABMF, or_and_mask, putF_and_zero]; rfl
  · simp (disch := decide) only [putDABMF, getF_or, getF_putF_same, getF_putF_apart]; simp [getF]
theorem vminVv (x0 : Reg) (x1 : Reg) (x2 : Reg) (x3 : BitVec 3) (x4 : BitVec 3) : Statement (.vminVv x0 x1 x2 x3 x4) := by
  refine of_word 114 rfl rfl ?_ ?_
  · simp (disch := decide) only [putDABMF, or_and_mask, putF_and_zero]; rfl
  · simp (disch := decide) only [putDABMF, getF_or, getF_putF_same, getF_putF_apart]; simp [getF]
theorem vminVs (x0 : Reg) (x1 : Reg) (x2 : Reg) (x3 : BitVec 3) (x4 : BitVec 3) : Statement (.vminVs x0 x1 x2 x3 x4) := by
  refine of_word 115 rfl rfl ?_ ?_
  · simp (disch := decide) only [putDABMF, or_and_mask, putF_and_zero]; rfl
  · simp (disch := decide) only [putDABMF, getF_or, getF_putF_same, getF_putF_apart]; simp [getF]
theorem vmaxVv (x0 : Reg) (x1 : Reg) (x2 : Reg) (x3 : BitVec 3) (x4 : BitVec 3) : Statement (.vmaxVv x0 x1 x2 x3 x4) := by
  refine of_word 116 rfl rfl ?_ ?_
  · simp (disch := decide) only [putDABMF, or_and_mask, putF_and_zero]; rfl
  · simp (disch := decide) only [putDABMF, getF_or, getF_putF_same, getF_putF_apart]; simp [getF]
theorem vmaxVs (x0 : Reg) (x1 : Reg) (x2 : Reg) (x3 : BitVec 3) (x4 : BitVec 3) : Statement (.vmaxVs x0 x1 x2 x3 x4) := by
  refine of_word 117 rfl rfl ?_ ?_
  · simp (disch := decide) only [putDABMF, or_and_mask, putF_and_zero]; rfl
  · simp (disch := decide) only [putDABMF, getF_or, getF_putF_same, getF_putF_apart]; simp [getF]
theorem vabs (x0 : Reg) (x1 : Reg) (x2 : BitVec 3) (x3 : BitVec 3) : Statement (.vabs x0 x1 x2 x3) := by
  refine of_word 118 rfl rfl ?_ ?_
  · simp (disch := decide) only [putDAMF, or_and_mask, putF_and_zero]; rfl
  · simp (disch := decide) only [putDAMF, getF_or, getF_putF_same, getF_putF_apart]; simp [getF]
theorem vsaddVv (x0 : Reg) (x1 : Reg) (x2 : Reg) (x3 : BitVec 3) (x4 : BitVec 3) : Statement (.vsaddVv x0 x1 x2 x3 x4) := by
  refine of_word 119 rfl rfl ?_ ?_
  · simp (disch := decide) only [putDABMF, or_and_mask, putF_and_zero]; rfl
  · simp (disch := decide) only [putDABMF, getF_or, getF_putF_same, getF_putF_apart]; simp [getF]
theorem vandVv (x0 : Reg) (x1 : Reg) (x2 : Reg) (x3 : BitVec 3) (x4 : BitVec 3) : Statement (.vandVv x0 x1 x2 x3 x4) := by
  refine of_word 120 rfl rfl ?_ ?_
  · simp (disch := decide) only [putDABMF, or_and_mask, putF_and_zero]; rfl
  · simp (disch := decide) only [putDABMF, getF_or, getF_putF_same, getF_putF_apart]; simp [getF]
theorem vandVs (x0 : Reg) (x1 : Reg) (x2 : Reg) (x3 : BitVec 3) (x4 : BitVec 3) : Statement (.vandVs x0 x1 x2 x3 x4) := by
  refine of_word 121 rfl rfl ?_ ?_
  · simp (disch := decide) only [putDABMF, or_and_mask, putF_and_zero]; rfl
  · simp (disch := decide) only [putDABMF, getF_or, getF_putF_same, getF_putF_apart]; simp [getF]
theorem vorVv (x0 : Reg) (x1 : Reg) (x2 : Reg) (x3 : BitVec 3) (x4 : BitVec 3) : Statement (.vorVv x0 x1 x2 x3 x4) := by
  refine of_word 122 rfl rfl ?_ ?_
  · simp (disch := decide) only [putDABMF, or_and_mask, putF_and_zero]; rfl
  · simp (disch := decide) only [putDABMF, getF_or, getF_putF_same, getF_putF_apart]; simp [getF]
theorem vorVs (x0 : Reg) (x1 : Reg) (x2 : Reg) (x3 : BitVec 3) (x4 : BitVec 3) : Statement (.vorVs x0 x1 x2 x3 x4) := by
  refine of_word 123 rfl rfl ?_ ?_
  · simp (disch := decide) only [putDABMF, or_and_mask, putF_and_zero]; rfl
  · simp (disch := decide) only [putDABMF, getF_or, getF_putF_same, getF_putF_apart]; simp [getF]
theorem vxorVv (x0 : Reg) (x1 : Reg) (x2 : Reg) (x3 : BitVec 3) (x4 : BitVec 3) : Statement (.vxorVv x0 x1 x2 x3 x4) := by
  refine of_word 124 rfl rfl ?_ ?_
  · simp (disch := decide) only [putDABMF, or_and_mask, putF_and_zero]; rfl
  · simp (disch := decide) only [putDABMF, getF_or, getF_putF_same, getF_putF_apart]; simp [getF]
theorem vxorVs (x0 : Reg) (x1 : Reg) (x2 : Reg) (x3 : BitVec 3) (x4 : BitVec 3) : Statement (.vxorVs x0 x1 x2 x3 x4) := by
  refine of_word 125 rfl rfl ?_ ?_
  · simp (disch := decide) only [putDABMF, or_and_mask, putF_and_zero]; rfl
  · simp (disch := decide) only [putDABMF, getF_or, getF_putF_same, getF_putF_apart]; simp [getF]
theorem vnot (x0 : Reg) (x1 : Reg) (x2 : BitVec 3) (x3 : BitVec 3) : Statement (.vnot x0 x1 x2 x3) := by
  refine of_word 126 rfl rfl ?_ ?_
  · simp (disch := decide) only [putDAMF, or_and_mask, putF_and_zero]; rfl
  · simp (disch := decide) only [putDAMF, getF_or, getF_putF_same, getF_putF_apart]; simp [getF]
theorem vssubVv (x0 : Reg) (x1 : Reg) (x2 : Reg) (x3 : BitVec 3) (x4 : BitVec 3) : Statement (.vssubVv x0 x1 x2 x3 x4) := by
  refine of_word 127 rfl rfl ?_ ?_
  · simp (disch := decide) only [putDABMF, or_and_mask, putF_and_zero]; rfl
  · simp (disch := decide) only [putDABMF, getF_or, getF_putF_same, getF_putF_apart]; simp [getF]
theorem vsllVv (x0 : Reg) (x1 : Reg) (x2 : Reg) (x3 : BitVec 3) (x4 : BitVec 3) : Statement (.vsllVv x0 x1 x2 x3 x4) := by
  refine of_word 128 rfl rfl ?_ ?_
  · simp (disch := decide) only [putDABMF, or_and_mask, putF_and_zero]; rfl
  · simp (disch := decide) only [putDABMF, getF_or, getF_putF_same, getF_putF_apart]; simp [getF]
theorem vsllVs (x0 : Reg) (x1 : Reg) (x2 : Reg) (x3 : BitVec 3) (x4 : BitVec 3) : Statement (.vsllVs x0 x1 x2 x3 x4) := by
  refine of_word 129 rfl rfl ?_ ?_
  · simp (disch := decide) only [putDABMF, or_and_mask, putF_and_zero]; rfl
  · simp (disch := decide) only [putDABMF, getF_or, getF_putF_same, getF_putF_apart]; simp [getF]
theorem vsllVi (x0 : Reg) (x1 : Reg) (x2 : BitVec 5) (x3 : BitVec 3) (x4 : BitVec 3) : Statement (.vsllVi x0 x1 x2 x3 x4) := by
  refine of_word 130 rfl rfl ?_ ?_
  · simp (disch := decide) only [putDAIMF, or_and_mask, putF_and_zero]; rfl
  · simp (disch := decide) only [putDAIMF, getF_or, getF_putF_same, getF_putF_apart]; simp [getF]
theorem vsrlVv (x0 : Reg) (x1 : Reg) (x2 : Reg) (x3 : BitVec 3) (x4 : BitVec 3) : Statement (.vsrlVv x0 x1 x2 x3 x4) := by
  refine of_word 131 rfl rfl ?_ ?_
  · simp (disch := decide) only [putDABMF, or_and_mask, putF_and_zero]; rfl
  · simp (disch := decide) only [putDABMF, getF_or, getF_putF_same, getF_putF_apart]; simp [getF]
theorem vsrlVs (x0 : Reg) (x1 : Reg) (x2 : Reg) (x3 : BitVec 3) (x4 : BitVec 3) : Statement (.vsrlVs x0 x1 x2 x3 x4) := by
  refine of_word 132 rfl rfl ?_ ?_
  · simp (disch := decide) only [putDABMF, or_and_mask, putF_and_zero]; rfl
  · simp (disch := decide) only [putDABMF, getF_or, getF_putF_same, getF_putF_apart]; simp [getF]
theorem vsrlVi (x0 : Reg) (x1 : Reg) (x2 : BitVec 5) (x3 : BitVec 3) (x4 : BitVec 3) : Statement (.vsrlVi x0 x1 x2 x3 x4) := by
  refine of_word 133 rfl rfl ?_ ?_
  · simp (disch := decide) only [putDAIMF, or_and_mask, putF_and_zero]; rfl
  · simp (disch := decide) only [putDAIMF, getF_or, getF_putF_same, getF_putF_apart]; simp [getF]
theorem vsraVv (x0 : Reg) (x1 : Reg) (x2 : Reg) (x3 : BitVec 3) (x4 : BitVec 3) : Statement (.vsraVv x0 x1 x2 x3 x4) := by
  refine of_word 134 rfl rfl ?_ ?_
  · simp (disch := decide) only [putDABMF, or_and_mask, putF_and_zero]; rfl
  · simp (disch := decide) only [putDABMF, getF_or, getF_putF_same, getF_putF_apart]; simp [getF]
theorem vsraVi (x0 : Reg) (x1 : Reg) (x2 : BitVec 5) (x3 : BitVec 3) (x4 : BitVec 3) : Statement (.vsraVi x0 x1 x2 x3 x4) := by
  refine of_word 135 rfl rfl ?_ ?_
  · simp (disch := decide) only [putDAIMF, or_and_mask, putF_and_zero]; rfl
  · simp (disch := decide) only [putDAIMF, getF_or, getF_putF_same, getF_putF_apart]; simp [getF]
theorem vfmaVv (x0 : Reg) (x1 : Reg) (x2 : Reg) (x3 : BitVec 3) (x4 : BitVec 3) : Statement (.vfmaVv x0 x1 x2 x3 x4) := by
  refine of_word 136 rfl rfl ?_ ?_
  · simp (disch := decide) only [putDABMF, or_and_mask, putF_and_zero]; rfl
  · simp (disch := decide) only [putDABMF, getF_or, getF_putF_same, getF_putF_apart]; simp [getF]
theorem vfmaVs (x0 : Reg) (x1 : Reg) (x2 : Reg) (x3 : BitVec 3) (x4 : BitVec 3) : Statement (.vfmaVs x0 x1 x2 x3 x4) := by
  refine of_word 137 rfl rfl ?_ ?_
  · simp (disch := decide) only [putDABMF, or_and_mask, putF_and_zero]; rfl
  · simp (disch := decide) only [putDABMF, getF_or, getF_putF_same, getF_putF_apart]; simp [getF]
theorem vfmsVv (x0 : Reg) (x1 : Reg) (x2 : Reg) (x3 : BitVec 3) (x4 : BitVec 3) : Statement (.vfmsVv x0 x1 x2 x3 x4) := by
  refine of_word 138 rfl rfl ?_ ?_
  · simp (disch := decide) only [putDABMF, or_and_mask, putF_and_zero]; rfl
  · simp (disch := decide) only [putDABMF, getF_or, getF_putF_same, getF_putF_apart]; simp [getF]
theorem vfmsVs (x0 : Reg) (x1 : Reg) (x2 : Reg) (x3 : BitVec 3) (x4 : BitVec 3) : Statement (.vfmsVs x0 x1 x2 x3 x4) := by
  refine of_word 139 rfl rfl ?_ ?_
  · simp (disch := decide) only [putDABMF, or_and_mask, putF_and_zero]; rfl
  · simp (disch := decide) only [putDABMF, getF_or, getF_putF_same, getF_putF_apart]; simp [getF]
theorem vfnmaVv (x0 : Reg) (x1 : Reg) (x2 : Reg) (x3 : BitVec 3) (x4 : BitVec 3) : Statement (.vfnmaVv x0 x1 x2 x3 x4) := by
  refine of_word 140 rfl rfl ?_ ?_
  · simp (disch := decide) only [putDABMF, or_and_mask, putF_and_zero]; rfl
  · simp (disch := decide) only [putDABMF, getF_or, getF_putF_same, getF_putF_apart]; simp [getF]
theorem vfnmaVs (x0 : Reg) (x1 : Reg) (x2 : Reg) (x3 : BitVec 3) (x4 : BitVec 3) : Statement (.vfnmaVs x0 x1 x2 x3 x4) := by
  refine of_word 141 rfl rfl ?_ ?_
  · simp (disch := decide) only [putDABMF, or_and_mask, putF_and_zero]; rfl
  · simp (disch := decide) only [putDABMF, getF_or, getF_putF_same, getF_putF_apart]; simp [getF]
theorem vfnmsVv (x0 : Reg) (x1 : Reg) (x2 : Reg) (x3 : BitVec 3) (x4 : BitVec 3) : Statement (.vfnmsVv x0 x1 x2 x3 x4) := by
  refine of_word 142 rfl rfl ?_ ?_
  · simp (disch := decide) only [putDABMF, or_and_mask, putF_and_zero]; rfl
  · simp (disch := decide) only [putDABMF, getF_or, getF_putF_same, getF_putF_apart]; simp [getF]
theorem vfnmsVs (x0 : Reg) (x1 : Reg) (x2 : Reg) (x3 : BitVec 3) (x4 : BitVec 3) : Statement (.vfnmsVs x0 x1 x2 x3 x4) := by
  refine of_word 143 rfl rfl ?_ ?_
  · simp (disch := decide) only [putDABMF, or_and_mask, putF_and_zero]; rfl
  · simp (disch := decide) only [putDABMF, getF_or, getF_putF_same, getF_putF_apart]; simp [getF]
theorem vceqVv (x0 : Reg) (x1 : Reg) (x2 : Reg) (x3 : BitVec 3) (x4 : BitVec 3) : Statement (.vceqVv x0 x1 x2 x3 x4) := by
  refine of_word 144 rfl rfl ?_ ?_
  · simp (disch := decide) only [putDABMF, or_and_mask, putF_and_zero]; rfl
  · simp (disch := decide) only [putDABMF, getF_or, getF_putF_same, getF_putF_apart]; simp [getF]
theorem vceqVs (x0 : Reg) (x1 : Reg) (x2 : Reg) (x3 : BitVec 3) (x4 : BitVec 3) : Statement (.vceqVs x0 x1 x2 x3 x4) := by
  refine of_word 145 rfl rfl ?_ ?_
  · simp (disch := decide) only [putDABMF, or_and_mask, putF_and_zero]; rfl
  · simp (disch := decide) only [putDABMF, getF_or, getF_putF_same, getF_putF_apart]; simp [getF]
theorem vcneVv (x0 : Reg) (x1 : Reg) (x2 : Reg) (x3 : BitVec 3) (x4 : BitVec 3) : Statement (.vcneVv x0 x1 x2 x3 x4) := by
  refine of_word 146 rfl rfl ?_ ?_
  · simp (disch := decide) only [putDABMF, or_and_mask, putF_and_zero]; rfl
  · simp (disch := decide) only [putDABMF, getF_or, getF_putF_same, getF_putF_apart]; simp [getF]
theorem vcltVv (x0 : Reg) (x1 : Reg) (x2 : Reg) (x3 : BitVec 3) (x4 : BitVec 3) : Statement (.vcltVv x0 x1 x2 x3 x4) := by
  refine of_word 147 rfl rfl ?_ ?_
  · simp (disch := decide) only [putDABMF, or_and_mask, putF_and_zero]; rfl
  · simp (disch := decide) only [putDABMF, getF_or, getF_putF_same, getF_putF_apart]; simp [getF]
theorem vcltVs (x0 : Reg) (x1 : Reg) (x2 : Reg) (x3 : BitVec 3) (x4 : BitVec 3) : Statement (.vcltVs x0 x1 x2 x3 x4) := by
  refine of_word 148 rfl rfl ?_ ?_
  · simp (disch := decide) only [putDABMF, or_and_mask, putF_and_zero]; rfl
  · simp (disch := decide) only [putDABMF, getF_or, getF_putF_same, getF_putF_apart]; simp [getF]
theorem vcleVv (x0 : Reg) (x1 : Reg) (x2 : Reg) (x3 : BitVec 3) (x4 : BitVec 3) : Statement (.vcleVv x0 x1 x2 x3 x4) := by
  refine of_word 149 rfl rfl ?_ ?_
  · simp (disch := decide) only [putDABMF, or_and_mask, putF_and_zero]; rfl
  · simp (disch := decide) only [putDABMF, getF_or, getF_putF_same, getF_putF_apart]; simp [getF]
theorem vcleVs (x0 : Reg) (x1 : Reg) (x2 : Reg) (x3 : BitVec 3) (x4 : BitVec 3) : Statement (.vcleVs x0 x1 x2 x3 x4) := by
  refine of_word 150 rfl rfl ?_ ?_
  · simp (disch := decide) only [putDABMF, or_and_mask, putF_and_zero]; rfl
  · simp (disch := decide) only [putDABMF, getF_or, getF_putF_same, getF_putF_apart]; simp [getF]
theorem vcgtVs (x0 : Reg) (x1 : Reg) (x2 : Reg) (x3 : BitVec 3) (x4 : BitVec 3) : Statement (.vcgtVs x0 x1 x2 x3 x4) := by
  refine of_word 151 rfl rfl ?_ ?_
  · simp (disch := decide) only [putDABMF, or_and_mask, putF_and_zero]; rfl
  · simp (disch := decide) only [putDABMF, getF_or, getF_putF_same, getF_putF_apart]; simp [getF]
theorem vsel (x0 : Reg) (x1 : Reg) (x2 : Reg) (x3 : BitVec 3) : Statement (.vsel x0 x1 x2 x3) := by
  refine of_word 152 rfl rfl ?_ ?_
  · simp (disch := decide) only [putDABM, or_and_mask, putF_and_zero]; rfl
  · simp (disch := decide) only [putDABM, getF_or, getF_putF_same, getF_putF_apart]; simp [getF]
theorem vmand (x0 : Reg) (x1 : Reg) (x2 : Reg) : Statement (.vmand x0 x1 x2) := by
  refine of_word 153 rfl rfl ?_ ?_
  · simp (disch := decide) only [putDAB2, or_and_mask, putF_and_zero]; rfl
  · simp (disch := decide) only [putDAB2, getF_or, getF_putF_same, getF_putF_apart]; simp [getF]
theorem vmor (x0 : Reg) (x1 : Reg) (x2 : Reg) : Statement (.vmor x0 x1 x2) := by
  refine of_word 154 rfl rfl ?_ ?_
  · simp (disch := decide) only [putDAB2, or_and_mask, putF_and_zero]; rfl
  · simp (disch := decide) only [putDAB2, getF_or, getF_putF_same, getF_putF_apart]; simp [getF]
theorem vmxor (x0 : Reg) (x1 : Reg) (x2 : Reg) : Statement (.vmxor x0 x1 x2) := by
  refine of_word 155 rfl rfl ?_ ?_
  · simp (disch := decide) only [putDAB2, or_and_mask, putF_and_zero]; rfl
  · simp (disch := decide) only [putDAB2, getF_or, getF_putF_same, getF_putF_apart]; simp [getF]
theorem vmandn (x0 : Reg) (x1 : Reg) (x2 : Reg) : Statement (.vmandn x0 x1 x2) := by
  refine of_word 156 rfl rfl ?_ ?_
  · simp (disch := decide) only [putDAB2, or_and_mask, putF_and_zero]; rfl
  · simp (disch := decide) only [putDAB2, getF_or, getF_putF_same, getF_putF_apart]; simp [getF]
theorem vmnot (x0 : Reg) (x1 : Reg) : Statement (.vmnot x0 x1) := by
  refine of_word 157 rfl rfl ?_ ?_
  · simp (disch := decide) only [putDA, or_and_mask, putF_and_zero]; rfl
  · simp (disch := decide) only [putDA, getF_or, getF_putF_same, getF_putF_apart]; simp [getF]
theorem vmpopc (x0 : Reg) (x1 : Reg) (x2 : BitVec 3) : Statement (.vmpopc x0 x1 x2) := by
  refine of_word 158 rfl rfl ?_ ?_
  · simp (disch := decide) only [putDAM, or_and_mask, putF_and_zero]; rfl
  · simp (disch := decide) only [putDAM, getF_or, getF_putF_same, getF_putF_apart]; simp [getF]
theorem vmfirst (x0 : Reg) (x1 : Reg) (x2 : BitVec 3) : Statement (.vmfirst x0 x1 x2) := by
  refine of_word 159 rfl rfl ?_ ?_
  · simp (disch := decide) only [putDAM, or_and_mask, putF_and_zero]; rfl
  · simp (disch := decide) only [putDAM, getF_or, getF_putF_same, getF_putF_apart]; simp [getF]
theorem vmvVv (x0 : Reg) (x1 : Reg) (x2 : BitVec 3) : Statement (.vmvVv x0 x1 x2) := by
  refine of_word 160 rfl rfl ?_ ?_
  · simp (disch := decide) only [putDAM, or_and_mask, putF_and_zero]; rfl
  · simp (disch := decide) only [putDAM, getF_or, getF_putF_same, getF_putF_apart]; simp [getF]
theorem vbcVs (x0 : Reg) (x1 : Reg) (x2 : BitVec 3) : Statement (.vbcVs x0 x1 x2) := by
  refine of_word 161 rfl rfl ?_ ?_
  · simp (disch := decide) only [putDBM, or_and_mask, putF_and_zero]; rfl
  · simp (disch := decide) only [putDBM, getF_or, getF_putF_same, getF_putF_apart]; simp [getF]
theorem vbcVi (x0 : Reg) (x1 : BitVec 5) (x2 : BitVec 3) : Statement (.vbcVi x0 x1 x2) := by
  refine of_word 162 rfl rfl ?_ ?_
  · simp (disch := decide) only [putDIM, or_and_mask, putF_and_zero]; rfl
  · simp (disch := decide) only [putDIM, getF_or, getF_putF_same, getF_putF_apart]; simp [getF]
theorem vmvSv (x0 : Reg) (x1 : Reg) (x2 : Reg) : Statement (.vmvSv x0 x1 x2) := by
  refine of_word 163 rfl rfl ?_ ?_
  · simp (disch := decide) only [putDAB2, or_and_mask, putF_and_zero]; rfl
  · simp (disch := decide) only [putDAB2, getF_or, getF_putF_same, getF_putF_apart]; simp [getF]
theorem vmvVs (x0 : Reg) (x1 : Reg) : Statement (.vmvVs x0 x1) := by
  refine of_word 164 rfl rfl ?_ ?_
  · simp (disch := decide) only [putDB, or_and_mask, putF_and_zero]; rfl
  · simp (disch := decide) only [putDB, getF_or, getF_putF_same, getF_putF_apart]; simp [getF]
theorem vclass (x0 : Reg) (x1 : Reg) (x2 : BitVec 3) (x3 : BitVec 3) : Statement (.vclass x0 x1 x2 x3) := by
  refine of_word 165 rfl rfl ?_ ?_
  · simp (disch := decide) only [putDAMF, or_and_mask, putF_and_zero]; rfl
  · simp (disch := decide) only [putDAMF, getF_or, getF_putF_same, getF_putF_apart]; simp [getF]
theorem viota (x0 : Reg) (x1 : Reg) (x2 : BitVec 3) : Statement (.viota x0 x1 x2) := by
  refine of_word 166 rfl rfl ?_ ?_
  · simp (disch := decide) only [putDAM, or_and_mask, putF_and_zero]; rfl
  · simp (disch := decide) only [putDAM, getF_or, getF_putF_same, getF_putF_apart]; simp [getF]
theorem vidx (x0 : Reg) (x1 : BitVec 3) : Statement (.vidx x0 x1) := by
  refine of_word 167 rfl rfl ?_ ?_
  · simp (disch := decide) only [putDM, or_and_mask, putF_and_zero]; rfl
  · simp (disch := decide) only [putDM, getF_or, getF_putF_same, getF_putF_apart]; simp [getF]
theorem vcvt (x0 : Reg) (x1 : Reg) (x2 : BitVec 3) (x3 : BitVec 3) : Statement (.vcvt x0 x1 x2 x3) := by
  refine of_word 168 rfl rfl ?_ ?_
  · simp (disch := decide) only [putDAMF, or_and_mask, putF_and_zero]; rfl
  · simp (disch := decide) only [putDAMF, getF_or, getF_putF_same, getF_putF_apart]; simp [getF]
theorem vsqrt (x0 : Reg) (x1 : Reg) (x2 : BitVec 3) (x3 : BitVec 3) : Statement (.vsqrt x0 x1 x2 x3) := by
  refine of_word 169 rfl rfl ?_ ?_
  · simp (disch := decide) only [putDAMF, or_and_mask, putF_and_zero]; rfl
  · simp (disch := decide) only [putDAMF, getF_or, getF_putF_same, getF_putF_apart]; simp [getF]
theorem vrcp (x0 : Reg) (x1 : Reg) (x2 : BitVec 3) (x3 : BitVec 3) : Statement (.vrcp x0 x1 x2 x3) := by
  refine of_word 170 rfl rfl ?_ ?_
  · simp (disch := decide) only [putDAMF, or_and_mask, putF_and_zero]; rfl
  · simp (disch := decide) only [putDAMF, getF_or, getF_putF_same, getF_putF_apart]; simp [getF]
theorem vrsqrt (x0 : Reg) (x1 : Reg) (x2 : BitVec 3) (x3 : BitVec 3) : Statement (.vrsqrt x0 x1 x2 x3) := by
  refine of_word 171 rfl rfl ?_ ?_
  · simp (disch := decide) only [putDAMF, or_and_mask, putF_and_zero]; rfl
  · simp (disch := decide) only [putDAMF, getF_or, getF_putF_same, getF_putF_apart]; simp [getF]
theorem vexp2 (x0 : Reg) (x1 : Reg) (x2 : BitVec 3) (x3 : BitVec 3) : Statement (.vexp2 x0 x1 x2 x3) := by
  refine of_word 172 rfl rfl ?_ ?_
  · simp (disch := decide) only [putDAMF, or_and_mask, putF_and_zero]; rfl
  · simp (disch := decide) only [putDAMF, getF_or, getF_putF_same, getF_putF_apart]; simp [getF]
theorem vlog2 (x0 : Reg) (x1 : Reg) (x2 : BitVec 3) (x3 : BitVec 3) : Statement (.vlog2 x0 x1 x2 x3) := by
  refine of_word 173 rfl rfl ?_ ?_
  · simp (disch := decide) only [putDAMF, or_and_mask, putF_and_zero]; rfl
  · simp (disch := decide) only [putDAMF, getF_or, getF_putF_same, getF_putF_apart]; simp [getF]
theorem vtanh (x0 : Reg) (x1 : Reg) (x2 : BitVec 3) (x3 : BitVec 3) : Statement (.vtanh x0 x1 x2 x3) := by
  refine of_word 174 rfl rfl ?_ ?_
  · simp (disch := decide) only [putDAMF, or_and_mask, putF_and_zero]; rfl
  · simp (disch := decide) only [putDAMF, getF_or, getF_putF_same, getF_putF_apart]; simp [getF]
theorem vround (x0 : Reg) (x1 : Reg) (x2 : BitVec 3) (x3 : BitVec 3) : Statement (.vround x0 x1 x2 x3) := by
  refine of_word 175 rfl rfl ?_ ?_
  · simp (disch := decide) only [putDAMF, or_and_mask, putF_and_zero]; rfl
  · simp (disch := decide) only [putDAMF, getF_or, getF_putF_same, getF_putF_apart]; simp [getF]
theorem vredsumO (x0 : Reg) (x1 : Reg) (x2 : Reg) (x3 : BitVec 3) (x4 : BitVec 3) : Statement (.vredsumO x0 x1 x2 x3 x4) := by
  refine of_word 176 rfl rfl ?_ ?_
  · simp (disch := decide) only [putDABMF, or_and_mask, putF_and_zero]; rfl
  · simp (disch := decide) only [putDABMF, getF_or, getF_putF_same, getF_putF_apart]; simp [getF]
theorem vredsumT (x0 : Reg) (x1 : Reg) (x2 : Reg) (x3 : BitVec 3) (x4 : BitVec 3) : Statement (.vredsumT x0 x1 x2 x3 x4) := by
  refine of_word 177 rfl rfl ?_ ?_
  · simp (disch := decide) only [putDABMF, or_and_mask, putF_and_zero]; rfl
  · simp (disch := decide) only [putDABMF, getF_or, getF_putF_same, getF_putF_apart]; simp [getF]
theorem vredsumU (x0 : Reg) (x1 : Reg) (x2 : Reg) (x3 : BitVec 3) (x4 : BitVec 3) : Statement (.vredsumU x0 x1 x2 x3 x4) := by
  refine of_word 178 rfl rfl ?_ ?_
  · simp (disch := decide) only [putDABMF, or_and_mask, putF_and_zero]; rfl
  · simp (disch := decide) only [putDABMF, getF_or, getF_putF_same, getF_putF_apart]; simp [getF]
theorem vredmaxT (x0 : Reg) (x1 : Reg) (x2 : Reg) (x3 : BitVec 3) (x4 : BitVec 3) : Statement (.vredmaxT x0 x1 x2 x3 x4) := by
  refine of_word 179 rfl rfl ?_ ?_
  · simp (disch := decide) only [putDABMF, or_and_mask, putF_and_zero]; rfl
  · simp (disch := decide) only [putDABMF, getF_or, getF_putF_same, getF_putF_apart]; simp [getF]
theorem vredminT (x0 : Reg) (x1 : Reg) (x2 : Reg) (x3 : BitVec 3) (x4 : BitVec 3) : Statement (.vredminT x0 x1 x2 x3 x4) := by
  refine of_word 180 rfl rfl ?_ ?_
  · simp (disch := decide) only [putDABMF, or_and_mask, putF_and_zero]; rfl
  · simp (disch := decide) only [putDABMF, getF_or, getF_putF_same, getF_putF_apart]; simp [getF]
theorem vredandT (x0 : Reg) (x1 : Reg) (x2 : Reg) (x3 : BitVec 3) (x4 : BitVec 3) : Statement (.vredandT x0 x1 x2 x3 x4) := by
  refine of_word 181 rfl rfl ?_ ?_
  · simp (disch := decide) only [putDABMF, or_and_mask, putF_and_zero]; rfl
  · simp (disch := decide) only [putDABMF, getF_or, getF_putF_same, getF_putF_apart]; simp [getF]
theorem vredorT (x0 : Reg) (x1 : Reg) (x2 : Reg) (x3 : BitVec 3) (x4 : BitVec 3) : Statement (.vredorT x0 x1 x2 x3 x4) := by
  refine of_word 182 rfl rfl ?_ ?_
  · simp (disch := decide) only [putDABMF, or_and_mask, putF_and_zero]; rfl
  · simp (disch := decide) only [putDABMF, getF_or, getF_putF_same, getF_putF_apart]; simp [getF]
theorem vredxorT (x0 : Reg) (x1 : Reg) (x2 : Reg) (x3 : BitVec 3) (x4 : BitVec 3) : Statement (.vredxorT x0 x1 x2 x3 x4) := by
  refine of_word 183 rfl rfl ?_ ?_
  · simp (disch := decide) only [putDABMF, or_and_mask, putF_and_zero]; rfl
  · simp (disch := decide) only [putDABMF, getF_or, getF_putF_same, getF_putF_apart]; simp [getF]
theorem vscanAdd (x0 : Reg) (x1 : Reg) (x2 : Reg) (x3 : BitVec 3) (x4 : BitVec 3) : Statement (.vscanAdd x0 x1 x2 x3 x4) := by
  refine of_word 184 rfl rfl ?_ ?_
  · simp (disch := decide) only [putDABMF, or_and_mask, putF_and_zero]; rfl
  · simp (disch := decide) only [putDABMF, getF_or, getF_putF_same, getF_putF_apart]; simp [getF]
theorem vscanAddx (x0 : Reg) (x1 : Reg) (x2 : Reg) (x3 : BitVec 3) (x4 : BitVec 3) : Statement (.vscanAddx x0 x1 x2 x3 x4) := by
  refine of_word 185 rfl rfl ?_ ?_
  · simp (disch := decide) only [putDABMF, or_and_mask, putF_and_zero]; rfl
  · simp (disch := decide) only [putDABMF, getF_or, getF_putF_same, getF_putF_apart]; simp [getF]
theorem vscanMax (x0 : Reg) (x1 : Reg) (x2 : Reg) (x3 : BitVec 3) (x4 : BitVec 3) : Statement (.vscanMax x0 x1 x2 x3 x4) := by
  refine of_word 186 rfl rfl ?_ ?_
  · simp (disch := decide) only [putDABMF, or_and_mask, putF_and_zero]; rfl
  · simp (disch := decide) only [putDABMF, getF_or, getF_putF_same, getF_putF_apart]; simp [getF]
theorem vscanMin (x0 : Reg) (x1 : Reg) (x2 : Reg) (x3 : BitVec 3) (x4 : BitVec 3) : Statement (.vscanMin x0 x1 x2 x3 x4) := by
  refine of_word 187 rfl rfl ?_ ?_
  · simp (disch := decide) only [putDABMF, or_and_mask, putF_and_zero]; rfl
  · simp (disch := decide) only [putDABMF, getF_or, getF_putF_same, getF_putF_apart]; simp [getF]
theorem vscanAddU (x0 : Reg) (x1 : Reg) (x2 : Reg) (x3 : BitVec 3) (x4 : BitVec 3) : Statement (.vscanAddU x0 x1 x2 x3 x4) := by
  refine of_word 188 rfl rfl ?_ ?_
  · simp (disch := decide) only [putDABMF, or_and_mask, putF_and_zero]; rfl
  · simp (disch := decide) only [putDABMF, getF_or, getF_putF_same, getF_putF_apart]; simp [getF]
theorem vrowred (x0 : Reg) (x1 : Reg) (x2 : BitVec 3) (x3 : BitVec 3) : Statement (.vrowred x0 x1 x2 x3) := by
  refine of_word 189 rfl rfl ?_ ?_
  · simp (disch := decide) only [putDAMF, or_and_mask, putF_and_zero]; rfl
  · simp (disch := decide) only [putDAMF, getF_or, getF_putF_same, getF_putF_apart]; simp [getF]
theorem vscaleVs (x0 : Reg) (x1 : Reg) (x2 : Reg) (x3 : BitVec 3) (x4 : BitVec 3) : Statement (.vscaleVs x0 x1 x2 x3 x4) := by
  refine of_word 190 rfl rfl ?_ ?_
  · simp (disch := decide) only [putDABMF, or_and_mask, putF_and_zero]; rfl
  · simp (disch := decide) only [putDABMF, getF_or, getF_putF_same, getF_putF_apart]; simp [getF]
theorem vcomp (x0 : Reg) (x1 : Reg) (x2 : BitVec 3) : Statement (.vcomp x0 x1 x2) := by
  refine of_word 191 rfl rfl ?_ ?_
  · simp (disch := decide) only [putDAM, or_and_mask, putF_and_zero]; rfl
  · simp (disch := decide) only [putDAM, getF_or, getF_putF_same, getF_putF_apart]; simp [getF]
theorem vexpand (x0 : Reg) (x1 : Reg) (x2 : BitVec 3) : Statement (.vexpand x0 x1 x2) := by
  refine of_word 192 rfl rfl ?_ ?_
  · simp (disch := decide) only [putDAM, or_and_mask, putF_and_zero]; rfl
  · simp (disch := decide) only [putDAM, getF_or, getF_putF_same, getF_putF_apart]; simp [getF]
theorem vperm (x0 : Reg) (x1 : Reg) (x2 : Reg) (x3 : BitVec 3) : Statement (.vperm x0 x1 x2 x3) := by
  refine of_word 193 rfl rfl ?_ ?_
  · simp (disch := decide) only [putDABM, or_and_mask, putF_and_zero]; rfl
  · simp (disch := decide) only [putDABM, getF_or, getF_putF_same, getF_putF_apart]; simp [getF]
theorem vrev (x0 : Reg) (x1 : Reg) (x2 : BitVec 3) : Statement (.vrev x0 x1 x2) := by
  refine of_word 194 rfl rfl ?_ ?_
  · simp (disch := decide) only [putDAM, or_and_mask, putF_and_zero]; rfl
  · simp (disch := decide) only [putDAM, getF_or, getF_putF_same, getF_putF_apart]; simp [getF]
theorem vrotVs (x0 : Reg) (x1 : Reg) (x2 : Reg) (x3 : BitVec 3) : Statement (.vrotVs x0 x1 x2 x3) := by
  refine of_word 195 rfl rfl ?_ ?_
  · simp (disch := decide) only [putDABM, or_and_mask, putF_and_zero]; rfl
  · simp (disch := decide) only [putDABM, getF_or, getF_putF_same, getF_putF_apart]; simp [getF]
theorem vbcaste (x0 : Reg) (x1 : Reg) (x2 : Reg) (x3 : BitVec 3) : Statement (.vbcaste x0 x1 x2 x3) := by
  refine of_word 196 rfl rfl ?_ ?_
  · simp (disch := decide) only [putDABM, or_and_mask, putF_and_zero]; rfl
  · simp (disch := decide) only [putDABM, getF_or, getF_putF_same, getF_putF_apart]; simp [getF]
theorem vzip (x0 : Reg) (x1 : Reg) (x2 : Reg) (x3 : BitVec 3) : Statement (.vzip x0 x1 x2 x3) := by
  refine of_word 197 rfl rfl ?_ ?_
  · simp (disch := decide) only [putDABM, or_and_mask, putF_and_zero]; rfl
  · simp (disch := decide) only [putDABM, getF_or, getF_putF_same, getF_putF_apart]; simp [getF]
theorem vunzip (x0 : Reg) (x1 : Reg) (x2 : BitVec 3) : Statement (.vunzip x0 x1 x2) := by
  refine of_word 198 rfl rfl ?_ ?_
  · simp (disch := decide) only [putDAM, or_and_mask, putF_and_zero]; rfl
  · simp (disch := decide) only [putDAM, getF_or, getF_putF_same, getF_putF_apart]; simp [getF]
theorem vsort (x0 : Reg) (x1 : Reg) (x2 : BitVec 3) (x3 : BitVec 3) : Statement (.vsort x0 x1 x2 x3) := by
  refine of_word 199 rfl rfl ?_ ?_
  · simp (disch := decide) only [putDAMF, or_and_mask, putF_and_zero]; rfl
  · simp (disch := decide) only [putDAMF, getF_or, getF_putF_same, getF_putF_apart]; simp [getF]
theorem vsortd (x0 : Reg) (x1 : Reg) (x2 : BitVec 3) (x3 : BitVec 3) : Statement (.vsortd x0 x1 x2 x3) := by
  refine of_word 200 rfl rfl ?_ ?_
  · simp (disch := decide) only [putDAMF, or_and_mask, putF_and_zero]; rfl
  · simp (disch := decide) only [putDAMF, getF_or, getF_putF_same, getF_putF_apart]; simp [getF]
theorem vsortkv (x0 : Reg) (x1 : Reg) (x2 : Reg) (x3 : BitVec 3) (x4 : BitVec 3) : Statement (.vsortkv x0 x1 x2 x3 x4) := by
  refine of_word 201 rfl rfl ?_ ?_
  · simp (disch := decide) only [putDABMF, or_and_mask, putF_and_zero]; rfl
  · simp (disch := decide) only [putDABMF, getF_or, getF_putF_same, getF_putF_apart]; simp [getF]
theorem vtopk (x0 : Reg) (x1 : Reg) (x2 : Reg) (x3 : BitVec 3) (x4 : BitVec 3) : Statement (.vtopk x0 x1 x2 x3 x4) := by
  refine of_word 202 rfl rfl ?_ ?_
  · simp (disch := decide) only [putDABMF, or_and_mask, putF_and_zero]; rfl
  · simp (disch := decide) only [putDABMF, getF_or, getF_putF_same, getF_putF_apart]; simp [getF]
theorem vmerge (x0 : Reg) (x1 : Reg) (x2 : Reg) (x3 : BitVec 3) (x4 : BitVec 3) : Statement (.vmerge x0 x1 x2 x3 x4) := by
  refine of_word 203 rfl rfl ?_ ?_
  · simp (disch := decide) only [putDABMF, or_and_mask, putF_and_zero]; rfl
  · simp (disch := decide) only [putDABMF, getF_or, getF_putF_same, getF_putF_apart]; simp [getF]
theorem vmergeu (x0 : Reg) (x1 : Reg) (x2 : Reg) (x3 : BitVec 3) (x4 : BitVec 3) : Statement (.vmergeu x0 x1 x2 x3 x4) := by
  refine of_word 204 rfl rfl ?_ ?_
  · simp (disch := decide) only [putDABMF, or_and_mask, putF_and_zero]; rfl
  · simp (disch := decide) only [putDABMF, getF_or, getF_putF_same, getF_putF_apart]; simp [getF]
theorem vrank (x0 : Reg) (x1 : Reg) (x2 : BitVec 3) (x3 : BitVec 3) : Statement (.vrank x0 x1 x2 x3) := by
  refine of_word 205 rfl rfl ?_ ?_
  · simp (disch := decide) only [putDAMF, or_and_mask, putF_and_zero]; rfl
  · simp (disch := decide) only [putDAMF, getF_or, getF_putF_same, getF_putF_apart]; simp [getF]
theorem bfPass (x0 : Reg) (x1 : Reg) (x2 : Reg) (x3 : BitVec 3) (x4 : BitVec 3) (x5 : BitVec 3) : Statement (.bfPass x0 x1 x2 x3 x4 x5) := by
  refine of_word 206 rfl rfl ?_ ?_
  · simp (disch := decide) only [putDAKMLQ, or_and_mask, putF_and_zero]; rfl
  · simp (disch := decide) only [putDAKMLQ, getF_or, getF_putF_same, getF_putF_apart]; simp [getF]
theorem bfLoad (x0 : Reg) (x1 : Reg) (x2 : BitVec 3) : Statement (.bfLoad x0 x1 x2) := by
  refine of_word 207 rfl rfl ?_ ?_
  · simp (disch := decide) only [putABQ, or_and_mask, putF_and_zero]; rfl
  · simp (disch := decide) only [putABQ, getF_or, getF_putF_same, getF_putF_apart]; simp [getF]
theorem bfClr (x0 : BitVec 3) : Statement (.bfClr x0) := by
  refine of_word 208 rfl rfl ?_ ?_
  · simp (disch := decide) only [putQ, or_and_mask, putF_and_zero]; rfl
  · simp (disch := decide) only [putQ, getF_or, getF_putF_same]; simp [getF]
theorem bfStat (x0 : Reg) : Statement (.bfStat x0) := by
  refine of_word 209 rfl rfl ?_ ?_
  · simp (disch := decide) only [putD, or_and_mask, putF_and_zero]; rfl
  · simp (disch := decide) only [putD, getF_or, getF_putF_same]; simp [getF]
theorem vld (x0 : Reg) (x1 : Reg) (x2 : BitVec 3) (x3 : BitVec 3) : Statement (.vld x0 x1 x2 x3) := by
  refine of_word 210 rfl rfl ?_ ?_
  · simp (disch := decide) only [putDAME, or_and_mask, putF_and_zero]; rfl
  · simp (disch := decide) only [putDAME, getF_or, getF_putF_same, getF_putF_apart]; simp [getF]
theorem vlds (x0 : Reg) (x1 : Reg) (x2 : Reg) (x3 : BitVec 3) (x4 : BitVec 3) : Statement (.vlds x0 x1 x2 x3 x4) := by
  refine of_word 211 rfl rfl ?_ ?_
  · simp (disch := decide) only [putDABME, or_and_mask, putF_and_zero]; rfl
  · simp (disch := decide) only [putDABME, getF_or, getF_putF_same, getF_putF_apart]; simp [getF]
theorem vldx (x0 : Reg) (x1 : Reg) (x2 : Reg) (x3 : BitVec 3) (x4 : BitVec 3) : Statement (.vldx x0 x1 x2 x3 x4) := by
  refine of_word 212 rfl rfl ?_ ?_
  · simp (disch := decide) only [putDABME, or_and_mask, putF_and_zero]; rfl
  · simp (disch := decide) only [putDABME, getF_or, getF_putF_same, getF_putF_apart]; simp [getF]
theorem vldq (x0 : Reg) (x1 : Reg) (x2 : BitVec 3) (x3 : BitVec 3) : Statement (.vldq x0 x1 x2 x3) := by
  refine of_word 213 rfl rfl ?_ ?_
  · simp (disch := decide) only [putDBME, or_and_mask, putF_and_zero]; rfl
  · simp (disch := decide) only [putDBME, getF_or, getF_putF_same, getF_putF_apart]; simp [getF]
theorem vldr (x0 : Reg) (x1 : Reg) (x2 : Reg) (x3 : BitVec 3) (x4 : BitVec 3) : Statement (.vldr x0 x1 x2 x3 x4) := by
  refine of_word 214 rfl rfl ?_ ?_
  · simp (disch := decide) only [putDABME, or_and_mask, putF_and_zero]; rfl
  · simp (disch := decide) only [putDABME, getF_or, getF_putF_same, getF_putF_apart]; simp [getF]
theorem vpf (x0 : Reg) (x1 : BitVec 3) (x2 : BitVec 3) : Statement (.vpf x0 x1 x2) := by
  refine of_word 215 rfl rfl ?_ ?_
  · simp (disch := decide) only [putAME, or_and_mask, putF_and_zero]; rfl
  · simp (disch := decide) only [putAME, getF_or, getF_putF_same, getF_putF_apart]; simp [getF]
theorem vgl (x0 : Reg) (x1 : Reg) (x2 : Reg) (x3 : BitVec 3) (x4 : BitVec 3) : Statement (.vgl x0 x1 x2 x3 x4) := by
  refine of_word 216 rfl rfl ?_ ?_
  · simp (disch := decide) only [putDABME, or_and_mask, putF_and_zero]; rfl
  · simp (disch := decide) only [putDABME, getF_or, getF_putF_same, getF_putF_apart]; simp [getF]
theorem vst (x0 : Reg) (x1 : Reg) (x2 : BitVec 3) (x3 : BitVec 3) : Statement (.vst x0 x1 x2 x3) := by
  refine of_word 217 rfl rfl ?_ ?_
  · simp (disch := decide) only [putDAME, or_and_mask, putF_and_zero]; rfl
  · simp (disch := decide) only [putDAME, getF_or, getF_putF_same, getF_putF_apart]; simp [getF]
theorem vsts (x0 : Reg) (x1 : Reg) (x2 : Reg) (x3 : BitVec 3) (x4 : BitVec 3) : Statement (.vsts x0 x1 x2 x3 x4) := by
  refine of_word 218 rfl rfl ?_ ?_
  · simp (disch := decide) only [putDABME, or_and_mask, putF_and_zero]; rfl
  · simp (disch := decide) only [putDABME, getF_or, getF_putF_same, getF_putF_apart]; simp [getF]
theorem vstx (x0 : Reg) (x1 : Reg) (x2 : Reg) (x3 : BitVec 3) (x4 : BitVec 3) : Statement (.vstx x0 x1 x2 x3 x4) := by
  refine of_word 219 rfl rfl ?_ ?_
  · simp (disch := decide) only [putDABME, or_and_mask, putF_and_zero]; rfl
  · simp (disch := decide) only [putDABME, getF_or, getF_putF_same, getF_putF_apart]; simp [getF]
theorem vstxUn (x0 : Reg) (x1 : Reg) (x2 : Reg) (x3 : BitVec 3) (x4 : BitVec 3) : Statement (.vstxUn x0 x1 x2 x3 x4) := by
  refine of_word 220 rfl rfl ?_ ?_
  · simp (disch := decide) only [putDABME, or_and_mask, putF_and_zero]; rfl
  · simp (disch := decide) only [putDABME, getF_or, getF_putF_same, getF_putF_apart]; simp [getF]
theorem vstq (x0 : Reg) (x1 : Reg) (x2 : BitVec 3) (x3 : BitVec 3) : Statement (.vstq x0 x1 x2 x3) := by
  refine of_word 221 rfl rfl ?_ ?_
  · simp (disch := decide) only [putDBME, or_and_mask, putF_and_zero]; rfl
  · simp (disch := decide) only [putDBME, getF_or, getF_putF_same, getF_putF_apart]; simp [getF]
theorem vstr (x0 : Reg) (x1 : Reg) (x2 : Reg) (x3 : BitVec 3) (x4 : BitVec 3) : Statement (.vstr x0 x1 x2 x3 x4) := by
  refine of_word 222 rfl rfl ?_ ?_
  · simp (disch := decide) only [putDABME, or_and_mask, putF_and_zero]; rfl
  · simp (disch := decide) only [putDABME, getF_or, getF_putF_same, getF_putF_apart]; simp [getF]
theorem vsc (x0 : Reg) (x1 : Reg) (x2 : Reg) (x3 : BitVec 3) (x4 : BitVec 3) : Statement (.vsc x0 x1 x2 x3 x4) := by
  refine of_word 223 rfl rfl ?_ ?_
  · simp (disch := decide) only [putDABME, or_and_mask, putF_and_zero]; rfl
  · simp (disch := decide) only [putDABME, getF_or, getF_putF_same, getF_putF_apart]; simp [getF]
theorem vamoAdd (x0 : Reg) (x1 : Reg) (x2 : Reg) (x3 : BitVec 3) (x4 : BitVec 3) : Statement (.vamoAdd x0 x1 x2 x3 x4) := by
  refine of_word 224 rfl rfl ?_ ?_
  · simp (disch := decide) only [putDABME, or_and_mask, putF_and_zero]; rfl
  · simp (disch := decide) only [putDABME, getF_or, getF_putF_same, getF_putF_apart]; simp [getF]
theorem vamoMin (x0 : Reg) (x1 : Reg) (x2 : Reg) (x3 : BitVec 3) (x4 : BitVec 3) : Statement (.vamoMin x0 x1 x2 x3 x4) := by
  refine of_word 225 rfl rfl ?_ ?_
  · simp (disch := decide) only [putDABME, or_and_mask, putF_and_zero]; rfl
  · simp (disch := decide) only [putDABME, getF_or, getF_putF_same, getF_putF_apart]; simp [getF]
theorem vamoMax (x0 : Reg) (x1 : Reg) (x2 : Reg) (x3 : BitVec 3) (x4 : BitVec 3) : Statement (.vamoMax x0 x1 x2 x3 x4) := by
  refine of_word 226 rfl rfl ?_ ?_
  · simp (disch := decide) only [putDABME, or_and_mask, putF_and_zero]; rfl
  · simp (disch := decide) only [putDABME, getF_or, getF_putF_same, getF_putF_apart]; simp [getF]
theorem vamoAnd (x0 : Reg) (x1 : Reg) (x2 : Reg) (x3 : BitVec 3) (x4 : BitVec 3) : Statement (.vamoAnd x0 x1 x2 x3 x4) := by
  refine of_word 227 rfl rfl ?_ ?_
  · simp (disch := decide) only [putDABME, or_and_mask, putF_and_zero]; rfl
  · simp (disch := decide) only [putDABME, getF_or, getF_putF_same, getF_putF_apart]; simp [getF]
theorem vamoOr (x0 : Reg) (x1 : Reg) (x2 : Reg) (x3 : BitVec 3) (x4 : BitVec 3) : Statement (.vamoOr x0 x1 x2 x3 x4) := by
  refine of_word 228 rfl rfl ?_ ?_
  · simp (disch := decide) only [putDABME, or_and_mask, putF_and_zero]; rfl
  · simp (disch := decide) only [putDABME, getF_or, getF_putF_same, getF_putF_apart]; simp [getF]
theorem vamoXor (x0 : Reg) (x1 : Reg) (x2 : Reg) (x3 : BitVec 3) (x4 : BitVec 3) : Statement (.vamoXor x0 x1 x2 x3 x4) := by
  refine of_word 229 rfl rfl ?_ ?_
  · simp (disch := decide) only [putDABME, or_and_mask, putF_and_zero]; rfl
  · simp (disch := decide) only [putDABME, getF_or, getF_putF_same, getF_putF_apart]; simp [getF]
theorem vamoSwap (x0 : Reg) (x1 : Reg) (x2 : Reg) (x3 : BitVec 3) (x4 : BitVec 3) : Statement (.vamoSwap x0 x1 x2 x3 x4) := by
  refine of_word 230 rfl rfl ?_ ?_
  · simp (disch := decide) only [putDABME, or_and_mask, putF_and_zero]; rfl
  · simp (disch := decide) only [putDABME, getF_or, getF_putF_same, getF_putF_apart]; simp [getF]
theorem vamoAddUn (x0 : Reg) (x1 : Reg) (x2 : Reg) (x3 : BitVec 3) (x4 : BitVec 3) : Statement (.vamoAddUn x0 x1 x2 x3 x4) := by
  refine of_word 231 rfl rfl ?_ ?_
  · simp (disch := decide) only [putDABME, or_and_mask, putF_and_zero]; rfl
  · simp (disch := decide) only [putDABME, getF_or, getF_putF_same, getF_putF_apart]; simp [getF]
theorem vcopy (x0 : Reg) (x1 : Reg) (x2 : Reg) (x3 : BitVec 3) (x4 : BitVec 3) : Statement (.vcopy x0 x1 x2 x3 x4) := by
  refine of_word 232 rfl rfl ?_ ?_
  · simp (disch := decide) only [putDABME, or_and_mask, putF_and_zero]; rfl
  · simp (disch := decide) only [putDABME, getF_or, getF_putF_same, getF_putF_apart]; simp [getF]
theorem vwait (x0 : Reg) (x1 : Reg) (x2 : Reg) (x3 : BitVec 3) (x4 : BitVec 3) : Statement (.vwait x0 x1 x2 x3 x4) := by
  refine of_word 233 rfl rfl ?_ ?_
  · simp (disch := decide) only [putDABME, or_and_mask, putF_and_zero]; rfl
  · simp (disch := decide) only [putDABME, getF_or, getF_putF_same, getF_putF_apart]; simp [getF]
theorem vamofAdd (x0 : Reg) (x1 : Reg) (x2 : Reg) (x3 : BitVec 3) (x4 : BitVec 3) : Statement (.vamofAdd x0 x1 x2 x3 x4) := by
  refine of_word 234 rfl rfl ?_ ?_
  · simp (disch := decide) only [putDABME, or_and_mask, putF_and_zero]; rfl
  · simp (disch := decide) only [putDABME, getF_or, getF_putF_same, getF_putF_apart]; simp [getF]
theorem vamofSwap (x0 : Reg) (x1 : Reg) (x2 : Reg) (x3 : BitVec 3) (x4 : BitVec 3) : Statement (.vamofSwap x0 x1 x2 x3 x4) := by
  refine of_word 235 rfl rfl ?_ ?_
  · simp (disch := decide) only [putDABME, or_and_mask, putF_and_zero]; rfl
  · simp (disch := decide) only [putDABME, getF_or, getF_putF_same, getF_putF_apart]; simp [getF]
theorem vqset (x0 : Reg) (x1 : Reg) : Statement (.vqset x0 x1) := by
  refine of_word 236 rfl rfl ?_ ?_
  · simp (disch := decide) only [putAB, or_and_mask, putF_and_zero]; rfl
  · simp (disch := decide) only [putAB, getF_or, getF_putF_same, getF_putF_apart]; simp [getF]
theorem vqget (x0 : Reg) (x1 : Reg) : Statement (.vqget x0 x1) := by
  refine of_word 237 rfl rfl ?_ ?_
  · simp (disch := decide) only [putAB, or_and_mask, putF_and_zero]; rfl
  · simp (disch := decide) only [putAB, getF_or, getF_putF_same, getF_putF_apart]; simp [getF]
theorem wred (x0 : Reg) (x1 : Reg) (x2 : Reg) (x3 : BitVec 3) : Statement (.wred x0 x1 x2 x3) := by
  refine of_word 238 rfl rfl ?_ ?_
  · simp (disch := decide) only [putDABE, or_and_mask, putF_and_zero]; rfl
  · simp (disch := decide) only [putDABE, getF_or, getF_putF_same, getF_putF_apart]; simp [getF]
theorem wfin (x0 : Reg) (x1 : Reg) (x2 : Reg) : Statement (.wfin x0 x1 x2) := by
  refine of_word 239 rfl rfl ?_ ?_
  · simp (disch := decide) only [putDAB2, or_and_mask, putF_and_zero]; rfl
  · simp (disch := decide) only [putDAB2, getF_or, getF_putF_same, getF_putF_apart]; simp [getF]
theorem wpoll (x0 : Reg) (x1 : Reg) : Statement (.wpoll x0 x1) := by
  refine of_word 240 rfl rfl ?_ ?_
  · simp (disch := decide) only [putDA, or_and_mask, putF_and_zero]; rfl
  · simp (disch := decide) only [putDA, getF_or, getF_putF_same, getF_putF_apart]; simp [getF]
theorem mma (x0 : Reg) (x1 : BitVec 10) (x2 : BitVec 4) (x3 : BitVec 3) (x4 : BitVec 2) (x5 : Reg) (x6 : BitVec 3) : Statement (.mma x0 x1 x2 x3 x4 x5 x6) := by
  intro hw _
  simp (disch := decide) only [encode, decodeEnc, decode64, tileWord, getF_or, getF_putF_same, getF_putF_apart]
  simp [getF, checked, hw]
theorem mlatch (x0 : Reg) (x1 : BitVec 3) : Statement (.mlatch x0 x1) := by
  intro hw _
  simp (disch := decide) only [encode, decodeEnc, decode64, tileWord, getF_or, getF_putF_same, getF_putF_apart]
  simp [getF, checked, hw]
theorem mzero (x0 : Reg) (x1 : BitVec 10) (x2 : BitVec 4) : Statement (.mzero x0 x1 x2) := by
  intro hw _
  simp (disch := decide) only [encode, decodeEnc, decode64, tileWord, getF_or, getF_putF_same, getF_putF_apart]
  simp [getF, checked, hw]
theorem mrd (x0 : Reg) (x1 : Reg) (x2 : BitVec 10) (x3 : BitVec 4) (x4 : BitVec 3) : Statement (.mrd x0 x1 x2 x3 x4) := by
  intro hw _
  simp (disch := decide) only [encode, decodeEnc, decode64, tileWord, getF_or, getF_putF_same, getF_putF_apart]
  simp [getF, checked, hw]
theorem mwr (x0 : Reg) (x1 : BitVec 10) (x2 : BitVec 4) (x3 : Reg) (x4 : BitVec 3) : Statement (.mwr x0 x1 x2 x3 x4) := by
  intro hw _
  simp (disch := decide) only [encode, decodeEnc, decode64, tileWord, getF_or, getF_putF_same, getF_putF_apart]
  simp [getF, checked, hw]
theorem mld (x0 : Reg) (x1 : BitVec 10) (x2 : BitVec 4) (x3 : Reg) : Statement (.mld x0 x1 x2 x3) := by
  intro hw _
  simp (disch := decide) only [encode, decodeEnc, decode64, tileWord, getF_or, getF_putF_same, getF_putF_apart]
  simp [getF, checked, hw]
theorem mst (x0 : Reg) (x1 : BitVec 10) (x2 : BitVec 4) (x3 : Reg) : Statement (.mst x0 x1 x2 x3) := by
  intro hw _
  simp (disch := decide) only [encode, decodeEnc, decode64, tileWord, getF_or, getF_putF_same, getF_putF_apart]
  simp [getF, checked, hw]
theorem cAdd (x0 : Reg) : Statement (.cAdd x0) := by
  refine of_half 0 rfl rfl ?_ ?_
  · simp (disch := decide) only [putBs, or_and_mask, putF_and_zero]; rfl
  · simp (disch := decide) only [putBs, getF_or, getF_putF_same]; simp [getF]
theorem cSub (x0 : Reg) : Statement (.cSub x0) := by
  refine of_half 1 rfl rfl ?_ ?_
  · simp (disch := decide) only [putBs, or_and_mask, putF_and_zero]; rfl
  · simp (disch := decide) only [putBs, getF_or, getF_putF_same]; simp [getF]
theorem cAnd (x0 : Reg) : Statement (.cAnd x0) := by
  refine of_half 2 rfl rfl ?_ ?_
  · simp (disch := decide) only [putBs, or_and_mask, putF_and_zero]; rfl
  · simp (disch := decide) only [putBs, getF_or, getF_putF_same]; simp [getF]
theorem cOr (x0 : Reg) : Statement (.cOr x0) := by
  refine of_half 3 rfl rfl ?_ ?_
  · simp (disch := decide) only [putBs, or_and_mask, putF_and_zero]; rfl
  · simp (disch := decide) only [putBs, getF_or, getF_putF_same]; simp [getF]
theorem cXor (x0 : Reg) : Statement (.cXor x0) := by
  refine of_half 4 rfl rfl ?_ ?_
  · simp (disch := decide) only [putBs, or_and_mask, putF_and_zero]; rfl
  · simp (disch := decide) only [putBs, getF_or, getF_putF_same]; simp [getF]
theorem cAddi (x0 : Reg) (x1 : BitVec 6) : Statement (.cAddi x0 x1) := by
  refine of_half 5 rfl rfl ?_ ?_
  · simp (disch := decide) only [putBIs, or_and_mask, putF_and_zero]; rfl
  · simp (disch := decide) only [putBIs, getF_or, getF_putF_same, getF_putF_apart]; simp [getF]
theorem cSlli (x0 : BitVec 6) : Statement (.cSlli x0) := by
  refine of_half 6 rfl rfl ?_ ?_
  · simp (disch := decide) only [putIs, or_and_mask, putF_and_zero]; rfl
  · simp (disch := decide) only [putIs, getF_or, getF_putF_same]; simp [getF]
theorem cLd (x0 : Reg) (x1 : BitVec 6) : Statement (.cLd x0 x1) := by
  refine of_half 7 rfl rfl ?_ ?_
  · simp (disch := decide) only [putBIs, or_and_mask, putF_and_zero]; rfl
  · simp (disch := decide) only [putBIs, getF_or, getF_putF_same, getF_putF_apart]; simp [getF]
theorem cSt (x0 : Reg) (x1 : BitVec 6) : Statement (.cSt x0 x1) := by
  refine of_half 8 rfl rfl ?_ ?_
  · simp (disch := decide) only [putBIs, or_and_mask, putF_and_zero]; rfl
  · simp (disch := decide) only [putBIs, getF_or, getF_putF_same, getF_putF_apart]; simp [getF]
theorem cMv (x0 : Reg) : Statement (.cMv x0) := by
  refine of_half 9 rfl rfl ?_ ?_
  · simp (disch := decide) only [putBs, or_and_mask, putF_and_zero]; rfl
  · simp (disch := decide) only [putBs, getF_or, getF_putF_same]; simp [getF]
theorem cBeqz (x0 : Reg) (x1 : BitVec 6) : Statement (.cBeqz x0 x1) := by
  refine of_half 10 rfl rfl ?_ ?_
  · simp (disch := decide) only [putBIs, or_and_mask, putF_and_zero]; rfl
  · simp (disch := decide) only [putBIs, getF_or, getF_putF_same, getF_putF_apart]; simp [getF]
theorem cBnez (x0 : Reg) (x1 : BitVec 6) : Statement (.cBnez x0 x1) := by
  refine of_half 11 rfl rfl ?_ ?_
  · simp (disch := decide) only [putBIs, or_and_mask, putF_and_zero]; rfl
  · simp (disch := decide) only [putBIs, getF_or, getF_putF_same, getF_putF_apart]; simp [getF]
theorem cVadd (x0 : Reg) : Statement (.cVadd x0) := by
  refine of_half 12 rfl rfl ?_ ?_
  · simp (disch := decide) only [putBs, or_and_mask, putF_and_zero]; rfl
  · simp (disch := decide) only [putBs, getF_or, getF_putF_same]; simp [getF]
theorem cVmul (x0 : Reg) : Statement (.cVmul x0) := by
  refine of_half 13 rfl rfl ?_ ?_
  · simp (disch := decide) only [putBs, or_and_mask, putF_and_zero]; rfl
  · simp (disch := decide) only [putBs, getF_or, getF_putF_same]; simp [getF]
theorem cVfma (x0 : Reg) (x1 : Reg) : Statement (.cVfma x0 x1) := by
  refine of_half 14 rfl rfl ?_ ?_
  · simp (disch := decide) only [putBCs, or_and_mask, putF_and_zero]; rfl
  · simp (disch := decide) only [putBCs, getF_or, getF_putF_same, getF_putF_apart]; simp [getF]
theorem reeveInstruction (x0 : RvInstr) (x1 : Bool) : Statement (.reeveInstruction x0 x1) := of_none rfl
theorem handDataCacheEviction (x0 : Nat) (x1 : Nat) : Statement (.handDataCacheEviction x0 x1) := of_none rfl
theorem hostReadCompletion (x0 : Nat) (x1 : Bool) (x2 : List Byte) : Statement (.hostReadCompletion x0 x1 x2) := of_none rfl
theorem powerClampRelease : Statement .powerClampRelease := of_none rfl
theorem jtagDebugRequest (x0 : Nat) (x1 : DebugReq) : Statement (.jtagDebugRequest x0 x1) := of_none rfl

end Sys2Proof.Laws.RoundTrip
end

