-- ==== Sys2Proof/Tests/Slice0.lean ====
section
/-!
SUPPORT. Tests: words written out from the encodings of the manual and what they decode to, a term that each check of WellFormed
refuses, small steps with results from the manual, and for every statement with hypotheses a state and operands that meet them.
-/

set_option Elab.async false

namespace Sys2Proof.Tests

open Sys2Proof Sys2Proof.Machine Sys2Proof.Spec

/-! ## Small states -/

/-- Page tables at 0x1000 and 0x2000: VA gigabyte 0 is PA 0 up; gigabyte 1 is the same while it migrates; 3 is uncached; 4 lies on
node 1; 5 is host memory; 2 is not mapped. -/
def pages : Memory :=
  [(0x1000, 0x01), (0x1001, 0x20), (0x2000, 0xDF), (0x2008, 0xDF), (0x2009, 0x01), (0x2018, 0xDF), (0x2019, 0x02), (0x2020, 0xDF)
   , (0x2025, 0x10), (0x2028, 0xDF), (0x202D, 0x04)]

/-- A partition with those tables. -/
def part0 : Part := { Part.empty with proot := 1, pmem := 3, pcore := 0xFFFF }

/-- A hand of farm 1 that runs in Fetch, with 16 KiB of scratchpad, 64 accumulator rows and the registers given. -/
def runner (regs : List (Nat × Word)) : Hand :=
  { Hand.empty with st := .fetch, pc := 0x10000, cur := some { base := 0x10000, bytes := List.replicate 64 0, failed := none }
                    farm := 1, spn := 4, gSpn := 4, accn := 64, gAccn := 64
                    s := regs.foldl (fun v p => v.setIfInBounds p.1 p.2) (Vector.replicate 32 0) }

/-- A packet. -/
def packet : Packet :=
  { raw := List.replicate 128 0, child := false, rck := false, det := false, prio := 2, kind := 0, seq := 0, hentry := 0x10000
    rentry := 0, args := 0x20000, done := 0x30000, strips := 4, spkib := 16, accrows := 64, hmax := 1, hmin := 1
    aff := BitVec.allOnes 128, seed := 0, whistle := 0, parent := 0 }

/-- A farm of one hand. -/
def farm1 : Farm :=
  { id := 1, part := 0, queue := 0, pkt := packet, phase := .placed, hands := [{ hid := 0, spb := 0, spn := 4, accb := 0, accn := 64 }]
    gone := [], ctr := 0, reeves := [], killed := false, frozen := false, abandoned := false, remoteErr := false, since := 0
    order := 0, pimg := 0, doneTag := none, reading := false, finished := false, heldAt := none, written := false, fetched := []
    fetching := none, record := .over }

/-- L2 slice ports whose buckets of partition 0 hold 64 tokens each. -/
def funds : Table Port :=
  (List.range 64).map fun k => (k, { Port.empty with buckets := [(0, { Bucket.empty with depth := 64, tokens := 64 * 256 })] })

/-- A machine in which hand 0 runs. -/
def machine (x : Hand) : State :=
  { State.reset with mem := pages, parts := [(0, part0)], hands := [(0, x)], farms := [farm1], ports := funds, lockstep := false, boot := 5 }

/-- The same with bytes at an address. -/
def withBytes (s : State) (a : Nat) (bs : List Byte) : State := { s with mem := memPut s.mem a bs }

/-- The result of a step that goes on. -/
def after (r : Res) (p : State → Bool) : Bool := match r with
  | .next t => p t
  | _ => false

/-- A dispatched instruction over three 32-bit elements, whose VIQ entry is taken. -/
def entry (k : VKind) : Entry :=
  { kind := k, pc := 0x10008, d := 8, a := 0, b := 0, m := 0, src := .val 0, ew := 2, mode := 0, imm := 0, vtype := 2, vl := 3, rc := 1, vt := 3
    vstart := 0, bpc := 0, fw := 0, sa := 0, sb := 0, accb := 0, accn := 64, det := false, rck := false, oper := (0, 0), ret := none
    taken := true, first := 0, stages := 0, age := 1, came := 1, renamed := 0, written := 0, acc := [], skipped := 0, ahead := [], torn := []
    offs := none, fault := none, awaiting := none, heldAt := [], since := none, dispute := none, settled := false }
/-! ## Witnesses: the access stream -/

/-- Registers 1 to 8. -/
def r8 : State := machine (runner [(1, 7), (2, 5), (3, 0x8000000000000000), (4, 0xFFFFFFFFFFFFFFFF), (5, 0x10041), (6, 0x20000)])

theorem test_witness_scalarResults : scalarOp r8.me (.sub 7 1 2) = some ⟨7, 2, [7, 1, 2], 4⟩ ∧ Quiet r8 ∧ Ready r8 [7, 1, 2] := by
  unfold Quiet Ready; (repeat' apply And.intro) <;> decide +kernel
theorem test_witness_divisions : (divisionOp r8.me (.div 7 3 4)).map Division.flag = some 0x20 ∧ Quiet r8 ∧ Ready r8 [7, 3, 4] := by
  unfold Quiet Ready; (repeat' apply And.intro) <;> decide +kernel
theorem test_witness_bitCounts : Quiet r8 ∧ Ready r8 [7, 1] := by unfold Quiet Ready; (repeat' apply And.intro) <;> decide +kernel
theorem test_witness_branches : (branchOp r8.me (.bltn 3 4 0x7FE)).map Jump.taken = some true ∧ Quiet r8 ∧ Ready r8 [3, 4] := by
  unfold Quiet Ready; (repeat' apply And.intro) <;> decide +kernel
theorem test_witness_jumps : Ready r8 [7, 6] ∧ (r8.me.rd 6 + (2#11).signExtend 64).getLsbD 0 = false ∧ (r8.me.rd 6).getLsbD 0 = false := by
  unfold Ready; (repeat' apply And.intro) <;> decide +kernel
theorem test_witness_oddTargets : Clear r8 ∧ r8.me.stopReq = none ∧ Ready r8 [7, 5]
    ∧ (r8.me.rd 5 + (0#11).signExtend 64).getLsbD 0 = true ∧ (r8.me.rd 5).getLsbD 0 = true := by
  unfold Ready Clear; (repeat' apply And.intro) <;> decide +kernel

/-- A byte that is no 0 in the scratchpad and in DRAM; s6 is a VA in the share, s7 in DRAM, s8 a VA above the share, s9 above 2^48. -/
def m8 : State :=
  let s := machine { runner [(1, 0xFFFFFFFFFFFFFF85), (6, 0xF00000000FF8), (7, 0x20000), (8, 0xF00000004000), (9, 0x1000000000000)
    , (10, 0x20001), (11, 0x85)] with lastd := 5, walks := [(0x20, 6), (0x20, 7)] }
  withBytes (s.setCore 0 { s.core 0 with spad := [(0xFF8, 0x85), (0xFFF, 0x80)] }) 0x20000 (leBytes 8 0x8000000000000085)
/-- The same, with engines that move in lockstep. -/
def m9 : State := { m8 with lockstep := true }

theorem test_witness_scratchpadLoads :
    loadOp m8.me (.ldD 7 6 0) = some ⟨7, 6, 0, 8, true, 4⟩ ∧ Quiet m8 ∧ Ready m8 [7, 6] ∧ m8.me.sb = []
      ∧ Unblocked m8 0xF00000000FF8 8 true ∧ InShare m8 0xF00000000FF8 8 ∧ SpadClean m8 0xFF8 8 ∧ Whole m8 0xF00000000FF8 8
      ∧ Unblocked m8 0xF00000000FF9 8 true ∧ InShare m8 0xF00000000FF9 8 ∧ SpadClean m8 0xFF9 8 ∧ ¬ Whole m8 0xF00000000FF9 8
      ∧ after (exec (.ldD 7 6 0) m8) (fun t => t.me.rd 7 == 0x8000000000000085) = true := by
  refine ⟨rfl, ?_⟩; unfold Quiet Ready Unblocked InShare SpadClean Whole; (repeat' apply And.intro) <;> decide +kernel
theorem test_witness_dramLoads :
    loadOp m8.me (.ldBn 7 7 0) = some ⟨7, 7, 0, 1, false, 4⟩ ∧ Quiet m8 ∧ Ready m8 [7, 7] ∧ m8.me.sb = []
      ∧ Unblocked m8 0x20000 1 true ∧ locate m8 0 0x20000 1 .load true = .ok (dramLocs [0x20000]) ∧ DramClean m8 [0x20000] ∧ NoLines m8
      ∧ Paid m8 (.hand 0) (dramLocs [0x20000]) ∧ Whole m8 0x20000 1 ∧ ¬ Whole m8 0x20001 2
      ∧ ¬ Paid { m8 with ports := [] } (.hand 0) (dramLocs [0x20000])
      ∧ after (exec (.ldBn 7 7 0) m8) (fun t => t.me.rd 7 == 0x85 && t.me.walks == [(0x20, 7)]) = true := by
  refine ⟨rfl, ?_⟩; unfold Quiet Ready Unblocked DramClean NoLines Whole Paid; (repeat' apply And.intro) <;> decide +kernel
theorem test_witness_scratchpadStores :
    storeOp m8.me (.stB 1 6 1) = some ⟨1, 6, 1, 1, 4⟩ ∧ Quiet m8 ∧ Ready m8 [1, 6] ∧ Unblocked m8 0xF00000000FF9 1 false
      ∧ InShare m8 0xF00000000FF9 1 ∧ m8.me.st ≠ .frozen ∧ m8.me.marks = []
      ∧ after (exec (.stB 1 6 1) m8) (fun t => mySpad t == [(0xFF8, 0x85), (0xFF9, 0x85), (0xFFF, 0x80)]) = true := by
  refine ⟨rfl, ?_⟩; unfold Quiet Ready Unblocked InShare; (repeat' apply And.intro) <;> decide +kernel
theorem test_witness_dramStores :
    storeOp m9.me (.stH 1 7 0) = some ⟨1, 7, 0, 2, 4⟩ ∧ Quiet m9 ∧ Ready m9 [1, 7] ∧ Unblocked m9 0x20000 2 false
      ∧ locate m9 0 0x20000 2 .store true = .ok (dramLocs [0x20000, 0x20001]) ∧ m9.me.st ≠ .frozen ∧ m9.lockstep = true ∧ Drained m9
      ∧ Paid m9 (.hand 0) (dramLocs [0x20000, 0x20001])
      ∧ after (exec (.stH 1 7 0) m9) (fun t => memBytes t.mem 0x20000 2 == [0x85, 0xFF]) = true := by
  refine ⟨rfl, ?_⟩; unfold Quiet Ready Unblocked Drained Paid; (repeat' apply And.intro) <;> decide +kernel
theorem test_witness_bufferedStores :
    storeOp m8.me (.cSt 7 0) = some ⟨5, 7, 0, 8, 2⟩ ∧ Quiet m8 ∧ Ready m8 [5, 7] ∧ Unblocked m8 0x20000 8 false
      ∧ locate m8 0 0x20000 8 .store true = .ok (dramLocs ((List.range 8).map (0x20000 + ·))) ∧ m8.me.st ≠ .frozen ∧ m8.lockstep = false
      ∧ after (exec (.cSt 7 0) m8) (fun t => t.me.sb.length == 1 && t.mem == m8.mem) = true := by
  refine ⟨rfl, ?_⟩; unfold Quiet Ready Unblocked; (repeat' apply And.intro) <;> decide +kernel
theorem test_witness_amos :
    amoForms (.amoMaxn 1 7 11 2 1) = some (.maxn, 1, 7, 11, 2, 1) ∧ Quiet m8 ∧ Ready m8 [1, 7, 11] ∧ Unblocked m8 0x20000 4 false
      ∧ performedAt m8 0 2 = true ∧ Drained m8 ∧ Paid m8 (.vmu 0) (dramLocs [0x20000, 0x20001, 0x20002, 0x20003]) ∧ locate m8 0 0x20000 4 .both true = .ok (dramLocs [0x20000, 0x20001, 0x20002, 0x20003])
      ∧ DramClean m8 [0x20000, 0x20001, 0x20002, 0x20003]
      ∧ after (exec (.amoCas 1 7 11 2 1) m8) (fun t => t.me.rd 1 == 0x85 && t.mem == m8.mem) = true := by
  refine ⟨rfl, ?_⟩; unfold Quiet Ready Unblocked DramClean Drained Paid; (repeat' apply And.intro) <;> decide +kernel
theorem test_witness_acquireReleases :
    Quiet m8 ∧ Ready m8 [1, 7] ∧ m8.me.sb = [] ∧ Unblocked m8 0x20000 8 true ∧ Unblocked m8 0x20000 8 false
      ∧ locate m8 0 0x20000 8 .load true = .ok (dramLocs ((List.range 8).map (0x20000 + ·)))
      ∧ locate m8 0 0x20000 8 .store true = .ok (dramLocs ((List.range 8).map (0x20000 + ·)))
      ∧ DramClean m8 ((List.range 8).map (0x20000 + ·)) ∧ m8.me.st ≠ .frozen ∧ m8.me.marks = []
      ∧ m8.me.storesLeft = true ∧ performedAt m8 0 4 = true ∧ performedAt (m8.setMe { m8.me with unacked := [3] }) 0 4 = false
      ∧ Paid m8 (.hand 0) (dramLocs ((List.range 8).map (0x20000 + ·)))
      ∧ after (exec (.ldAcq 1 7 2 0) m8) (fun t => t.me.rd 1 == 0x8000000000000085) = true := by
  unfold Quiet Ready Unblocked DramClean Paid; (repeat' apply And.intro) <;> decide +kernel
theorem test_witness_addressFaults :
    Clear m8 ∧ m8.me.stopReq = none ∧ m8.me.fenced = false ∧ m8.me.acc = none
      ∧ loadOp m8.me (.ldB 7 9 0) = some ⟨7, 9, 0, 1, true, 4⟩ ∧ Ready m8 [7, 9] ∧ 2 ^ 48 ≤ (m8.me.rd 9).toNat
      ∧ storeOp m8.me (.stB 7 8 0) = some ⟨7, 8, 0, 1, 4⟩ ∧ inWindow (m8.me.rd 8).toNat = true ∧ inShare m8.me (m8.me.rd 8).toNat = false
      ∧ Ready m8 [1, 10, 11] ∧ (m8.me.rd 10).toNat % amoBytes 1 ≠ 0
      ∧ after (exec (.amoAdd 1 10 11 0 1) m8) (fun t => t.me.frame.cause == 5 && t.me.st == .parked) = true := by
  unfold Ready Clear; (repeat' apply And.intro) <;> decide +kernel

theorem test_witness_csrs :
    Quiet m8 ∧ Ready m8 [7, 11] ∧ CsrFree m8.me 0x015 ∧ CsrFree m8.me 0x001 ∧ CsrFree m8.me 0x00D ∧ Clear m8
      ∧ LegalTile { m8.me with vl := 128 } ∧ ¬ LegalTile { m8.me with vl := 129 } ∧ ¬ LegalTile { m8.me with vl := 0 }
      ∧ InsideGrant { m8.me with accb := 0 } ∧ ¬ InsideGrant { m8.me with accb := 1 }
      ∧ ¬ CsrFree { m8.me with rq := [mkEntry m8.me .iota] } 0x007
      ∧ after (exec (.csrw 7 11 0x001) m8) (fun t => t.me.frame.cause == 1 && t.me.vl == 1) = true := by
  unfold Quiet Ready CsrFree Clear LegalTile InsideGrant; (repeat' apply And.intro) <;> decide +kernel
theorem test_witness_tiles :
    vcfgOp m8.me (.setvn 7 11) = some (7, 11, 0, 128, 2, 5) ∧ Clear m8 ∧ 64 ≤ (m8.me.rd 11).toNat ∧ Quiet m8
      ∧ m8.me.tilePending = false ∧ Ready m8 [7, 11] ∧ LegalTile m8.me
      ∧ after (exec (.setvn 7 11) m8) (fun t => t.me.rd 7 == 0x85) = true := by
  refine ⟨rfl, ?_⟩; unfold Quiet Ready Clear LegalTile; (repeat' apply And.intro) <;> decide +kernel

/-- Two hands of farm 1 on core 0, hand 1 east of hand 0; hand 15, its western neighbour, is placed and Off. -/
def l8 : State :=
  let f : Farm := { farm1 with hands := farm1.hands ++ [{ hid := 1, spb := 4, spn := 4, accb := 64, accn := 64 }
    , { hid := 15, spb := 8, spn := 4, accb := 128, accn := 64 }], gone := [15] }
  { machine (runner [(1, 7), (2, 64)]) with
    farms := [f], hands := [(0, { runner [(1, 7), (2, 64)] with linkW := [3, 4] }), (1, { runner [] with linkW := [1, 2, 3] })
      , (15, { runner [] with st := .off })] }
/-- The same with a full queue at hand 1, an event at hand 0, and hand 1 at a core barrier. -/
def l9 : State :=
  { l8 with hands := [(0, { runner [(1, 7)] with evt := 5 })
      , (1, { runner [] with linkW := [1, 2, 3, 4], st := .wait, waiting := some .bar, arrived := some false })
      , (15, { runner [] with st := .off })] }

/-- The same with hand 1 Frozen at its barrier. -/
def l7 : State := l9.setHand 1 { l9.hand 1 with st := .frozen }

theorem test_witness_fences :
    Quiet m8 ∧ ScalarDone m8 ∧ VectorDone m8 ∧ LoadsDone m8 ∧ performedAt m8 0 4 = true ∧ m8.me.acc = none
      ∧ ¬ ScalarDone (m8.setMe { m8.me with dieWrites := [1] }) ∧ ¬ VectorDone (m8.setMe { m8.me with vunacked := [1] })
      ∧ ¬ LoadsDone (m8.setMe { m8.me with rq := [entry (.load .unit)] })
      ∧ performedAt (m8.setMe { m8.me with dieWrites := [1] }) 0 4 = false
      ∧ after (exec (.fenceAr 4) m8) (fun t => t.me.pc == 0x10004) = true
      ∧ after (exec .fenceSv (m8.setMe { m8.me with dieWrites := [1] })) (fun t => t.me.pc == 0x10000) = true
      ∧ after (exec .fenceVs (m8.setCore 0 { m8.core 0 with dcache := [(5, [1])] })) (fun t => t.me.pc == 0x10004 && (t.core 0).dcache == []) = true := by
  unfold Quiet ScalarDone VectorDone LoadsDone; (repeat' apply And.intro) <;> decide +kernel
theorem test_witness_links :
    Quiet l8 ∧ Ready l8 [1] ∧ placedWith l8 0 (ring 0 true) = true ∧ (l8.hand 1).farm = l8.me.farm ∧ (l8.hand 1).st ≠ .off
      ∧ (inbound (l8.hand 1) true).length < 4 ∧ 4 ≤ (inbound (l9.hand 1) true).length ∧ Quiet l9
      ∧ placedWith l8 0 (ring 0 false) = true ∧ (l8.hand (ring 0 false)).st = .off ∧ placedWith m8 0 (ring 0 true) = false ∧ Clear m8
      ∧ l8.me.linkW = 3 :: [4] ∧ l8.me.linkE = []
      ∧ after (exec (.lnkPut 1 0) l8) (fun t => (t.hand 1).linkW == [1, 2, 3, 7]) = true
      ∧ after (exec (.lnkGet 2 2) l8) (fun t => t.me.rd 2 == 3 && t.me.linkW == [4]) = true := by
  unfold Quiet Ready Clear; (repeat' apply And.intro) <;> decide +kernel
theorem test_witness_signalsAndClaims :
    Quiet l9 ∧ Ready l9 [1] ∧ Ready l9 [2] ∧ performedAt l9 0 1 = true ∧ l9.me.evt ≠ 0 ∧ l8.me.evt = 0
      ∧ (∃ f, l9.farm l9.me.farm = some f ∧ f.ctr < f.pkt.strips)
      ∧ (∃ f, ({ l9 with farms := [{ farm1 with ctr := 4 }] } : State).farm l9.me.farm = some f ∧ f.pkt.strips ≤ f.ctr)
      ∧ after (exec (.claim 2) l9) (fun t => t.me.rd 2 == 0 && t.farms.map Farm.ctr == [1]) = true
      ∧ after (exec (.sig 2) l8) (fun t => (t.reeve 0).hsig == 1) = true := by
  refine ⟨?_, ?_, ?_, ?_, ?_, ?_, ⟨_, rfl, ?_⟩, ⟨_, rfl, ?_⟩, ?_, ?_⟩ <;> (first | decide +kernel | (unfold Quiet; decide +kernel) | (unfold Ready; decide +kernel))
theorem test_witness_barriers :
    Quiet l9 ∧ performedAt l9 0 1 = true ∧ l9.curHand ∈ among l9 false ∧ (among l9 false).Nodup
      ∧ (∀ h ∈ among l9 false, h ≠ l9.curHand → (l9.hand h).arrived = some false)
      ∧ (∃ h ∈ among l8 false, h ≠ l8.curHand ∧ (l8.hand h).arrived ≠ some false) ∧ Quiet l8
      ∧ after (exec .bar l9) (fun t => t.hand 1 == passed (l9.hand 1)) = true
      ∧ (∀ h ∈ among l7 false, h ≠ l7.curHand → (l7.hand h).arrived = some false) ∧ 1 ∈ among l7 false
      ∧ after (exec .bar l7) (fun t => t.hand 1 == l7.hand 1 && t.me.pc == 0x10004) = true := by
  refine ⟨?_, ?_, ?_, ?_, ?_, ⟨1, ?_, ?_⟩, ?_, ?_, ?_, ?_, ?_⟩ <;> (first | decide +kernel | (unfold Quiet; decide +kernel))
theorem test_witness_ends :
    (m8.hand 0).acc = none ∧ m8.me.rq = [] ∧ m8.me.sb = [] ∧ m8.me.unacked = [] ∧ m8.me.dieWrites = [] ∧ m8.me.vunacked = [] ∧ m8.me.vdieWrites = []
      ∧ m8.me.copies = [] ∧ Paid m8 (.vmu 0) (dramLocs ((List.range 8).map (0x30000 + ·)))
      ∧ (∃ f, m8.farm m8.me.farm = some f) ∧ m8.me.fflags.toNat < 512
      ∧ locate m8 0 0x30000 8 .store false = .ok (dramLocs ((List.range 8).map (0x30000 + ·)))
      ∧ DramClean m8 ((List.range 8).map (0x30000 + ·)) ∧ Quiet m8
      ∧ after (exec .endHand m8) (fun t => memBytes t.mem 0x30000 8 == [0, 0, 0, 0, 1, 0, 0, 0] && t.me.st == .off) = true
      ∧ after (execEndCompletionAdd 0 (m8.setMe { m8.me with ending := true })) (fun t => t.me.st == .off) = true
      ∧ after (execEndCompletionAdd 0 (m8.setMe { m8.me with ending := true, holdReq := some .reeve })) (fun t => t.me.st == .held && t.mem == m8.mem) = true
      ∧ after (execEndCompletionAdd 0 (m8.setMe { m8.me with ending := true, stopReq := some false })) (fun t => t.me.st == .idle && t.mem == m8.mem) = true := by
  refine ⟨?_, ?_, ?_, ?_, ?_, ?_, ?_, ?_, ?_, ⟨farm1, ?_⟩, ?_, ?_, ?_, ?_, ?_, ?_, ?_, ?_⟩
    <;> (first | decide +kernel | (unfold Quiet; decide +kernel) | (unfold DramClean; decide +kernel) | (unfold Paid; decide +kernel))

/-- s24 is a format word of i8; the tile has 5 elements. -/
def v8 : State := machine { runner [(1, 0x20000), (2, 2)] with vl := 5, rc := 1, vt := 5 }

theorem test_witness_dispatch :
    (∃ f, formOf v8.me (.vaddVv 1 2 3 0 0) = some f ∧ Ready v8 f.regs ∧ Passes f ∧ Room v8.me f.entry) ∧ Quiet v8
      ∧ v8.me.tilePending = false ∧ StreamSettled v8.me (.vaddVv 1 2 3 0 0)
      ∧ (∃ f, formOf v8.me (.vbcVs 1 2 0) = some f ∧ ¬ Ready (v8.setMe { v8.me with retq := [{ d := some 2, v := 0, count := none }] }) f.regs)
      ∧ Clear v8 ∧ v8.me.stopReq = none
      ∧ ((formOf v8.me (.vcopy 1 2 1 0 0)).map fun f => (f.checks.find? fun c => !c.1).map fun c => c.2.1) = some (some 5)
      ∧ after (exec (.vcopy 1 2 1 0 0) v8) (fun t => t.me.frame.cause == 5 && t.me.frame.addr == 2) = true
      ∧ after (exec (.vaddVv 1 2 3 0 0) v8) (fun t => t.me.rq.length == 1 && t.me.pc == 0x10004) = true := by
  refine ⟨⟨_, rfl, ?_, ?_, ?_⟩, ?_, ?_, ?_, ⟨_, rfl, ?_⟩, ?_, ?_, ?_, ?_, ?_⟩
  · unfold Ready; decide +kernel
  · unfold Passes; decide +kernel
  · unfold Room; decide +kernel
  · unfold Quiet; decide +kernel
  · decide +kernel
  · intro n h; cases h
  · unfold Ready; decide +kernel
  · unfold Clear; decide +kernel
  all_goals decide +kernel

/-! ## Witnesses: the reeve -/

/-- Reeve 0 in a mode, with registers, serving farm 1 with hand 0. -/
def reeveAt (md : Mode) (regs : List (Nat × Word)) : Reeve :=
  { Reeve.empty with mode := md, hfarm := 1, hmask := 1, serving := true
                     x := regs.foldl (fun v p => v.setIfInBounds p.1 p.2) (Vector.replicate 32 0) }
/-- A machine with that reeve and hand 0. -/
def withReeve (md : Mode) (regs : List (Nat × Word)) (x : Hand) : State := { machine x with reeves := [(0, reeveAt md regs)] }

/-- Registers of a reeve. -/
def xs : List (Nat × Word) := [(1, 0x20000), (2, 1), (3, 0x20008), (4, 0x1001), (5, 0x10010), (6, 0x30001), (7, 0x20001)]
/-- In each mode, hand 0 Held. -/
def km : State := withReeve .m xs { runner [(1, 9)] with st := .held, heldBy := some .reeve }
/-- In user mode. -/
def ku : State := withReeve .u xs (runner [])
/-- In supervisor mode. -/
def ks : State := withReeve .s xs (runner [])
/-- With an Idle hand. -/
def ki : State := withReeve .m xs { runner [] with st := .idle }

theorem test_witness_reeveComputes :
    ku.rv.frozen = false ∧ rvCompute ku.rv 4 (.op .sub 9 1 2) = some (9, 0x1FFFF, 4)
      ∧ after (exec (.reeveInstruction (.op .sub 9 1 2) false) ku) (fun t => t.rv.rd 9 == 0x1FFFF && t.rv.pc == 4) = true := by
  decide +kernel
theorem test_witness_reeveTraps :
    rvException ku.rv .ecall = some (8, 0) ∧ km.rv.mode = .m ∧ km.rv.frozen = false ∧ ks.rv.mode = .s
      ∧ (ks.rv.csrOf 0x300).getLsbD 22 = false ∧ ks.rv.frozen = false
      ∧ after (exec (.reeveInstruction .ecall false) ku) (fun t => t.rv.mode == .m && t.rv.csrOf 0x342 == 8) = true := by
  decide +kernel
theorem test_witness_reeveMemory :
    km.rv.frozen = false ∧ rvLocate km 0 0x20001 2 .load false = .ok (dramLocs [0x20001, 0x20002])
      ∧ Paid km (.reeve 0) (dramLocs [0x20001, 0x20002]) ∧ ¬ Whole km 0x20001 2 ∧ Whole { km with lockstep := true } 0x20001 2
      ∧ rvLocate km 0 0x20001 2 .store false = .ok (dramLocs [0x20001, 0x20002]) ∧ Whole km 0x20000 1
      ∧ DramClean km [0x20001, 0x20002] ∧ rvLocate km 0 0x20000 1 .store false = .ok (dramLocs [0x20000])
      ∧ after (exec (.reeveInstruction (.store 1 2 1 0) false) km) (fun t => memGet t.mem 0x20000 == 1) = true
      ∧ km.rv.fenced .load = false ∧ km.rv.fenced .store = false
      ∧ (let f := { km with reeves := [(0, { km.rv with unacked := [3], fenceR := [3], fenceW := [3] })] }
         f.rv.fenced .load = true ∧ f.rv.fenced .store = true
          ∧ after (exec (.reeveInstruction (.store 1 2 1 0) false) f) (fun t => t == f) = true) := by
  unfold DramClean Paid Whole; (repeat' apply And.intro) <;> decide +kernel
theorem test_witness_reeveCsrs :
    (0x5C0#12).toNat ∈ [0x5C0, 0x5C1, 0x5C2, 0x5C3] ∧ ku.rv.mode = .u ∧ ks.rv.mode ≠ .u ∧ ks.rv.frozen = false
      ∧ (0x5C2#12).toNat = 0x5C2 ∧ csrNew .rw 0 (ks.rv.rd 2) = 1 ∧ ks.rv.hfarm = 1 ∧ ks.rv.serving = true
      ∧ after (exec (.reeveInstruction (.csr .rw 0 2 false 0x5C2) false) ks) (fun t => !t.rv.serving && t.rv.hfarm == 0) = true := by
  decide +kernel
theorem test_witness_reeveExits :
    (0 : Nat) < 128 ∧ (1#64).toNat = (ks.reeve 0).hfarm ∧ (ks.reeve 0).serving = true ∧ (2#64).toNat ≠ (ks.reeve 0).hfarm
      ∧ after (execRexitWrite 0 1 ks) (fun t => t.rv.hmask == 0) = true := by decide +kernel
/-- Reeve 0 in supervisor mode, translated by the tables at 0x1000, where gigabyte 6 may be read only; X[1] is an address. -/
def kt (a : Word) : State :=
  { withBytes ki 0x2030 [0x43] with
    reeves := [(0, { reeveAt .s [(1, a), (2, 1)] with csr := [(0x180, 0xF000000000000001)] })] }

theorem test_witness_broadcasts :
    ki.rv.frozen = false ∧ (ki.rv.rd 1).toNat % 64 = 0 ∧ Operand ki 0x20000 64 true ((List.range 64).map (0x20000 + ·)) ∧ Released ki
      ∧ ¬ Released { ki with reeves := [(0, { ki.rv with dieWrites := [1] })] }
      ∧ (ki.rv.rd 2).toNat % 64 ≠ 0 ∧ (ki.rv.rd 1).getLsbD 0 = false ∧ (ki.rv.rd 1).toNat < 2 ^ 48 ∧ (ki.rv.rd 2).getLsbD 0 = true
      ∧ picked ki (ki.rv.rd 2) open_ = [0]
      ∧ after (exec (.kbc 9 1 2) ki) (fun t => t.rv.rd 9 == 1 && (t.hand 0).st == .block && (t.hand 0).blk == 0x20000) = true
      ∧ after (exec (.kgo 9 1 2) ki) (fun t => t.rv.rd 9 == 1 && (t.hand 0).st == .fetch && (t.hand 0).pc == 0x20000) = true
      ∧ (kt 0x80000000).rv.translates false = true ∧ (rvLeaf (kt 0x80000000) 0 0x80000000).toOption = none
      ∧ ((rvLeaf (kt 0x180000000) 0 0x180000000).toOption.map Leaf.pte) = some 0x43 ∧ (0x43#64).getLsbD 3 = false
      ∧ after (exec (.kbc 9 1 2) (kt 0x80000000)) (fun t => t.rv.csrOf 0x342 == 13 && t.hands == ki.hands) = true
      ∧ after (exec (.kbc 9 1 2) (kt 0x180000000)) (fun t => t.rv.csrOf 0x342 == 13 && t.rv.csrOf 0x343 == 0x180000000) = true := by
  unfold Released Operand DramClean Paid; (repeat' apply And.intro) <;> decide +kernel
/-- Hands 0 to 7 of the farm in the eight states, Idle, Block, Fetch, Wait, Held, Parked, Frozen and Off, with `q` dispatched; X[2] names
those of `m`, X[3] = 0 and X[4] = 1. -/
def kall (m : Word) (q : List Entry) : State :=
  { ki with
    farms := [{ farm1 with hands := (List.range 8).map fun k => { hid := k, spb := 4 * k, spn := 4, accb := 0, accn := 0 } }]
    hands := [HState.idle, .block, .fetch, .wait, .held, .parked, .frozen, .off].zipIdx.map fun p => (p.2,
      { runner [] with st := p.1, heldBy := if p.1 = .held then some .reeve else none, rq := if p.2 < 6 then q else [], resume := .fetch })
    reeves := [(0, { reeveAt .m [(2, m), (3, 0), (4, 1)] with hmask := 0xFF })] }

theorem test_witness_stopsAndHolds :
    let w := kall 0xFF [entry (.ew .add)]
    let d := kall 0xFF []
    (∀ k ∈ [0, 1, 2, 3, 4, 5], running (w.hand k) = true ∨ Plain (w.hand k)) ∧ running (w.hand 2) = true ∧ running (w.hand 3) = false
      ∧ (w.rv.rd 3).getLsbD 0 = false ∧ (w.rv.rd 4).getLsbD 0 = true ∧ w.lockstep = false ∧ (∀ k ∈ List.range 8, Plain (w.hand k))
      ∧ after (exec (.kstop 9 2 3) w) (fun t => t.rv == kAfter w 9 0x3F && (List.range 6).all fun k =>
          t.hand k == if running (w.hand k) then asked false (w.hand k) else stopped false (w.hand k)) = true
      ∧ after (exec (.kquiet 9 2 3) w) (fun t => t.rv == kAfter w 9 0x10 && (t.hand 3).draining && !(t.hand 2).draining
          && t.hand 4 == w.hand 4) = true
      ∧ after (exec (.kquiet 9 2 3) d) (fun t => t.rv == kAfter d 9 0x19 && (t.hand 3).st == .held && (t.hand 3).resume == .fetch) = true
      ∧ after (exec (.kquiet 9 2 4) w) (fun t => t.rv == kAfter w 9 0x10 && (t.hand 4).st == .fetch && (t.hand 5).st == .parked) = true := by
  unfold Plain; (repeat' apply And.intro) <;> decide +kernel
theorem test_witness_abandons :
    let w := kall 8 [entry (.ew .add)]
    picked w (w.rv.rd 2) (fun x => decide (x.st ≠ .frozen ∧ x.st ≠ .off)) = [3] ∧ (w.hand 3).st = .wait
      ∧ after (exec (.kstop 9 2 4) w) (fun t => t.hand 3 == stopped true (w.hand 3) && t.farms == w.farms) = true
      ∧ after (exec (.kstop 9 2 4) (kall 8 [])) (fun t => (t.hand 3).st == .off && t.farms.all (·.abandoned)) = true := by decide +kernel
theorem test_witness_handRegisters :
    km.rv.frozen = false ∧ selector (km.rv.rd 4) = some (0, true, 1) ∧ Reachable km 0 ∧ selector (km.rv.rd 2) = some (0, false, 1)
      ∧ selector 0x4001 = none ∧ selector 0x100001 = none ∧ LegalTile { km.hand 0 with vl := 1 } ∧ ¬ LegalTile { km.hand 0 with vl := 0x20000 }
      ∧ ¬ Reachable ku 0 ∧ Released km ∧ (km.hand (km.curReeve * 16 + 0)).retq = []
      ∧ after (exec (.kread 9 2 0) km) (fun t => t.rv.rd 9 == 9) = true
      ∧ after (exec (.kwrite 9 4 2) km) (fun t => (t.hand 0).vl == 1 && t.rv.rd 9 == 1) = true := by
  unfold Reachable LegalTile Released; (repeat' apply And.intro) <;> decide +kernel
theorem test_witness_kwaits :
    ki.rv.frozen = false ∧ ki.rv.rd 0 = 0 ∧ farmAway ki 0 = false ∧ Quiescent ki 0 ∧ ¬ Quiescent ku 0
      ∧ ((List.range 16).filter fun k => (ki.rv.rd 2).getLsbD k && ki.rv.hmask.getLsbD k) = [0]
      ∧ ki.rv.rd 1 ≠ 0 ∧ (ki.rv.rd 1).toNat % 8 = 0 ∧ Operand ki 0x20000 8 false ((List.range 8).map (0x20000 + ·))
      ∧ farmAway { ki with farms := [{ farm1 with phase := .saved }] } 0 = true
      ∧ after (exec (.kwait 9 0 2) ki) (fun t => t.rv.rd 9 == 0x7777777777777770) = true
      ∧ after (exec (.kwait 9 0 2) ku) (fun t => t.rv.kwaiting) = true := by
  unfold Quiescent Operand DramClean Paid; (repeat' apply And.intro) <;> decide +kernel

/-- Reeve 0 waits in the `kwait a5, x0, sp` at 0x100 (R52). -/
def kw : State := { withBytes ki 0x100 (leBytes 4 (fmtX 0 2 0 3 15)) with reeves := [(0, { ki.rv with pc := 0x100, kwaiting := true })] }

theorem test_witness_kwaitComplete :
    kw.curReeve < 128 ∧ kw.rv.kwaiting = true ∧ kw.rv.halted = false ∧ kw.rv.debug = false ∧ kw.rv.out = none
      ∧ (match rvFetch kw with
        | .ok (t, w) => t.rv = kw.rv ∧ t.curReeve = kw.curReeve ∧ t.hands = kw.hands ∧ t.farms = kw.farms ∧ kwaitOf w = some (15, 0, 2)
        | .error _ => False)
      ∧ after (execKwaitComplete 0 kw) (fun t => t.rv.rd 15 == 0x7777777777777770 && t.rv.pc == 0x104) = true := by
  (repeat' apply And.intro) <;> decide +kernel

theorem test_witness_savesImages :
    ku.rv.mode = .u ∧ km.rv.mode ≠ .u ∧ (km.rv.rd 3).toNat % 4096 ≠ 0 ∧ (km.rv.rd 1).toNat % 4096 = 0 ∧ Bare km
      ∧ (km.rv.rd 1).toNat + imageBytesCount ≤ Config.dramSize ∧ mine km 0 = true ∧ (km.hand 0).st = .held ∧ (km.hand 0).acc = none
      ∧ (km.hand 0).rq = [] ∧ km.rv.framing = false ∧ km.rv.unacked = [] ∧ km.rv.dieWrites = [] ∧ ks.rv.mode ≠ .u ∧ (ks.rv.rd 1).toNat % 4096 = 0
      ∧ ¬(mine ks 0 = true ∧ ((ks.hand 0).st = .held ∨ (ks.hand 0).st = .parked)) := by
  unfold Bare; (repeat' apply And.intro) <;> decide +kernel

/-- Hand 0 is Idle and belongs to farm 0, which reeve 0 serves; an image of zeros at 0x20000 is that of a record that the device kept. -/
def kr : State :=
  { State.reset with hands := [(0, { Hand.empty with st := .idle })], lockstep := false
                     reeves := [(0, { reeveAt .m [(1, 0x20000)] with hfarm := 0 })], frames := [(0, { hand := Hand.empty, check := 0 })] }

theorem memBytes_nil (a n : Nat) : memBytes [] a n = List.replicate n 0 := by
  induction n generalizing a with
  | zero => rfl
  | succ n ih => simp [memBytes, memGet, ih, List.replicate_succ]

theorem test_witness_restoresImages :
    kr.rv.frozen = false ∧ kr.rv.fenced .load = false ∧ Bare kr ∧ (kr.rv.rd 1).toNat % 4096 = 0 ∧ Reachable kr 0 ∧ ¬ Reachable kr 1 ∧ kr.rv.dbuf = none
      ∧ 0x20000 + imageBytesCount ≤ Config.dramSize ∧ DramClean kr ((List.range imageBytesCount).map (0x20000 + ·))
      ∧ checkedFrame kr (memBytes kr.mem 0x20000 imageBytesCount) = some { hand := Hand.empty, check := 0 }
      ∧ imageOwner (memBytes kr.mem 0x20000 imageBytesCount) = (0, (kr.hand 0).farm % 2 ^ 32)
      ∧ checkedFrame { kr with frames := [] } (memBytes kr.mem 0x20000 imageBytesCount) = none ∧ kr.lockstep = false := by
  have e : (memBytes kr.mem 0x20000 imageBytesCount).drop frameOffset = List.replicate 4096 0 := by
    rw [show kr.mem = [] from rfl, memBytes_nil, List.drop_replicate]
    exact congrArg (List.replicate · 0) (by decide)
  refine ⟨rfl, rfl, ?_, rfl, ?_, ?_, rfl, ?_, fun pa _ h => (List.not_mem_nil h).elim, ?_, ?_, ?_, rfl⟩
  · unfold Bare; decide +kernel
  · unfold Reachable; decide +kernel
  · unfold Reachable; decide +kernel
  · decide
  · have w (n : Nat) (h : 8 * n + 8 ≤ 4096) : dwordAt (List.replicate 4096 0) n = 0 := by
      unfold dwordAt
      rw [List.drop_replicate, List.take_replicate, show min 8 (4096 - 8 * n) = 8 by omega]; decide
    have b : frameBody 0 Hand.empty 0 = List.replicate 0xFF8 0 := by
      unfold frameBody
      rw [show frameHeader 0 Hand.empty ++ leBytes 8 0 = List.replicate 72 0 by decide +kernel, List.replicate_append_replicate]
    simp only [checkedFrame, e, List.take_replicate, Nat.min_self, w 8 (by decide), w 511 (by decide)]
    rw [show tabFind kr.frames (0 : Word).toNat = some { hand := Hand.empty, check := 0 } by decide +kernel]
    simp only [show (0 : Word).toNat = 0 from rfl, Nat.zero_mod, b]
    exact if_pos ⟨congrArg (List.replicate · 0) (by decide), trivial⟩
  · unfold imageOwner dwordAt
    rw [e, List.drop_replicate, List.take_replicate]; decide +kernel
  · unfold checkedFrame; rfl

/-- Reeve 0 with a packet of zeros but for `hands-min`, `hands-max` and the entry, at 0x20000; a child queue at 0x40000. -/
def kl : State :=
  { ki with parts := [(0, { part0 with pchild := 0x40000 })] }

theorem test_witness_launches :
    kl.rv.frozen = false ∧ (kl.rv.rd 1).toNat % 8 = 0 ∧ Released kl ∧ 256 ≤ ({ part0 with pchild := 0x40000, ccount := 256 } : Part).ccount ∧ Operand kl 0x20000 128 false ((List.range 128).map (0x20000 + ·))
      ∧ (kl.part 0).pchild ≠ 0 ∧ (kl.part 0).ccount < 256 ∧ (ki.part 0).pchild = 0
      ∧ locateIn kl 0 0x40000 128 .store = .ok (dramLocs ((List.range 128).map (0x40000 + ·)))
      ∧ after (exec (.klaunch 9 1 0) ki) (fun t => t.rv.rd 9 == 3) = true := by
  unfold Released Operand DramClean Paid; (repeat' apply And.intro) <;> decide +kernel

/-! ## Witnesses: registers and launch queues -/

/-- A packet of kind 1 with sequence number `n`: entry 0x10000, `done` 0x30000, one hand, affinity to core 0 (Table 1.14). -/
def packetBytes (n : Nat) : List Byte :=
  leBytes 8 (2 ^ 32 + n) ++ leBytes 8 0x10000 ++ leBytes 16 0 ++ leBytes 8 0x30000 ++ leBytes 8 5 ++ leBytes 8 0x10001 ++ leBytes 8 1
    ++ List.replicate 64 0
/-- Queue 0 runs with its ring of 8 slots at 0x60000, head 2 and slots published up to 4. -/
def queue0 : Queue := { Queue.empty with base := 0x60001, en := true, lsize := 3, head := 2, pub := some 4 }
/-- A machine with that queue and slot 2 filled. -/
def kq (n : Nat) (x : Queue) : State := { withBytes (machine (runner [])) 0x60100 (packetBytes n) with farms := [], queues := [(0, x)] }

theorem test_witness_registerWrites :
    let s := machine (runner [])
    partAfter s 0x123456 (.psave 0) = some (0, { part0 with psave := 0x123000 }) ∧ (deviceAfter s 7 (.bucket 1 0)).isSome = true
      ∧ (deviceAfter s 7 (.bucket 0x40 0)).isSome = false ∧ (deviceAfter s 0x10 (.glim 16)).isSome = true
      ∧ after (exec (.registerWrite (.psave 0) 0x123456) s) (fun t => (t.part 0).psave == 0x123000) = true
      ∧ after (exec (.registerWrite (.bucket 1 0) 0x0000070000090000) s) (fun t =>
          (tabGet Bucket.empty (tabGet Port.empty t.ports 1).buckets 0).rate == 7) = true
      ∧ after (exec (.registerWrite (.pmem 0 35) 1) s) (fun t => (t.part 0).pmem == 3 + 2 ^ 2240) = true
      ∧ after (exec (.registerWrite (.pcoreHi 0) 1) s) (fun t => (t.reeve 64).part == 0 && (t.part 0).pcore == 0xFFFF + 2 ^ 64) = true
      ∧ after (exec (.registerWrite (.pcoreHi 1) 1) (s.setPart 0 { part0 with pcore := BitVec.allOnes 128 })) (fun t =>
          (t.reeve 64).part == 1 && (t.part 0).pcore == BitVec.allOnes 128 - 2 ^ 64) = true
      ∧ (deviceAfter s 16 (.barSize 1)).isSome = true ∧ (deviceAfter s 3 (.mailbox 511)).isSome = true
      ∧ s.booted 1 = true ∧ ({ s with boot := 1 } : State).booted 1 = false
      ∧ after (exec (.registerWrite (.psave 0) 0x123456) { s with boot := 1 }) (fun t => t == { s with boot := 1 }) = true
      ∧ after (exec (.gheartWrite 16 1) { s with gtick := [(16, 9)] }) (fun t => (t.ctrl 16).beat == 9) = true := by
  (repeat' apply And.intro) <;> decide +kernel

theorem test_witness_queueRegisters :
    let s := kq 2 { queue0 with stopped := true }
    (0x10C#64).getLsbD 8 = true ∧ 1 ≤ (0x10C#64).toNat % 32 ∧ (0x10C#64).toNat % 32 ≤ 12 ∧ 12 < (0x10D#64).toNat % 32 ∧ (s.queue 0).stopped = true ∧ s.booted 1 = true
      ∧ after (exec (.qctlWrite 0 0x10C) s) (fun t => (t.queue 0).en && (t.queue 0).lsize == 12) = true
      ∧ after (exec (.qctlWrite 0 0x10D) s) (fun t => !(t.queue 0).en && (t.queue 0).lsize == 13) = true
      ∧ after (exec (.qstatClearStopped 0) s) (fun t => !(t.queue 0).stopped && (t.queue 0).pub == none) = true
      ∧ after (exec (.registerWrite (.qbase 63) 0xFF) s) (fun t => (t.queue 63).base == 0x81) = true := by
  (repeat' apply And.intro) <;> decide +kernel

/-- What a kick of 5, 3, 10 and 0 is to queue 0: further, not further, without packet, old (R27, R28). -/
theorem test_witness_kicks :
    let s := kq 2 queue0
    (s.queue 0).en = true ∧ (s.queue 0).stopped = false ∧ ((5 : BitVec 32) - 2).toNat < 8 ∧ ((4 : BitVec 32) - 2).toNat < 3
      ∧ 8 ≤ ((10 : BitVec 32) - 2).toNat ∧ ((0 : BitVec 32) - 2).toNat ≥ 2 ^ 31
      ∧ after (exec (.qkickWrite .host 0 5) s) (fun t => (t.queue 0).pub == some 5) = true
      ∧ after (exec (.qkickWrite .host 0 3) s) (fun t => t == s) = true
      ∧ after (exec (.qkickWrite (.reeve 7) 0 10) s) (fun t => (t.queue 0).stopped && (t.part 0).viol == some
          { node := Config.node, id := 7, kind := 2, code := 0x44, detail := 10 }) = true
      ∧ after (exec (.qkickWrite .host 0 0) s) (fun t => t == s) = true ∧ postedDone s 1 = true
      ∧ (let w := { s with hostTorn := [(1, { wr := true, locs := [], bytes := [], left := [] })] }
         postedDone w 1 = false ∧ after (exec (.qkickWrite .host 0 5) w) (fun t => t == w) = true)
      ∧ (let w := { s with windows := [(0, { r := false, w := true, a := false, v := true, part := 0, base := 0, frames := 2 ^ 32
                                             frozen := false })] }
         after (exec (.qkickWrite (.remote 1 0) 0 10) w) (fun t => (t.queue 0).stopped && t.windows.map (·.2.frozen) == [true]
           && t.windows == windowsAfterKick w 0 (.remote 1 0)) = true) := by
  (repeat' apply And.intro) <;> decide +kernel

theorem test_witness_slotReads :
    let s := kq 2 queue0
    let w := kq 3 { queue0 with rereads := some 63 }
    let held : Queue := { queue0 with base := 0x40060000, heldAt := some 0 }
    headAddr queue0 = 0x60100 ∧ (match locateIn (kq 2 held) 0 (headAddr held) 128 .load with | .hold _ => true | _ => false) = true
      ∧ after (exec (.slotHeaderRead 0) { kq 2 { held with heldAt := none } with tick := 9 }) (fun t => (t.queue 0).heldAt == some 9) = true
      ∧ after (exec (.slotHeaderRead 0) { kq 2 held with tick := 200000 }) (fun t => (t.queue 0).reason == 9 && (t.queue 0).head == 3) = true
      ∧ (s.queue 0).en = true ∧ (s.queue 0).stopped = false ∧ (s.queue 0).pub.isSome = true
      ∧ s.outs = [] ∧ s.farms = [] ∧ (s.queue 0).rereads = none ∧ (queue0.base &&& 0xFFFE).getLsbD 0 = false
      ∧ (let s := kq 2 { queue0 with base := 0x60000 }
         locateIn s 0 0x60100 128 .load = .ok (dramLocs ((List.range 128).map (0x60100 + ·)))
          ∧ DramClean s ((List.range 128).map (0x60100 + ·)) ∧ packetReason (packetBytes 2) false = none
          ∧ Paid s (.other 0) (dramLocs ((List.range 128).map (0x60100 + ·))) ∧ Paid s (.other 0) (dramLocs (((List.range 128).map (0x60100 + ·)).take 8))
          ∧ ¬ Paid { s with ports := [] } (.other 0) (dramLocs ((List.range 128).map (0x60100 + ·)))
          ∧ DramClean { s with poison := [0x60140 / 32] } (((List.range 128).map (0x60100 + ·)).take 8)
          ∧ ¬ DramClean { s with poison := [0x60140 / 32] } ((List.range 128).map (0x60100 + ·))
          ∧ after (exec (.slotHeaderRead 0) { s with poison := [0x60140 / 32] }) (fun t => (t.queue 0).reason == 9 && t.msix == [0]) = true
          ∧ after (exec (.slotHeaderRead 0) { kq 3 { queue0 with base := 0x60000 } with poison := [0x60140 / 32] }) (fun t => (t.queue 0).rereads == some 0) = true
          ∧ after (exec (.slotHeaderRead 0) { s with ports := [] }) (fun t => t.queues == s.queues && t.farms == []) = true
          ∧ after (exec (.slotHeaderRead 0) s) (fun t => (t.queue 0).head == 3 && t.farms.map (·.phase) == [.waiting]) = true)
      ∧ packetReason (List.replicate 4 2 ++ List.replicate 124 0) false = some 1
      ∧ (match locateIn s 0 0x8000000000 128 .load with | .fault _ _ _ => true | _ => false) = true
      ∧ (w.queue 0).readAt + 256 ≤ ({ w with tick := 256 } : State).tick
      ∧ after (exec (.slotHeaderReread 0) { kq 3 { queue0 with base := 0x60000, rereads := some 63 } with tick := 256 })
          (fun t => (t.queue 0).stopped) = true
      ∧ after (exec (.slotHeaderReread 0) { kq 3 { queue0 with base := 0x60000, rereads := some 62 } with tick := 256 })
          (fun t => (t.queue 0).rereads == some 63) = true := by
  unfold DramClean Paid; (repeat' apply And.intro) <;> decide +kernel

/-- Reeve 0 with a good packet at 0x20000 and a child queue at 0x40000; the same with 256 children queued. -/
def kgood (n : Nat) : State :=
  { withBytes ki 0x20000 (packetBytes 0) with parts := [(0, { part0 with pchild := 0x40000, ccount := n })] }

/-- The same, with tokens for the packet alone. -/
def kbroke : State := { kgood 0 with ports := funds.filter fun p => decide (p.1 = 32 ∨ p.1 = 33) }

theorem test_witness_launchesGood :
    Released (kgood 0) ∧ Operand (kgood 0) 0x20000 128 false ((List.range 128).map (0x20000 + ·))
      ∧ (let bs := childPacket (packetBytes 0) 0 1; (packetReason bs true).isSome = false ∧ (parsePacket bs).rentry = 0)
      ∧ after (exec (.klaunch 9 1 0) (kgood 0)) (fun t => t.rv.rd 9 == 0 && (t.part 0).ccount == 1
          && memBytes t.mem 0x40000 8 == [0, 0, 0, 0, 1, 32, 0, 0]) = true
      ∧ after (exec (.klaunch 9 1 0) (kgood 256)) (fun t => t.rv.rd 9 == 1) = true ∧ (kgood 0).rv.fenced .store = false
      ∧ Paid (payFor (kgood 0) (.reeve 0) (dramLocs ((List.range 128).map (0x20000 + ·)))).1 (.other 0) (dramLocs ((List.range 128).map (0x40000 + ·)))
      ∧ (let s := { kgood 0 with reeves := [(0, { (kgood 0).rv with unacked := [3], fenceW := [3] })] }
         s.rv.fenced .store = true ∧ after (exec (.klaunch 9 1 0) s) (fun t => t == s) = true)
      ∧ (let s := (kgood 0).setPart 0 { part0 with pchild := 0x80000000 }
         (match locateIn s 0 0x80000000 128 .store with | .fault _ _ _ => true | _ => false) = true
          ∧ after (exec (.klaunch 9 1 0) s) (fun t => t.rv.rd 9 == 4 && t.reports == [.childSlot 0]) = true)
      ∧ Operand kbroke 0x20000 128 false ((List.range 128).map (0x20000 + ·))
      ∧ ¬ Paid (payFor kbroke (.reeve 0) (dramLocs ((List.range 128).map (0x20000 + ·)))).1 (.other 0) (dramLocs ((List.range 128).map (0x40000 + ·)))
      ∧ after (exec (.klaunch 9 1 0) kbroke) (fun t => t.rv.x == kbroke.rv.x && t.rv.pc == kbroke.rv.pc && t.mem == kbroke.mem) = true := by
  unfold Released Operand DramClean Paid; (repeat' apply And.intro) <;> decide +kernel

/-! ## Witnesses: the placer -/

/-- A farm that waits: farm 2, from queue 1. -/
def farm2 : Farm := { farm1 with id := 2, queue := 1, phase := .waiting, hands := [], pkt := { packet with prio := 3 } }
/-- It waits on a device where the partition has core 0 and nothing runs. -/
def kp (f : Farm) : State := { machine Hand.empty with parts := [(0, { part0 with pcore := 1 })], farms := [f] }
/-- It waits while farm 1 has hand 0. -/
def kb (f : Farm) : State := { machine (runner []) with parts := [(0, { part0 with pcore := 1, pquant := 10, psaven := 64 })], farms := [f, farm1] }

theorem test_witness_farmPlacement :
    let wide := { farm2 with pkt := { packet with spkib := 1024 } }
    let nowhere := { farm2 with pkt := { packet with aff := 0 } }
    WaitsAlone (kp farm2) farm2 ∧ allocate (idleDevice (kp farm2)) 0 farm2.pkt ≠ none
      ∧ allocate (kp farm2) 0 farm2.pkt = some [{ hid := 0, spb := 0, spn := 4, accb := 0, accn := 64 }]
      ∧ (kp farm2).booted 3 = true ∧ ({ kp farm2 with boot := 3 } : State).booted 3 = false
      ∧ after (exec (.placeFarm 0) { kp farm2 with boot := 3 }) (fun t => t == { kp farm2 with boot := 3 }) = true
      ∧ after (exec (.placeFarm 0) (kp farm2)) (fun t => t.hand 0 == started farm2 { hid := 0, spb := 0, spn := 4, accb := 0, accn := 64 }) = true
      ∧ allocate (kb farm2) 0 farm2.pkt = some [{ hid := 1, spb := 4, spn := 4, accb := 64, accn := 64 }]
      ∧ WaitsAlone (kb wide) wide ∧ allocate (kb wide) 0 wide.pkt = none ∧ allocate (idleDevice (kb wide)) 0 wide.pkt ≠ none
      ∧ WaitsAlone (kp nowhere) nowhere ∧ allocate (idleDevice (kp nowhere)) 0 nowhere.pkt = none
      ∧ WordAt (kp nowhere) nowhere ((List.range 8).map (0x30000 + ·)) ∧ NoRecord (kp nowhere) nowhere
      ∧ after (exec (.placeFarm 0) (kp nowhere)) (fun t => t.farms == [] && memGet t.mem 0x30000 == 5) = true := by
  unfold WaitsAlone WordAt NoRecord DramClean Paid; (repeat' apply And.intro) <;> decide +kernel

/-- Farm 1 with its only hand gone. -/
def ended : Farm := { farm1 with gone := [0] }
/-- Its completion word counts one hand (R41); the ring of the partition has 2 records from 0x68000 and lies at 0x68000 or, with `un`,
where nothing is mapped. -/
def ke (f : Farm) (un : Bool) : State :=
  { withBytes (machine Hand.empty) 0x30004 [1] with
    farms := [f], parts := [(0, { part0 with manb := if un then 0x80000001 else 0x68001, next := 1 })] }

theorem test_witness_farmEnds :
    let pas := (List.range 8).map (0x30000 + ·)
    let astray := { ended with pkt := { packet with done := 0x80000000 }, killed := true }
    (ke ended true).farm 1 = some ended ∧ WordAt (ke ended true) ended pas ∧ NoRecord (ke ended true) ended ∧ AtEnd (ke ended true) ended pas ∧ AllGone ended
      ∧ AtEnd (ke farm1 true) farm1 pas ∧ ¬ AllGone farm1
      ∧ after (exec (.setDone 1) (ke farm1 true)) (fun t => memGet t.mem 0x30000 == 1 && t.farms.map Farm.finished == [true]) = true
      ∧ AllGone { ended with finished := true }
      ∧ after (exec (.setDone 1) (ke { ended with finished := true } true)) (fun t => t.farms == []) = true
      ∧ after (exec (.setDone 1) (ke ended true)) (fun t => memGet t.mem 0x30000 == 1 && t.farms == []) = true
      ∧ ¬ AtEnd (ke { farm1 with reeves := [0] } true) { farm1 with reeves := [0] } pas ∧ WordAt (ke farm1 true) farm1 pas
      ∧ AtEnd (ke { ended with killed := true } true) { ended with killed := true } []
      ∧ (match locateIn (ke astray true) 0 0x80000000 8 .store with | .fault _ _ _ => true | _ => false) = true
      ∧ statusOf astray ∈ [1, 2, 3] ∧ NoRecord (ke astray true) astray
      ∧ after (exec (.setDone 1) (ke astray true)) (fun t => t.reports == [.doneFailed 1]) = true := by
  unfold WordAt AtEnd AllGone NoRecord DramClean Paid; (repeat' apply And.intro) <;> decide +kernel

theorem test_witness_manifestRecords :
    let pas := (List.range 8).map (0x30000 + ·)
    let f := { ended with pkt := { packet with det := true }, record := .due }
    let qs := (List.range 128).map (0x68080 + ·)
    Paid (ke f false) (.other 0) (dramLocs qs) ∧ Paid (payFor (ke f false) (.other 0) (dramLocs qs)).1 (.other 0) (dramLocs pas)
      ∧ (let s := (ke f false).setPart 0 { part0 with manb := 0x100000001, next := 1 }
         (match locateIn s 0 0x100000080 128 .store with | .ok (.remote 1 _ _ :: _) => true | _ => false) = true ∧ nodeDead s 0 1 = false
          ∧ after (exec (.setDone 1) s) (fun t => t.farms.map Farm.record == [.sent] && t.mem == s.mem && t.outq.length == 1) = true)
      ∧ (let w := { f with record := .sent }
         AtEnd (ke w false) w pas ∧ after (exec (.setDone 1) (ke w false)) (fun t => t == ke w false) = true)
      ∧ WordAt (ke f false) f pas ∧ AtEnd (ke f false) f pas ∧ AllGone f ∧ f.pkt.det = true ∧ ((ke f false).part 0).manb.toNat % 32 = 1
      ∧ locateIn (ke f false) 0 0x68080 128 .store = .ok (dramLocs ((List.range 128).map (0x68080 + ·)))
      ∧ (∀ a ∈ (List.range 128).map (0x68080 + ·), a ∉ pas)
      ∧ (match locateIn (ke f true) 0 0x80000080 128 .store with | .fault _ _ _ => true | _ => false) = true := by
  unfold WordAt AtEnd AllGone DramClean Paid; (repeat' apply And.intro) <;> decide +kernel

theorem test_witness_farmKills :
    let s := machine (runner [])
    s.farm 1 = some farm1 ∧ (∀ p ∈ farm1.hands, (s.hand p.hid).farm = 1) ∧ Rising s.hands
      ∧ after (exec (.farmKill 1) s) (fun t => (t.hand 0).st == .off) = true := by
  unfold Rising; (repeat' apply And.intro) <;> decide +kernel

theorem test_witness_quantumExpires :
    let w := { farm2 with queue := 0, pkt := { packet with prio := 3, spkib := 1024 } }
    let low := { farm1 with pkt := { packet with prio := 1 } }
    let s := { kb w with farms := [w, low], tick := 11 }
    WaitsAlone s w ∧ s.farms.filter (fun g => decide (g.part = w.part ∧ g.id ≠ w.id)) = [low] ∧ (s.part 0).pquant < s.tick - w.since
      ∧ 0 < (s.part 0).pquant ∧ allocate s 0 w.pkt = none ∧ allocate s 0 farm2.pkt ≠ none ∧ Preemptible s low ∧ low.pkt.prio < w.pkt.prio ∧ (s.hand 0).st = .fetch ∧ ({ s with tick := 10 } : State).tick - w.since ≤ 10
      ∧ after (exec (.quantumExpiry 0) s) (fun t => (t.hand 0).placed && (t.farms.map Farm.phase) == [.waiting, .preempting]) = true := by
  unfold WaitsAlone Preemptible; (repeat' apply And.intro) <;> decide +kernel

/-- Ports where partition 0 holds tokens for a whole record. -/
def rich : Table Port := (List.range 64).map fun k => (k, { Port.empty with credit := [(0, 2 ^ 20)] })
theorem rich_credit (s : State) (h : s.ports = rich) (k : Nat) (hk : k < 64) : (s.port k).creditOf 0 = 2 ^ 20 := by
  have all : ∀ k ∈ List.range 64, (tabGet Port.empty rich k).creditOf 0 = 2 ^ 20 := by decide +kernel
  unfold State.port; rw [h]; exact all k (List.mem_range.2 hk)
theorem locateIn_length {s : State} {p : Nat} {a : Word} {n : Nat} {t : AccType} {locs : List Loc} (h : locateIn s p a n t = .ok locs) :
    locs.length = n := pageParts_length _ _ _ _ _ _ (.inr (by omega)) h

/-- Hand 0 of farm 1 is held by the placer; the save area of the partition has 64 units from 0x100000. -/
def kh : State :=
  { machine { runner [] with st := .held, resume := .fetch, placed := true } with
    parts := [(0, { part0 with psave := 0x100000, psaven := 64 })], farms := [{ farm1 with phase := .preempting }], ports := rich }
/-- Farm 1 is saved. -/
def kz : State :=
  { kh with parts := [(0, { part0 with psave := 0x100000, psaven := 64, saved := [(0, 40, 1)] })], farms := [{ farm1 with phase := .saved }]
            hands := [], saves := [(2048, { runner [] with st := .held, resume := .fetch })] }

theorem test_witness_preemptionCycle :
    ({ farm1 with phase := .preempting } : Farm).live = [{ hid := 0, spb := 0, spn := 4, accb := 0, accn := 64 }] ∧ (kh.hand 0).st = .held
      ∧ (kh.hand 0).acc = none ∧ (kh.hand 0).rq = [] ∧ (kh.hand 0).sb = [] ∧ (kh.hand 0).unacked = [] ∧ (kh.hand 0).dieWrites = []
      ∧ (kh.hand 0).vunacked = [] ∧ (kh.hand 0).vdieWrites = [] ∧ kh.outs = []
      ∧ 36 + 4 ≤ (kh.part 0).psaven ∧ (∃ pas, locateIn kh 0 0x100000 (4096 * (36 + 4)) .store = .ok (dramLocs pas) ∧ Paid kh (.other 0) (dramLocs pas))
      ∧ kz.lockstep = false ∧ (kz.part 0).saved = [(0, 36 + 4, 1)] ∧ (tabFind kz.saves (1 * 2048 + 0)).isSome = true
      ∧ Memory.wf (kz.core 0).spad = true
      ∧ (let w := { kz with farms := [{ farm1 with phase := .saved, frozen := true }] }; after (exec (.farmResume 1) w) (fun t => t == w) = true)
      ∧ ∃ pas, locateIn kz 0 0x100000 (4096 * (36 + 4)) .load = .ok (dramLocs pas) ∧ DramClean kz pas ∧ Paid kz (.other 0) (dramLocs pas) := by
  refine ⟨by decide +kernel, rfl, rfl, rfl, rfl, rfl, rfl, rfl, rfl, rfl, by decide +kernel, ?_, rfl, rfl, by decide +kernel, by decide +kernel, by decide +kernel, ?_⟩
  · have ⟨pas, h⟩ := locateIn_dram (s := kh) (p := 0) (addr := 0x100000) (n := 4096 * (36 + 4)) (t := .store) (by decide +kernel)
    exact ⟨pas, h, payFor_of_credit (p := 0) rfl fun k hk => by rw [rich_credit kh rfl k hk, show (dramLocs pas).length = _ from locateIn_length h]; decide⟩
  · have ⟨pas, h⟩ := locateIn_dram (s := kz) (p := 0) (addr := 0x100000) (n := 4096 * (36 + 4)) (t := .load) (by decide +kernel)
    exact ⟨pas, h, fun pa _ h => (List.not_mem_nil h).elim,
      payFor_of_credit (p := 0) rfl fun k hk => by rw [rich_credit kz rfl k hk, show (dramLocs pas).length = _ from locateIn_length h]; decide⟩

/-! ## Witnesses: events of a hand -/

theorem test_witness_holdsAndStops :
    let x := { runner [] with holdReq := some .reeve }
    let busy := { x with rq := [entry (.ew .add)] }
    HoldPends x ∧ ¬ HoldPends (runner []) ∧ HoldPends { runner [] with placed := true } ∧ x.stopReq = none ∧ x.draining = false ∧ x.retq = []
      ∧ after (exec (.holdSafePoint 0) (machine { runner [] with placed := true })) (fun t => (t.hand 0).st == .held && (t.hand 0).placed) = true
      ∧ Safe x ∧ x.st ≠ .parked ∧ DrainEnds x ∧ Safe busy ∧ ¬ DrainEnds busy
      ∧ after (exec (.holdSafePoint 0) (machine x)) (fun t => (t.hand 0).st == .held) = true
      ∧ after (exec (.holdSafePoint 0) (machine busy)) (fun t => (t.hand 0).draining) = true
      ∧ after (exec (.heldEntry 0) (machine { x with draining := true })) (fun t => (t.hand 0).st == .held) = true
      ∧ Safe { x with st := .block, ending := true } ∧ ¬ Safe { x with st := .block }
      ∧ after (exec (.stopTakesEffect 0) (machine { runner [] with stopReq := some false })) (fun t => (t.hand 0).st == .idle) = true
      ∧ after (exec (.abandonOff 0) (machine { runner [] with st := .idle, leaving := true })) (fun t => (t.hand 0).st == .off) = true := by
  unfold Safe DrainEnds HoldPends
  refine ⟨by decide +kernel, by decide +kernel, by decide +kernel, by decide +kernel, by decide +kernel, by decide +kernel, by decide +kernel
    , by decide +kernel, by decide +kernel, fun e es h => by simp [runner, Hand.empty] at h, by decide +kernel, fun h => ?_, ?_⟩
  · exact absurd (h _ _ rfl) (by decide +kernel)
  · (repeat' apply And.intro) <;> decide +kernel

theorem test_witness_waitsEnd :
    let w (c : WaitOn) : Hand := { runner [] with st := .wait, resume := .fetch, waiting := some c }
    (w (.wfe 3)).stopReq = none ∧ (w (.wfe 3)).holdReq = none ∧ (w (.wfe 3)).placed = false ∧ (w (.wfe 3)).draining = false
      ∧ after (exec (.waitConditionMet 0) (machine { w (.wfe 3) with evt := 5, draining := true })) (fun t => (t.hand 0).st == .wait) = true
      ∧ after (exec (.waitConditionMet 0) (machine { w (.wfe 3) with evt := 5 })) (fun t => (t.hand 0).rd 3 == 5 && (t.hand 0).st == .fetch) = true
      ∧ after (exec (.waitConditionMet 0) (machine (w (.wfe 3)))) (fun t => (t.hand 0).st == .wait) = true
      ∧ after (exec (.yieldExpiry 0) ((machine (w (.yield 0))).setCore 0 { CoreSt.empty with cyc := 64 })) (fun t => (t.hand 0).st == .fetch) = true
      ∧ after (exec (.yieldExpiry 0) ((machine (w (.yield 0))).setCore 0 { CoreSt.empty with cyc := 63 })) (fun t => (t.hand 0).st == .wait) = true
      ∧ after (exec (.waitConditionMet 0) (machine { w (.lnkGet 3 true) with linkW := [7] })) (fun t => (t.hand 0).rd 3 == 7) = true
      ∧ ring 0 true = 1 ∧ ring 0 false = 15
      ∧ (let s := (machine (w (.lnkPut true 9))).setHand 1 { runner [] with st := .idle }
         (s.hand 1).farm = (s.hand 0).farm ∧ (inbound (s.hand 1) true).length < 4
          ∧ after (exec (.waitConditionMet 0) s) (fun t => (t.hand 1).linkW == [9]) = true) := by
  (repeat' apply And.intro) <;> decide +kernel

theorem test_witness_blockFetches :
    let x := { runner [] with cur := none }
    let s := machine x
    let gone := { x with pc := 0x80000000 }
    (s.hand 0).sb = [] ∧ LacksBlock x ∧ x.nxt = none ∧ NotCached s 0 0x10000
      ∧ locate s 0 0x10000 64 .fetch true = .ok (dramLocs ((List.range 64).map (0x10000 + ·)))
      ∧ DramClean s ((List.range 64).map (0x10000 + ·)) ∧ Paid s (.hand 0) (dramLocs ((List.range 64).map (0x10000 + ·)))
      ∧ (let y := { runner [] with pc := 0x10040, nxt := some (buffer 0x10040 [1]) }
         y.nxt.map Buf.base = some (blockOf y.pc) ∧ after (exec (.blockFetchArrival 0) (machine y)) (fun t => (t.hand 0).cur == y.nxt) = true)
      ∧ (let s := s.setCore 0 { s.core 0 with icache := [(0x400, List.replicate 64 7)] }
         tabFind (s.core 0).icache (0x10000 / 64) = some (List.replicate 64 7)
           ∧ after (exec (.blockFetchArrival 0) s) (fun t => (t.hand 0).cur.isSome) = true)
      ∧ LacksBlock gone ∧ (match locate (machine gone) 0 0x80000000 64 .fetch true with | .fault _ _ _ => true | _ => false) = true
      ∧ after (exec (.blockFetchArrival 0) s) (fun t => ((t.hand 0).cur.map (·.bytes.length)) == some 64) = true
      ∧ after (exec (.nextBufferFill 0) (machine { x with nxt := some { base := 0x10000, bytes := [], failed := none } }))
          (fun t => ((t.hand 0).nxt.map (·.bytes.length)) == some 64) = true := by
  unfold LacksBlock NotCached DramClean Paid
  refine ⟨by decide +kernel, ⟨by decide +kernel, by decide +kernel, fun b h => nomatch h⟩, by decide +kernel, by decide +kernel, by decide +kernel
    , by decide +kernel, by decide +kernel, ⟨by decide +kernel, by decide +kernel⟩, ⟨by decide +kernel, by decide +kernel⟩
    , ⟨by decide +kernel, by decide +kernel, fun b h => nomatch h⟩, ?_⟩
  (repeat' apply And.intro) <;> decide +kernel

/-! ## Witnesses: the execute stream -/

/-- An `add` that the execute stream has finished: three 32-bit elements, 1 + 2 each. -/
def added : Entry :=
  { entry (.ew .add) with d := 8, a := 16, src := .val 2, fw := 0x222, taken := true, written := 8, renamed := 8, first := 0 }
/-- Its hand, with ones in v16. -/
def adder (e : Entry) : Hand := { runner [] with v := (Vector.replicate 32 0).set 16 (1 + 2 ^ 32 + 2 ^ 64), rq := [e] }

theorem test_witness_integerElements :
    Retires (machine (adder added)) 0 added [] ∧ (intElem (n := 32) .add true 0 0).isSome = true
      ∧ Sound (machine (adder added)) 0 ∧ (formatWord added.fw).fa = intCode true 32 ∧ added.first = added.vstart.toNat ∧ slotAfter (adder added) added .add true 2 = 3
      ∧ after (exec (.retire 0) (machine (adder added))) (fun t => slotVal (t.hand 0) 8 32 2 == 3 && (t.hand 0).rq == []) = true := by
  unfold Retires Sound; (repeat' apply And.intro) <;> decide +kernel

theorem test_witness_pipeline :
    let fresh := { added with taken := false, renamed := 0, written := 0 }
    let m := entered 0 { added with written := 0 } 0
    let s (e : Entry) (ms : List MicroOp) := (machine (adder e)).setCore 0 { CoreSt.empty with win := ms, lane := 300 }
    OnlyEntry (s fresh []) 0 0 fresh ∧ ((s fresh []).core 0).win = [] ∧ opsOf fresh ≤ 66 ∧ m.row < opsOf added
      ∧ after (exec (.rename 0) (s fresh [])) (fun t => (t.core 0).win.length == opsOf fresh) = true
      ∧ isF (formatWord added.fw).fa = false ∧ m.unit = none ∧ ((s added [m]).core 0).fouls.bench = []
      ∧ (∀ u, tabGet 0 ((s added [m]).core 0).busy u ≤ 300)
      ∧ after (exec (.microOpIssue 0) (s added [m])) (fun t => (t.core 0).win.map (·.unit) == [some 0]) = true
      ∧ after (exec (.microOpStarved 0) (s added [{ m with ready := some 44 }])) (fun t => (t.core 0).win.map (·.unit) == [some 0]) = true
      ∧ after (exec (.microOpStarved 0) (s added [{ m with ready := some 45 }])) (fun t => (t.core 0).win.map (·.unit) == [none]) = true
      ∧ after (exec (.rowWritten 0 0) (s { added with written := 0 } [{ m with unit := some 0, done := 301 }])) (fun t => (t.core 0).win == []) = true
      ∧ after (exec (.rowWritten 0 0) (s { added with written := 0 } [{ m with unit := some 0, done := 302 }])) (fun t => (t.core 0).win != []) = true := by
  unfold OnlyEntry; (repeat' apply And.intro) <;> first | decide +kernel | exact fun u => Nat.zero_le _

theorem test_witness_returns :
    let s (r : Ret) := machine { runner [(5, 1)] with retq := [r] }
    after (exec (.returnQueueWrite 0) (s { d := some 5, v := 9, count := none })) (fun t => (t.hand 0).rd 5 == 9) = true
      ∧ after (exec (.returnQueueWrite 0) (s { d := none, v := 9, count := some 3 })) (fun t => (t.hand 0).vt == 1 && (t.hand 0).rc == 3) = true
      ∧ (branchOp (runner []) (.beq 1 0 8)).isSome = true ∧ Ready (machine (runner [])) [1, 0]
      ∧ AtBranch { runner [(5, 1)] with cur := some { base := 0x10000, bytes := (encode (.beq 1 0 8)).bytes ++ List.replicate 60 0, failed := none } } (.beq 1 0 8) := by
  refine ⟨by decide +kernel, by decide +kernel, by decide +kernel, by unfold Ready; decide +kernel, by decide +kernel, by decide +kernel
    , by decide +kernel, by decide +kernel, by decide +kernel, by decide +kernel, by decide +kernel, by decide +kernel, _, List.replicate 60 0, rfl, by decide +kernel, rfl, by decide +kernel⟩

/-! ## Witnesses: the VMU, copies and waits -/

/-- A load of three words from 0x20000. -/
def loads : Entry := { entry (.load .unit) with d := 8, sa := 0x20000 }
/-- A machine whose hand 0 has one dispatched instruction. -/
def kv (e : Entry) : State := withBytes (machine { runner [] with rq := [e] }) 0x20004 [7]

theorem test_witness_elementsPerform :
    let l := { loads with first := 1 }
    let st := { l with kind := .store .unit false }
    let f := { loads with sa := 0x80000000 }
    let masked := { l with m := 3 }
    AtElement (kv l) 0 l ∧ l.first < tileElems l ∧ activeElem (runner []) l 1 = true ∧ activeElem (runner []) masked 1 = false
      ∧ l.vl.toNat ≤ 1024 / (8 * elemLen l) ∧ Paid (kv l) (.vmu 0) (dramLocs [0x20004, 0x20005, 0x20006, 0x20007])
      ∧ ¬ Paid { kv l with ports := [] } (.vmu 0) (dramLocs [0x20004, 0x20005, 0x20006, 0x20007])
      ∧ (unitAddr l 1).toNat % elemLen l = 0 ∧ AtElement (kv { l with sa := 0x20001 }) 0 { l with sa := 0x20001 }
      ∧ (unitAddr { l with sa := 0x20001 } 1).toNat % elemLen l ≠ 0 ∧ unitAddr l 1 = 0x20004 ∧ AtElement (kv st) 0 st ∧ AtElement (kv f) 0 f ∧ AtElement (kv masked) 0 masked
      ∧ locate (kv l) 0 0x20004 4 .load true = .ok (dramLocs [0x20004, 0x20005, 0x20006, 0x20007])
      ∧ locate (kv l) 0 0x20004 4 .store true = .ok (dramLocs [0x20004, 0x20005, 0x20006, 0x20007])
      ∧ DramClean (kv l) [0x20004, 0x20005, 0x20006, 0x20007]
      ∧ (match locate (kv f) 0 0x80000000 4 .load true with | .fault _ _ _ => true | _ => false) = true
      ∧ after (exec (.elementPerform 0) (kv l)) (fun t => (t.hand 0).rq == [oneMore l 7]) = true
      ∧ after (exec (.elementPerform 0) (kv st)) (fun t => memGet t.mem 0x20004 == 0) = true
      ∧ after (exec (.elementPerform 0) (kv f)) (fun t => (t.hand 0).rq == [faulted f 6 1 0x80000000]) = true := by
  unfold AtElement DramClean Paid; (repeat' apply And.intro) <;> decide +kernel

theorem test_witness_migrationHolds :
    let e := { loads with sa := 0x40000000, heldAt := [(0, 0)] }
    let b := { runner [] with pc := 0x40000000, migHold := some { since := 0, cause := 8, addr := 0x40000000 } }
    let gone := { runner [] with migHold := some { since := 0, cause := 6, addr := 0x20000 } }
    let k := { runner [] with migHold := some { since := 0, cause := 6, addr := 0x40000000 } }
    AtElement (kv e) 0 e ∧ activeElem (runner []) e 0 = true ∧ locate (kv e) 0 0x40000000 4 .load true = .hold 0x40000000
      ∧ AtElement (kv loads) 0 loads ∧ locate (kv loads) 0 0x20000 4 .load true = .ok (dramLocs [0x20000, 0x20001, 0x20002, 0x20003])
      ∧ after (exec (.migrationRewalk 0) { kv e with gtick := [(0, 199999)] }) (fun t => (t.hand 0).rq == [e]) = true
      ∧ after (exec (.migrationHoldTimeout 0) { kv e with gtick := [(0, 200000)] }) (fun t => (t.hand 0).rq.map (fun e => e.fault.isSome) == [true]) = true
      ∧ Clear (machine k) ∧ (machine k).me.stopReq = none
      ∧ after (exec (.migrationHoldTimeout 0) { machine k with gtick := [(0, 200000)] }) (fun t => (t.hand 0).st == .parked) = true
      ∧ after (exec (.migrationHoldTimeout 0) { machine b with gtick := [(0, 200000)] }) (fun t =>
          (t.hand 0).cur == some (failedBuffer 0x40000000 5)) = true
      ∧ LacksBlock b ∧ (match locate (machine b) 0 0x40000000 64 .fetch true with | .hold _ => true | _ => false) = true
      ∧ (match handXlat (machine k) 0 0x40000000 .load with | .hold => true | _ => false) = true
      ∧ (match handXlat (machine gone) 0 0x20000 .load with | .hold => false | _ => true) = true
      ∧ after (exec (.migrationHoldTimeout 0) { machine gone with gtick := [(0, 200000)] }) (fun t => t.hand 0 == gone) = true
      ∧ after (exec (.migrationHoldTimeout 0) { kv loads with gtick := [(0, 200000)] }) (fun t => (t.hand 0).rq.map (·.first) == [1]) = true
      ∧ DramClean (kv loads) [0x20000, 0x20001, 0x20002, 0x20003] ∧ Paid (kv loads) (.vmu 0) (dramLocs [0x20000, 0x20001, 0x20002, 0x20003]) := by
  unfold AtElement Clear DramClean Paid LacksBlock
  (repeat' apply And.intro) <;> decide +kernel

theorem test_witness_storesDrain :
    let s := machine { runner [] with sb := [{ age := 0, locs := dramLocs [0x20000], bytes := [9] }] }
    let odd := machine { runner [] with sb := [{ age := 0, locs := dramLocs [0x20001, 0x20002], bytes := [9, 9] }] }
    (s.hand 0).st ≠ .frozen ∧ Paid s (.hand 0) (dramLocs [0x20000]) ∧ ¬ Paid { s with ports := [] } (.hand 0) (dramLocs [0x20000])
      ∧ Paid odd (.hand 0) (dramLocs [0x20001, 0x20002]) ∧ 0x20001 % 2 ≠ 0 ∧ (s.hand 0).marks = [] ∧ (s.hand 0).dieWrites = []
      ∧ (s.hand 0).leaving = false
      ∧ after (exec (.scalarStorePerform 0) s) (fun t => memGet t.mem 0x20000 == 9 && (t.hand 0).sb == []) = true := by
  unfold Paid; (repeat' apply And.intro) <;> decide +kernel

theorem test_witness_chunksComplete :
    let c : Copy := { pc := 0x10000, age := 0, src := 0x20000, dst := 0x21000, size := 256, len := 256, d := 9, left := [(0, 5)], flight := []
                      fault := none, heldAt := [] }
    let s := { withBytes (machine { runner [] with copies := [(2, c)] }) 0x20000 [7] with lockstep := true }
    let u := noteTlb (payFor s (.vmu 0) (dramLocs ((List.range 256).map (0x20000 + ·)))).1 0 0x20000 256 .load
    let w (k : Chunk) := { s with hands := [(0, { runner [] with copies := [(2, { c with flight := [(0, k)] })] })], lockstep := false }
    Paid s (.vmu 0) (dramLocs ((List.range 256).map (0x20000 + ·))) ∧ Paid u (.vmu 0) (dramLocs ((List.range 256).map (0x21000 + ·)))
      ∧ AllPerformed (s.hand 0) ∧ locate u 0 0x21000 256 .store true = .ok (dramLocs ((List.range 256).map (0x21000 + ·)))
      ∧ after (exec (.copyChunkComplete 0 2 0) (w .written)) (fun t => (t.hand 0).copies == [] && (t.hand 0).vrd 9 == 32) = true
      ∧ (∃ j, j < c.size ∧ ∀ q ∈ ([(0, 7)] : Table Byte), q.1 ≠ j) ∧ (∀ j ∈ [3], j < c.size)
      ∧ locate s 0 0x20000 256 .load true = .ok (dramLocs ((List.range 256).map (0x20000 + ·)))
      ∧ DramClean s ((List.range 256).map (0x20000 + ·))
      ∧ locate s 0 0x21000 256 .store true = .ok (dramLocs ((List.range 256).map (0x21000 + ·)))
      ∧ after (exec (.copyChunkComplete 0 2 0) s) (fun t => memGet t.mem 0x21000 == 7 && (t.hand 0).copies == [] && (t.hand 0).vrd 9 == 32) = true := by
  unfold AllPerformed Paid DramClean
  refine ⟨by decide +kernel, by decide +kernel, by decide +kernel, by decide +kernel, by decide +kernel, ⟨1, by decide +kernel, by decide +kernel⟩, ?_⟩
  (repeat' apply And.intro) <;> decide +kernel

theorem test_witness_waitsForValues :
    let e := { entry .vwait with vtype := 3, vl := 1, vt := 1, b := 16, d := 8, sa := 10, since := some 0 }
    let s (v : Nat) (cyc : Word) := (withBytes (machine { runner [] with
      rq := [e], v := ((Vector.replicate 32 0).set 16 0x20000).set 8 7 }) 0x20000 [BitVec.ofNat 8 v]).setCore 0 { CoreSt.empty with cyc := cyc }
    let pas := (List.range 8).map (0x20000 + ·)
    AtElement (s 7 0) 0 e ∧ tileElems e = 1 ∧ elemLen e = 8 ∧ activeElem ((s 7 0).hand 0) e 0 = true ∧ slotVal ((s 7 0).hand 0) e.b 64 0 = 0x20000
      ∧ Paid (s 7 0) (.vmu 0) (dramLocs pas) ∧ locate (s 7 0) 0 0x20000 8 .load true = .ok (dramLocs pas)
      ∧ DramClean (s 7 0) pas ∧ slotVal ((s 7 0).hand 0) e.d 64 0 = 7 ∧ ¬ Over (s 7 9) 0 e e.sa ∧ Over (s 7 10) 0 e e.sa
      ∧ after (exec (.vwaitReread 0) (s 7 0)) (fun t => (t.hand 0).rq.map (·.acc) == [[0]]) = true
      ∧ after (exec (.vwaitReread 0) (s 6 9)) (fun t => (t.hand 0).rq.map (·.mode) == [0]) = true
      ∧ after (exec (.vwaitTimeout 0) (s 6 10)) (fun t => (t.hand 0).rq.map (·.mode) == [1]) = true := by
  unfold AtElement DramClean Over Paid; (repeat' apply And.intro) <;> decide +kernel

theorem test_witness_waitsForWhistles :
    let e := { entry .wfin with sa := 0x20000, sb := 10, since := some 0 }
    let s (v : Nat) (cyc : Word) := (withBytes (machine { runner [] with rq := [e] }) 0x20000 [BitVec.ofNat 8 v]).setCore 0 { CoreSt.empty with cyc := cyc }
    AtElement (s 2 0) 0 e ∧ locate (s 2 0) 0 0x20000 8 .load true = .ok (dramLocs ((List.range 8).map (0x20000 + ·)))
      ∧ Paid (s 2 0) (.vmu 0) (dramLocs ((List.range 8).map (0x20000 + ·))) ∧ DramClean (s 2 0) ((List.range 8).map (0x20000 + ·))
      ∧ Over (s 1 10) 0 e e.sb ∧ ¬ Over (s 1 9) 0 e e.sb
      ∧ after (exec (.wfinReread 0) (s 2 0)) (fun t => (t.hand 0).rq.map (·.acc) == [[2]]) = true
      ∧ after (exec (.wfinReread 0) (s 1 9)) (fun t => (t.hand 0).rq.map (·.mode) == [0]) = true
      ∧ after (exec (.wfinTimeout 0) (s 1 10)) (fun t => (t.hand 0).rq.map (·.mode) == [1]) = true := by
  unfold AtElement Over Paid DramClean; (repeat' apply And.intro) <;> decide +kernel

/-! ## Witnesses: faults, replay, recheck and violations -/

theorem test_witness_faultsPark :
    let f (cls : Nat) : PFault := { cls := cls, cause := 7, sub := 1, addr := 0x80000000, apc := 0x10004 }
    let x (cls : Nat) := { runner [] with pfault := some (f cls) }
    let e := { loads with fault := some (6, 1, 0x80000004, 1), first := 1, acc := [7] }
    let c : Copy := { pc := 0x10000, age := 0, src := 0x20000, dst := 0x21000, size := 256, len := 256, d := 9, left := [(0, 5)], flight := []
                      fault := some (0, 6, 1, 0x20000), heldAt := [] }
    Settled (x 0) ∧ Settled (x 1) ∧ ScalarOver (x 1) ∧ ScalarOver (runner []) ∧ ¬ ScalarOver { x 1 with sb := [{ age := 0, locs := [], bytes := [] }] }
      ∧ after (exec (.preciseFaultPark 0) (machine (x 0))) (fun t => (t.hand 0).frame.cause == 7) = true
      ∧ after (exec (.impreciseFaultPark 0) (machine (x 1))) (fun t => (t.hand 0).frame.cls == 1) = true
      ∧ Works (runner []) ∧ e.loads = true ∧ added.loads = false ∧ e.d.toNat % 2 ^ (e.vtype.toNat / 4 % 4) = 0
      ∧ after (exec (.impreciseFaultPark 0) (kv e)) (fun t => (t.hand 0).st == .parked && (t.hand 0).vstart == 1 && (t.hand 0).frame.elem == 1 && (t.hand 0).vrd 8 == 7) = true
      ∧ (∀ q ∈ c.left, 0 ≤ q.1)
      ∧ after (exec (.impreciseFaultPark 0) (machine { runner [] with copies := [(2, c)] })) (fun t => (t.hand 0).frame.cause == 6) = true
      ∧ e.faultReady = true ∧ resumeElem (runner []) e 1 ∧ resumeElem (runner []) { e with kind := .rank } 0
      ∧ resumeElem (runner []) { e with kind := .amo .add false true } 1
      ∧ after (exec (.impreciseFaultPark 0) (kv { e with awaiting := some { tag := 1, locs := [], got := [] } })) (fun t => (t.hand 0).st == .fetch) = true := by
  unfold Settled Works ScalarOver resumeElem FromStart; (repeat' apply And.intro) <;> first | decide +kernel | exact fun _ => by decide +kernel | simp [Entry.unordered, loads, entry]

theorem test_witness_replayAndRecheck :
    let e := { added with rck := true }
    let s (n : Nat) := machine { adder { e with dispute := some (0, 1) } with replays := n }
    Settled (adder e) ∧ Works (adder e) ∧ e.loads = false ∧ twice e ∧ benchedOf (s 0) 0 0 < 2 ∧ ScalarOver (adder e) ∧ e.matrixOp = false ∧ e.settled = false
      ∧ after (exec (.replay 0) (s 1)) (fun t => (t.hand 0).replays == 2 && (t.hand 0).st == .fetch) = true
      ∧ after (exec (.replay 0) (s 2)) (fun t => (t.hand 0).st == .parked && (t.hand 0).frame.sub == 3) = true
      ∧ after (exec (.recheckMismatch 0 0 1) (machine (adder e))) (fun t => (t.hand 0).rq.map (·.dispute) == [some (0, 1)]) = true
      ∧ after (exec (.replay 0) (machine { adder { e with awaiting := some { tag := 1, locs := [], got := [] } } with replays := 2 })) (fun t => (t.hand 0).st == .fetch
          && (t.hand 0).rq.map (·.fault) == [some (0x0B, 3, 0, 0)]) = true
      ∧ after (exec (.recheckResolve 0 (some true)) (s 0)) (fun t => tabGet 0 (t.core 0).fouls.count 1 == 1) = true
      ∧ after (exec (.recheckResolve 0 none) (s 0)) (fun t => (t.hand 0).frame.cause == 0x12) = true
      ∧ after (exec (.foulBenchClear 0 (1 <<< 61)) ((machine Hand.empty).setCore 0 { CoreSt.empty with fouls := { CoreSt.empty.fouls with bench := [5] } }))
          (fun t => (t.core 0).fouls.bench == []) = true := by
  unfold Settled Works twice ScalarOver; (repeat' apply And.intro) <;> decide +kernel

/-- A machine whose gigabyte 6 holds the device's registers, with hand 0 reading there. -/
def kreg (x : Hand) : State := { machine x with mem := pages ++ [(0x2030, 0xDF), (0x2035, 0x08)] }

theorem test_witness_violations :
    let s := machine (runner [])
    let x := kreg (runner [(1, 0x180000000)])
    let w := kreg { runner [] with sb := [{ age := 0, locs := regLocs 0x102000 8, bytes := List.replicate 8 1 }] }
    let r := withReeve .s [(1, 0x80000000000)] (runner [])
    (s.hand 0).st ≠ .off ∧ (s.part 0).viol = none ∧ (∀ k, k < 16 → (ku.reeve 0).hmask.getLsbD k = true → (ku.hand k).st = .fetch)
      ∧ after (exec (.violation (.engine 0) 0x41 5) s) (fun t => (t.hand 0).st == .frozen
          && (t.part 0).viol == some { node := Config.node, id := 0, kind := 1, code := 0x41, detail := 5 }) = true
      ∧ after (exec (.violation (.reeve 0) 0x42 5) ku) (fun t => (t.reeve 0).frozen && (t.hand 0).placed) = true
      ∧ after (exec (.violation (.hostFn 63) 0x44 5) s) (fun t => (t.queue 63).stopped && t.msix == [63]) = true
      ∧ after (exec (.violation (.remotePort 9 15) 0x41 0x5000) { s with
          windows := [(960, { base := 5, frames := 1, part := 15, v := true, r := true, w := true, a := true, frozen := false })] })
          (fun t => t.windows.map (·.2.frozen) == [true]) = true
      ∧ regCode 0 0 = some 0x42 ∧ regCode 0 0x102000 = some 0x40 ∧ regCode 2 0x102000 = none
      ∧ locate x 0 0x180000000 8 .load true = .ok (regLocs 0 8) ∧ Quiet x ∧ Ready x [9, 1] ∧ Unblocked x 0x180000000 8 true
      ∧ after (exec (.ldD 9 1 0) x) (fun t => (t.hand 0).st == .frozen && (t.part 0).viol.isSome) = true
      ∧ after (exec (.scalarStorePerform 0) w) (fun t => (t.hand 0).st == .frozen && (t.part 0).viol.map (·.code) == some 0x40) = true
      ∧ r.rv.fenced .load = false ∧ rvLocate r 0 0x80000000000 8 .load false = .ok (regLocs 0 8)
      ∧ after (exec (.reeveInstruction (.load .ld 9 1 0) false) r) (fun t => t.rv.frozen && (t.part 0).viol.map (·.code) == some 0x42) = true := by
  unfold Quiet Ready Unblocked; (repeat' apply And.intro) <;> decide +kernel

/-! ## Witnesses: ports, base dies, fabric and host -/

theorem test_witness_tokens :
    let full : Bucket := { borrow := true, rate := 3, depth := 1, tokens := 256, used := 4 }
    let dry : Bucket := { full with tokens := 255, used := 3 }
    let q : Port := { Port.empty with buckets := [(0, full), (1, dry), (2, { dry with used := 9 })], reserve := 1, depth := 4, level := 300 }
    let s (w : List Nat) (d : Nat) := { machine Hand.empty with ports := [(5, { q with wait := w, derate := d })] }
    inflow q = 9 ∧ overflow q = 7 ∧ inflow q * 128 / 256 ≤ overflow q ∧ overflow q < inflow q * 255 / 256
      ∧ after (exec .tokenRefill (s [] 128)) (fun t => (t.port 5).level == 303 && (bucketOf (t.port 5) 1).tokens == 256) = true
      ∧ 256 ≤ (bucketOf q 0).tokens ∧ ¬ 256 ≤ (bucketOf q 1).tokens ∧ q.reserve * 256 < q.level
      ∧ (bucketOf q 1).used * 3 < (bucketOf q 2).used * 3
      ∧ after (exec (.tokenGrant 5) (s [0] 0)) (fun t => (bucketOf (t.port 5) 0).tokens == 0 && (t.port 5).wait == []) = true
      ∧ after (exec (.tokenGrant 5) (s [1] 0)) (fun t => (t.port 5).level == 44) = true
      ∧ after (exec (.tokenGrant 5) (s [2, 1] 0)) (fun t => (t.port 5).wait == [2]) = true
      ∧ inflow q = 9 ∧ overflow q < inflow q * 250 / 256
      ∧ after (exec .tokenRefill (s [] 250)) (fun t => (t.port 5).scaled && t.box.any fun b => b.event == 0x0D && b.source == 5) = true
      ∧ (s [] 0).tick / 65536 ≤ (s [] 0).consumedAt
      ∧ after (exec .consumedReset (s [] 0)) (fun t => (bucketOf (t.port 5) 2).used == 9) = true
      ∧ after (exec .consumedReset { s [] 0 with tick := 65536 }) (fun t => (bucketOf (t.port 5) 2).used == 0) = true
      ∧ after (exec .consumedReset { s [] 0 with tick := 131071, consumedAt := 1 }) (fun t => (bucketOf (t.port 5) 2).used == 9) = true
      ∧ after (exec (.derate 63 0x180) (s [] 0)) (fun t => (t.port 63).derate == 0x80) = true := by
  (repeat' apply And.intro) <;> decide +kernel

theorem test_witness_baseDies :
    let r : DieReq := { id := 1, requester := 3, granule := 0x800, write := false, mask := 0, data := [], pas := [0x20004]
                        op := .read, agent := 3, val := [], cmp := [], size := 0 }
    let w := { r with write := true, mask := 2, data := [1, 2], op := .write }
    let dw := (List.range 8).map (0x20000 + ·)
    let v := { r with write := true, pas := dw, op := .amo .add, val := leBytes 8 3 }
    let c := { v with op := .condWrite }
    let a : DieReply := { id := 0, requester := 3, tag := 0, granule := 0, write := false, bad := [], data := [], pas := [], answer := none }
    let s (q : DieReq) := { withBytes (machine Hand.empty) 0x20004 [7] with chans := [(1023, { waiting := [q], replies := [a] })] }
    FirstRequest (s r) 1023 r [] 1 ∧ FirstRequest (s w) 1023 w [] 1 ∧ FirstRequest (s v) 1023 v [] 1 ∧ FirstRequest (s c) 1023 c [] 1
      ∧ OneDword v.pas v.size v.val ∧ DramClean (s v) v.pas ∧ Memory.wf (s w).mem = true
      ∧ after (exec (.readRequest 1023) (s r)) (fun t => (t.chan 1023).replies.map (·.data.getD 4 0) == [0, 7]) = true
      ∧ after (exec (.writeRequest 1023) (s w)) (fun t => memGet t.mem 0x20000 == 0 && memGet t.mem 0x20001 == 2) = true
      ∧ after (exec (.writeRequest 1023) (s v)) (fun t => memGet t.mem 0x20000 == 3 && memGet t.mem 0x20004 == 7) = true
      ∧ after (exec (.writeRequest 1023) (s c)) (fun t => memGet t.mem 0x20000 == 0) = true
      ∧ after (exec (.writeRequest 1023) { s c with resv := [(3, .dram 0x20000 false)] }) (fun t => memGet t.mem 0x20000 == 3 && t.resv == []) = true
      ∧ after (exec (.readRequest 1023) { s r with calib := [1023] }) (fun t => (t.chan 1023).waiting == [r]) = true := by
  unfold FirstRequest OneDword DramClean
  (repeat' apply And.intro) <;> first | decide +kernel | exact fun u h => ⟨_, .head _, rfl, by omega⟩ | exact ⟨0x20000, rfl, rfl⟩

/-- Hand 0 waits for the reply 3 to a load of `n` bytes from `l`. -/
def kx (l : List Loc) (node : Nat) : State :=
  { machine { runner [] with acc := some { tag := 3, kind := .load 5 l.length true false, addr := 0x100000000, len := 4, locs := l, got := [] } } with
    outs := [{ tag := 3, who := .handAccess 0, node := node, part := 0, addr := 0x100000000, write := false, sent := 0 }] }

theorem test_witness_accessesComplete :
    let far : List Loc := [.remote 1 0x20000 false, .remote 1 0x20001 false]
    let host : List Loc := [.host 0x20000, .host 0x20001]
    let near : List Loc := [.dram 0x20000 true, .dram 0x20001 true]
    let a : DieReply := { id := 3, requester := 0, tag := 0, granule := 0x800, write := false, bad := [], data := [0xFE, 0xFF], pas := [0x20000, 0x20001], answer := none }
    leadRun far = far ∧ leadRun host = host ∧ leadRun near = near
      ∧ after (exec (.remoteReply 0) { kx far 1 with inq := [.reply 3 true false [0xFE, 0xFF]] }) (fun t => (t.hand 0).rd 5 == -2 && (t.hand 0).acc == none) = true
      ∧ after (exec (.hostReadCompletion 3 true [0xFE, 0xFF]) { kx host 0 with hostq := [.read 3 0 [0x20000, 0x20001]] }) (fun t => (t.hand 0).rd 5 == -2) = true
      ∧ after (exec (.readReply 9 0) { kx near 0 with chans := [(9, { waiting := [], replies := [a] })] }) (fun t => (t.hand 0).rd 5 == -2) = true
      ∧ after (exec (.remoteReply 0) { kx far 1 with inq := [.reply 3 false false []] }) (fun t => (t.hand 0).frame.sub == 4) = true
      ∧ after (exec (.remoteTimeout 3 false) { kx far 1 with gtick := [(0, 200000)] }) (fun t => (t.hand 0).frame.sub == 1 && (t.part 0).pdead == 2) = true
      ∧ after (exec (.remoteTimeout 3 false) { kx far 1 with gtick := [(0, 199999)] }) (fun t => (t.hand 0).st == .fetch) = true
      ∧ after (exec (.writeReply 9 0) { machine { runner [] with unacked := [3], dieWrites := [3] } with
          chans := [(9, { waiting := [], replies := [{ a with write := true }] })]
          outs := [{ tag := 3, who := .handStore 0, node := 0, part := 0, addr := 0, write := true, sent := 0 }] })
          (fun t => (t.hand 0).unacked == []) = true := by
  (repeat' apply And.intro) <;> decide +kernel

theorem test_witness_hostCas :
    let s : State := { machine Hand.empty with
      farms := [{ farm1 with gone := [0] }]
      hostq := [.cas 3 0 ((List.range 8).map (0x30000 + ·)) .or 5 0 8]
      outs := [{ tag := 3, who := .placer 129, node := 0, part := 0, addr := 0, write := true, sent := 0 }] }
    s.farm 1 = some { farm1 with gone := [0] } ∧ (9 : Word) ≠ 8
      ∧ after (exec (.hostCasCompletion 3 true 9) s) (fun t => t.hostq == [.cas 3 0 ((List.range 8).map (0x30000 + ·)) .or 5 0 9]) = true
      ∧ after (exec (.hostCasCompletion 3 true 8) s) (fun t => t.hostq == [] && t.farms == []) = true := by
  (repeat' apply And.intro) <;> decide +kernel

theorem test_witness_remoteRequests :
    let w : Window := { base := 0x20, frames := 1, part := 0, v := true, r := true, w := false, a := false, frozen := false }
    let r : Request := { src := 5, tag := 9, part := 0, op := .read, pas := [0x20000, 0x20001], nc := false, val := [], cmp := [] }
    let s (w : Window) (r : Request) : State := { withBytes (machine Hand.empty) 0x20001 [7] with windows := [(63, w)], inq := [.request r] }
    let dw := (List.range 8).map (0x20000 + ·)
    let v : Request := { r with op := .amo .add, pas := dw, val := leBytes 8 3 }
    covering (s w r) r = [w] ∧ Paid (s w r) (.remote 5 0) [.dram 0x20000 false, .dram 0x20001 false] ∧ ¬ Paid { s w r with ports := [] } (.remote 5 0) [.dram 0x20000 false]
      ∧ (s w r).poison = [] ∧ v.size = 0 ∧ v.val.length = 8 ∧ Memory.wf (s w v).mem = true ∧ permits { w with w := true, a := true } (.amo .add)
      ∧ after (exec (.remoteRequest 0) (s { w with w := true, a := true } v)) (fun t => memGet t.mem 0x20000 == 3 && t.outq == [answer v true [0, 7, 0, 0, 0, 0, 0, 0]]) = true
      ∧ permits w .readBytes ∧ permits { w with w := true } .writeBytes
      ∧ permits w .read ∧ ¬ permits w .write ∧ Rising (s w r).windows ∧ w.frozen = false
      ∧ covering (s w { r with pas := [0x20FFF, 0x21000] }) { r with pas := [0x20FFF, 0x21000] } = []
      ∧ after (exec (.remoteRequest 0) (s w r)) (fun t => t.outq == [answer r true [0, 7]]) = true
      ∧ after (exec (.remoteRequest 0) (s { w with w := true } { r with op := .write, val := [1, 2] })) (fun t => memGet t.mem 0x20001 == 2) = true
      ∧ after (exec (.remoteRequest 0) { s w r with ports := [] }) (fun t => t.outq == [] && t.inq == [.request r]) = true
      ∧ after (exec (.remoteRequest 0) (s w { r with op := .write, val := [1, 2] })) (fun t =>
          t.outq == [(5, .refusal Config.node 0), answer r false []] && t.windows.map (·.2.frozen) == [true] && (t.part 0).viol.isSome && memGet t.mem 0x20001 == 7) = true
      ∧ after (exec (.remoteRequest 0) (s { w with frozen := true } r)) (fun t => t.outq == [answer r false []]) = true
      ∧ after (exec (.flitReceive 17 false (.request r)) (machine Hand.empty)) (fun t => t.inq == [] && tabGet 0 t.retries 17 == 1) = true := by
  unfold Rising permits Paid; (repeat' apply And.intro) <;> decide +kernel

theorem test_witness_hostAccesses :
    let s := withBytes (machine Hand.empty) 0x20001 [7]
    let bad : State := { s with parts := [(3, { part0 with phwin := 0x80000000 })] }
    let big : State := { s with barSizes := [(0, 0)] }
    let posts (w : Bool) : State :=
      { s with outs := [{ tag := 3, who := if w then .unit 0 else .placer (2 ^ 40 + 1), node := 0, part := 0, addr := 0, write := w, sent := 0 }] }
    locateIn s 0 0x20000 8 .load = .ok (dramLocs ((List.range 8).map (0x20000 + ·))) ∧ PostedDone s 1 ∧ PostedDone s 0
      ∧ locateIn s 0 0x20001 8 .load = .ok (dramLocs ((List.range 8).map (0x20001 + ·))) ∧ (0x20001 : Word).toNat % 8 ≠ 0 ∧ s.lockstep = false
      ∧ after (exec (.bar2Access 1 true 0x20000 8 9) (posts true)) (fun t => memGet t.mem 0x20000 == 0) = true
      ∧ after (exec (.bar2Access 1 true 0x20000 8 9) (posts false)) (fun t => memGet t.mem 0x20000 == 0) = true
      ∧ after (exec (.hostRequest 1 true (0x100000 + 0x08) 3) (posts false)) (fun t => (t.queue 0).en == false) = true
      ∧ ¬ PostedDone (posts true) 1 ∧ ¬ PostedDone (posts false) 1
      ∧ after (exec (.hostRequest 0 false 0x90008 0) { s with ctrls := [(0, { Ctrl.empty with temp := 55 })] }) (fun t => t.hostRead == some 55) = true
      ∧ after (exec (.hostRequest 0 false 0x300020 0) { s with box := [{ tick := 1, event := 2, source := 0, part := 0, sub := 0, detail := 0 }
          , { tick := 9, event := 2, source := 0, part := 0, sub := 0, detail := 0 }] }) (fun t => t.hostRead == some 9) = true
      ∧ Paid s (.other 0) (dramLocs ((List.range 8).map (0x20000 + ·))) ∧ ¬ Paid { s with ports := [] } (.other 0) (dramLocs [0x20000])
      ∧ 8 ≤ barSize s 4 ∧ barSize big 0 = 2 ^ 20 ∧ after (exec (.bar2Access 0 false (2 ^ 20 - 4) 8 0) big) (fun t => t.aer == 1) = true
      ∧ after (exec (.bar2Access 0 false 0x20000 8 0) { s with poison := [0x1000] }) (fun t => t.hostRead == none && t.aer == 1) = true
      ∧ after (exec (.bar2Access 1 false 0x20000 8 0) { s with ports := [] }) (fun t => t.hostRead == none && t.aer == 0) = true
      ∧ after (exec (.hostRequest 0 true 0x1008 5) s) (fun t => t.mailbox == s.mailbox && t.reports == [.mailbox 0x1008 5]) = true
      ∧  0x20000 + 8 ≤ Config.dramSize ∧ s.poison = []
      ∧ (match locateIn bad 3 0x80000000 8 .load with | .fault _ _ _ => true | _ => false) = true
      ∧ after (exec (.hostRequest 16 false (0x100000 + 0x40 * 3 + 0x10) 0) s) (fun t => t.hostRead.isSome) = true
      ∧ after (exec (.hostRequest 0 true (0x100000 + 0x40 * 63 + 0x08) 0x103) s) (fun t => (t.queue 63).en) = true
      ∧ after (exec (.bar2Access 0 false 0x20000 8 0) s) (fun t => t.hostRead == some 0x700) = true
      ∧ after (exec (.bar2Access 1 true 0x20001 1 9) s) (fun t => memGet t.mem 0x20001 == 9) = true
      ∧ after (exec (.bar2Access 4 false 0 8 0) bad) (fun t => t.hostRead == none && t.aer == 1) = true := by
  unfold PostedDone Paid; (repeat' apply And.intro) <;> decide +kernel

/-! ## Witnesses: whistles and calls -/

/-- A group of two members on this device, both at the root: integer sums, budget 100, retention 2 (R290). -/
def group5 : Group :=
  { id := 5, part := 0, op := 0, type_ := 4, retention := 2, budgets := [100, 0, 0, 0, 0, 0, 0, 0]
    members := [{ leaf := 0, node := 0 }, { leaf := 0, node := 0 }], tree := [{ parent := 0xFFFF, level := 0, children := 2, host := 0 }] }
/-- The contribution of a member. -/
def blown (slot : Nat) (v : Word) : WInput := { elems := [v], bitmap := 1#4096 <<< slot, det := false }
/-- Its root as instance 1 with the first input, which came at tick 0. -/
def inst5 : TreeInst :=
  { group := 5, entry := 0, n := 1, inputs := [(0, blown 0 3)], started := 0, fwd := none, last := 0, first := false, ended := false
    closed := false, late := false, malformed := false }
/-- A machine with the group and an instance. -/
def kg (t : TreeInst) (ms : List FabMsg) : State :=
  { machine (runner []) with groups := [group5], insts := [t], inq := ms, ports := funds }

theorem test_witness_whistleInputs :
    let m := FabMsg.winput 5 0 1 1 (blown 1 4)
    let done : TreeInst := { inst5 with fwd := some 0, first := true }
    let many : State := { kg inst5 [.winput 5 0 0 9 (blown 0 3)] with insts := (List.range 8).map fun n => { inst5 with n := n } }
    let out (t : State) : List (List Word × Bool) := t.inq.filterMap fun q => match q with
      | .deliver _ _ _ d => some (d.elems, decide (d.kind = .final))
      | _ => none
    let far : Group := { group5 with members := [{ leaf := 0, node := 0 }, { leaf := 0, node := 2 }] }
    GroupAt (kg inst5 [m]) 5 group5 ∧ Heard (kg inst5 [m]) group5 (portNode group5 0 1) ∧ ¬ Heard (kg inst5 [m]) far (portNode far 0 1)
      ∧ HasRoom (kg inst5 [m]) 5 0 1 ∧ ¬ Late (kg inst5 [m]) group5 inst5 ∧ ¬ HasRoom many 5 0 9
      ∧ Late { kg done [m] with tick := 200 } group5 done ∧ ¬ Late { kg done [m] with tick := 199 } group5 done
      ∧ after (exec (.whistleInput 0) (kg inst5 [m])) (fun t => out t == [([7], true), ([7], true)]) = true
      ∧ after (exec (.whistleInput 0) many) (fun t => t.inq == many.inq) = true
      ∧ after (exec (.whistleInput 0) { kg done [m] with tick := 200 }) (fun t => t.insts.map (·.late) == [true]) = true
      ∧ after (exec (.instanceAccept 5 0) (kg inst5 [m])) (fun t => out t == [([7], true), ([7], true)]) = true
      ∧ after (exec (.whistleInput 0) (kg inst5 [.winput 5 0 1 1 { blown 1 4 with elems := [1, 2] }])) (fun t => t.insts.map (·.malformed) == [true]) = true
      ∧ after (exec (.whistleInput 0) { kg inst5 [m] with groups := [far] }) (fun t => t.inq == [] && t.insts == [inst5]) = true
      ∧ after (exec (.whistleInput 1) (kg inst5 [m, m])) (fun t => t.inq == [m, m]) = true
      ∧ grpCombine group5 (-1) 3 = 2 := by
  unfold GroupAt HasRoom Late Heard
  refine ⟨by decide +kernel, by decide +kernel, by decide +kernel, .inl ⟨inst5, by decide +kernel, .inl (by decide +kernel)⟩, ?_, ?_, .inr ⟨0, rfl, by decide +kernel⟩, ?_, ?_⟩
  · exact fun h => h.elim (fun h => by simp [inst5] at h) fun ⟨f, h, _⟩ => by simp [inst5] at h
  · rintro (⟨t, h, -⟩ | h)
    · have e : ((List.range 8).map fun n => { inst5 with n := n }).find? (fun t => t.is 5 0 9) = none := by decide +kernel
      exact absurd (h.symm.trans e) (by simp)
    · exact absurd h (by decide +kernel)
  · rintro (h | ⟨f, h, g⟩)
    · simp [inst5] at h
    · obtain rfl : 0 = f := by simpa using h
      exact absurd g (by decide +kernel)
  · (repeat' apply And.intro) <;> decide +kernel

theorem test_witness_whistleTimes :
    let done : TreeInst := { inst5 with fwd := some 0, first := true }
    GroupAt (kg inst5 []) 5 group5 ∧ (kg inst5 []).inst 5 0 1 = some inst5 ∧ grpBudget group5 0 = 100 ∧ grpWindow group5 0 = 200
      ∧ (folded group5 inst5).det = false ∧ (kg done []).inst 5 0 1 = some done
      ∧ after (exec (.whistleBlow 5 0 1) { kg inst5 [] with tick := 100 }) (fun t => t.inq.length == 2) = true
      ∧ after (exec (.whistleBlow 5 0 1) { kg inst5 [] with tick := 99 }) (fun t => t.inq == []) = true
      ∧ after (exec (.retentionExpiry 5 0 1) { kg done [] with tick := 199 }) (fun t => t.inq == []) = true
      ∧ after (exec (.retentionExpiry 5 0 1) { kg done [] with tick := 200 }) (fun t => t.inq.length == 2 && t.insts.map (·.closed) == [true]) = true
      ∧ after (exec (.retentionExpiry 5 0 1) { kg { done with last := 1 } [] with tick := 200 }) (fun t => t.insts.map (·.closed) == [false]) = true
      ∧ after (exec (.dropNotice 0) (kg done [.malformed 5 1])) (fun t => t.insts.map (·.malformed) == [true]) = true := by
  unfold GroupAt; (repeat' apply And.intro) <;> decide +kernel

theorem test_witness_deliveriesArrive :
    let d : WDelivery := { kind := .final, elems := [7], bitmap := 3, late := false, malformed := true }
    let q (b : Option Word) (e : Option Nat) : SlotInst := { SlotInst.fresh 5 1 1 with buf := b, ended := e }
    let s (x : SlotInst) : State := { kg inst5 [.deliver 5 1 1 d] with slots := [x] }
    let s0 := s (q (some 0x20000) none)
    let s1 := afterBlock s0 0 ((List.range 8).map (0x20240 + ·)) (leBytes 8 7)
    let s2 := afterBlock s1 0 ((List.range 568).map (0x20008 + ·)) (resultHeader group5 1 d)
    GroupAt (s (q none none)) 5 group5 ∧ slotInst (s (q (some 0x20000) none)) 5 1 1 = some (q (some 0x20000) none)
      ∧ Heard s0 group5 (grpEntry group5 0).host ∧ UnitsDone s0 0
      ∧ BlockPlace s0 0 0x20240 8 ((List.range 8).map (0x20240 + ·))
      ∧ BlockPlace s1 0 0x20008 568 ((List.range 568).map (0x20008 + ·))
      ∧ BlockPlace s2 0 0x20000 8 ((List.range 8).map (0x20000 + ·))
      ∧ resultBits d = 18
      ∧ (match locateIn s0 0 0x40020240 8 .store with | .hold _ => true | _ => false) = true
      ∧ after (exec (.delivery 0) (s (q (some 0x40020000) none))) (fun t => t.slots.map (·.heldAt) == [some 0]) = true
      ∧ after (exec (.delivery 1) { s0 with inq := s0.inq ++ s0.inq }) (fun t => t.inq == s0.inq ++ s0.inq) = true
      ∧ (match locateIn s0 0 0x80000240 8 .store with | .fault _ _ _ => true | _ => false) = true
      ∧ after (exec (.delivery 0) (s (q none none))) (fun t => t.slots.map (·.kept) == [[d]]) = true
      ∧ after (exec (.delivery 0) (s (q (some 0x20000) none))) (fun t => memGet t.mem 0x20000 == 18 && memGet t.mem 0x20008 == 2 && memGet t.mem 0x20240 == 7) = true
      ∧ after (exec (.delivery 0) (s (q (some 0x80000000) none))) (fun t => t.box.map (·.event) == [0x0E]) = true
      ∧ after (exec (.deliveryKeepExpiry 5 1 1) { s (q none (some 0)) with tick := 200 }) (fun t => t.slots.map (·.buf) == [none]) = true := by
  unfold GroupAt BlockPlace Heard UnitsDone DramClean Paid; (repeat' apply And.intro) <;> decide +kernel

/-- Reeve 0 stands in its machine-mode handler after a call of its supervisor with a7 = n. -/
def called (n : Nat) (args : List (Nat × Word)) : State :=
  let r := reeveAt .m ((17, BitVec.ofNat 64 n) :: args)
  { kg inst5 [] with insts := [], reeves := [(0, { r with csr := [(0x300, 0x800), (0x341, 0x100), (0x342, 9)] })] }

theorem test_witness_invalidations :
    let s := called 0x100 [(10, 0x4000), (11, 1)]
    let two : State := { s with parts := [(0, { part0 with pmem := 3 })] }
    let one : State := { s with parts := [(0, { part0 with pmem := 1 })] }
    let k : Call := { core := 0, part := 0, tag := 0, kind := .invalidate 4 1, waiting := [1], sent := 0, dead := 0, code := 0, round := 0, insts := [] }
    Called s 0 0x100 ∧ others one 0 = [] ∧ others two 0 = [1] ∧ timeoutOf two 0 = 200000 ∧ QuietPart one 0 ∧ Answered { two with calls := [{ k with waiting := [] }] } 0 { k with waiting := [] }
      ∧ after (exec (.domainInvalidate 0) { two with calls := [{ k with waiting := [] }] }) (fun t => (t.reeve 0).rd 10 == 0 && (t.reeve 0).mode == .s) = true
      ∧ after (exec (.domainInvalidate 0) (called 0x100 [(10, 0x4001)])) (fun t => (t.reeve 0).rd 10 == 1 && (t.reeve 0).pc == 0x104) = true
      ∧ after (exec (.domainInvalidate 0) one) (fun t => (t.reeve 0).rd 10 == 0 && (t.reeve 0).mode == .s) = true
      ∧ after (exec (.domainInvalidate 0) two) (fun t => t.outq.map Prod.fst == [1] && t.calls.map (·.waiting) == [[1]] && t.outq == t.calls.map fun k => (1, .invalidate Config.node k.tag 0 4 1)) = true
      ∧ after (exec (.invalidateAckTimeout 0) { two with calls := [k], tick := 200000 }) (fun t => (t.reeve 0).rd 10 == 2 && (t.reeve 0).rd 11 == 1) = true
      ∧ after (exec (.invalidateAckTimeout 0) { two with calls := [k], tick := 199999 }) (fun t => t.calls == [k]) = true := by
  unfold Called QuietPart Answered; (repeat' apply And.intro) <;> decide +kernel

/-- A descriptor at 0x50000 (Tables 1.12, 15.2, 15.3): whole-number sums, one level of budget 100, two members at the root on node 0. -/
def described : List Byte :=
  leBytes 8 (2 * 2 ^ 32 + 2 * 2 ^ 16 + 0x140) ++ leBytes 8 100 ++ leBytes 24 0 ++ leBytes 8 0x40 ++ leBytes 8 0x50 ++ leBytes 24 0
    ++ leBytes 8 (0xFFFF * 2 ^ 32 + 2 * 2 ^ 16)

/-- A result that is good, as its option shows it. -/
theorem ok_of_toOption {ε α : Type} {r : Except ε α} {a : α} (h : r.toOption = some a) : r = .ok a := by
  cases r with
  | ok b => exact congrArg _ (Option.some.inj h)
  | error e => cases h

/-- Nothing that waits can mend the read. -/
def unreadable {α : Type} (r : Except (Option (Word × Nat)) α) : Bool := match r with
  | .error none => true
  | _ => false

theorem test_witness_groupCalls :
    let s (n : Nat) : State := { called n [(10, 0x50000), (11, 5)] with parts := [(0, { part0 with pmem := 1 })] }
    let two : State := { s 0x101 with mem := memPut pages 0x50000 described }
    let good : State := { two with groups := [] }
    let words : List Word × List Word × List Word := ([0x200020140, 100, 0, 0, 0, 0x40, 0x50, 0], [0, 0], [0xFFFF00020000, 0])
    Called (s 0x101) 0 0x101 ∧ Called (s 0x102) 0 0x102 ∧ (s 0x102).group 0 5 = some group5 ∧ others (s 0x102) 0 = [] ∧ (s 0x102).inq = [] ∧ (s 0x102).insts = [] ∧ (s 0x102).slots = []
      ∧ unreadable (readGroup (called 0x101 [(10, 0x80000000)]) 0 0 0x80000000) = true ∧ (readGroup (s 0x101) 0 0 0x50000).toOption.isSome = true
      ∧ after (exec (.groupCreate 0) (called 0x101 [(10, 0x80000000)])) (fun t => (t.reeve 0).rd 10 == 4) = true
      ∧ after (exec (.groupCreate 0) (s 0x101)) (fun t => (t.reeve 0).rd 10 == 1) = true
      ∧ readGroup good 0 0 0x50000 = .ok words ∧ GoodGroup good 0 words.1 words.2.1 words.2.2
      ∧ groupRoom good (groupFrom 5 0 words) = true ∧ others good 0 = [] ∧ Paid good (.other 0) (groupPlaces good 0 0x50000 words)
      ∧ after (exec (.groupCreate 0) good) (fun t => (t.reeve 0).rd 10 == 0 && t.groups == [group5]) = true
      ∧ after (exec (.groupCreate 0) two) (fun t => (t.reeve 0).rd 10 == 2) = true
      ∧ after (exec (.groupDestroy 0) (s 0x102)) (fun t => (t.reeve 0).rd 10 == 0 && t.groups == []) = true
      ∧ after (exec (.groupDestroy 0) { s 0x102 with groups := [] }) (fun t => (t.reeve 0).rd 10 == 2) = true := by
  unfold Called GoodGroup Paid
  (repeat' apply And.intro) <;> first
    | (intro m hm; obtain rfl : m = (0 : Word) := by simpa using hm
       decide +kernel)
    | decide +kernel
    | exact ok_of_toOption (by decide +kernel)

theorem test_witness_groupRounds :
    let g : Group := { group5 with members := [{ leaf := 0, node := 0 }, { leaf := 0, node := 1 }] }
    let k (r code : Nat) : Call :=
      { core := 0, part := 0, tag := 7, kind := .create g, waiting := [], sent := 0, dead := 0, code := code, round := r, insts := [] }
    let s (n : Nat) := { called n [(10, 0x50000), (11, 5)] with parts := [(0, { part0 with pmem := 3 })], groups := [g] }
    let c (r code : Nat) : State := { s 0x101 with calls := [k r code], barred := [5] }
    let took (is : List Nat) : State := { s 0x101 with calls := [{ k 0 2 with insts := is }] }
    let far : State := { s 0x101 with mem := memPut pages 0x50000 described, groups := [] }
    let full : State := { far with groups := List.replicate 256 { g with id := 9 } }
    let words : List Word × List Word × List Word := ([0x200020140, 100, 0, 0, 0, 0x40, 0x50, 0], [0, 0], [0xFFFF00020000, 0])
    others (c 0 0) 0 = [1] ∧ Answered (c 0 0) 0 (k 0 0) ∧ Called (c 0 0) 0 0x101
      ∧ GoodGroup far 0 words.1 words.2.1 words.2.2 ∧ groupRoom full (groupFrom 5 0 words) = false ∧ groupRoom far (groupFrom 5 0 words) = true
      ∧ Paid far (.other 0) (groupPlaces far 0 0x50000 words) ∧ Paid full (.other 0) (groupPlaces full 0 0x50000 words)
      ∧ after (exec (.groupCreate 0) far) (fun t => t.barred == [5] && t.calls.map (·.insts) == [[0]] && t.calls.map (·.waiting) == [[1]]
          && t.groups.map (·.id) == [5]) = true
      ∧ after (exec (.groupCreate 0) full) (fun t => t.calls.map (·.code) == [3] && t.calls.map (·.insts) == [[]] && t.groups == full.groups) = true
      ∧ after (exec (.groupCreate 0) (took [0, 1])) (fun t => t.outq == [(1, .groupDrop Config.node 7 0 5)] && t.groups == []) = true
      ∧ after (exec (.groupCreate 0) (took [1])) (fun t => t.outq == [(1, .groupDrop Config.node 7 0 5)] && t.groups == [g]) = true
      ∧ after (exec (.groupCreate 0) (c 0 0)) (fun t => t.outq == [(1, .groupOpen Config.node 7 0 5)]) = true
      ∧ after (exec (.groupCreate 0) (c 1 0)) (fun t => (t.reeve 0).rd 10 == 0 && t.groups == [g] && t.barred == []) = true
      ∧ after (exec (.groupCreate 0) { c 2 3 with groups := [] }) (fun t => (t.reeve 0).rd 10 == 3 && t.groups == []) = true
      ∧ (s 0x102).group 0 5 = some g ∧ after (exec (.groupDestroy 0) (s 0x102)) (fun t => t.groups == [g] && t.barred == [5]
          && t.outq == t.calls.map fun k => (1, .groupEnd Config.node k.tag 0 5)) = true := by
  unfold Called Answered GoodGroup Paid
  (repeat' apply And.intro) <;> first
    | (intro m hm; obtain rfl : m = (0 : Word) := by simpa using hm
       decide +kernel)
    | decide +kernel

theorem test_witness_attestations :
    let s := called 0x103 [(10, 0x80000000), (12, 1), (13, 0x50000)]
    let t := called 0x103 [(10, 0x50000), (12, 257), (13, 0x50000)]
    let u (s : State) : State := { s with parts := [(0, { part0 with manb := 0x60001, next := 1 })] }
    let waits (busy : Bool) : State :=
      { t with calls := [{ core := 0, part := 0, tag := 0, kind := .attest, waiting := [], sent := 0, dead := 0, code := 1, round := 0, insts := [9] }]
               outs := if busy then [{ tag := 9, who := .unit 0, node := 1, part := 0, addr := 0, write := true, sent := 0 }] else [] }
    Called s 0 0x103 ∧ unreadable (readArea s 0 0 0x80000000 32) = true ∧ readArea t 0 0 0x50000 32 = .ok (List.replicate 32 0)
      ∧ after (exec (.attestation 0) s) (fun t => (t.reeve 0).rd 10 == 1) = true
      ∧ after (exec (.attestation 0) t) (fun t => (t.reeve 0).rd 10 == 1) = true
      ∧ (∃ pas, locateIn t 0 0x50000 2820 .store = .ok (dramLocs pas)) ∧ ¬ InRing t 0 0 1
      ∧ (∀ o ∈ (u t).outs, o.tag < (u t).nextTag)
      ∧ (∃ pas, Paid (u t) (.other 0) (attestPlaces (u t) 0 0x50000 0 1 ++ dramLocs pas) ∧ locateIn (u t) 0 0x50000 2820 .store = .ok (dramLocs pas))
      ∧ after (exec (.attestation 0) (waits true)) (fun x => x == waits true) = true
      ∧ after (exec (.attestation 0) (waits false)) (fun x => (x.reeve 0).rd 10 == 1 && x.calls == []) = true
      ∧ InRing (u t) 0 0 1 ∧ manifestRecords (u t) 0 0 0 1 = .ok (List.replicate 128 0) ∧ (u t).xmss < 2 ^ 20 := by
  refine ⟨by unfold Called; decide +kernel, by decide +kernel, ok_of_toOption (by decide +kernel), by decide +kernel, by decide +kernel
    , locateIn_dram (by decide +kernel), by unfold InRing; decide +kernel, (fun o h => nomatch h)
    , ⟨(List.range 2820).map (0x50000 + ·), by unfold Paid; decide +kernel, by decide +kernel⟩, by decide +kernel, by decide +kernel
    , by unfold InRing; decide +kernel, ok_of_toOption (by decide +kernel), by decide +kernel⟩

/-! ## Witnesses: operating the device -/

theorem test_witness_controllersAct :
    let c : Ctrl := { Ctrl.empty with kp := 0x100 }
    let hot : Ctrl := { c with hot := true }
    let s (c : Ctrl) (n : Nat) : State := { machine Hand.empty with ctrls := [(16, c)], tick := n, gtick := [(16, n)] }
    4096 ≤ ctrlOut c 0x1D0 ∧ ctrlOut c 0x1F0 ≤ -4096 ∧ ctrlOut c 0x1E0 = 0 ∧ c.bottom ≤ ctrlTop c ∧ c.step + 1 ≤ ctrlTop c
      ∧ ctrlTop { c with fallback := true } = 4 ∧ hot.hot = true
      ∧ after (exec (.controllerUpdate 16 0x1D0) (s c 0)) (fun t => (t.ctrl 16).step == 9) = true
      ∧ after (exec (.controllerUpdate 16 0x1F0) (s c 0)) (fun t => (t.ctrl 16).step == 7) = true
      ∧ after (exec (.controllerUpdate 16 0x1E0) (s c 0)) (fun t => (t.ctrl 16).step == 8) = true
      ∧ after (exec (.controllerUpdate 16 0x1D0) (s hot 0)) (fun t => (t.ctrl 16).step == 7) = true
      ∧ after (exec (.thermalThrottle 16 100) (s c 0)) (fun t => (t.ctrl 16).hot && t.box.map (·.event) == [7]) = true
      ∧ after (exec (.thermalThrottle 16 94) (s hot 0)) (fun t => !(t.ctrl 16).hot) = true
      ∧ after (exec (.thermalThrottle 16 95) (s hot 0)) (fun t => (t.ctrl 16).hot) = true
      ∧ after (exec (.thermalShutdown 110) (s c 0)) (fun t => t.shutdown) = true
      ∧ after (exec (.thermalShutdown 109) (s c 0)) (fun t => !t.shutdown) = true
      ∧ after (exec (.fallbackEntry 16) (s c 100000)) (fun t => (t.ctrl 16).fallback && (t.ctrl 16).step == 4) = true
      ∧ after (exec (.fallbackEntry 16) (s c 99999)) (fun t => !(t.ctrl 16).fallback) = true
      ∧ after (exec (.powerClamp 1401) (s c 5)) (fun t => t.clamp == some 5) = true
      ∧ after (exec (.powerClamp 1300) { s c 9 with clamp := some 5 }) (fun t => t.clamp == some 9) = true
      ∧ after (exec (.powerClamp 1299) { s c 9 with clamp := some 5 }) (fun t => t.clamp == some 5) = true
      ∧ after (exec .powerClampRelease { s c 1005 with clamp := some 5 }) (fun t => t.clamp == none) = true
      ∧ after (exec .powerClampRelease { s c 1004 with clamp := some 5 }) (fun t => t.clamp == some 5) = true := by
  (repeat' apply And.intro) <;> decide +kernel

theorem test_witness_memoryUpkeep :
    let s := machine Hand.empty
    after (exec (.dramRefresh 15 86) s) (fun t => tabGet 0 t.refresh 15 == 2) = true
      ∧ after (exec (.scrub (.dram 9) true) s) (fun t => t.poison == [9] && t.box.map (·.event) == [0x0C]) = true
      ∧ after (exec (.scrub (.spad 127 9) true) s) (fun t => (t.core 127).spoison == [9]) = true
      ∧ after (exec (.scrub (.acc 127 9) true) s) (fun t => (t.core 127).apoison == [9]) = true
      ∧ after (exec (.scrub (.vreg 0 1023) true) s) (fun t => (t.hand 0).vpoison.length == 32 && (t.hand 0).vpoison.contains 32767) = true
      ∧ after (exec (.scrub (.latch 0 383) true) s) (fun t => (t.hand 0).lpoison.contains 12287) = true
      ∧ after (exec (.scrub (.dline 0 5) true) (s.setCore 0 { CoreSt.empty with dcache := [(5, [])] })) (fun t => (t.core 0).dpoison == [10, 11]) = true
      ∧ after (exec (.scrub (.dline 0 5) true) s) (fun t => t == s) = true
      ∧ after (exec (.scrub (.iblock 0 5) true) (s.setCore 0 { CoreSt.empty with icache := [(5, [])] })) (fun t => (t.core 0).ipoison == [10, 11]) = true
      ∧ after (exec (.calibration 1023) { s with calib := [1023] }) (fun t => t.calib == []) = true
      ∧ after (exec (.handDataCacheEviction 0 5) (s.setCore 0 { CoreSt.empty with dcache := [(5, []), (6, [])] })) (fun t =>
          (t.core 0).dcache == [(6, [])]) = true := by
  (repeat' apply And.intro) <;> decide +kernel

theorem test_witness_coresMigrate :
    let s : State := { machine { runner [] with st := .parked } with spares := [130, 131] }
    130 ∈ s.spares ∧ 129 ∉ s.spares ∧ (s.reeve 0).out = none ∧ (s.reeve 0).unacked = [] ∧ (s.reeve 0).dieWrites = [] ∧ (s.hand 15).st = .off
      ∧ (s.hand 0).storesDone = true ∧ (s.hand 0).underWay = false ∧ (s.reeve 0).migHold = none ∧ (∀ o ∈ s.outs, ¬ countsOn 0 o.who)
      ∧ after (exec (.coreMigrate 0 130) { s with hands := [(0, { s.hand 0 with migHold := some ⟨5, 8, 0x40000000⟩ })] }) (fun t => (t.hand 0).migHold == none) = true
      ∧ after (exec (.coreMigrate 0 130) { s with outs := [{ tag := 1, who := .handStore 15, node := 1, part := 0, addr := 0, write := true, sent := 0 }] })
          (fun t => (t.core 0).phys == 0) = true
      ∧ after (exec (.coreMigrate 0 130) s) (fun t => (t.core 0).phys == 130 && t.spares == [131]) = true
      ∧ after (exec (.coreMigrate 0 130) { machine (runner []) with spares := [130] }) (fun t => (t.hand 0).holdReq == some .steward) = true := by
  (repeat' apply And.intro) <;> first | decide +kernel | exact fun o h => nomatch h

theorem test_witness_resetsAndBoots :
    let s : State := { machine (runner []) with boot := 1, unclean := true, box := [{ tick := 1, source := 0, part := 15, sub := 0, event := 8, detail := 0 }] }
    s.bootHalt = none ∧ s.boot = 1 ∧ s.unclean = true ∧ ({ s with boot := 5 } : State).boot > 4
      ∧ after (exec .deviceReset { s with shutdown := true, boot := 5 }) (fun t => t.hands == [] && t.boot == 1 && t.box == s.box && !t.shutdown) = true
      ∧ after (exec (.bootStage true) s) (fun t => t.boot == 2 && t.flash == s.box) = true
      ∧ after (exec (.partitionLoad 15 0x20000 8) { s with boot := 3 }) (fun t => (t.part 15).pimg != 0) = true
      ∧ after (exec (.partitionLoad 15 0x20000 8) { s with boot := 2 }) (fun t => t == { s with boot := 2 }) = true
      ∧ after (exec (.partitionLoad 15 0x20000 8) { s with boot := 3, bootHalt := some 3 }) (fun t => (t.part 15).pimg == 0) = true
      ∧ after (exec (.bootStage false) { s with unclean := false, boot := 4 }) (fun t => t.boot == 4 && t.bootHalt == some 4) = true := by
  (repeat' apply And.intro) <;> decide +kernel

theorem test_witness_debugRequests :
    let d : Reeve := { ku.rv with debug := true }
    let kd (x : Reeve) : State := { ku with reeves := [(0, x)], curReeve := 0 }
    ReeveUp ku 0 ∧ ReeveUp { ku with boot := 1 } 128 ∧ ReeveUp { ku with boot := 3 } 129 ∧ (ku.reeve 0).debug = false ∧ (ku.reeve 0).out = none ∧ (0 : Nat) < 132
      ∧ after (exec (.jtagDebugRequest 0 .halt) ku) (fun t => (t.reeve 0).debug && (t.reeve 0).csrOf 0x7B0 == 0xC0) = true
      ∧ after (exec (.jtagDebugRequest 0 (.readGpr 1)) (kd d)) (fun t => t.hostRead == some 0x20000) = true
      ∧ after (exec (.jtagDebugRequest 0 (.readCsr 0x7B1)) (kd { d with dpc := 6 })) (fun t => t.hostRead == some 6) = true
      ∧ after (exec (.jtagDebugRequest 0 (.writeGpr 1 5)) ku) (fun t => (t.reeve 0).rd 1 == 0x20000) = true
      ∧ rvLocate (kd { d with mode := .m }) 0 0x20000 (2 ^ (1#2).toNat) .load false = .ok (dramLocs [0x20000, 0x20001])
      ∧ DramClean (kd { d with mode := .m }) [0x20000, 0x20001]
      ∧ after (exec (.jtagDebugRequest 0 (.writeMem 0x20000 1 0x1234)) (kd { d with mode := .m })) (fun t =>
          memBytes t.mem 0x20000 2 == [0x34, 0x12]) = true
      ∧ after (exec (.jtagDebugRequest 0 .resume) (kd (d.setCsr 0x7B0 7))) (fun t => (t.reeve 0).due == .stepArmed) = true
      ∧ ((ku.rv.setCsr 0x7B0 0x1000).csrOf 0x7B0).getLsbD (debugBit (ku.rv.setCsr 0x7B0 0x1000).mode) = true
      ∧ ({ kd { ku.rv with due := .stepping } with agenda := [.reeve 0] } : State).shutdown = false
      ∧ (ku.reeve 0).kwaiting = false ∧ (ku.reeve 0).dbuf = none ∧ (ku.reeve 0).ibuf = none ∧ (ku.reeve 0).migHold = none
      ∧ (passTime ({ ku with reeves := [(0, d)] } : State)).reeve 0 = d := by
  unfold DramClean ReeveUp; (repeat' apply And.intro) <;> decide +kernel

/-! ## Witnesses: the machine as a whole -/

/-- Hand 0 moves next, with `addi s5, s0, 7` at its program counter, or with bytes that decode to nothing. -/
def next0 (bs : List Byte) : State :=
  { machine { runner [] with cur := some { base := 0x10000, bytes := bs ++ List.replicate 60 0, failed := none } } with
    agenda := [.hand 0] }

theorem test_witness_stepRuns :
    let b (bs : List Byte) : Buf := { base := 0x10000, bytes := bs ++ List.replicate 60 0, failed := none }
    let w := leBytes 4 (fmtI 7 0 0 5 0x02)
    (next0 w).shutdown = false ∧ Runs (next0 w) 0 (b w) ∧ decodeHand (b w).bytes = some (.addi 5 0 7, 4)
      ∧ Runs (next0 [0, 0]) 0 (b [0, 0]) ∧ decodeHand (b [0, 0]).bytes = none
      ∧ (ku.reeve 0).frozen = false ∧ (ku.reeve 0).halted = false ∧ (ku.reeve 0).due = .none ∧ rvPending (ku.reeve 0) = none
      ∧ ReeveUp ku 0 ∧ ¬ ReeveUp { ku with boot := 3 } 0 ∧ ¬ ReeveUp { ku with bootHalt := some 5 } 0 ∧ (next0 w).hostTorn = []
      ∧ (passTime (next0 w)).hand 0 = (next0 w).hand 0 ∧ isEvent .tokenRefill = true := by
  unfold Runs ReeveUp; (repeat' apply And.intro) <;> decide +kernel
theorem test_witness_nextTurn : nextTurn (next0 []) = .hand 0 := rfl
theorem test_witness_reeveTurn : nextTurn { km with agenda := [.reeve 0] } = .reeve 0
    ∧ (match rvFetch ({ km with curReeve := 0 }.setReeve 0 (km.reeve 0)) with | .ok _ => true | .error _ => false) = true :=
  ⟨rfl, by decide +kernel⟩

theorem test_witness_canonical : Canonical (machine (runner [])) := by
  unfold Canonical Rising; (repeat' apply And.intro) <;> decide +kernel
theorem test_witness_windows : WindowsInGrant (machine (runner [])) ∧ ¬ InGrant { runner [] with accn := 65 } := by
  unfold WindowsInGrant InGrant; (repeat' apply And.intro) <;> decide +kernel
/-- A step from a state of both invariants: an event. -/
theorem test_witness_keeping : let s : State := { machine (runner []) with agenda := [.event (.dramRefresh 15 86)] }
    Canonical s ∧ WindowsInGrant s ∧ ∃ t, step s = .next t := by
  refine ⟨test_witness_canonical, test_witness_windows.1, _, rfl⟩

/-- Well-formed instructions of each encoding, and bytes that decode. -/
theorem test_witness_encoding :
    wellFormed (.cAddi 0 3) = true ∧ encode (.cAddi 0 3) = .half 0x0C0C ∧ wellFormed (.lim 5 7) = true ∧ encode (.lim 5 7) = .word 0xE50D
      ∧ wellFormed (.mlatch 8 1) = true ∧ encode (.mlatch 8 1) = .double 0x040100FD08000003
      ∧ wellFormed (.kbc 15 13 14) = true ∧ encode (.kbc 15 13 14) = .xkry 0x00E6878B
      ∧ decodeHand [0x0C, 0x0C] = some (.cAddi 0 3, 2) := by
  (repeat' apply And.intro) <;> decide +kernel

/-! ## Words of the manual and what they decode to -/

/-- Table 4.22: the words of "A block decoded". -/
theorem test_decode_block :
    decodeTableWord 32 0x0000E50D = some (.lim 5 7) ∧ decodeTableWord 16 0x0C0C = some (.cAddi 0 3)
      ∧ decodeTableWord 16 0x080E = some (.cSlli 2) ∧ decodeTableWord 32 0x0014A605 = some (.add 6 5 5)
      ∧ decodeTableWord 16 0x00A4 = some (.cSub 5) ∧ decodeTableWord 16 0x0C18 = some (.cBnez 0 3)
      ∧ decodeTableWord 16 0x00A2 = some (.cAdd 5) ∧ decodeTableWord 32 0x04000039 = some .stop
      ∧ decodeTableWord 16 0x000C = some (.cAddi 0 0) := by decide +kernel

/-- Tables 3.10, 5.3 and 13.2: scalar, control and fence words. -/
theorem test_decode_scalar :
    decodeTableWord 32 0x381CA605 = some (.divn 6 5 7) ∧ decodeTableWord 32 0xF0004A09 = some (.addi 10 2 (-128))
      ∧ decodeTableWord 32 0x0133380D = some (.lim 24 0x999) ∧ decodeTableWord 32 0xFFFFE511 = some (.lsh 5 0x7FFFF)
      ∧ decodeTableWord 32 0x00894B15 = some (.ldW 11 10 4) ∧ decodeTableWord 32 0x00088B19 = some (.stW 11 4 0)
      ∧ decodeTableWord 32 0x859CA61D = some (.amoAdd 6 5 7 3 1) ∧ decodeTableWord 32 0xFF90C521 = some (.bltn 5 6 (-4))
      ∧ decodeTableWord 32 0x00040125 = some (.jal 1 32) ∧ decodeTableWord 32 0x00002029 = some (.jalr 0 1 0)
      ∧ decodeTableWord 32 0x0070072D = some (.csrr 7 7) ∧ decodeTableWord 32 0x04012031 = some (.setvl 0 9)
      ∧ decodeTableWord 32 0x11800035 = some (.fenceAr 3) ∧ decodeTableWord 32 0x19800635 = some (.lnkGet 6 3)
      ∧ decodeTableWord 32 0x0800A039 = some (.go 5) ∧ decodeTableWord 32 0x000000F9 = some (.hint 0) := by decide +kernel

/-- Tables 7.2 to 7.8: vector words. -/
theorem test_decode_vector :
    decodeTableWord 32 0x40702241 = some (.vaddVi 2 1 (-4) 0 0) ∧ decodeTableWord 32 0xC3886445 = some (.vdivVv 4 3 2 7 0)
      ∧ decodeTableWord 32 0xC0184759 = some (.vcleVs 7 2 6 0 0) ∧ decodeTableWord 32 0x60248861 = some (.vmvSv 8 4 9)
      ∧ decodeTableWord 32 0x20002369 = some (.vredsumT 3 1 0 0 0) ∧ decodeTableWord 32 0x2000276D = some (.vscanAddx 7 1 0 0 0)
      ∧ decodeTableWord 32 0xA000466D = some (.vrowred 6 2 0 0) ∧ decodeTableWord 32 0x01008571 = some (.vcomp 5 4 2)
      ∧ decodeTableWord 32 0x60308A75 = some (.vtopk 10 4 12 0 0) ∧ decodeTableWord 32 0x31A04479 = some (.bfPass 4 2 8 3 4 1)
      ∧ decodeTableWord 32 0x0218A07D = some (.bfLoad 5 6 4) ∧ decodeTableWord 32 0x0800077D = some (.bfStat 7) := by decide +kernel

/-- Fields of majors 0x12 to 0x19, which the manual gives no word for, by Tables 4.9 and 4.16. -/
theorem test_decode_lanes :
    decodeTableWord 32 (fmtV 7 1 0 3 2 1 0x12) = some (.vsaddVv 1 2 3 0 1) ∧ decodeTableWord 32 (fmtV 4 2 5 3 2 1 0x13) = some (.vxorVv 1 2 3 5 2)
      ∧ decodeTableWord 32 (fmtV 7 0 0 31 2 1 0x14) = some (.vsraVi 1 2 31 0 0) ∧ decodeTableWord 32 (fmtV 5 7 7 3 2 1 0x15) = some (.vfnmaVs 1 2 3 7 7)
      ∧ decodeTableWord 32 (fmtV 0 0 6 3 2 1 0x17) = some (.vsel 1 2 3 6) ∧ decodeTableWord 32 (fmtV 6 1 2 0 2 1 0x19) = some (.vtanh 1 2 2 1) := by
  decide +kernel

/-- Tables 10.2, 10.3, 10.6 and 15.6: words of the memory majors; Table 11.2: TILE words; Table 3.8. -/
theorem test_decode_memory :
    decodeTableWord 32 0x08008181 = some (.vld 1 4 0 2) ∧ decodeTableWord 32 0x4C08A681 = some (.vldx 6 5 2 0 3)
      ∧ decodeTableWord 32 0x68888385 = some (.vstxUn 3 4 2 1 2) ∧ decodeTableWord 32 0xCD888585 = some (.vsc 5 4 2 3 3)
      ∧ decodeTableWord 32 0x0C08C489 = some (.vamoAdd 4 6 2 0 3) ∧ decodeTableWord 32 0x082D468D = some (.vcopy 6 10 11 0 2)
      ∧ decodeTableWord 32 0x2824E88D = some (.vwait 8 7 9 0 2) ∧ decodeTableWord 32 0x8008A08D = some (.vqset 5 2)
      ∧ decodeTableWord 32 0x081CC491 = some (.wred 4 6 7 2) ∧ decodeTableWord 32 0x2000C891 = some (.wfin 8 6 0)
      ∧ decodeTableWord 64 0x040100FD08000003 = some (.mlatch 8 1)
      ∧ decodeTableWord 64 0x180004FD00800903 = some (.mst 9 0 1 4)
      ∧ decodeTableWord 64 0x000002FD08800003 = some (.mma 0 0 1 1 0 2 0)
      ∧ decodeTableWord 32 0x00E6878B = some (.kbc 15 13 14) := by decide +kernel

/-- The RISC-V instructions of a reeve (R45). -/
theorem test_decode_reeve :
    (decodeReeve 0x00000013).1 = .reeveInstruction (.opImm .add 0 0 0) false
      ∧ (decodeReeve 0x00000073).1 = .reeveInstruction .ecall false ∧ (decodeReeve (fmtX 5 0 0 7 0)).1 = .reeveInstruction .illegal false := by
  decide +kernel

/-- Table 4.19: what no instruction owns. -/
theorem test_decode_refuses :
    decodeTableWord 32 (fmtA 0 0 0 0 0 0x25) = none ∧ decodeTableWord 32 (fmtV 7 0 0 0 0 0 0x1B) = none
      ∧ decodeTableWord 32 (fmtA 2 5 0 0 0 0x0D) = none ∧ decodeTableWord 32 (fmtC 0x017 0 0 5 0x0B) = none
      ∧ decodeTableWord 16 (fmtCc 1 5 1) = none ∧ decodeTableWord 64 0x000002FDC1808903 = none ∧ decodeTableWord 64 0x001C02FD01808903 = none
      ∧ decodeTableWord 64 0x000002FD01808907 = none := by decide +kernel

/-! ## Ill-formed terms -/

theorem test_ill_scope : wellFormed (.fenceAcq 5) = false := by decide +kernel
theorem test_ill_amo_scope : wellFormed (.amoAdd 1 2 3 7 0) = false := by decide +kernel
theorem test_ill_width : wellFormed (.vld 1 2 0 4) = false := by decide +kernel
theorem test_ill_stream : wellFormed (.vqset 1 8) = false := by decide +kernel
theorem test_ill_csr : wellFormed (.csrr 1 0x017) = false := by decide +kernel
theorem test_ill_mask : wellFormed (.vsel 1 2 3 0) = false := by decide +kernel

end Sys2Proof.Tests
end

section
/-!
PROOFS. O20: what `kstat`, `kevt`, `kread` and `kwrite` do with the hands of the running reeve (R58, R59, R65), the rules about an Xkry
instruction's end, the reeve's trap, the hands that a mask names and the hand CSRs as a reeve writes them.
-/

namespace Sys2Proof.Proofs

open Sys2Proof Sys2Proof.Machine Sys2Proof.Spec

/-! ## CSR fields of a reeve -/

@[simp] theorem getLsbD_setBit (w : Word) (n i : Nat) (b : Bool) :
    (setBit w n b).getLsbD i = if i = n then decide (i < 64) && b else w.getLsbD i := by
  have bit : (1#64 <<< n).getLsbD i = (decide (i < 64) && decide (i = n)) := by
    rw [← BitVec.twoPow_eq, BitVec.getLsbD_twoPow]
    grind
  by_cases hi : i < 64
  · cases b
    · rw [setBit, if_neg Bool.false_ne_true, BitVec.getLsbD_and, BitVec.getLsbD_not, bit]
      split
      · next e => simp [e ▸ hi, e]
      · next e => simp [hi, e]
    · rw [setBit, if_pos rfl, BitVec.getLsbD_or, bit]
      split
      · next e => simp [e ▸ hi, e]
      · next e => simp [hi, e]
  · simp [BitVec.getLsbD_of_ge _ i (Nat.le_of_not_lt hi), hi]

@[simp] theorem getLsbD_maskIn (mask old new : Word) (i : Nat) :
    (maskIn mask old new).getLsbD i = if mask.getLsbD i then new.getLsbD i else old.getLsbD i := by
  by_cases hi : i < 64
  · rw [maskIn, BitVec.getLsbD_or, BitVec.getLsbD_and, BitVec.getLsbD_and, BitVec.getLsbD_not]
    cases mask.getLsbD i <;> simp [hi]
  · simp [BitVec.getLsbD_of_ge _ i (Nat.le_of_not_lt hi)]

/-- MPP of a status into which a mode has been written (log 5). -/
theorem mpp_maskIn (w : Word) (y : Mode) : fld (maskIn 0x1800 w (nat64 (y.code * 2048))) 12 11 = y.code := by
  have same : (maskIn 0x1800 w (nat64 (y.code * 2048))).extractLsb 12 11 = (nat64 (y.code * 2048)).extractLsb 12 11 := by
    refine BitVec.eq_of_getLsbD_eq fun i hi => ?_
    rw [BitVec.getLsbD_extractLsb, BitVec.getLsbD_extractLsb, getLsbD_maskIn]
    obtain rfl | rfl : i = 0 ∨ i = 1 := by omega
    · rfl
    · rfl
  calc fld (maskIn 0x1800 w (nat64 (y.code * 2048))) 12 11
      = ((maskIn 0x1800 w (nat64 (y.code * 2048))).extractLsb 12 11).toNat := (BitVec.extractLsb_toNat ..).symm
    _ = ((nat64 (y.code * 2048)).extractLsb 12 11).toNat := by rw [same]
    _ = y.code := by cases y <;> rfl

/-! ## The trap of a reeve -/

/-- A page that faulted changes only what the reeve keeps of translations (R218). -/
theorem forget_eq (r : Reeve) (code : Nat) (va : Word) : ∃ tlb walks, r.forget code va = { r with tlb := tlb, walks := walks } := by
  unfold Reeve.forget Reeve.willWalk
  split
  · split <;> exact ⟨_, _, rfl⟩
  · exact ⟨_, _, rfl⟩

/-- What a trap reads of the reeve and what it keeps of it stands when a page is forgotten. -/
theorem forget_keeps (r : Reeve) (code : Nat) (va : Word) :
    let q := r.forget code va
    q.csr = r.csr ∧ q.mode = r.mode ∧ q.pc = r.pc ∧ q.x = r.x ∧ q.hpend = r.hpend ∧ q.hsig = r.hsig ∧ q.hfarm = r.hfarm
      ∧ q.hmask = r.hmask ∧ q.serving = r.serving := by
  obtain ⟨tlb, walks, e⟩ := forget_eq r code va
  rw [e]
  exact ⟨rfl, rfl, rfl, rfl, rfl, rfl, rfl, rfl, rfl⟩

/-- Without an interrupt a handler begins at the vector's base. -/
@[simp] theorem trapPc_exception (tvec : Word) (code : Nat) : trapPc tvec false code = tvec &&& ~~~3#64 := by
  simp [trapPc]

/-- An exception traps the running reeve and touches nothing else. -/
theorem rvTrap_trapped (s : State) (code : Nat) (tval : Word) : Trapped s (rvTrap s code tval) s.curReeve code tval := by
  obtain ⟨hcsr, hmode, hpc, hx, hpend, hsig, hfarm, hmask, hserving⟩ := forget_keeps (s.reeve s.curReeve) code tval
  have others : ∀ x k, k ≠ s.curReeve → (s.setReeve s.curReeve x).reeve k = s.reeve k :=
    fun x k hk => State.reeve_setReeve_ne s _ k x hk
  unfold rvTrap rvEnter
  simp only [Bool.false_eq_true, if_false]
  generalize (s.reeve s.curReeve).forget code tval = q at hcsr hmode hpc hx hpend hsig hfarm hmask hserving ⊢
  have hof : ∀ n, q.csrOf n = (s.reeve s.curReeve).csrOf n := fun n => by rw [Reeve.csrOf, hcsr, Reeve.csrOf]
  simp only [hof, hmode, hpc]
  split
  · next delegated =>
    obtain ⟨hm, hd⟩ := delegated
    refine ⟨fun _ => ?_, fun up => ?_, ?_⟩
    · simp [Reeve.csrOf, Reeve.setCsr, tabGet_tabSet, nat64, -BitVec.getLsbD_eq_getElem]
    · simp [hm, hd] at up
    · rw [State.reeve_setReeve_same]
      exact ⟨hx, hpend, hsig, hfarm, hmask, hserving, rfl, rfl, rfl, rfl, others _⟩
  · next machine =>
    refine ⟨fun down => absurd (by simpa using down) machine, fun _ => ?_, ?_⟩
    · simp only [State.reeve_setReeve_same, trapPc_exception, Reeve.csrOf, Reeve.setCsr, tabGet_tabSet, Nat.reduceEqDiff,
        if_true, if_false, true_and]
      refine ⟨BitVec.or_zero, (mpp_maskIn _ _).trans ?_, ?_, ?_⟩
      · cases (s.reeve s.curReeve).mode <;> rfl
      · simp [-BitVec.getLsbD_eq_getElem]
      · simp [-BitVec.getLsbD_eq_getElem]
    · rw [State.reeve_setReeve_same]
      exact ⟨hx, hpend, hsig, hfarm, hmask, hserving, rfl, rfl, rfl, rfl, others _⟩

/-! ## The end of an Xkry instruction -/

/-- An Xkry instruction of a reeve that is not frozen ends by giving X[d] and going on. -/
theorem kDone_eq {s : State} (d : Reg) (v : Word) (hf : s.rv.frozen = false) :
    kDone s d v = s.setReeve s.curReeve (kAfter s d v) := by
  have hf' : (s.reeve s.curReeve).frozen = false := hf
  have pc : (s.rv.wr d v).pc = s.rv.pc := by unfold Reeve.wr; split <;> rfl
  unfold kDone rvSet rvNext rvNextOf kAfter
  rw [hf', if_neg Bool.false_ne_true, ← pc]
  rfl

/-- With hands changed before its end, it leaves the same reeve. -/
theorem kDone_setHand {s : State} (h : Nat) (x : Hand) (d : Reg) (v : Word) (hf : s.rv.frozen = false) :
    kDone (s.setHand h x) d v = (s.setHand h x).setReeve s.curReeve (kAfter s d v) := kDone_eq (s := s.setHand h x) d v hf

/-! ## The hands that a mask names -/

/-- A hand of the farm is seen as it is, any other as Off (R58). -/
theorem seenState_eq (s : State) (k : Nat) :
    seenState s s.curReeve k = if mine s k then (s.hand (s.curReeve * 16 + k)).st else .off := rfl

/-- What `kstat` reads (R58). -/
theorem kstatWord_eq (s : State) : kstatWord s s.curReeve = states s := by
  unfold kstatWord states
  congr 2
  funext v k
  rw [seenState_eq]
  split
  · rfl
  · rfl

/-- The named hands of which a condition on their states holds. -/
theorem maskHands_filter_seen (s : State) (w : Word) (p : HState → Bool) :
    ((maskHands s s.curReeve w).filter fun k => p (seenState s s.curReeve k)) = picked s w fun x => p x.st := by
  unfold maskHands picked
  rw [List.filter_filter]
  refine List.filter_congr fun k _ => ?_
  change (p (seenState s s.curReeve k) && (w.getLsbD k && mine s k)) = _
  rw [seenState_eq, Bool.and_comm]
  cases mine s k
  · simp
  · rfl

/-- A hand is reached as R59 asks. -/
theorem reachable_iff (s : State) (k : Nat) : reachable s s.curReeve k = true ↔ Reachable s k := by
  unfold reachable Reachable
  rw [seenState_eq, decide_eq_true_iff]
  cases mine s k
  · simp
  · simp

/-- The picked hands are hands of one core, each named once. -/
theorem picked_nodup (s : State) (w : Word) (p : Hand → Bool) : (picked s w p).Nodup := List.nodup_range.filter _

theorem lt_of_mem_picked {s : State} {w : Word} {p : Hand → Bool} {k : Nat} (h : k ∈ picked s w p) : k < 16 :=
  List.mem_range.1 (List.mem_filter.1 h).1

/-! ## Hands of one core changed -/

/-- Changing hands changes nothing else. -/
theorem updHands_eq (s : State) (c : Nat) (ks : List Nat) (f : Hand → Hand) : ∃ hs, updHands s c ks f = { s with hands := hs } := by
  unfold updHands
  induction ks generalizing s with
  | nil => exact ⟨s.hands, rfl⟩
  | cons k ks ih =>
    obtain ⟨hs, e⟩ := ih (s.setHand (c * 16 + k) (f (s.hand (c * 16 + k))))
    exact ⟨hs, e⟩

/-- Hands ks of core c are changed by f, each once, and no other hand. -/
theorem hand_updHands {s : State} {c : Nat} {ks : List Nat} (f : Hand → Hand) (once : ks.Nodup) (small : ∀ k ∈ ks, k < 16) (h : Nat) :
    (updHands s c ks f).hand h = if h / 16 = c ∧ h % 16 ∈ ks then f (s.hand h) else s.hand h := by
  induction ks generalizing s with
  | nil => simp [updHands]
  | cons k ks ih =>
    obtain ⟨fresh, once⟩ := List.nodup_cons.1 once
    have hk : k < 16 := small k List.mem_cons_self
    have step : updHands s c (k :: ks) f = updHands (s.setHand (c * 16 + k) (f (s.hand (c * 16 + k)))) c ks f := rfl
    rw [step, ih once fun j hj => small j (List.mem_cons_of_mem _ hj)]
    by_cases e : h = c * 16 + k
    · have hc : h / 16 = c := by omega
      have hm : h % 16 = k := by omega
      rw [hm, if_neg fun both => fresh both.2, if_pos ⟨hc, List.mem_cons_self⟩, e, State.hand_setHand_same]
    · have other : h / 16 = c → h % 16 ≠ k := fun hc hm => e (by omega)
      rw [State.hand_setHand_ne _ _ _ _ e]
      have same : (h / 16 = c ∧ h % 16 ∈ ks) ↔ (h / 16 = c ∧ h % 16 ∈ k :: ks) :=
        and_congr_right fun hc => by rw [List.mem_cons, or_iff_right (other hc)]
      simp only [same]

/-- An instruction that changes hands of the reeve's core and ends leaves them changed, and memory as it was. -/
theorem kDone_updHands {s : State} {ks : List Nat} (f : Hand → Hand) (d : Reg) (v : Word) (hf : s.rv.frozen = false)
    (once : ks.Nodup) (small : ∀ k ∈ ks, k < 16) :
    let t := kDone (updHands s s.curReeve ks f) d v
    t.rv = kAfter s d v ∧ t.mem = s.mem ∧ HandsBy s t ks f := by
  intro t
  have hands := hand_updHands (s := s) (c := s.curReeve) f once small
  obtain ⟨hs, e⟩ := updHands_eq s s.curReeve ks f
  have ended : t = { s with hands := hs }.setReeve s.curReeve (kAfter s d v) := by
    change kDone (updHands s s.curReeve ks f) d v = _
    rw [e]
    exact kDone_eq d v hf
  rw [e] at hands
  rw [ended]
  exact ⟨State.reeve_setReeve_same _ _ _, rfl, hands⟩

/-! ## Selectors (Table 3.9) and hand CSRs (Table 4.17) -/

/-- The selector fields are those of Table 3.9. -/
theorem selectorOf_eq (w : Word) : selectorOf w = selector w := by
  have high : fld w 63 20 = w.toNat / 2 ^ 20 := by
    have := w.isLt
    rw [fld, Nat.shiftRight_eq_div_pow]
    omega
  have zero : fld w 15 14 = w.toNat / 2 ^ 14 % 4 := by simp [fld, Nat.shiftRight_eq_div_pow]
  have cls : fld w 13 12 = w.toNat / 4096 % 4 := by simp [fld, Nat.shiftRight_eq_div_pow]
  have hand : fld w 19 16 = w.toNat / 2 ^ 16 % 16 := by simp [fld, Nat.shiftRight_eq_div_pow]
  have num : fld w 11 0 = w.toNat % 4096 := by simp [fld]
  unfold selectorOf selector
  rw [high, zero, cls, hand, num]

/-- A value under a condition: that it is given says that the condition holds. -/
theorem exists_guard_iff {α : Type} (x y : α) (q : Prop) : (∃ p, some (x, q) = some (y, p) ∧ p) ↔ x = y ∧ q :=
  ⟨fun ⟨_, e, hp⟩ => by cases e; exact ⟨rfl, hp⟩, fun ⟨e, hq⟩ => ⟨q, by rw [e], hq⟩⟩

/-- The model's check of a tile is R89's. -/
theorem ifTile_eq_some_iff (x y : Hand) : ifTile x = some y ↔ x = y ∧ LegalTile x := by
  have rows : vlrowOf x.vtype = rowSlots x.vtype := by simp [vlrowOf, sewOf, rowSlots, fld]
  have most : rmaxOf x.vtype = rowsMost x.vtype := by simp [rmaxOf, grpOf, rowsMost, fld, Nat.shiftRight_eq_div_pow]
  have ok : tileOk x.vtype x.vl x.rc x.vt = true ↔ LegalTile x := by
    simp [tileOk, LegalTile, rows, most, and_assoc]
  simp [ifTile, ok, and_comm]

/-- The model's check of the windows is R90's. -/
theorem ifWindows_eq_some_iff (x y : Hand) : ifWindows x = some y ↔ x = y ∧ InsideGrant x := by
  have ok : windowsOk x = true ↔ InsideGrant x := by simp [windowsOk, InsideGrant, and_assoc]
  simp [ifWindows, ok, and_comm]

/-- A hand CSR is written where Table 4.17 lets it be, and with its value there (R88 to R92). -/
theorem csrWrite_eq_some_iff (x : Hand) (n : Nat) (v : Word) (y : Hand) :
    csrWrite x n v = some y ↔ ∃ p, csrSet x n v = some (y, p) ∧ p := by
  unfold csrWrite csrSet
  split
  case h_16 => simp [*]
  all_goals
    refine Iff.trans ?_ (exists_guard_iff _ _ _).symm
    simp only [ifTile_eq_some_iff, ifWindows_eq_some_iff, Option.some.injEq, and_true]

/-! ## The four instructions -/

theorem exec_kstat (s : State) (d a b : Reg) : exec (.kstat d a b) s = execKstat d a b s := rfl

theorem exec_kevt (s : State) (d a b : Reg) : exec (.kevt d a b) s = execKevt d a b s := rfl

theorem exec_kread (s : State) (d a b : Reg) : exec (.kread d a b) s = execKread d a b s := rfl

theorem exec_kwrite (s : State) (d a b : Reg) : exec (.kwrite d a b) s = execKwrite d a b s := rfl

/-- With every reply of base dies come a release goes on (R278). -/
theorem whenReleased_of_released {s : State} (t : State) (hr : Released s) : whenReleased s t = t := if_pos hr

/-- Without, it changes nothing (R278). -/
theorem whenReleased_of_not {s : State} (t : State) (hr : ¬ Released s) : whenReleased s t = s := if_neg hr

/-- A hand whose return queue has been delivered is looked at as it is. -/
theorem retDelivered_of_empty {s : State} {h : Nat} (hq : (s.hand h).retq = []) : retDelivered s h = s := by
  rw [retDelivered, if_pos hq]

/-- `kstat` gives the sixteen states (R58). -/
theorem kstat_gives_states {s : State} (d a b : Reg) (hf : s.rv.frozen = false) :
    exec (.kstat d a b) s = .next (s.setReeve s.curReeve (kAfter s d (states s))) := by
  rw [exec_kstat, execKstat, kstatWord_eq, kDone_eq d _ hf]

/-- `kevt` waits for the replies of base dies (R65, R278). -/
theorem kevt_waits {s : State} (d a b : Reg) (hr : ¬ Released s) : exec (.kevt d a b) s = .next s := by
  rw [exec_kevt, execKevt]
  exact congrArg _ (whenReleased_of_not _ hr)

/-- `kevt` ORs X[b] into the events of the named hands that are neither Frozen nor Off (R65). -/
theorem kevt_sets_events {s : State} (d a b : Reg) (hf : s.rv.frozen = false) (hr : Released s) :
    let ks := picked s (s.rv.rd a) fun x => decide (x.st ≠ .frozen ∧ x.st ≠ .off)
    ∃ t, exec (.kevt d a b) s = .next t ∧ t.rv = kAfter s d (maskOf ks) ∧ t.mem = s.mem
      ∧ HandsBy s t ks fun x => { x with evt := x.evt ||| s.rv.rd b } := by
  intro ks
  have named : ((maskHands s s.curReeve (s.rv.rd a)).filter fun k =>
      decide (seenState s s.curReeve k ≠ .frozen ∧ seenState s s.curReeve k ≠ .off)) = ks :=
    maskHands_filter_seen s (s.rv.rd a) fun st => decide (st ≠ .frozen ∧ st ≠ .off)
  rw [exec_kevt, execKevt]
  dsimp only
  rw [named, whenReleased_of_released _ hr]
  exact ⟨_, rfl, kDone_updHands _ d _ hf (picked_nodup s _ _) fun k => lt_of_mem_picked⟩

section Reached

variable {s : State} {d a b : Reg} {k n : Nat} {csr : Bool}
  (hsel : selector (s.rv.rd a) = some (k, csr, n)) (hk : Reachable s k)
  (hq : (s.hand (s.curReeve * 16 + k)).retq = [])

include hsel hk hq

/-- `kread` gives the register that the selector names (R59). -/
theorem kread_gives_register (hf : s.rv.frozen = false) :
    exec (.kread d a b) s = .next (s.setReeve s.curReeve (kAfter s d (selRead s (s.curReeve * 16 + k) csr n))) := by
  rw [exec_kread, execKread, selectorOf_eq, hsel]
  dsimp only
  rw [if_pos ((reachable_iff s k).2 hk), retDelivered_of_empty hq, kDone_eq d _ hf]

/-- `kwrite` writes the register where the hand's own write would be performed, and gives the old value (R59). -/
theorem kwrite_writes_register (hf : s.rv.frozen = false) {y : Hand}
    (hw : selWrite (s.hand (s.curReeve * 16 + k)) csr n (s.rv.rd b) = some y) :
    exec (.kwrite d a b) s = .next ((s.setHand (s.curReeve * 16 + k) y).setReeve s.curReeve
      (kAfter s d (selRead s (s.curReeve * 16 + k) csr n))) := by
  rw [exec_kwrite, execKwrite, selectorOf_eq, hsel]
  dsimp only
  rw [if_pos ((reachable_iff s k).2 hk), retDelivered_of_empty hq, hw]
  dsimp only
  rw [kDone_setHand _ _ d _ hf]

/-- `kwrite` of a register that the hand's own write would refuse is an illegal instruction (R59). -/
theorem kwrite_refused (hw : selWrite (s.hand (s.curReeve * 16 + k)) csr n (s.rv.rd b) = none) :
    exec (.kwrite d a b) s = .next (rvTrap s 2 0) := by
  rw [exec_kwrite, execKwrite, selectorOf_eq, hsel]
  dsimp only
  rw [if_pos ((reachable_iff s k).2 hk), retDelivered_of_empty hq, hw]

end Reached

/-- Without a selector, or with one of a hand that the reeve does not reach, `kread` and `kwrite` are illegal instructions (R59). -/
theorem kread_kwrite_unreached {s : State} (d a b : Reg)
    (h : selector (s.rv.rd a) = none ∨ ∃ k csr n, selector (s.rv.rd a) = some (k, csr, n) ∧ ¬ Reachable s k) :
    exec (.kread d a b) s = .next (rvTrap s 2 0) ∧ exec (.kwrite d a b) s = .next (rvTrap s 2 0) := by
  rw [exec_kread, exec_kwrite, execKread, execKwrite, selectorOf_eq]
  obtain hsel | ⟨k, csr, n, hsel, hk⟩ := h
  · rw [hsel]
    exact ⟨rfl, rfl⟩
  · have far : ¬ reachable s s.curReeve k = true := mt (reachable_iff s k).1 hk
    rw [hsel]
    exact ⟨congrArg _ (if_neg far), congrArg _ (if_neg far)⟩

/-- Settles O20: each instruction ends as its rule says, by the lemmas above. -/
theorem handRegisters : Obligations.HandRegisters := by
  unfold Obligations.HandRegisters
  intro s d a b hf
  refine ⟨kstat_gives_states d a b hf, kevt_waits d a b, kevt_sets_events d a b hf, fun k csr n hsel hk hq => ?_, fun hu => ?_⟩
  · refine ⟨kread_gives_register hsel hk hq hf, fun hc => ?_, fun hc y p hy hp => ?_, fun hc refused => ?_⟩
    · subst hc
      exact kwrite_writes_register hsel hk hq hf rfl
    · subst hc
      exact kwrite_writes_register hsel hk hq hf ((csrWrite_eq_some_iff _ _ _ _).2 ⟨p, hy, hp⟩)
    · subst hc
      have none_written : csrWrite (s.hand (s.curReeve * 16 + k)) n (s.rv.rd b) = none :=
        Option.eq_none_iff_forall_ne_some.2 fun y hy =>
          let ⟨p, hset, hp⟩ := (csrWrite_eq_some_iff _ _ _ _).1 hy
          refused y p hset hp
      exact ⟨_, kwrite_refused hsel hk hq none_written, rvTrap_trapped s 2 0⟩
  · obtain ⟨hread, hwrite⟩ := kread_kwrite_unreached d a b hu
    exact ⟨⟨_, hread, rvTrap_trapped s 2 0⟩, _, hwrite, rvTrap_trapped s 2 0⟩

end Sys2Proof.Proofs
end

section
/-!
PROOFS. O1: what the scalar instructions that compute leave in S[d] (R112 to R114, R97), the corners of a division (R113) and the
bits that `clz`, `ctz` and `popc` count (Table 5.4).
-/

namespace Sys2Proof.Proofs

open Sys2Proof Sys2Proof.Machine Sys2Proof.Spec

/-! ## The end of a scalar instruction -/

/-- A hand of which no stop and no hold pends has no hold due. -/
theorem holdDue_of_quiet {s : State} (h : Quiet s) : s.me.holdDue = false := by
  obtain ⟨-, hold, placed⟩ := h
  simp [Hand.holdDue, hold, placed]

/-- A hand with no request goes on as `stepped` says. -/
theorem finish_stepped {s : State} {x : Hand} (len : Nat) (hs : x.stopReq = none) (hh : x.holdDue = false) :
    finish s x len = s.setMe (stepped x len) := finish_quiet len hs hh

/-- A hand with no request takes a scalar result and goes on. -/
theorem writeBack_stepped {s : State} {x : Hand} (d : Reg) (v : Word) (len : Nat) (hs : x.stopReq = none)
    (hh : x.holdDue = false) : writeBack s x d v len = .next (s.setMe (stepped (setReg x d v) len)) :=
  congrArg Host.Outcome.next (finish_stepped len ((wr_stopReq x d v).trans hs) ((wr_holdDue x d v).trans hh))

/-- An instruction that waits for registers and writes v writes w where the two are equal. -/
theorem writeBack_congr {s : State} {rs : List Reg} {x : Hand} {d : Reg} {v w : Word} {len : Nat} (hv : v = w) :
    whenReady s rs (writeBack s x d v len) = whenReady s rs (writeBack s x d w len) := by rw [hv]

/-! ## Values of Table 5.4 -/

theorem minS_eq (x y : Word) : minS x y = if x.toInt < y.toInt then x else y := by simp only [minS, BitVec.slt_iff_toInt_lt]

theorem maxS_eq (x y : Word) : maxS x y = if x.toInt < y.toInt then y else x := by simp only [maxS, BitVec.slt_iff_toInt_lt]

theorem minU_eq (x y : Word) : minU x y = if x.toNat < y.toNat then x else y := by simp only [minU, BitVec.ult_iff_lt, BitVec.lt_def]

theorem maxU_eq (x y : Word) : maxU x y = if x.toNat < y.toNat then y else x := by simp only [maxU, BitVec.ult_iff_lt, BitVec.lt_def]

/-- A shift by an immediate takes all of its six bits. -/
theorem toNat_zext_mod (im : BitVec 6) : (zext im).toNat % 64 = im.toNat := by
  rw [BitVec.toNat_setWidth]
  omega

theorem shl64_zext (x : Word) (im : BitVec 6) : shl64 x (zext im) = x <<< im.toNat := by rw [shl64, toNat_zext_mod]

theorem shr64_zext (x : Word) (im : BitVec 6) : shr64 x (zext im) = x >>> im.toNat := by rw [shr64, toNat_zext_mod]

theorem sar64_zext (x : Word) (im : BitVec 6) : sar64 x (zext im) = x.sshiftRight im.toNat := by rw [sar64, toNat_zext_mod]

/-- `c.mv` is an `or` with s0, which reads 0. -/
theorem or_rd_zero (x : Hand) (w : Word) : w ||| x.rd 0 = w := BitVec.or_zero

/-- An instruction of R112, R114 or R97 waits for the registers it names (s0 may stand among them) and then writes its result. -/
theorem exec_of_scalarOp {s : State} {i : Instr} {r : Scalar} (h : scalarOp s.me i = some r) :
    ∃ rs, (∀ k ∈ rs, k ∈ r.regs ∨ k = 0) ∧ exec i s = whenReady s rs (writeBack s s.me r.d r.v r.len) := by
  cases i with
  | add | sub | and | or | xor | sll | srl | sra | slt | sltn | mul | mulh | mulhn =>
    cases h
    exact ⟨_, fun _ => .inl, rfl⟩
  | min => cases h; exact ⟨_, fun _ => .inl, writeBack_congr (minS_eq _ _)⟩
  | max => cases h; exact ⟨_, fun _ => .inl, writeBack_congr (maxS_eq _ _)⟩
  | minn => cases h; exact ⟨_, fun _ => .inl, writeBack_congr (minU_eq _ _)⟩
  | maxn => cases h; exact ⟨_, fun _ => .inl, writeBack_congr (maxU_eq _ _)⟩
  | addi | andi | ori | xori | slti | lim =>
    cases h
    exact ⟨_, fun _ => .inl, rfl⟩
  | slli => cases h; exact ⟨_, fun _ => .inl, writeBack_congr (shl64_zext _ _)⟩
  | srli => cases h; exact ⟨_, fun _ => .inl, writeBack_congr (shr64_zext _ _)⟩
  | srai => cases h; exact ⟨_, fun _ => .inl, writeBack_congr (sar64_zext _ _)⟩
  | lsh => cases h; exact ⟨_, by simp, rfl⟩
  | cAdd | cSub | cAnd | cOr | cXor =>
    cases h
    exact ⟨_, by simp, rfl⟩
  | cAddi => cases h; exact ⟨_, by simp, rfl⟩
  | cSlli => cases h; exact ⟨_, by simp, writeBack_congr (shl64_zext _ _)⟩
  | cMv => cases h; exact ⟨_, by simp [or_assoc], writeBack_congr (or_rd_zero s.me _)⟩
  | _ => cases h -- no other instruction is one of them

/-- The computing instructions of Table 5.4, R114 and R97 write their results. -/
theorem scalarResults : Spec.ScalarResults := by
  intro s i r h hq hr
  obtain ⟨rs, named, run⟩ := exec_of_scalarOp h
  have ready : ∀ k ∈ rs, s.me.pending k = false := fun k hk =>
    (named k hk).elim (hr k) fun zero => zero ▸ pending_zero s.me
  rw [run, whenReady_of_ready _ ready, writeBack_stepped r.d r.v r.len hq.1 (holdDue_of_quiet hq)]

/-! ## Divisions (R113) -/

/-- A number wrapped to 64 bits is the doubleword of it. -/
theorem ofNat_wrapNat (i : Int) : BitVec.ofNat 64 (wrapNat 64 i) = BitVec.ofInt 64 i := by
  refine BitVec.eq_of_toNat_eq ?_
  rw [BitVec.toNat_ofNat, BitVec.toNat_ofInt, wrapNat]
  omega

/-- The model's division of doublewords, corner by corner. -/
theorem divide_word (signed : Bool) (x y : Word) : divide 64 signed x.toNat y.toNat =
    if y = 0 then (2 ^ 64 - 1, x.toNat, 8)
    else if signed then
      if x = 0x8000000000000000#64 ∧ y = allOnes then (2 ^ 63, 0, 32)
      else (wrapNat 64 (x.toInt.tdiv y.toInt), wrapNat 64 (x.toInt.tmod y.toInt), 0)
    else (x.toNat / y.toNat, x.toNat % y.toNat, 0) := by
  have reads : ∀ w : Word, toSigned 64 w.toNat = w.toInt := fun w => by
    rw [toSigned_eq 64 _ (by decide), BitVec.ofNat_toNat, BitVec.setWidth_eq]
  have zero : y.toNat = 0 ↔ y = 0 := BitVec.toNat_inj (y := 0)
  have least : x.toInt = -(2 : Int) ^ (64 - 1) ↔ x = 0x8000000000000000#64 := BitVec.toInt_inj (y := 0x8000000000000000#64)
  have minusOne : y.toInt = -1 ↔ y = allOnes := BitVec.toInt_inj (y := allOnes)
  simp only [divide, reads, zero, least, minusOne, Nat.mod_eq_of_lt (BitVec.isLt _), flagDZ, flagIV]

/-- The flags of a division are those of R113. -/
theorem divide_flag (signed : Bool) (x y : Word) :
    BitVec.ofNat 64 (divide 64 signed x.toNat y.toNat).2.2 = divisionFlag signed x y := by
  rw [divide_word, divisionFlag]
  by_cases zero : y = 0
  · rw [if_pos zero, if_pos zero]
  · rw [if_neg zero, if_neg zero]
    cases signed with
    | false => rfl
    | true =>
      simp only [if_true, true_and]
      split
      · rfl
      · rfl

/-- The signed quotient is truncated toward zero; a corner of R113 is the overflow, where it wraps to itself. -/
theorem divide_signed_quotient (x y : Word) : BitVec.ofNat 64 (divide 64 true x.toNat y.toNat).1 =
    if y = 0 then allOnes else BitVec.ofInt 64 (x.toInt.tdiv y.toInt) := by
  rw [divide_word]
  by_cases zero : y = 0
  · rw [if_pos zero, if_pos zero]; rfl
  · rw [if_neg zero, if_neg zero, if_pos rfl]
    split
    · next corner => rw [corner.1, corner.2]; rfl
    · exact ofNat_wrapNat _

/-- The signed remainder has the sign of the dividend; it is 0 where the quotient overflows. -/
theorem divide_signed_remainder (x y : Word) : BitVec.ofNat 64 (divide 64 true x.toNat y.toNat).2.1 =
    if y = 0 then x else BitVec.ofInt 64 (x.toInt.tmod y.toInt) := by
  rw [divide_word]
  by_cases zero : y = 0
  · rw [if_pos zero, if_pos zero]; exact BitVec.eq_of_toNat_eq (Nat.mod_eq_of_lt x.isLt)
  · rw [if_neg zero, if_neg zero, if_pos rfl]
    split
    · next corner => rw [corner.1, corner.2]; rfl
    · exact ofNat_wrapNat _

/-- The unsigned quotient. -/
theorem divide_unsigned_quotient (x y : Word) : BitVec.ofNat 64 (divide 64 false x.toNat y.toNat).1 =
    if y = 0 then allOnes else BitVec.ofNat 64 (x.toNat / y.toNat) := by
  rw [divide_word]
  split
  · rfl
  · rfl

/-- The unsigned remainder. -/
theorem divide_unsigned_remainder (x y : Word) : BitVec.ofNat 64 (divide 64 false x.toNat y.toNat).2.1 =
    if y = 0 then x else BitVec.ofNat 64 (x.toNat % y.toNat) := by
  rw [divide_word]
  split
  · exact BitVec.eq_of_toNat_eq (Nat.mod_eq_of_lt x.isLt)
  · rfl

/-- A division waits for its registers, raises its flag and writes its value. -/
theorem aluDiv_eq {signed quotient : Bool} {d a b : Reg} {s : State} {v : Word}
    (hv : BitVec.ofNat 64 (if quotient then (divide 64 signed (s.me.rd a).toNat (s.me.rd b).toNat).1
      else (divide 64 signed (s.me.rd a).toNat (s.me.rd b).toNat).2.1) = v) :
    aluDiv signed quotient d a b s = whenReady s [d, a, b]
      (writeBack s { s.me with fflags := s.me.fflags ||| divisionFlag signed (s.me.rd a) (s.me.rd b) } d v 4) := by
  simp only [aluDiv, hv, Hand.sticky, divide_flag]

/-- Each of the four divisions waits for its registers, raises its flag and writes its value. -/
theorem exec_of_divisionOp {s : State} {i : Instr} {r : Division} (h : divisionOp s.me i = some r) :
    exec i s = whenReady s [r.d, r.a, r.b] (writeBack s { s.me with fflags := s.me.fflags ||| r.flag } r.d r.v 4) := by
  cases i with
  | div => cases h; exact aluDiv_eq (divide_signed_quotient _ _)
  | divn => cases h; exact aluDiv_eq (divide_unsigned_quotient _ _)
  | rem => cases h; exact aluDiv_eq (divide_signed_remainder _ _)
  | remn => cases h; exact aluDiv_eq (divide_unsigned_remainder _ _)
  | _ => cases h

/-- The divisions write their results and raise their flags (R113). -/
theorem divisions : Spec.Divisions := by
  intro s i r h hq hr
  rw [exec_of_divisionOp h, whenReady_of_ready _ hr]
  exact writeBack_stepped r.d r.v 4 hq.1 (holdDue_of_quiet hq)

/-! ## Bit counts (Table 5.4) -/

/-- The zero bits above the highest 1 bit, which stands at log2 x. -/
theorem countsLeading_clz64 (x : Word) : CountsLeading x (clz64 x) := by
  by_cases zero : x = 0
  · exact .inl ⟨zero, by rw [zero]; rfl⟩
  · have hx : x.toNat ≠ 0 := mt (BitVec.eq_of_toNat_eq (y := 0)) zero
    have high : x.toNat.log2 < 64 := (Nat.log2_lt hx).2 x.isLt
    have value : (clz64 x).toNat = 63 - x.toNat.log2 := by
      rw [clz64, leadingZeros, if_neg hx, BitVec.toNat_ofNat]
      omega
    have top : 63 - (63 - x.toNat.log2) = x.toNat.log2 := by omega
    refine .inr ⟨by omega, ?_, fun k hk => ?_⟩
    · rw [value, top, ← BitVec.testBit_toNat]
      exact Nat.testBit_log2 hx
    · rw [value, top] at hk
      rw [← BitVec.testBit_toNat]
      exact Nat.testBit_lt_two_pow (Nat.lt_of_lt_of_le Nat.lt_log2_self (Nat.pow_le_pow_right (by decide) hk))

/-- Of a number of n bits that is not 0, the count of trailing zeros is the place of its lowest 1 bit. -/
theorem trailingZeros_spec {n x : Nat} (hx : x ≠ 0) (hn : x < 2 ^ n) :
    trailingZeros n x < n ∧ x.testBit (trailingZeros n x) = true ∧ ∀ k < trailingZeros n x, x.testBit k = false := by
  induction n generalizing x with
  | zero => omega
  | succ n ih =>
    rw [trailingZeros]
    split
    · next odd => exact ⟨n.succ_pos, by rw [Nat.testBit_zero, decide_eq_true odd], fun k hk => absurd hk k.not_lt_zero⟩
    · next even =>
      obtain ⟨small, one, zeros⟩ := ih (x := x / 2) (by omega) (by omega)
      refine ⟨by omega, by rw [Nat.testBit_succ, one], fun k hk => ?_⟩
      cases k with
      | zero => rw [Nat.testBit_zero, decide_eq_false even]
      | succ k => rw [Nat.testBit_succ, zeros k (by omega)]

/-- The zero bits below the lowest 1 bit. -/
theorem countsTrailing_ctz64 (x : Word) : CountsTrailing x (ctz64 x) := by
  by_cases zero : x = 0
  · exact .inl ⟨zero, by rw [zero]; rfl⟩
  · have hx : x.toNat ≠ 0 := mt (BitVec.eq_of_toNat_eq (y := 0)) zero
    obtain ⟨small, one, zeros⟩ := trailingZeros_spec hx x.isLt
    have value : (ctz64 x).toNat = trailingZeros 64 x.toNat := by
      rw [ctz64, if_neg zero, BitVec.toNat_ofNat]
      omega
    refine .inr ⟨value ▸ small, ?_, fun k hk => ?_⟩
    · rw [value, ← BitVec.testBit_toNat, one]
    · rw [← BitVec.testBit_toNat, zeros k (value ▸ hk)]

/-- The count of ones among n bits. -/
theorem onesCount_eq (n x : Nat) : onesCount n x = (List.range n).countP x.testBit := by
  induction n generalizing x with
  | zero => rfl
  | succ n ih =>
    have shifted : x.testBit ∘ Nat.succ = (x / 2).testBit := funext fun k => Nat.testBit_succ x k
    rw [onesCount, ih, List.range_succ_eq_map, List.countP_cons, List.countP_map, shifted, Nat.testBit_zero, Nat.add_comm]
    congr 1
    simp only [decide_eq_true_eq]
    split <;> omega

/-- The number of 1 bits. -/
theorem toNat_popc64 (x : Word) : (popc64 x).toNat = (List.range 64).countP fun k => x.getLsbD k := by
  have most : onesCount 64 x.toNat ≤ 64 := by
    rw [onesCount_eq]
    exact Nat.le_trans List.countP_le_length (Nat.le_of_eq List.length_range)
  rw [popc64, BitVec.toNat_ofNat, Nat.mod_eq_of_lt (by omega), onesCount_eq]
  exact congrArg (List.countP · _) (funext fun _ => BitVec.testBit_toNat x)

/-- An instruction on S[a] writes what P says of f(S[a]). -/
theorem writes_of_alu1 {s : State} {i : Instr} {d a : Reg} {f : Word → Word} {P : Word → Prop} (hq : Quiet s)
    (hr : Ready s [d, a]) (run : exec i s = alu1 f d a 4 s) (hp : P (f (s.me.rd a))) : Writes s i d P :=
  ⟨_, hp, by rw [run, alu1, whenReady_of_ready _ hr, writeBack_stepped d _ 4 hq.1 (holdDue_of_quiet hq)]⟩

/-- `clz`, `ctz` and `popc` write their counts. -/
theorem bitCounts : Spec.BitCounts := fun _ _ _ hq hr =>
  ⟨writes_of_alu1 hq hr rfl (countsLeading_clz64 _), writes_of_alu1 hq hr rfl (countsTrailing_ctz64 _),
    writes_of_alu1 hq hr rfl (toNat_popc64 _)⟩

/-- Settles O1: the computing instructions, the divisions and the bit counts, by the lemmas above. -/
theorem scalarArithmetic : Obligations.ScalarArithmetic := ⟨scalarResults, divisions, bitCounts⟩

end Sys2Proof.Proofs
end
